-- ==== Sys2Proof/Word.lean ====
section
/-!
DEFINITION. The words of the module: a register element, a byte, a mask of the 32 threads of a warp, a bit string
of an instruction slot, and a cell of memory.
-/
namespace Sys2Proof

/-- One 64-bit element of a row, or one uniform register (R127, R17). -/
abbrev Word := BitVec 64

/-- One byte of memory. -/
abbrev Byte := BitVec 8

/-- One bit for each of the 32 threads of a warp (R17). -/
abbrev Mask := BitVec 32

/-- The 96 bits of an instruction slot (R59). -/
abbrev Slot := BitVec 96

/-- A memory location and the byte it holds. -/
abbrev Cell := Nat × BitVec 8

end Sys2Proof
end

