-- ==== Sys2Proof/Machine/Bits.lean ====
section
/-!
DEFINITION. Bit fields, sign extension and byte order (00 R3): the helpers that the decoder, the encoder and the
meanings share.
-/
namespace Sys2Proof

/-- Bits [lo + n - 1 : lo] of a bit string, as a number. -/
def fieldNat (w : BitVec m) (lo n : Nat) : Nat := (w.toNat >>> lo) % 2 ^ n

/-- Bits [lo + n - 1 : lo] of a bit string. -/
def field (w : BitVec m) (lo n : Nat) : BitVec n := w.extractLsb' lo n

/-- Bit i of a bit string. -/
def bitAt (w : BitVec m) (i : Nat) : Bool := w.getLsbD i

/-- A number of n bits as a word, zero-extended. -/
def word (n : Nat) : Word := BitVec.ofNat 64 n

/-- The 64-bit two's complement of an integer (Trunc64 of R8). -/
def wordInt (n : Int) : Word := BitVec.ofInt 64 n

/-- One bit of a word. -/
def boolWord (b : Bool) : Word := if b then 1 else 0

/-- Bits [63:0] of the low n bits of a word, sign-extended. -/
def sextWord (n : Nat) (w : Word) : Word := (w.setWidth n).signExtend 64

/-- Bits [63:0] of the low n bits of a word, zero-extended. -/
def zextWord (n : Nat) (w : Word) : Word := (w.setWidth n).setWidth 64

/-- The number of set bits of a mask below bit n. -/
def countOnes (w : BitVec m) : Nat := ((List.range m).filter (fun i => w.getLsbD i)).length

/-- The exclusive OR of bits [hi - 1 : lo] of a number. -/
def parityNat (n lo hi : Nat) : Bool :=
  ((List.range (hi - lo)).filter (fun i => n.testBit (lo + i))).length % 2 == 1

/-- The numbers 0 to 31 whose bit of a mask is set, in ascending order. -/
def maskList (m : Mask) : List Nat := (List.range 32).filter (fun t => m.getLsbD t)

/-- The mask of a list of threads. -/
def listMask (l : List Nat) : Mask :=
  l.foldl (fun m t => m ||| (BitVec.ofNat 32 (2 ^ t))) 0

/-- The mask of the threads that satisfy a test. -/
def maskOf (p : Nat → Bool) : Mask := listMask ((List.range 32).filter p)

/-- A word's n low bytes, the byte at the lowest address first (R3). -/
def bytesOfNat : Nat → Nat → List Byte
  | 0, _ => []
  | n + 1, v => BitVec.ofNat 8 (v % 256) :: bytesOfNat n (v / 256)

/-- The number whose little-endian bytes are given (R3). -/
def natOfBytes : List Byte → Nat
  | [] => 0
  | b :: l => b.toNat + 256 * natOfBytes l

/-- The first n bytes of a word. -/
def bytesOfWord (n : Nat) (w : Word) : List Byte := bytesOfNat n w.toNat

/-- The word that up to eight little-endian bytes hold, zero-extended. -/
def wordOfBytes (l : List Byte) : Word := BitVec.ofNat 64 (natOfBytes l)

/-- The field of n bytes at byte offset o of a record, as a number. -/
def recNat (l : List Byte) (o n : Nat) : Nat := natOfBytes ((l.drop o).take n)

/-- The field of up to eight bytes at byte offset o of a record, as a word. -/
def recWord (l : List Byte) (o n : Nat) : Word := BitVec.ofNat 64 (recNat l o n)

/-- Bytes o to o + n - 1 of a record are zero. -/
def recZero (l : List Byte) (o n : Nat) : Bool := ((l.drop o).take n).all (· == 0)

/-- Round a number down to a multiple of k. -/
def roundDownTo (k n : Nat) : Nat := n / k * k

/-- The quotient rounded up. -/
def ceilDiv (a b : Nat) : Nat := (a + b - 1) / b

/-- Element i of a list, or a default. -/
def nth (l : List α) (i : Nat) (d : α) : α := l.getD i d

/-- A list with element i replaced; a number beyond the list changes nothing. -/
def setNth : List α → Nat → α → List α
  | [], _, _ => []
  | _ :: l, 0, b => b :: l
  | a :: l, i + 1, b => a :: setNth l i b

/-- A list with element i changed by a function. -/
def updNth (l : List α) (i : Nat) (g : α → α) : List α :=
  match l[i]? with
  | some a => setNth l i (g a)
  | none => l

/-- A register bank with register i written: a list holds its bank's first registers, and those beyond it hold d. -/
def putNth (d : α) : List α → Nat → α → List α
  | [], 0, b => [b]
  | [], i + 1, b => d :: putNth d [] i b
  | _ :: l, 0, b => b :: l
  | a :: l, i + 1, b => a :: putNth d l i b

/-- A register bank with register i changed by a function. -/
def tweakNth (d : α) (l : List α) (i : Nat) (g : α → α) : List α := putNth d l i (g (nth l i d))

/-- Insert an element before the first one that it does not follow. -/
def insertBy (le : α → α → Bool) (a : α) : List α → List α
  | [] => [a]
  | b :: l => if le a b then a :: b :: l else b :: insertBy le a l

/-- A list in ascending order; elements that tie keep their order. -/
def sortBy (le : α → α → Bool) (l : List α) : List α := l.foldr (insertBy le) []

/-- The value of a key in an association list. -/
def lookupKey [BEq κ] (l : List (κ × α)) (k : κ) : Option α :=
  match l with
  | [] => none
  | (k', a) :: r => if k' == k then some a else lookupKey r k

/-- An association list with a key's value set: the old entry is replaced in place, a new one is put last. -/
def setKey [BEq κ] (l : List (κ × α)) (k : κ) (a : α) : List (κ × α) :=
  match l with
  | [] => [(k, a)]
  | (k', a') :: r => if k' == k then (k, a) :: r else (k', a') :: setKey r k a

/-- An association list without a key. -/
def dropKey [BEq κ] (l : List (κ × α)) (k : κ) : List (κ × α) := l.filter (fun p => !(p.1 == k))

/-- The bytes of a sorted association of offsets and bytes that equals 0 where nothing is listed: a local or
accumulator memory. Writing 0 removes an entry, so that equal memories are equal lists. -/
def sparseGet (l : List Cell) (a : Nat) : Byte :=
  match l with
  | [] => 0
  | (k, b) :: r => if k == a then b else sparseGet r a

/-- A sparse memory without the entries of an address. -/
def sparseDrop (l : List Cell) (a : Nat) : List Cell := l.filter (fun p => p.1 != a)

/-- Set one byte of a sparse memory, keeping it sorted and free of zero entries. -/
def sparseSet (l : List Cell) (a : Nat) (b : Byte) : List Cell :=
  match l with
  | [] => if b == 0 then [] else [(a, b)]
  | (k, c) :: r =>
    if k == a then (if b == 0 then sparseDrop r a else (a, b) :: sparseDrop r a)
    else if k < a then (k, c) :: sparseSet r a b
    else (if b == 0 then (k, c) :: sparseDrop r a else (a, b) :: (k, c) :: sparseDrop r a)

/-- n bytes of a sparse memory from an address. -/
def sparseRead (l : List Cell) (a n : Nat) : List Byte := (List.range n).map (fun i => sparseGet l (a + i))

/-- Write bytes into a sparse memory from an address. -/
def sparseWrite (l : List Cell) (a : Nat) : List Byte → List Cell
  | [] => l
  | b :: r => sparseWrite (sparseSet l a b) (a + 1) r

/-- A sparse memory is in canonical form: its addresses strictly rise, and no entry holds 0. -/
def sparseWf : List Cell → Bool
  | [] => true
  | [(_, b)] => b != 0
  | (k, b) :: (k', b') :: r => b != 0 && decide (k < k') && sparseWf ((k', b') :: r)

end Sys2Proof
end

