-- ==== Sys2Proof/Syntax.lean ====
section
/-!
DEFINITION. The syntax of the module: the fields of the five instruction formats as the decoder reads them (05 R76 to
R90), the descriptions that the steps of the module's other agents carry, and `Instr`, with one constructor for each
row of the table of operations and events.
-/
namespace Sys2Proof

/-- The guard of an instruction (R76): unguarded (GP = 15), or a predicate with its sense (GS). -/
inductive Guard where
  | always
  | pred (p : Fin 12) (neg : Bool)
  deriving DecidableEq, Repr

/-- The flag attachment CF (R67): 00, 01 and 10. -/
inductive Attach where
  | none
  | flagA
  | flagB
  deriving DecidableEq, Repr

/-- The type codes of formats A and E (Table 5.6), in the order 0 to 14. -/
inductive Ty where
  | i8x8 | n8x8 | i16x4 | n16x4 | i32 | n32 | i64 | n64
  | f32 | f64 | f16x4 | bf16x4 | f32x2 | iv32 | iv64
  deriving DecidableEq, Repr

/-- The rounding codes (Table 5.7), in the order 0 to 4. -/
inductive Rm where
  | rn | rz | rd | ru | rna
  deriving DecidableEq, Repr

/-- A source operand (Table 5.5): a vector name, a uniform register, or the field value 255 with kind 1. In formats A
and E that value is the immediate; in format M it is a base of zero or no index (R85). -/
inductive Src where
  | name (n : Fin 128)
  | uni (k : Fin 192)
  | imm
  deriving DecidableEq, Repr

/-- A destination operand (Table 5.5): kind 0 is a vector name, or a predicate number where the entry says so; kind 1
is a uniform register. -/
inductive Dst where
  | name (n : Fin 128)
  | uni (k : Fin 192)
  deriving DecidableEq, Repr

/-- Format A (Table 5.4), but for OP, which the constructor of `Instr` gives. -/
structure FmtA where
  guard : Guard
  cf    : Attach
  ru    : Bool
  dst   : Dst
  sa    : Src
  sb    : Src
  sc    : Src
  ty    : Ty
  fn    : BitVec 4
  rm    : Rm
  nf    : Bool
  imm   : BitVec 32
  deriving DecidableEq, Repr

/-- The access types of format M (Table 5.9), in the order 0 to 14. -/
inductive MTy where
  | n8 | i8 | n16 | i16 | i32 | n32 | i64 | n64 | f16x4 | bf16x4 | f32x2 | i8x8 | i16x4 | iv32 | iv64
  deriving DecidableEq, Repr

/-- The orders of format M (Table 5.8), in the order 0 to 4. -/
inductive Ord where
  | plain | acq | rel | acqRel | sc
  deriving DecidableEq, Repr

/-- The scopes (Table 12.1), in the order 0 to 8. -/
inductive Scope where
  | thread | warp | crew | wg | cluster | die | module | pod | sys
  deriving DecidableEq, Repr

/-- Format M (Table 5.8). -/
structure FmtM where
  guard  : Guard
  cf     : Attach
  ru     : Bool
  dst    : Dst
  base   : Src
  data   : Src
  index  : Src
  ty     : MTy
  ord    : Ord
  scope  : Scope
  st     : Bool
  offset : BitVec 32
  deriving DecidableEq, Repr

/-- The engine queues (Table 5.10, QUEUE 0 to 5). -/
inductive QueueName where
  | mq
  | cq (n : Fin 4)
  | xq
  deriving DecidableEq, Repr

/-- A uniform source of format E (R87): a uniform register, or 255 for the immediate. SC of MMAR is its first name. -/
inductive USrc where
  | uni (k : Fin 192)
  | imm
  deriving DecidableEq, Repr

/-- Format E (Table 5.10). `ru` is the MMAR operand latch; a tag or guard slot is present when TV or GV is set. -/
structure FmtE where
  guard : Guard
  cf    : Attach
  ru    : Bool
  tag   : Option (Fin 64)
  slot  : Option (Fin 16)
  queue : QueueName
  sa    : USrc
  sb    : USrc
  sc    : USrc
  sub   : BitVec 8
  imm   : BitVec 32
  deriving DecidableEq, Repr

/-- What one pair of BRM tests (R89): a predicate with its sense, or every thread (PRED = 15). -/
inductive BTest where
  | pred (p : Fin 12) (neg : Bool)
  | always
  deriving DecidableEq, Repr

/-- One (predicate, target) pair of BRM (R89). -/
structure BPair where
  test   : BTest
  offset : BitVec 16
  deriving DecidableEq, Repr

/-- Format B (Table 5.11): one to four pairs, in the order in which they are tried. -/
structure FmtB where
  p0   : BPair
  more : List BPair
  deriving DecidableEq, Repr

/-- Format H (Table 5.12): flag A and flag B are present when FAV and FBV are set. -/
structure FmtH where
  wait : BitVec 12
  fa   : Option (Fin 12)
  fb   : Option (Fin 12)
  yh   : Bool
  live : BitVec 32
  deriving DecidableEq, Repr

/-- A slot of the extension space (R94): the low digit of OP, the fields checked under format A, and the bits that only
the handler reads. -/
structure FmtX where
  op    : BitVec 4
  guard : Guard
  cf    : Attach
  ru    : Bool
  rest  : BitVec 80
  deriving DecidableEq, Repr

/-! Places of the module that the steps of its agents name. -/

/-- A core: die 0 to 5, core 0 to 47 (R9). -/
structure CoreId where
  die  : Nat
  core : Nat
  deriving DecidableEq, Repr

/-- A slice of a core, 0 to 31 (R9). -/
structure SliceId where
  die   : Nat
  core  : Nat
  slice : Nat
  deriving DecidableEq, Repr

/-- A warp slot of a slice, 0 to 3 (R9). -/
structure Loc where
  die   : Nat
  core  : Nat
  slice : Nat
  slot  : Nat
  deriving DecidableEq, Repr

/-- One run of a warp, or its handler run, at a PC (R98, R366). -/
structure RunRef where
  loc     : Loc
  handler : Bool
  pc      : Word
  deriving DecidableEq, Repr

/-- Where an engine works: at the head of a workgroup's queue (R267), or at the head record of a copy chain that a
command or a bundle runs (R33). -/
inductive EngineRef where
  | queue (unit : Nat) (q : QueueName)
  | chain (id : Nat)
  deriving DecidableEq, Repr

/-- A command queue: a user queue (R20) or the management queue of a partition (R28). -/
inductive QueueRef where
  | user (q : Nat)
  | mgmt (p : Nat)
  deriving DecidableEq, Repr

/-- The fields of a queue table entry that the driver writes (Table 3.1). -/
structure QueueEntry where
  ringBase : BitVec 64
  ringLen  : BitVec 64
  logSlots : BitVec 8
  ctx      : BitVec 16
  prio     : BitVec 3
  home     : BitVec 3
  deriving DecidableEq, Repr

/-- What a fabric request asks of its target (R356, R357). -/
inductive FabricOp where
  | read (len : Nat)
  | write (data : List Byte)
  | atomicAdd (size : Nat) (x : Word)
  | atomicMin (size : Nat) (signed : Bool) (x : Word)
  | atomicMax (size : Nat) (signed : Bool) (x : Word)
  | atomicAnd (size : Nat) (x : Word)
  | atomicOr (size : Nat) (x : Word)
  | atomicXor (size : Nat) (x : Word)
  | atomicExch (size : Nat) (x : Word)
  | atomicFmin (size : Nat) (x : Word)
  | atomicFmax (size : Nat) (x : Word)
  | atomicCas (size : Nat) (cmp new : Word)
  deriving DecidableEq, Repr

/-- A request of a remote module to a frame that this module exports (R357). -/
structure FabricReq where
  src    : BitVec 10
  part   : BitVec 16
  eframe : BitVec 22
  offset : BitVec 16
  op     : FabricOp
  deriving DecidableEq, Repr

/-- A ready message of a member (R346): its operation, format, tile counts and root, or the code of its failed check. -/
structure ReadyMsg where
  rank : Nat
  op   : BitVec 4
  fmt  : BitVec 4
  tsrc : Nat
  tdst : Nat
  root : Nat
  code : Option (BitVec 8)
  deriving DecidableEq, Repr

/-- The outcome that a go message carries (R346). -/
inductive GoOutcome where
  | run
  | faulted (code : BitVec 8)
  deriving DecidableEq, Repr

/-- An assignment at the sequencer (R345, R346, R352): the members whose requests it answered, the ready messages, the members
that have acknowledged its skip, and its outcome once it has started. A started one is kept while it is its key's last. -/
structure Assign where
  slate     : BitVec 32
  key       : BitVec 32
  requests  : List Nat := []
  ready     : List ReadyMsg := []
  acks      : List Nat := []
  cancelled : Bool := false
  outcome   : Option GoOutcome := none
  deriving DecidableEq, Repr

/-- What a member asks of the sequencer: the number of a key (R345), or, after a resumption, every assignment and skip from its NEXT onward
(R354). -/
inductive SlateAsk where
  | key (k : BitVec 32)
  | since (next : Option (BitVec 32))
  deriving DecidableEq, Repr

/-- What passes between the two sequencers of a communicator (R350): a heartbeat is due here, one arrives, the primary's record of an
assignment arrives at the backup, the backup's acknowledgement arrives, or it becomes known that both have failed. -/
inductive SeqMsg where
  | due
  | beat (gen : Nat)
  | replicate (no : Nat) (a : Assign) (gen : Nat)
  | ack (no gen : Nat)
  | lost
  deriving DecidableEq, Repr

/-- What passes between the two sequencers, with their communicator. -/
structure SeqNote where
  comm : Nat
  msg  : SeqMsg
  deriving DecidableEq, Repr

/-- Where an uncorrectable error is (R401): in a block of memory or of a cache, in a program or handler row, or in an 8-byte unit of a core's
local or accumulator memory. -/
inductive ErrPlace where
  | memory (loc : Nat)
  | row (sl : SliceId) (r : Nat)
  | hrow (sl : SliceId) (h : Nat)
  | loc (c : CoreId) (unit : Nat)
  | acc (c : CoreId) (unit : Nat)
  deriving DecidableEq, Repr

/-- An error lies in a row of a slice. -/
def ErrPlace.onSlice (i : SliceId) : ErrPlace → Bool
  | .row j _ | .hrow j _ => j == i
  | _ => false

/-- An error lies in the local or accumulator memory of a core. -/
def ErrPlace.onCore (c : CoreId) : ErrPlace → Bool
  | .loc d _ | .acc d _ => d == c
  | _ => false

/-- A context descriptor (Table 11.2a with its regions: Tables 11.2, 18.1, 22.3, 23.6 and OWNER). -/
structure CtxDesc where
  ptRoot    : BitVec 64
  ttBase    : BitVec 64
  ttCount   : Nat
  rtCount   : Nat
  rtBase    : BitVec 64
  ctBase    : BitVec 64
  ctCount   : Nat
  gtBase    : BitVec 64
  vtBase    : BitVec 64
  logBase   : BitVec 64
  logSlice  : Nat
  spillBase : BitVec 64
  ownerPart : Nat
  ownerVf   : Nat
  deriving DecidableEq, Repr

/-- The host-written fields of a communicator entry (Table 20.1), with its member list in rank order. -/
structure CommDesc where
  ctx     : Nat
  en      : Bool
  n       : Nat
  rank    : Nat
  primary : Nat
  backup  : Option Nat
  members : List Nat
  deriving DecidableEq, Repr

/-- An export table entry (R357). -/
structure ExportEntry where
  frame : BitVec 26
  part  : BitVec 16
  v     : Bool
  w     : Bool
  deriving DecidableEq, Repr

/-- What the driver asks of the management firmware (R225, R235, R341, R357, R383, R402). `fn` is the driver's function. `remoteExport` is the
same request at another module of the pod: this module learns of it only by what its own requests are answered. `enableAts` is the host's write
of a function's ATS capability (R232). -/
inductive FwRequest where
  | writeContext (fn ctx : Nat) (d : CtxDesc)
  | writeCommunicator (comm : Nat) (d : CommDesc)
  | writeExport (eframe : BitVec 22) (e : ExportEntry)
  | remoteExport (modNum : Nat) (eframe : BitVec 22) (e : ExportEntry)
  | reuseQueue (q : Nat)
  | requestShootdown (ctx : Nat) (va len : Word)
  | invalidateCode (ctx : Nat)
  | readChk (ctx : Nat)
  | enableAts (fn : Nat) (on : Bool)
  deriving DecidableEq, Repr

/-- A command slot's header (Table 3.5). -/
structure CmdHdr where
  cmd    : BitVec 8
  fence  : Bool
  evt    : Bool
  cookie : BitVec 32
  deriving DecidableEq, Repr

/-- The operations and events of the module, one constructor for each row of the table, in the table's order. A
constructor that stands for an instruction slot carries the fields of its format; one that stands for a step of another
agent names the agent and what the step acts on. -/
inductive Instr where
  | hdr (f : FmtH)
  | clauseStart (r : RunRef)
  | fairnessYield (w : Loc)
  | instructionFetch (r : RunRef)
  | ext (f : FmtX)
  | nop (f : FmtA)
  | bra (f : FmtA)
  | brm (f : FmtB)
  | call (f : FmtA)
  | ret (f : FmtA)
  | jmpi (f : FmtA)
  | exit (f : FmtA)
  | exitProceed (w : Loc) (pc : Word)
  | warpRetire (w : Loc)
  | yield (f : FmtA)
  | wsync (f : FmtA)
  | wsyncComplete (w : Loc) (pc : Word)
  | elect (f : FmtA)
  | vote (f : FmtA)
  | icmp (f : FmtA)
  | plop (f : FmtA)
  | p2s (f : FmtA)
  | s2p (f : FmtA)
  | brk (f : FmtA)
  | trap (f : FmtA)
  | move (f : FmtA)
  | mapEditWaitEnd (w : Loc) (pc : Word)
  | cpy (f : FmtA)
  | give (f : FmtA)
  | take (f : FmtA)
  | mailboxWaitServed (w : Loc) (pc : Word)
  | aliasName (f : FmtA)
  | unmap (f : FmtA)
  | perm (f : FmtA)
  | swapn (f : FmtA)
  | mapq (f : FmtA)
  | mbxq (f : FmtA)
  | allocationResume (w : Loc) (pc : Word)
  | rowStarvation (sl : SliceId)
  | iadd (f : FmtA)
  | iaddc (f : FmtA)
  | isub (f : FmtA)
  | imul (f : FmtA)
  | imulh (f : FmtA)
  | imad (f : FmtA)
  | idiv (f : FmtA)
  | irem (f : FmtA)
  | imin (f : FmtA)
  | imax (f : FmtA)
  | iabs (f : FmtA)
  | bfn (f : FmtA)
  | shl (f : FmtA)
  | shr (f : FmtA)
  | sar (f : FmtA)
  | rotl (f : FmtA)
  | bfe (f : FmtA)
  | bfi (f : FmtA)
  | popc (f : FmtA)
  | clz (f : FmtA)
  | brev (f : FmtA)
  | sel (f : FmtA)
  | lea (f : FmtA)
  | movi (f : FmtA)
  | vread (f : FmtA)
  | redux (f : FmtA)
  | shfl (f : FmtA)
  | srd (f : FmtA)
  | swr (f : FmtA)
  | fadd (f : FmtA)
  | fsub (f : FmtA)
  | fmul (f : FmtA)
  | ffma (f : FmtA)
  | fdiv (f : FmtA)
  | fsqrt (f : FmtA)
  | frcp (f : FmtA)
  | frsq (f : FmtA)
  | fexp2 (f : FmtA)
  | flog2 (f : FmtA)
  | fsin (f : FmtA)
  | fcos (f : FmtA)
  | fmin (f : FmtA)
  | fmax (f : FmtA)
  | fabs (f : FmtA)
  | fneg (f : FmtA)
  | fcmp (f : FmtA)
  | fclass (f : FmtA)
  | fcvt (f : FmtA)
  | f2i (f : FmtA)
  | i2f (f : FmtA)
  | frnd (f : FmtA)
  | fscale (f : FmtA)
  | fdot (f : FmtA)
  | ivmk (f : FmtA)
  | ivlo (f : FmtA)
  | ivhi (f : FmtA)
  | ivhull (f : FmtA)
  | ivmeet (f : FmtA)
  | ivmid (f : FmtA)
  | ivwid (f : FmtA)
  | ivin (f : FmtA)
  | bisect (f : FmtA)
  | ld (f : FmtM)
  | st (f : FmtM)
  | ldl (f : FmtM)
  | stl (f : FmtM)
  | ldt (f : FmtM)
  | stt (f : FmtM)
  | ldu (f : FmtM)
  | atom (f : FmtM)
  | atomc (f : FmtM)
  | red (f : FmtM)
  | pref (f : FmtM)
  | cctl (f : FmtM)
  | fence (f : FmtM)
  | chkerr (f : FmtA)
  | flagOperationComplete (w : Loc) (op : Nat)
  | loadReturn (w : Loc) (op : Nat)
  | fabricRequest (r : FabricReq)
  | requestUndeliverable (id : Nat)
  | linkRetry (port : Nat) (corrected : Bool)
  | cpya (f : FmtE)
  | cpyt (f : FmtE)
  | cpyg (f : FmtE)
  | queueEntryAdmit (w : Loc) (pc : Word)
  | engineEntryStart (e : EngineRef)
  | guardHoldResolved (e : EngineRef)
  | copyChunk (e : EngineRef)
  | engineEntryComplete (e : EngineRef)
  | tagwa (f : FmtA)
  | tagwy (f : FmtA)
  | tagWaitComplete (r : RunRef)
  | tagff (f : FmtA)
  | tagst (f : FmtA)
  | tagclr (f : FmtA)
  | gset (f : FmtA)
  | gclr (f : FmtA)
  | qfence (f : FmtE)
  | mma (f : FmtE)
  | mmar (f : FmtE)
  | mzero (f : FmtE)
  | mldacc (f : FmtE)
  | mdrain (f : FmtE)
  | mchk (f : FmtA)
  | mtrn (f : FmtE)
  | bar (f : FmtA)
  | cbar (f : FmtA)
  | barrierComplete (cluster : Bool) (id : Nat)
  | arrive (f : FmtM)
  | await (f : FmtM)
  | awaitComplete (w : Loc) (pc : Word)
  | spawn (f : FmtA)
  | join (f : FmtA)
  | joinComplete (w : Loc) (pc : Word)
  | childEnd (uid : Nat)
  | signal (f : FmtA)
  | qpush (f : FmtM)
  | qpop (f : FmtM)
  | ringWaitServed (w : Loc) (pc : Word)
  | vbuf (f : FmtA)
  | pubv (f : FmtA)
  | vpin (f : FmtA)
  | vunpin (f : FmtA)
  | rfstop (f : FmtA)
  | vqry (f : FmtA)
  | instanceCancelStop (w : Loc)
  | instanceEnd (uid : Nat)
  | coll (f : FmtE)
  | collx (f : FmtE)
  | slateq (f : FmtA)
  | collAccept (unit : Nat)
  | slateRequest (comm : Nat) (ask : SlateAsk) (rank gen : Nat)
  | slateNotify (comm : Nat) (slate key : BitVec 32) (gen : Nat)
  | collReady (comm : Nat)
  | seqReady (comm : Nat) (slate : BitVec 32) (m : ReadyMsg) (gen : Nat)
  | collGo (comm : Nat) (slate : BitVec 32) (o : GoOutcome) (sources : List (List Byte)) (gen : Nat)
  | collCancel (comm : Nat) (key : BitVec 32) (rank : Nat) (own : Bool) (gen : Nat)
  | collSkip (comm : Nat) (slate key : BitVec 32) (gen : Nat)
  | seqHeartbeat (x : SeqNote)
  | seqFailover (comm : Nat)
  | collResend (comm : Nat) (gen : Nat)
  | slateGap (comm : Nat)
  | tret (f : FmtA)
  | trd (f : FmtA)
  | twr (f : FmtA)
  | tresume (f : FmtA)
  | tkill (f : FmtA)
  | temu (f : FmtA)
  | icinv (f : FmtA)
  | fflags (f : FmtA)
  | handlerRunStart (sl : SliceId)
  | handlerTimeout (sl : SliceId)
  | watchdog (w : Loc)
  | runtimeLimit (unit : Nat)
  | dbwp (q : Nat) (wptr : BitVec 32)
  | commandFetch (q : QueueRef)
  | queueEnable (q : Nat) (e : QueueEntry)
  | queueDisable (q : Nat)
  | prioWrite (q : Nat) (prio : BitVec 3)
  | mqWptr (p : Nat) (wptr : BitVec 32)
  | mqctl (p : Nat) (v : Word)
  | launch (cmd : Nat)
  | graph (cmd : Nat)
  | graphNodeComplete (cmd node : Nat)
  | pipe (cmd : Nat)
  | copy (cmd : Nat)
  | waitsig (cmd : Nat)
  | waitsigSatisfied (cmd : Nat)
  | cmdSignal (cmd : Nat)
  | cellwait (cmd : Nat)
  | cmdNop (cmd : Nat)
  | prologueComplete (bundle : Nat)
  | bundleEnd (bundle : Nat)
  | batchAccept (batch : Nat)
  | placement (die : Nat)
  | placementStop (die : Nat)
  | coreGate (c : CoreId)
  | coreActivate (c : CoreId)
  | workgroupRetire (unit : Nat)
  | schedHeartbeat (die : Nat)
  | schedulerAdoption (die : Nat)
  | preempt (cmd : Nat)
  | preemptSave (cmd : Nat)
  | resume (cmd : Nat)
  | destroy (cmd : Nat)
  | scrubPhase (die : Nat)
  | partition (cmd : Nat)
  | shootdown (id : Nat)
  | migrationStart (ctx : Nat) (va : Word) (frame : Nat)
  | migrationCopyPass (id : Nat)
  | migrationFinalPass (id : Nat)
  | migrationRelease (id : Nat)
  | dlyctl (c : Nat) (v : Word)
  | dailiesIntervalEnd (c : Nat)
  | bpaddr (c : CoreId) (k : Nat) (v : Word)
  | bpmask (c : CoreId) (k : Nat) (v : Word)
  | monitorClear (die k : Nat)
  | thermalStep (die k : Nat) (value : BitVec 16)
  | thermalShutdown (die k : Nat) (value : BitVec 16)
  | registerWrite (addr : Nat) (v : Word)
  | atsInvalidation (id first pages : Nat)
  | lockInterface (fn requester : Nat)
  | stopInterface (fn : Nat)
  | tdispError (fn : Nat)
  | reset (die : Nat)
  | resetScrub (die : Nat)
  | spdmSign
  | hostMemoryAccess (addr : Nat) (write : Option (List Byte)) (len : Nat)
  | managementFirmwareRequest (r : FwRequest)
  | uncorrectableError (place : ErrPlace)
  | partitionWaitExpiry (cmd : Nat)
  | tdispMessage (fn : Nat) (code : BitVec 8)
  deriving DecidableEq, Repr

end Sys2Proof
end

