-- ==== Sys2Proof/WellFormed.lean ====
section
/-!
DEFINITION. Which instructions are legal encodings: check 7 of 05 Table 5.3 as far as the 96 bits of the slot decide it
(R76 to R94 and the field tables of the entries). What also needs the state (the flags of the last header, the
workgroup's tags and guard slots, the handler bank, the kind of unit) is checked where the instruction issues. A step of
another agent has no encoding and is well formed.
-/
namespace Sys2Proof

/-- A source is a vector name. -/
def Src.isName : Src → Bool
  | .name _ => true
  | _ => false

/-- A source is a uniform register. -/
def Src.isUni : Src → Bool
  | .uni _ => true
  | _ => false

/-- A source is a name, or a register, of an even number, or the immediate (R80). -/
def Src.even : Src → Bool
  | .name n => n.val % 2 == 0
  | .uni k => k.val % 2 == 0
  | .imm => true

/-- A source of kind 0 names a predicate p0 to p11 (R111). -/
def Src.isPred : Src → Bool
  | .name n => decide (n.val < 12)
  | _ => false

/-- A source of PLOP: a predicate, or 15 for true (R111). -/
def Src.isPredOrTrue : Src → Bool
  | .name n => decide (n.val < 12) || n.val == 15
  | _ => false

/-- A source is a uniform register or the immediate (kind 1). -/
def Src.kindOne : Src → Bool
  | .name _ => false
  | _ => true

/-- A destination is a vector name. -/
def Dst.isName : Dst → Bool
  | .name _ => true
  | .uni _ => false

/-- A destination is a uniform register. -/
def Dst.isUni : Dst → Bool
  | .name _ => false
  | .uni _ => true

/-- A destination of an even number (R80). -/
def Dst.even : Dst → Bool
  | .name n => n.val % 2 == 0
  | .uni k => k.val % 2 == 0

/-- A predicate destination (Table 5.5). -/
def Dst.isPred : Dst → Bool
  | .name n => decide (n.val < 12)
  | .uni _ => false

/-- A pair destination pD:pD+1 with D even (R110). -/
def Dst.isPair : Dst → Bool
  | .name n => decide (n.val < 12) && n.val % 2 == 0
  | .uni _ => false

/-- The type code of Table 5.6. -/
def Ty.code : Ty → Nat
  | .i8x8 => 0 | .n8x8 => 1 | .i16x4 => 2 | .n16x4 => 3 | .i32 => 4 | .n32 => 5 | .i64 => 6 | .n64 => 7
  | .f32 => 8 | .f64 => 9 | .f16x4 => 10 | .bf16x4 => 11 | .f32x2 => 12 | .iv32 => 13 | .iv64 => 14

/-- Integer types, TY 0 to 7. -/
def Ty.isInt (t : Ty) : Bool := decide (t.code < 8)

/-- TY 4 to 7. -/
def Ty.isWhole (t : Ty) : Bool := decide (4 ≤ t.code) && decide (t.code < 8)

/-- TY 8 to 14. -/
def Ty.isFloat (t : Ty) : Bool := decide (8 ≤ t.code)

/-- The interval types, TY 13 and 14. -/
def Ty.isIv (t : Ty) : Bool := decide (13 ≤ t.code)

/-- The access type code of Table 5.9. -/
def MTy.code : MTy → Nat
  | .n8 => 0 | .i8 => 1 | .n16 => 2 | .i16 => 3 | .i32 => 4 | .n32 => 5 | .i64 => 6 | .n64 => 7
  | .f16x4 => 8 | .bf16x4 => 9 | .f32x2 => 10 | .i8x8 => 11 | .i16x4 => 12 | .iv32 => 13 | .iv64 => 14

/-- The access types of the atomics, TY 4 to 7. -/
def MTy.isAtomic (t : MTy) : Bool := decide (4 ≤ t.code) && decide (t.code < 8)

/-- The order code of Table 5.8. -/
def Ord.code : Ord → Nat
  | .plain => 0 | .acq => 1 | .rel => 2 | .acqRel => 3 | .sc => 4

/-- The scope code of Table 12.1. -/
def Scope.code : Scope → Nat
  | .thread => 0 | .warp => 1 | .crew => 2 | .wg => 3 | .cluster => 4 | .die => 5 | .module => 6 | .pod => 7 | .sys => 8

/-- The rounding code of Table 5.7. -/
def Rm.code : Rm → Nat
  | .rn => 0 | .rz => 1 | .rd => 2 | .ru => 3 | .rna => 4

/-- A queue is one of cq0 to cq3. -/
def QueueName.isCopy : QueueName → Bool
  | .cq _ => true
  | _ => false

/-- The fields of format A that an entry uses; an unused field must be zero (R78). `nf` is false where the entry itself
calls NF = 1 illegal; elsewhere NF has no effect unless the instruction raises sticky flags (R82). -/
structure UsesA where
  dst : Bool := false
  sa  : Bool := false
  sb  : Bool := false
  sc  : Bool := false
  ty  : Bool := false
  fn  : Bool := false
  rm  : Bool := false
  imm : Bool := false
  nf  : Bool := true
  cf  : Bool := true

/-- Every field that the entry does not use is zero, its kind bit too (R78). The immediate is used when the entry uses
it as a field or when a source selects it. -/
def FmtA.only (f : FmtA) (u : UsesA) : Bool :=
  (u.dst || f.dst == .name 0) && (u.sa || f.sa == .name 0) && (u.sb || f.sb == .name 0) && (u.sc || f.sc == .name 0)
  && (u.ty || f.ty == .i8x8) && (u.fn || f.fn == 0) && (u.rm || f.rm == .rn) && (u.nf || !f.nf)
  && (u.cf || f.cf == .none)
  && (u.imm || f.imm == 0 || (u.sa && f.sa == .imm) || (u.sb && f.sb == .imm) || (u.sc && f.sc == .imm))

/-- R81: a uniform destination needs uniform sources. -/
def FmtA.uniformOk (f : FmtA) : Bool :=
  f.dst.isName || (f.dst.isUni && !f.sa.isName && !f.sb.isName && !f.sc.isName)

/-- R81 for an instruction of one source. -/
def FmtA.uniformOk1 (f : FmtA) : Bool := f.dst.isName || !f.sa.isName

/-- R81 for an instruction of two sources. -/
def FmtA.uniformOk2 (f : FmtA) : Bool := f.dst.isName || (!f.sa.isName && !f.sb.isName)

/-- The instruction takes no guard. -/
def FmtA.noGuard (f : FmtA) : Bool := f.guard == .always

/-- Integer instructions of two operands with D, 0 or 1 (Table 9.1). -/
def wfInt2 (f : FmtA) (fnMax : Nat) (tys : Ty → Bool) : Bool :=
  f.only { dst := true, sa := true, sb := true, ty := true, fn := true } && tys f.ty && decide (f.fn.toNat ≤ fnMax)
  && f.uniformOk2

/-- Integer instructions of one operand (Table 9.1). -/
def wfInt1 (f : FmtA) (fnMax : Nat) (tys : Ty → Bool) : Bool :=
  f.only { dst := true, sa := true, ty := true, fn := true } && tys f.ty && decide (f.fn.toNat ≤ fnMax) && f.uniformOk1

/-- Integer instructions of three operands (Table 9.1). -/
def wfInt3 (f : FmtA) (fnMax : Nat) (tys : Ty → Bool) : Bool :=
  f.only { dst := true, sa := true, sb := true, sc := true, ty := true, fn := true } && tys f.ty
  && decide (f.fn.toNat ≤ fnMax) && f.uniformOk

/-- Unsigned integer types. -/
def Ty.isN (t : Ty) : Bool := t.isInt && t.code % 2 == 1

/-- Signed integer types. -/
def Ty.isI (t : Ty) : Bool := t.isInt && t.code % 2 == 0

/-- R80 for a list of operands of an iv64 instruction. -/
def ivEven (f : FmtA) (dst : Bool) (srcs : List Src) : Bool :=
  f.ty != .iv64 || ((!dst || f.dst.even) && srcs.all Src.even)

/-- FN holds .e only, and .e only on an interval type (R197). -/
def fnE (f : FmtA) : Bool := f.fn == 0 || (f.fn == 8 && f.ty.isIv)

/-- RM rounds, except on the interval types (R84). -/
def rmIv (f : FmtA) : Bool := !f.ty.isIv || f.rm == .rn

/-- Floating-point arithmetic of two operands (Table 10.1). -/
def wfFloat2 (f : FmtA) (rm : Bool) : Bool :=
  f.only { dst := true, sa := true, sb := true, ty := true, fn := true, rm := rm } && f.ty.isFloat && fnE f && rmIv f
  && f.uniformOk2 && ivEven f true [f.sa, f.sb]

/-- Floating-point arithmetic of one operand (Table 10.1). -/
def wfFloat1 (f : FmtA) (rm : Bool) : Bool :=
  f.only { dst := true, sa := true, ty := true, fn := true, rm := rm } && f.ty.isFloat && fnE f && rmIv f
  && f.uniformOk1 && ivEven f true [f.sa]

/-- The transcendental instructions (R161, R202). -/
def wfTrans (f : FmtA) : Bool :=
  wfFloat1 f true && (f.ty == .f32 || f.ty == .f16x4 || f.ty == .f32x2 || f.ty == .iv32)

/-- FMIN and FMAX: FN[0] is .nan on points, FN[3] is .e on intervals (R203). -/
def wfMinMax (f : FmtA) : Bool :=
  f.only { dst := true, sa := true, sb := true, ty := true, fn := true } && f.ty.isFloat
  && (f.fn == 0 || (f.fn == 1 && !f.ty.isIv) || (f.fn == 8 && f.ty.isIv)) && f.uniformOk2 && ivEven f true [f.sa, f.sb]

/-- FCMP: relation in FN[2:0], .e in FN[3]; a pair or a uniform destination (R205). -/
def wfFcmp (f : FmtA) : Bool :=
  f.only { dst := true, sa := true, sb := true, ty := true, fn := true } && f.ty.isFloat
  && decide (f.fn.toNat % 8 ≤ 5) && (!bitAt f.fn 3 || f.ty.isIv)
  && (f.dst.isPair || (f.dst.isUni && f.uniformOk2)) && ivEven f false [f.sa, f.sb]

/-- The width of a FCVT format code (Table 10.5). -/
def cvtWidth (c : Nat) : Nat :=
  match c with
  | 0 => 64 | 1 => 32 | 2 => 16 | 3 => 16 | 4 => 8 | 5 => 8 | 6 => 64 | _ => 128

/-- FCVT (R207): codes, group, RM and .sat by direction. -/
def wfFcvt (f : FmtA) : Bool :=
  let s := f.fn.toNat % 8
  let d := f.imm.toNat % 8
  let g := f.imm.toNat / 16
  let ws := cvtWidth s
  let wd := cvtWidth d
  f.only { dst := true, sa := true, fn := true, rm := true, imm := true } && f.sa != .imm && f.uniformOk1
  && s != d && !bitAt f.imm 3 && decide (f.imm.toNat < 128)
  && (if decide (6 ≤ s) || decide (6 ≤ d) then
        decide (6 ≤ s) && decide (6 ≤ d) && g == 0 && f.rm == .rn && !bitAt f.fn 3
        && (s != 7 || f.sa.even) && (d != 7 || f.dst.even)
      else decide (g < max ws wd / min ws wd) && (decide (wd ≤ ws) || (f.rm == .rn && !bitAt f.fn 3)))

/-- The interval instructions that read one or two intervals and write a scalar or an interval (Table 10.1). -/
def wfIv (f : FmtA) (two fnFree ivDst ivSrc : Bool) : Bool :=
  f.only { dst := true, sa := true, sb := two, ty := true, fn := fnFree } && f.ty.isIv && fnE f
  && (f.dst.isName || (!f.sa.isName && (!two || !f.sb.isName)))
  && ivEven f ivDst (if ivSrc then [f.sa, f.sb] else [])

/-- IVIN (R216). -/
def wfIvin (f : FmtA) : Bool :=
  f.only { dst := true, sa := true, sb := true, ty := true, fn := true } && f.ty.isIv && fnE f
  && (f.dst.isPair || (f.dst.isUni && f.uniformOk2)) && ivEven f false [f.sa, f.sb]

/-- BISECT (R217): SB is the second destination, of the kind of DST. Whether X may select the immediate is left open: it may, and IMM is then 0,
since the entry does not use it (log 46: DESIGN CHOICE). -/
def wfBisect (f : FmtA) : Bool :=
  f.only { dst := true, sa := true, sb := true, ty := true, fn := true } && f.ty.isIv && fnE f
  && (match f.dst, f.sb with
      | .name d, .name e => d != e
      | .uni d, .uni e => d != e && !f.sa.isName
      | _, _ => false)
  && ivEven f true [f.sa, f.sb] && f.imm == 0

/-- ORD and SCOPE of a memory instruction: a listed order, and a scope exactly when there is an order (R254). -/
def ordOk (f : FmtM) (ords : List Ord) : Bool :=
  ords.contains f.ord && ((f.ord == .plain) == (f.scope == .thread))

/-- LD and LDL (Table 12.2). -/
def wfLoad (f : FmtM) : Bool :=
  f.dst.isName && f.data == .name 0 && ordOk f [.plain, .acq, .sc] && (f.ty != .iv64 || f.dst.even)

/-- ST and STL (Table 12.2). -/
def wfStore (f : FmtM) : Bool :=
  f.dst == .name 0 && f.data != .imm && ordOk f [.plain, .rel, .sc] && (f.ty != .iv64 || f.data.even)

/-- The scopes of local memory (R254). -/
def localScope (f : FmtM) : Bool := decide (f.scope.code ≤ 3)

/-- The operation code of ATOM and RED (Table 12.5). -/
def wfAtomOp (f : FmtM) (exch : Bool) : Bool :=
  match f.index with
  | .name n => decide (n.val ≤ 8) && (exch || n.val != 6) && (decide (n.val < 7) || f.ty == .n32 || f.ty == .n64)
  | _ => false

/-- ATOM, ATOMC and RED share an address without index, a kind of data and a type (R261). -/
def wfAtomic (f : FmtM) (ords : List Ord) : Bool := f.ty.isAtomic && f.data != .imm && ordOk f ords

/-- The five orders. -/
def allOrds : List Ord := [.plain, .acq, .rel, .acqRel, .sc]

/-- CCTL (R264). -/
def wfCctl (f : FmtM) : Bool :=
  f.base.kindOne && f.data.isUni && f.ty == .n8 && f.ord == .plain && f.scope == .thread
  && (match f.index with
      | .name n => decide (n.val < 16) && decide (n.val % 4 < 2)
          && (if decide (8 ≤ n.val) then f.dst.isUni && f.offset == 0 else f.dst == .name 0)
      | _ => false)

/-- Fields that every engine command shares (R87): the queue, RU, and a tag where one must be named. -/
def wfE (f : FmtE) (q : QueueName → Bool) (tag : Bool) : Bool := q f.queue && !f.ru && (!tag || f.tag.isSome)

/-- The immediate of an engine command without one of its own is zero, unless an operand selects it (R78, R279). -/
def immFreeE (f : FmtE) : Bool := f.imm == 0 || f.sa == .imm || f.sb == .imm || f.sc == .imm

/-- An unused uniform field. -/
def USrc.isZero (u : USrc) : Bool := u == .uni 0

/-- MMA and MMAR: M code, BALT and the immediate (Table 13.6, R290). -/
def wfMma (f : FmtE) (mmar : Bool) : Bool :=
  let fmt := f.sub.toNat % 8
  let m := f.sub.toNat / 16 % 4
  (if mmar then m == 2 else decide (m < 2)) && (!bitAt f.sub 3 || fmt == 4 || fmt == 5)
  && (fmt == 6 || f.imm == 0 || (fmt == 7 && f.imm == 1))

/-- The M code and the accumulator kind of MZERO and MLDACC (R297). -/
def wfAcc (f : FmtE) : Bool :=
  f.sub.toNat % 16 == 0 && decide (f.sub.toNat / 16 % 4 < 3) && decide (f.imm.toNat < 3)

/-- MDRAIN (R298, Table 13.8). -/
def wfMdrain (f : FmtE) : Bool :=
  let out := f.sub.toNat % 8
  let kind := f.imm.toNat % 4
  decide (f.sub.toNat / 16 % 4 < 3) && decide (f.imm.toNat < 16)
  && (decide (out ≤ 4) && decide (kind ≤ 1) || out == 5 && kind == 2 || out == 6 && kind == 1)
  && (!bitAt f.sub 3 || (decide (1 ≤ out) && decide (out ≤ 4)))
  && (bitAt f.imm 3 || f.sc.isZero)

/-- Format M of the synchronisation instructions: a uniform base, no streaming hint, no index (R301). -/
def wfSyncM (f : FmtM) : Bool := f.base.kindOne && !f.st && f.index == .imm && f.cf == .none

/-- The cell operand of the refinement instructions (R331). -/
def wfCell (f : FmtA) : Bool := f.sa.isUni || (f.sa == .imm && decide (f.imm.toNat < 65536))

/-- HDR (R90): two flag names differ. -/
def FmtH.wf (f : FmtH) : Bool := f.fa == none || f.fa != f.fb

/-- Legal encodings: check 7 of Table 5.3 without the state. An address of RET, JMPI or CALL.ind is a name or a register: its entry lists no
immediate (log 46: DESIGN CHOICE). -/
def Instr.wf : Instr → Bool
  | .hdr f => f.wf
  | .ext _ => true
  | .nop f => f.only { nf := false, cf := false } && !f.ru
  | .bra f => f.only { imm := true }
  | .brm f => decide (f.more.length ≤ 3)
  | .call f => f.dst.isName && (if f.fn == 0 then f.only { dst := true, imm := true }
      else f.only { dst := true, sa := true, fn := true } && f.fn == 1 && f.sa != .imm)
  | .ret f | .jmpi f => f.only { sa := true } && f.sa != .imm
  | .exit f | .yield f => f.only {}
  | .wsync f => f.only {} && f.noGuard
  | .elect f => f.only { dst := true } && f.dst.isPred
  | .vote f => f.only { dst := true, sa := true, fn := true } && f.sa.isPred && decide (f.fn.toNat ≤ 4)
      && (if decide (f.fn.toNat ≤ 2) then f.dst.isPred else f.dst.isUni)
  | .icmp f => f.only { dst := true, sa := true, sb := true, ty := true, fn := true } && f.ty.isWhole
      && decide (f.fn.toNat ≤ 5) && (f.dst.isPred || (f.dst.isUni && f.uniformOk2))
  | .plop f => f.only { dst := true, sa := true, sb := true, sc := true, imm := true } && f.dst.isPred
      && f.sa.isPredOrTrue && f.sb.isPredOrTrue && f.sc.isPredOrTrue && decide (f.imm.toNat < 256)
  | .p2s f => f.only { dst := true, imm := true } && f.dst.isName && decide (f.imm.toNat < 4096)
  | .s2p f => f.only { sa := true, imm := true } && decide (f.imm.toNat < 4096)
  | .brk f | .trap f => f.only { imm := true }
  | .move f | .aliasName f => f.only { dst := true, sa := true, nf := false, cf := false } && f.dst.isName
      && f.sa.isName && f.noGuard
  | .cpy f => f.only { dst := true, sa := true, nf := false, cf := false } && f.dst.isName && f.sa.isName
  | .give f => f.only { sa := true, fn := true, imm := true, nf := false, cf := false } && f.sa.isName && f.noGuard
      && (if f.fn == 0 then decide (f.imm.toNat < 16)
          else f.fn == 1 && f.imm.toNat / 16 % 16 == 0 && decide (f.imm.toNat / 256 < 12))
  | .take f => f.only { dst := true, fn := true, imm := true, nf := false, cf := false } && f.dst.isName && f.noGuard
      && (if f.fn == 0 then decide (f.imm.toNat < 16)
          else f.fn == 1 && f.imm.toNat / 16 % 16 == 0 && decide (f.imm.toNat / 256 < 12))
  | .unmap f => f.only { dst := true, nf := false, cf := false } && f.dst.isName && f.noGuard
  | .perm f => f.dst.isName && f.sa.isName && f.noGuard
      && (match f.fn.toNat with
          | 0 => f.only { dst := true, sa := true, nf := false, cf := false } && f.dst.isName && f.sa.isName
              && permDistinct f 2
          | 1 => f.only { dst := true, sa := true, sb := true, fn := true, nf := false, cf := false } && f.sb.isName
              && permDistinct f 3
          | 2 => f.only { dst := true, sa := true, sb := true, sc := true, fn := true, nf := false, cf := false }
              && f.sb.isName && f.sc.isName && permDistinct f 4
          | _ => false)
  | .swapn f => f.only { dst := true, sa := true, nf := false, cf := false } && f.dst.isName && f.sa.isName
      && f.noGuard && permDistinct f 2
  | .mapq f => f.only { dst := true, sa := true, fn := true, nf := false, cf := false } && f.dst.isUni && f.sa.isName
      && decide (f.fn.toNat ≤ 2)
  | .mbxq f => f.only { dst := true, imm := true, nf := false, cf := false } && f.dst.isUni && decide (f.imm.toNat < 16)
  | .iadd f | .isub f => wfInt2 f 1 Ty.isInt
  | .iaddc f => wfInt2 f 11 (fun t => t == .n32 || t == .n64) && f.dst.isName
  | .imul f => wfInt2 f 2 Ty.isInt && (f.fn != 2 || f.ty == .i32 || f.ty == .n32)
  | .imulh f | .idiv f | .irem f => wfInt2 f 0 Ty.isWhole
  | .imad f => wfInt3 f 1 Ty.isInt
  | .imin f | .imax f => wfInt2 f 0 Ty.isInt
  | .iabs f => wfInt1 f 1 Ty.isI
  | .bfn f => f.only { dst := true, sa := true, sb := true, sc := true, ty := true, imm := true } && f.ty.isInt
      && decide (f.imm.toNat < 256) && f.sa != .imm && f.sb != .imm && f.sc != .imm && f.uniformOk
  | .shl f | .rotl f => wfInt2 f 0 Ty.isInt
  | .shr f => wfInt2 f 0 Ty.isN
  | .sar f => wfInt2 f 0 Ty.isI
  | .bfe f => wfInt2 f 0 Ty.isWhole
  | .bfi f => wfInt3 f 0 Ty.isWhole
  | .popc f | .clz f | .brev f => wfInt1 f 0 Ty.isWhole
  | .sel f => f.only { dst := true, sa := true, sb := true, ty := true, fn := true } && decide (f.fn.toNat < 12)
      && f.uniformOk2 && ivEven f true [f.sa, f.sb]
  | .lea f => f.only { dst := true, sa := true, sb := true, ty := true, fn := true, imm := true } && f.ty.isWhole
      && f.sa != .imm && f.sb != .imm && f.uniformOk2
  | .movi f => if f.fn == 0 then f.only { dst := true, ty := true, imm := true } && ivEven f true []
      else f.only { dst := true, sa := true, ty := true, fn := true, imm := true } && f.fn == 1 && f.ty == .n64
        && f.sa != .imm && f.uniformOk1
  | .vread f => f.only { dst := true, sa := true, sb := true, ty := true } && f.dst.isUni && f.sa.isName
      && f.sb.kindOne && ivEven f true [f.sa]
  | .redux f => f.only { dst := true, sa := true, ty := true, fn := true } && f.dst.isUni && f.sa.isName && f.ty.isInt
      && decide (f.fn.toNat ≤ 5)
  | .shfl f => f.only { dst := true, sa := true, sb := true, ty := true, fn := true } && f.dst.isName && f.sa.isName
      && decide (f.fn.toNat ≤ 3) && ivEven f true [f.sa]
  | .srd f => f.only { dst := true, imm := true } && decide (f.imm.toNat ≤ 14)
      && (f.dst.isName || srdUniform f.imm.toNat)
  | .swr f => f.only { sa := true, imm := true, nf := false } && decide (f.imm.toNat ≤ 14)
  | .fadd f | .fsub f | .fmul f | .fdiv f => wfFloat2 f true
  | .ffma f => f.only { dst := true, sa := true, sb := true, sc := true, ty := true, fn := true, rm := true }
      && f.ty.isFloat && fnE f && rmIv f && f.uniformOk && ivEven f true [f.sa, f.sb, f.sc]
  | .fsqrt f | .frnd f => wfFloat1 f true
  | .frcp f | .frsq f | .fexp2 f | .flog2 f | .fsin f | .fcos f => wfTrans f
  | .fmin f | .fmax f => wfMinMax f
  | .fabs f | .fneg f => wfFloat1 f false
  | .fcmp f => wfFcmp f
  | .fclass f => f.only { dst := true, sa := true, ty := true } && f.ty.isFloat && f.uniformOk1 && ivEven f false [f.sa]
  | .fcvt f => wfFcvt f
  | .f2i f => f.only { dst := true, sa := true, ty := true, fn := true, rm := true } && f.ty.isWhole
      && decide (f.fn.toNat ≤ 3) && f.uniformOk1
  | .i2f f => f.only { dst := true, sa := true, ty := true, fn := true, rm := true } && decide (8 ≤ f.ty.code)
      && decide (f.ty.code ≤ 11) && decide (f.fn.toNat ≤ 3) && f.uniformOk1
  | .fscale f => f.only { dst := true, sa := true, sb := true, ty := true, fn := true, rm := true } && f.ty.isFloat
      && fnE f && rmIv f && f.uniformOk2 && ivEven f true [f.sa]
  | .fdot f => f.only { dst := true, sa := true, sb := true, sc := true, ty := true, fn := true, rm := true }
      && f.ty == .f32 && decide (f.fn.toNat ≤ 3) && f.uniformOk
  | .ivmk f => wfIv f true true true false
  | .ivlo f | .ivhi f => wfIv f false false false true
  | .ivhull f | .ivmeet f => wfIv f true true true true
  | .ivmid f | .ivwid f => wfIv f false true false true
  | .ivin f => wfIvin f
  | .bisect f => wfBisect f
  | .ld f => wfLoad f
  | .st f => wfStore f
  | .ldl f => wfLoad f && localScope f
  | .stl f => wfStore f && localScope f
  | .ldt f => f.dst.isName && f.data != .imm && ordOk f [.plain, .acq, .sc] && (f.ty != .iv64 || f.dst.even)
  | .stt f => f.data != .imm && ordOk f [.plain, .rel, .sc] && (f.ty != .iv64 || f.dst.even)
  | .ldu f => f.dst.isUni && f.data == .name 0 && f.base.kindOne && f.index.kindOne && ordOk f [.plain, .acq, .sc]
      && (f.ty != .iv64 || f.dst.even)
  | .atom f => f.dst.isName && wfAtomic f allOrds && wfAtomOp f true
  | .atomc f => f.dst.isName && wfAtomic f allOrds && f.index != .imm
  | .red f => f.dst == .name 0 && wfAtomic f [.plain, .rel, .sc] && wfAtomOp f false
  | .pref f => (f.dst == .name 0 || f.dst == .name 1) && f.data == .name 0 && f.ord == .plain && f.scope == .thread
  | .cctl f => wfCctl f
  | .fence f => f.dst == .name 0 && f.base == .name 0 && f.data == .name 0 && f.index == .name 0 && f.ty == .n8
      && f.ord != .plain && f.scope != .thread && f.offset == 0 && f.cf == .none
  | .chkerr f => f.only { dst := true, fn := true, imm := true, cf := false } && decide (f.fn.toNat ≤ 2)
      && decide (f.imm.toNat < 32) && (if f.fn == 1 then f.dst == .name 0 else f.dst.isUni)
      && (f.fn != 2 || (!bitAt f.imm 0 && !bitAt f.imm 4))
  | .cpya f => wfE f QueueName.isCopy true && decide (f.sub.toNat < 4) && immFreeE f
  | .cpyt f => wfE f QueueName.isCopy true && decide (f.sub.toNat < 16) && decide (f.sub.toNat % 4 < 3)
      && (!bitAt f.sub 3 || (f.sub.toNat % 4 == 1 && bitAt f.sub 2))
  | .cpyg f => wfE f QueueName.isCopy true && f.sub == 0 && decide (f.imm.toNat < 2 ^ 28)
      && f.imm.toNat % 4096 != 0 && decide (f.imm.toNat % 4096 ≤ 256) && f.imm.toNat / 4096 != 0
  | .tagwa f | .tagclr f => f.only { sa := true, fn := true } && wfTagMask f
  | .tagwy f | .tagff f => f.only { dst := true, sa := true, fn := true } && f.dst.isUni && wfTagMask f
  | .tagst f => f.only { dst := true, imm := true } && f.dst.isUni && decide (f.imm.toNat < 64)
  | .gset f => f.only { sa := true, fn := true, imm := true } && f.sa.isPred && decide (f.fn.toNat ≤ 1)
      && decide (f.imm.toNat < 16)
  | .gclr f => f.only { imm := true } && decide (f.imm.toNat < 65536)
  | .qfence f => wfE f (fun _ => true) false && f.slot == none && f.sub == 0 && f.sa.isZero && f.sb.isZero
      && f.sc.isZero && decide (f.imm.toNat < 64)
  | .mma f => wfE f (· == .mq) false && wfMma f false
  | .mmar f => f.queue == .mq && wfMma f true && (match f.sc with | .uni k => decide (k.val ≤ 124) | .imm => false)
  | .mzero f => wfE f (· == .mq) false && wfAcc f && f.sb.isZero && f.sc.isZero
  | .mldacc f => wfE f (· == .mq) false && wfAcc f && f.sc.isZero
  | .mdrain f => wfE f (· == .mq) false && wfMdrain f
  | .mchk f => f.only { dst := true, sa := true, fn := true, nf := false, cf := false } && f.dst.isUni && f.sa.kindOne
      && decide (f.fn.toNat ≤ 1)
  | .mtrn f => wfE f (· == .mq) false && decide (f.sub.toNat < 4) && f.imm == 0
  | .bar f => f.noGuard && (if f.fn == 0 then f.only { cf := false }
      else f.only { sa := true, fn := true, cf := false } && f.fn == 1 && f.sa.kindOne)
  | .cbar f => f.noGuard && f.only { cf := false }
  | .arrive f => f.base.kindOne && !f.st && f.cf == .none && f.dst.isUni && f.data == .name 0 && f.index.kindOne
      && f.ty == .n64 && (f.ord == .rel || f.ord == .acqRel) && decide (1 ≤ f.scope.code) && decide (f.scope.code ≤ 3)
  | .await f => wfSyncM f && f.dst == .name 0 && f.data.isUni && f.ty == .n64 && f.ord == .acq
      && decide (1 ≤ f.scope.code) && decide (f.scope.code ≤ 3)
  | .spawn f => f.only { dst := true, sa := true, sb := true, sc := true, fn := true, imm := true, cf := false }
      && wfSpawn f
  | .join f => f.only { dst := true, imm := true, cf := false } && f.dst.isUni
      && f.imm.toNat / 16 % 16 == 0 && decide (f.imm.toNat / 256 < 12)
  | .signal f => f.only { sa := true, sb := true, fn := true } && f.sa.isUni && f.sb.kindOne
      && decide (f.fn.toNat ≤ 3)
  | .qpush f => wfSyncM f && f.dst == .name 0 && f.ord == .plain && f.scope == .thread
      && ((f.ty == .n8 && f.data.isUni) || (f.ty == .i8 && f.data == .name 0))
  | .qpop f => wfSyncM f && f.dst.isUni && f.data.isUni && f.ty == .n8 && f.ord == .plain && f.scope == .thread
  | .vbuf f | .vpin f => f.only { dst := true, sa := true, fn := true, cf := false } && f.dst.isUni
      && wfCell f && decide (f.fn.toNat < 12)
  | .pubv f => f.only { dst := true, sa := true, sb := true, fn := true, cf := false } && f.dst.isPred
      && wfCell f && f.sb.isUni && decide (f.fn.toNat ≤ 1)
  | .vunpin f => f.only { sa := true, cf := false } && wfCell f
  | .rfstop f => f.only { dst := true, sa := true, cf := false } && f.dst.isPred && wfCell f
  | .vqry f => f.only { dst := true, sa := true, cf := false } && f.dst.isUni && wfCell f
  | .coll f => wfE f (· == .xq) true && f.cf == .none && decide (f.sub.toNat < 10)
      && (if f.sub.toNat == 9 then f.sa == .imm && f.sb == .imm
          else f.sb != .imm && (f.sub.toNat == 8 || f.sa != .imm)) && f.sc != .imm
  | .collx f => wfE f (· == .xq) true && f.cf == .none && f.sub == 0 && f.sa.isZero && f.sb.isZero && f.sc != .imm
  | .slateq f => f.only { dst := true, sa := true, sb := true, cf := false } && f.dst.isUni
      && f.sa.kindOne && f.sb.kindOne
  | .tret f => f.only { cf := false } && f.noGuard
  | .trd f => f.only { dst := true, sb := true, fn := true, cf := false } && f.sb.kindOne
      && (if f.fn == 0 then f.dst.isName else f.dst.isUni) && decide (f.fn.toNat ≤ 7)
  | .twr f => f.only { dst := true, sa := true, sb := true, fn := true, cf := false } && f.dst.isPred
      && f.sb.kindOne && (if f.fn == 0 then f.sa.isName else f.sa.isUni)
      && decide (f.fn.toNat ≤ 5) && f.fn != 2
  | .tresume f => f.only { sa := true, sb := (f.fn == 1), sc := true, fn := true, cf := false }
      && f.sa.kindOne && f.sc.kindOne && decide (f.fn.toNat ≤ 1) && (f.fn == 0 || f.sb.kindOne)
  | .tkill f => f.only { sa := (f.fn == 0), sc := decide (f.fn.toNat ≤ 1), fn := true, cf := false }
      && decide (f.fn.toNat ≤ 2) && (f.fn != 0 || f.sa.kindOne) && (decide (1 < f.fn.toNat) || f.sc.kindOne)
  | .temu f => f.only { sa := (f.fn == 0), fn := true, cf := false } && decide (f.fn.toNat ≤ 1)
      && (f.fn != 0 || f.sa.isName)
  | .icinv f => if f.fn == 1 then f.only { fn := true }
      else f.only { sa := true, sb := true } && f.sa.isUni && f.sb.kindOne
  | .fflags f => f.only { dst := true, imm := true, nf := false, cf := false } && f.dst.isName
      && decide (f.imm.toNat < 128)
  | _ => true
where
  /-- The names of PERM and SWAPN are distinct (R148). -/
  permDistinct (f : FmtA) (k : Nat) : Bool :=
    let ns := [match f.dst with | .name n => n.val | .uni _ => 999, srcNo f.sa, srcNo f.sb, srcNo f.sc].take k
    decide (ns.Nodup)
  /-- The number of a name operand. -/
  srcNo : Src → Nat
    | .name n => n.val
    | _ => 999
  /-- The registers of Table 9.4 marked "run" or "warp". -/
  srdUniform (n : Nat) : Bool := [1, 2, 3, 4, 5, 6, 7, 8, 10, 11, 12, 13].contains n
  /-- A tag mask: a uniform register with FN = 0, or the immediate with FN[0] as .hi (R285). -/
  wfTagMask (f : FmtA) : Bool := (f.sa.isUni && f.fn == 0) || (f.sa == .imm && decide (f.fn.toNat ≤ 1))
  /-- SPAWN (Table 15.1): given names within v127, copied registers within s191, and no guard where names are given. -/
  wfSpawn (f : FmtA) : Bool :=
    f.dst.isPred && f.sa.isUni && f.sb.isName && decide (f.fn.toNat ≤ 8) && decide (f.imm.toNat < 64)
    && (if f.fn == 0 then f.sb == .name 0 else decide (srcNo f.sb + f.fn.toNat ≤ 128))
    && (match f.sc with | .uni k => decide (k.val ≤ 184) | .imm => true | .name _ => false)
    && (f.fn == 0 || !bitAt f.imm 5 || f.guard == .always)

end Sys2Proof
end

