-- ==== Sys2Proof/Machine/Floats.lean ====
section
/-!
DEFINITION. Floating-point formats and rounding (08 R151 to R165): values are decoded to exact dyadic numbers, an operation
computes exactly, and one function rounds once and says which sticky flags are raised.
-/
namespace Sys2Proof

/-- A floating-point format (Table 8.1): exponent and fraction widths, and whether the all-ones exponent is E4M3's. -/
structure FFmt where
  ew   : Nat
  mw   : Nat
  e4m3 : Bool := false
  deriving DecidableEq, Repr

/-- FP64. -/
def fp64 : FFmt := ⟨11, 52, false⟩
/-- FP32. -/
def fp32 : FFmt := ⟨8, 23, false⟩
/-- FP16. -/
def fp16 : FFmt := ⟨5, 10, false⟩
/-- BF16. -/
def bf16 : FFmt := ⟨8, 7, false⟩
/-- E4M3. -/
def fe4m3 : FFmt := ⟨4, 3, true⟩
/-- E5M2. -/
def fe5m2 : FFmt := ⟨5, 2, false⟩

/-- The width of a format. -/
def FFmt.width (F : FFmt) : Nat := F.ew + F.mw + 1
/-- The bias. -/
def FFmt.bias (F : FFmt) : Int := 2 ^ (F.ew - 1) - 1
/-- The exponent of the smallest normal number. -/
def FFmt.emin (F : FFmt) : Int := 1 - F.bias
/-- The exponent of the largest finite number. -/
def FFmt.emax (F : FFmt) : Int := if F.e4m3 then F.bias + 1 else F.bias
/-- The significand of the largest finite number, as an integer of mw + 1 bits. -/
def FFmt.maxSig (F : FFmt) : Nat := if F.e4m3 then 2 ^ (F.mw + 1) - 2 else 2 ^ (F.mw + 1) - 1

/-- A decoded value: a NaN with its sign and fraction, an infinity, or ±sig × 2^exp. -/
inductive FVal where
  | nan (neg : Bool) (frac : Nat)
  | inf (neg : Bool)
  | fin (neg : Bool) (sig : Nat) (exp : Int)
  deriving DecidableEq, Repr

/-- The value of a code (R151). -/
def FFmt.decode (F : FFmt) (b : Nat) : FVal :=
  let frac := b % 2 ^ F.mw
  let e := b / 2 ^ F.mw % 2 ^ F.ew
  let neg := b / 2 ^ (F.mw + F.ew) % 2 == 1
  if e = 2 ^ F.ew - 1 && !F.e4m3 then (if frac = 0 then .inf neg else .nan neg frac)
  else if e = 2 ^ F.ew - 1 && frac == 2 ^ F.mw - 1 then .nan neg frac
  else if e = 0 then .fin neg frac (F.emin - F.mw)
  else .fin neg (2 ^ F.mw + frac) (e - F.bias - F.mw)

/-- The sign bit of a code. -/
def FFmt.signBit (F : FFmt) (neg : Bool) : Nat := if neg then 2 ^ (F.mw + F.ew) else 0
/-- ±∞; E4M3 has none, and its NaN of that sign stands there (Table 8.5). -/
def FFmt.infBits (F : FFmt) (neg : Bool) : Nat :=
  F.signBit neg + (if F.e4m3 then 2 ^ (F.ew + F.mw) - 1 else (2 ^ F.ew - 1) * 2 ^ F.mw)
/-- ± the largest finite value. -/
def FFmt.maxBits (F : FFmt) (neg : Bool) : Nat :=
  F.signBit neg + (F.emax + F.bias).toNat * 2 ^ F.mw + (F.maxSig - 2 ^ F.mw)
/-- The canonical NaN (Table 8.2). -/
def FFmt.canon (F : FFmt) : Nat := if F.e4m3 then 0x7F else (2 ^ F.ew - 1) * 2 ^ F.mw + 2 ^ (F.mw - 1)
/-- A code is a NaN. -/
def FFmt.isNan (F : FFmt) (b : Nat) : Bool := match F.decode b with | .nan .. => true | _ => false
/-- A code is a signalling NaN (R152). -/
def FFmt.isSnan (F : FFmt) (b : Nat) : Bool := F.isNan b && !b.testBit (F.mw - 1)
/-- A NaN quieted (R152). -/
def FFmt.quiet (F : FFmt) (b : Nat) : Nat := b ||| 2 ^ (F.mw - 1)

/-- The sticky flags of Table 8.4. -/
def flNX : BitVec 8 := 1
/-- UF. -/
def flUF : BitVec 8 := 2
/-- OF. -/
def flOF : BitVec 8 := 4
/-- DZ. -/
def flDZ : BitVec 8 := 8
/-- IV. -/
def flIV : BitVec 8 := 16
/-- EM. -/
def flEM : BitVec 8 := 32
/-- SAT. -/
def flSAT : BitVec 8 := 64

/-- A result and the flags that it raises. -/
structure FRes where
  bits  : Nat
  flags : BitVec 8 := 0
  deriving DecidableEq, Repr

/-- Round n / d to an integer by a mode, for a value of a sign; and whether that is inexact (Table 5.7). -/
def roundInt (rm : Rm) (neg : Bool) (n d : Nat) : Nat × Bool :=
  let q := n / d
  let r := n % d
  let up := match rm with
    | .rn => decide (d < 2 * r) || (2 * r == d && q % 2 == 1)
    | .rz => false
    | .rd => neg && r != 0
    | .ru => !neg && r != 0
    | .rna => decide (d ≤ 2 * r) && r != 0
  (if up then q + 1 else q, r != 0)

/-- The exponent of the leading bit of (n / d) × 2^e, for n, d > 0. -/
def ilog (n d : Nat) (e : Int) : Int :=
  let k : Int := (Nat.log2 n : Int) - Nat.log2 d
  let ok := if 0 ≤ k then decide (d * 2 ^ k.toNat ≤ n) else decide (d ≤ n * 2 ^ (-k).toNat)
  (if ok then k else k - 1) + e

/-- Round (n / d) × 2^e to a multiple of 2^q: the multiple, and whether that is inexact. -/
def roundAt (rm : Rm) (neg : Bool) (n d : Nat) (e q : Int) : Nat × Bool :=
  if q ≤ e then roundInt rm neg (n * 2 ^ (e - q).toNat) d else roundInt rm neg n (d * 2 ^ (q - e).toNat)

/-- What rounding gives: a code with its flags, or an overflow that goes to ∞ or to the largest finite value (R158). -/
inductive Rounded where
  | ok (r : FRes)
  | over (toInf : Bool)
  deriving DecidableEq, Repr

/-- Round the nonzero magnitude (n / d) × 2^e of a sign once (R158): tininess is judged after rounding with an unbounded
exponent, and a tiny inexact result raises UF. -/
def FFmt.round (F : FFmt) (rm : Rm) (neg : Bool) (n d : Nat) (e : Int) : Rounded :=
  if n = 0 then .ok { bits := F.signBit neg }
  else
    let E := ilog n d e
    let (r, inx) := roundAt rm neg n d e (E - F.mw)
    let (r, E) := if r == 2 ^ (F.mw + 1) then (2 ^ F.mw, E + 1) else (r, E)
    if F.emax < E || (E == F.emax && decide (F.maxSig < r)) then
      .over (match rm with | .rn => true | .rna => true | .rz => false | .rd => neg | .ru => !neg)
    else if F.emin ≤ ilog n d e then
      .ok { bits := F.signBit neg + (E + F.bias).toNat * 2 ^ F.mw + (r - 2 ^ F.mw), flags := if inx then flNX else 0 }
    else
      let (q, inx) := roundAt rm neg n d e (F.emin - F.mw)
      let tiny := decide (E < F.emin)
      .ok { bits := F.signBit neg + q, flags := if inx then (if tiny then flNX ||| flUF else flNX) else 0 }

/-- The result of an operation: an overflow is settled by R158, with OF and NX. -/
def FFmt.settle (F : FFmt) (neg : Bool) : Rounded → FRes
  | .ok r => r
  | .over true => { bits := F.infBits neg, flags := flOF ||| flNX }
  | .over false => { bits := F.maxBits neg, flags := flOF ||| flNX }

/-- Round a magnitude to a format as an operation's result. -/
def FFmt.result (F : FFmt) (rm : Rm) (neg : Bool) (n d : Nat) (e : Int) : FRes := F.settle neg (F.round rm neg n d e)

/-- Round a signed dyadic number m × 2^e; a zero takes the given sign. -/
def FFmt.resultInt (F : FFmt) (rm : Rm) (zneg : Bool) (m : Int) (e : Int) : FRes :=
  if m = 0 then { bits := F.signBit zneg } else F.result rm (decide (m < 0)) m.natAbs 1 e

/-- The NaN result of an operation with a NaN operand: the first, quieted; a signalling NaN raises IV (R159). -/
def FFmt.nanRule (F : FFmt) (ops : List Nat) : Option FRes :=
  match ops.find? F.isNan with
  | some b => some { bits := F.quiet b, flags := if ops.any F.isSnan then flIV else 0 }
  | none => none

/-- An invalid operation without a NaN operand (R159). -/
def FFmt.invalid (F : FFmt) : FRes := { bits := F.canon, flags := flIV }

/-- A signed significand. -/
def sigInt (neg : Bool) (sig : Nat) : Int := if neg then -(sig : Int) else sig

/-- The exact sum of two dyadic numbers. -/
def addDyadic (m1 : Int) (e1 : Int) (m2 : Int) (e2 : Int) : Int × Int :=
  let e := min e1 e2
  (m1 * 2 ^ (e1 - e).toNat + m2 * 2 ^ (e2 - e).toNat, e)

/-- The sign of an exact zero sum: two zeros of one sign keep it; every other exact zero sum is +0, or −0 under rd (R158). -/
def zeroSumSign (rm : Rm) (n1 n2 : Bool) (bothZero : Bool) : Bool :=
  if bothZero && n1 == n2 then n1 else rm == .rd

/-- Addition (R200). -/
def FFmt.add (F : FFmt) (rm : Rm) (a b : Nat) : FRes :=
  match F.nanRule [a, b] with
  | some r => r
  | none =>
    match F.decode a, F.decode b with
    | .inf n1, .inf n2 => if n1 == n2 then { bits := F.infBits n1 } else F.invalid
    | .inf n1, _ => { bits := F.infBits n1 }
    | _, .inf n2 => { bits := F.infBits n2 }
    | .fin n1 s1 e1, .fin n2 s2 e2 =>
      let (m, e) := addDyadic (sigInt n1 s1) e1 (sigInt n2 s2) e2
      F.resultInt rm (zeroSumSign rm n1 n2 (s1 == 0 && s2 == 0)) m e
    | _, _ => F.invalid

/-- The code of the opposite sign. -/
def FFmt.neg (F : FFmt) (b : Nat) : Nat :=
  if b.testBit (F.mw + F.ew) then b - 2 ^ (F.mw + F.ew) else b + 2 ^ (F.mw + F.ew)

/-- Subtraction: b's sign is turned for the sum, and a NaN b is returned as it is (R159, R200). -/
def FFmt.sub (F : FFmt) (rm : Rm) (a b : Nat) : FRes :=
  match F.nanRule [a, b] with
  | some r => r
  | none => F.add rm a (F.neg b)

/-- Multiplication (R200). -/
def FFmt.mul (F : FFmt) (rm : Rm) (a b : Nat) : FRes :=
  match F.nanRule [a, b] with
  | some r => r
  | none =>
    match F.decode a, F.decode b with
    | .inf n1, .inf n2 => { bits := F.infBits (n1 != n2) }
    | .inf n1, .fin n2 s _ => if s = 0 then F.invalid else { bits := F.infBits (n1 != n2) }
    | .fin n1 s _, .inf n2 => if s = 0 then F.invalid else { bits := F.infBits (n1 != n2) }
    | .fin n1 s1 e1, .fin n2 s2 e2 => F.result rm (n1 != n2) (s1 * s2) 1 (e1 + e2)
    | _, _ => F.invalid

/-- Fused multiply and add: one rounding of a × b + c (R158, R200). -/
def FFmt.fma (F : FFmt) (rm : Rm) (a b c : Nat) : FRes :=
  match F.nanRule [a, b, c] with
  | some r => r
  | none =>
    let sum := fun (pn : Bool) (c : FVal) => match c with
      | .inf n => if n == pn then { bits := F.infBits n } else F.invalid
      | _ => { bits := F.infBits pn }
    match F.decode a, F.decode b, F.decode c with
    | .inf n1, .inf n2, z => sum (n1 != n2) z
    | .inf n1, .fin n2 s _, z => if s = 0 then F.invalid else sum (n1 != n2) z
    | .fin n1 s _, .inf n2, z => if s = 0 then F.invalid else sum (n1 != n2) z
    | .fin _ _ _, .fin _ _ _, .inf n => { bits := F.infBits n }
    | .fin n1 s1 e1, .fin n2 s2 e2, .fin n3 s3 e3 =>
      let pn := n1 != n2
      let (m, e) := addDyadic (sigInt pn (s1 * s2)) (e1 + e2) (sigInt n3 s3) e3
      F.resultInt rm (zeroSumSign rm pn n3 (s1 * s2 == 0 && s3 == 0)) m e
    | _, _, _ => F.invalid

/-- Division: a finite nonzero dividend by zero gives ∞ with DZ (Table 8.4, R200). -/
def FFmt.div (F : FFmt) (rm : Rm) (a b : Nat) : FRes :=
  match F.nanRule [a, b] with
  | some r => r
  | none =>
    match F.decode a, F.decode b with
    | .inf _, .inf _ => F.invalid
    | .inf n1, .fin n2 _ _ => { bits := F.infBits (n1 != n2) }
    | .fin n1 _ _, .inf n2 => { bits := F.signBit (n1 != n2) }
    | .fin n1 s1 e1, .fin n2 s2 e2 =>
      if s2 = 0 then
        if s1 = 0 then F.invalid else { bits := F.infBits (n1 != n2), flags := flDZ }
      else F.result rm (n1 != n2) s1 s2 (e1 - e2)
    | _, _ => F.invalid

/-- One step of the integer square root: bit k is taken when the square still fits. -/
def sqrtStep (n : Nat) (r k : Nat) : Nat := if (r + 2 ^ k) * (r + 2 ^ k) ≤ n then r + 2 ^ k else r

/-- The integer square root, bit by bit from the top. -/
def isqrt (n : Nat) : Nat := ((List.range (Nat.log2 n / 2 + 1)).reverse).foldl (sqrtStep n) 0

/-- The square root of (n / d) × 2^e as a number to round: twice a floor at many more bits than any format has, plus one
when the floor is not exact. -/
def sqrtParts (n d : Nat) (e : Int) : Nat × Int :=
  let p : Int := 2 * (140 + Nat.log2 d) + e % 2
  let m := n * 2 ^ p.toNat
  let s := isqrt (m / d)
  let exact := s * s * d == m
  (if exact then 2 * s else 2 * s + 1, (e - p) / 2 - 1)

/-- The square root: of a negative number it is invalid, of −0 it is −0 (R159). -/
def FFmt.sqrt (F : FFmt) (rm : Rm) (a : Nat) : FRes :=
  match F.nanRule [a] with
  | some r => r
  | none =>
    match F.decode a with
    | .inf n => if n then F.invalid else { bits := F.infBits false }
    | .fin n s e =>
      if s = 0 then { bits := F.signBit n } else if n then F.invalid
      else let (m, k) := sqrtParts s 1 e; F.result rm false m 1 k
    | _ => F.invalid

/-- Compare two finite or infinite values as reals. -/
def cmpVal : FVal → FVal → Ordering
  | .inf n1, .inf n2 => if n1 == n2 then .eq else if n1 then .lt else .gt
  | .inf n, _ => if n then .lt else .gt
  | _, .inf n => if n then .gt else .lt
  | .fin n1 s1 e1, .fin n2 s2 e2 =>
    let e := min e1 e2
    compare (sigInt n1 s1 * 2 ^ (e1 - e).toNat) (sigInt n2 s2 * 2 ^ (e2 - e).toNat)
  | _, _ => .eq

/-- a < b as reals; codes that are no NaN. -/
def FFmt.lt (F : FFmt) (a b : Nat) : Bool := cmpVal (F.decode a) (F.decode b) == .lt
/-- a ≤ b as reals. -/
def FFmt.le (F : FFmt) (a b : Nat) : Bool := cmpVal (F.decode a) (F.decode b) != .gt
/-- a = b as reals: −0 equals +0. -/
def FFmt.eqv (F : FFmt) (a b : Nat) : Bool := cmpVal (F.decode a) (F.decode b) == .eq

/-- The lesser of two numbers, −0 below +0 (R160). -/
def FFmt.lesser (F : FFmt) (a b : Nat) : Nat :=
  match cmpVal (F.decode a) (F.decode b) with
  | .lt => a
  | .gt => b
  | .eq => if a.testBit (F.mw + F.ew) then a else b

/-- The greater of two numbers, +0 above −0. -/
def FFmt.greater (F : FFmt) (a b : Nat) : Nat :=
  match cmpVal (F.decode a) (F.decode b) with
  | .lt => b
  | .gt => a
  | .eq => if a.testBit (F.mw + F.ew) then b else a

/-- minimumNumber or maximumNumber, or with `prop` the NaN-propagating minimum or maximum (R160). -/
def FFmt.minmax (F : FFmt) (max prop : Bool) (a b : Nat) : FRes :=
  let fl := if F.isSnan a || F.isSnan b then flIV else 0
  if F.isNan a || F.isNan b then
    if prop || (F.isNan a && F.isNan b) then { bits := (F.nanRule [a, b]).map (·.bits) |>.getD 0, flags := fl }
    else { bits := if F.isNan a then b else a, flags := fl }
  else { bits := if max then F.greater a b else F.lesser a b, flags := fl }

/-! ### Conversions -/

/-- A NaN in a wider or narrower format (R163, R164). -/
def cvtNan (F G : FFmt) (neg : Bool) (frac : Nat) : Nat :=
  if G.e4m3 then G.signBit neg + 2 ^ (G.ew + G.mw) - 1
  else
    let f := if F.mw ≤ G.mw then frac * 2 ^ (G.mw - F.mw) else frac / 2 ^ (F.mw - G.mw)
    G.signBit neg + (2 ^ G.ew - 1) * 2 ^ G.mw + (if f = 0 then 1 else f)

/-- A conversion from format F to format G (R163, R164, Table 8.5). -/
def cvtFloat (F G : FFmt) (rm : Rm) (sat : Bool) (b : Nat) : FRes :=
  match F.decode b with
  | .nan neg frac => { bits := cvtNan F G neg frac }
  | .inf neg =>
    if sat then { bits := G.maxBits neg, flags := flSAT }
    else { bits := G.infBits neg, flags := if G.e4m3 then flIV else 0 }
  | .fin neg sig e =>
    match G.round rm neg sig 1 e with
    | .ok r => r
    | .over true =>
      if sat then { bits := G.maxBits neg, flags := flSAT ||| flNX } else { bits := G.infBits neg, flags := flOF ||| flNX }
    | .over false => { bits := G.maxBits neg, flags := flOF ||| flNX }

/-- The exact FP64 code of an FP32 code. -/
def f32to64 (b : Nat) : Nat := (cvtFloat fp32 fp64 .rn false b).bits

/-- F2I: to an integer of W bits, signed or not (R165). -/
def floatToInt (F : FFmt) (rm : Rm) (W : Nat) (signed : Bool) (b : Nat) : Int × BitVec 8 :=
  let lo : Int := if signed then -(2 ^ (W - 1)) else 0
  let hi : Int := if signed then 2 ^ (W - 1) - 1 else 2 ^ W - 1
  match F.decode b with
  | .nan _ _ => (0, flIV)
  | .inf neg => (if neg then lo else hi, flIV)
  | .fin neg sig e =>
    let (q, inx) := roundAt rm neg sig 1 e 0
    let v := sigInt neg q
    if v < lo then (lo, flIV) else if hi < v then (hi, flIV) else (v, if inx then flNX else 0)

/-- I2F (R165). -/
def intToFloat (F : FFmt) (rm : Rm) (v : Int) : FRes := F.resultInt rm false v 0

/-- Rounding to an integral value in the format, keeping the sign of a zero; it raises no NX (R209). -/
def FFmt.roundIntegral (F : FFmt) (rm : Rm) (b : Nat) : FRes :=
  match F.nanRule [b] with
  | some r => r
  | none =>
    match F.decode b with
    | .fin neg sig e =>
      if 0 ≤ e then { bits := b } else { bits := (F.result rm neg (roundAt rm neg sig 1 e 0).1 1 0).bits }
    | _ => { bits := b }

/-- a × 2^n, rounded once (R210). -/
def FFmt.scale (F : FFmt) (rm : Rm) (a : Nat) (n : Int) : FRes :=
  match F.nanRule [a] with
  | some r => r
  | none =>
    match F.decode a with
    | .fin neg sig e => if sig = 0 then { bits := a } else F.result rm neg sig 1 (e + n)
    | _ => { bits := a }

end Sys2Proof
end

