-- ==== Sys2Proof/Decode.lean ====
section
/-!
DEFINITION. Reading an instruction from the 96 bits of a slot (05 R59 to R94, Tables 5.4 to 5.13), and after it the
encoder. The decoder is total on any bytes and rejects by name; every rejection is ILLEGAL_OP to the machine (R93).
-/
namespace Sys2Proof

/-- Why a slot is no legal instruction (R93). -/
inductive Reject where
  /-- Fewer than 12 bytes. -/
  | short
  /-- The opcode is unassigned (R91). -/
  | opcode (op : Nat)
  /-- GP is 12 to 14, or GP = 15 with GS = 1 (R76). -/
  | guard
  /-- CF is 11 (R67). -/
  | attach
  /-- An operand field holds a value of no meaning (R77, R87). -/
  | operand
  /-- TY is 15 (R83), or an access type is (Table 5.9). -/
  | type
  /-- RM is 5 to 7 (R84). -/
  | rounding
  /-- ORD or SCOPE is illegal (R86). -/
  | order
  /-- QUEUE is 6 or 7, or a tag or guard field is set without its valid bit (R87). -/
  | queue
  /-- A bit that must be zero is set (R87, R89, R90). -/
  | reserved
  /-- A field is illegal for the opcode (R78 and the entry). -/
  | fields
  deriving DecidableEq, Repr

/-- GP and GS (R76). -/
def decodeGuard (gp : BitVec 4) (gs : Bool) : Except Reject Guard :=
  if h : gp.toNat < 12 then .ok (.pred ⟨gp.toNat, h⟩ gs)
  else if gp.toNat = 15 ∧ gs = false then .ok .always
  else .error .guard

/-- CF (R67). -/
def decodeAttach (cf : BitVec 2) : Except Reject Attach :=
  match cf.toNat with
  | 0 => .ok .none
  | 1 => .ok .flagA
  | 2 => .ok .flagB
  | _ => .error .attach

/-- A source field and its kind bit (Table 5.5). -/
def decodeSrc (k : Bool) (n : BitVec 8) : Except Reject Src :=
  if k then
    if h : n.toNat < 192 then .ok (.uni ⟨n.toNat, h⟩) else if n.toNat = 255 then .ok .imm else .error .operand
  else if h : n.toNat < 128 then .ok (.name ⟨n.toNat, h⟩) else .error .operand

/-- A destination field and its kind bit (Table 5.5). -/
def decodeDst (k : Bool) (n : BitVec 8) : Except Reject Dst :=
  if k then
    if h : n.toNat < 192 then .ok (.uni ⟨n.toNat, h⟩) else .error .operand
  else if h : n.toNat < 128 then .ok (.name ⟨n.toNat, h⟩) else .error .operand

/-- TY of formats A and E (Table 5.6). -/
def decodeTy (c : BitVec 4) : Except Reject Ty :=
  match c.toNat with
  | 0 => .ok .i8x8 | 1 => .ok .n8x8 | 2 => .ok .i16x4 | 3 => .ok .n16x4 | 4 => .ok .i32 | 5 => .ok .n32
  | 6 => .ok .i64 | 7 => .ok .n64 | 8 => .ok .f32 | 9 => .ok .f64 | 10 => .ok .f16x4 | 11 => .ok .bf16x4
  | 12 => .ok .f32x2 | 13 => .ok .iv32 | 14 => .ok .iv64 | _ => .error .type

/-- RM (Table 5.7). -/
def decodeRm (c : BitVec 3) : Except Reject Rm :=
  match c.toNat with
  | 0 => .ok .rn | 1 => .ok .rz | 2 => .ok .rd | 3 => .ok .ru | 4 => .ok .rna | _ => .error .rounding

/-- TY of format M (Table 5.9). -/
def decodeMTy (c : BitVec 4) : Except Reject MTy :=
  match c.toNat with
  | 0 => .ok .n8 | 1 => .ok .i8 | 2 => .ok .n16 | 3 => .ok .i16 | 4 => .ok .i32 | 5 => .ok .n32
  | 6 => .ok .i64 | 7 => .ok .n64 | 8 => .ok .f16x4 | 9 => .ok .bf16x4 | 10 => .ok .f32x2 | 11 => .ok .i8x8
  | 12 => .ok .i16x4 | 13 => .ok .iv32 | 14 => .ok .iv64 | _ => .error .type

/-- ORD (Table 5.8). -/
def decodeOrd (c : BitVec 3) : Except Reject Ord :=
  match c.toNat with
  | 0 => .ok .plain | 1 => .ok .acq | 2 => .ok .rel | 3 => .ok .acqRel | 4 => .ok .sc | _ => .error .order

/-- SCOPE (Table 5.8). -/
def decodeScope (c : BitVec 4) : Except Reject Scope :=
  match c.toNat with
  | 0 => .ok .thread | 1 => .ok .warp | 2 => .ok .crew | 3 => .ok .wg | 4 => .ok .cluster | 5 => .ok .die
  | 6 => .ok .module | 7 => .ok .pod | 8 => .ok .sys | _ => .error .order

/-- QUEUE (Table 5.10). -/
def decodeQueue (c : BitVec 3) : Except Reject QueueName :=
  match c.toNat with
  | 0 => .ok .mq | 1 => .ok (.cq 0) | 2 => .ok (.cq 1) | 3 => .ok (.cq 2) | 4 => .ok (.cq 3) | 5 => .ok .xq
  | _ => .error .queue

/-- A uniform source of format E (R87). -/
def decodeUSrc (n : BitVec 8) : Except Reject USrc :=
  if h : n.toNat < 192 then .ok (.uni ⟨n.toNat, h⟩) else if n.toNat = 255 then .ok .imm else .error .operand

/-- A field that its valid bit makes present; without the bit it must be zero (R87). -/
def decodeOpt (v : Bool) (n : BitVec k) : Except Reject (Option (Fin (2 ^ k))) :=
  if v then .ok (some ⟨n.toNat, n.isLt⟩) else if n = 0 then .ok none else .error .queue

/-- Format A (Table 5.4). -/
def decodeA (w : Slot) : Except Reject FmtA := do
  let guard ← decodeGuard (field w 8 4) (bitAt w 12)
  let cf ← decodeAttach (field w 13 2)
  let dst ← decodeDst (bitAt w 24) (field w 16 8)
  let sa ← decodeSrc (bitAt w 33) (field w 25 8)
  let sb ← decodeSrc (bitAt w 42) (field w 34 8)
  let sc ← decodeSrc (bitAt w 51) (field w 43 8)
  let ty ← decodeTy (field w 52 4)
  let rm ← decodeRm (field w 60 3)
  return { guard, cf, ru := bitAt w 15, dst, sa, sb, sc, ty, fn := field w 56 4, rm, nf := bitAt w 63,
           imm := field w 64 32 }

/-- Format M (Table 5.8). -/
def decodeM (w : Slot) : Except Reject FmtM := do
  let guard ← decodeGuard (field w 8 4) (bitAt w 12)
  let cf ← decodeAttach (field w 13 2)
  let dst ← decodeDst (bitAt w 24) (field w 16 8)
  let base ← decodeSrc (bitAt w 33) (field w 25 8)
  let data ← decodeSrc (bitAt w 42) (field w 34 8)
  let index ← decodeSrc (bitAt w 51) (field w 43 8)
  let ty ← decodeMTy (field w 52 4)
  let ord ← decodeOrd (field w 56 3)
  let scope ← decodeScope (field w 59 4)
  return { guard, cf, ru := bitAt w 15, dst, base, data, index, ty, ord, scope, st := bitAt w 63,
           offset := field w 64 32 }

/-- Format E (Table 5.10). -/
def decodeE (w : Slot) : Except Reject FmtE := do
  let guard ← decodeGuard (field w 8 4) (bitAt w 12)
  let cf ← decodeAttach (field w 13 2)
  let tag ← decodeOpt (bitAt w 22) (field w 16 6)
  let slot ← decodeOpt (bitAt w 27) (field w 23 4)
  let queue ← decodeQueue (field w 28 3)
  let sa ← decodeUSrc (field w 32 8)
  let sb ← decodeUSrc (field w 40 8)
  let sc ← decodeUSrc (field w 48 8)
  if bitAt w 31 then .error .reserved
  else return { guard, cf, ru := bitAt w 15, tag, slot, queue, sa, sb, sc, sub := field w 56 8,
                imm := field w 64 32 }

/-- One (predicate, target) pair of format B (R89). -/
def decodePair (p : BitVec 21) : Except Reject BPair :=
  let n := fieldNat p 0 4
  if h : n < 12 then .ok { test := .pred ⟨n, h⟩ (bitAt p 4), offset := field p 5 16 }
  else if n = 15 ∧ bitAt p 4 = false then .ok { test := .always, offset := field p 5 16 }
  else .error .operand

/-- Format B (Table 5.11): pairs beyond N are zero, and so are bits [95:94]. -/
def decodeB (w : Slot) : Except Reject FmtB := do
  let p0 ← decodePair (field w 10 21)
  let q1 := field w 31 21
  let q2 := field w 52 21
  let q3 := field w 73 21
  if field w 94 2 ≠ 0 then .error .reserved
  else match fieldNat w 8 2 with
  | 0 => if q1 = 0 ∧ q2 = 0 ∧ q3 = 0 then return { p0, more := [] } else .error .reserved
  | 1 => do
    let p1 ← decodePair q1
    if q2 = 0 ∧ q3 = 0 then return { p0, more := [p1] } else .error .reserved
  | 2 => do
    let p1 ← decodePair q1
    let p2 ← decodePair q2
    if q3 = 0 then return { p0, more := [p1, p2] } else .error .reserved
  | _ => do
    let p1 ← decodePair q1
    let p2 ← decodePair q2
    let p3 ← decodePair q3
    return { p0, more := [p1, p2, p3] }

/-- A flag number of format H with its valid bit (R90). -/
def decodeFlag (v : Bool) (n : BitVec 4) : Except Reject (Option (Fin 12)) :=
  if v then (if h : n.toNat < 12 then .ok (some ⟨n.toNat, h⟩) else .error .operand)
  else if n = 0 then .ok none else .error .reserved

/-- Format H (Table 5.12). -/
def decodeH (w : Slot) : Except Reject FmtH := do
  let fa ← decodeFlag (bitAt w 24) (field w 20 4)
  let fb ← decodeFlag (bitAt w 29) (field w 25 4)
  if field w 64 32 ≠ 0 ∨ bitAt w 31 = true then .error .reserved
  else return { wait := field w 8 12, fa, fb, yh := bitAt w 30, live := field w 32 32 }

/-- A slot of the extension space (R94): bits [15:0] are checked as format A. -/
def decodeX (w : Slot) : Except Reject FmtX := do
  let guard ← decodeGuard (field w 8 4) (bitAt w 12)
  let cf ← decodeAttach (field w 13 2)
  return { op := field w 0 4, guard, cf, ru := bitAt w 15, rest := field w 16 80 }

/-- The format-A instruction of an opcode (Table 5.13). -/
def mkA (op : Nat) (f : FmtA) : Option Instr :=
  match op with
  | 0x02 => some (.nop f)
  | 0x03 => some (.bra f)
  | 0x05 => some (.call f)
  | 0x06 => some (.ret f)
  | 0x07 => some (.jmpi f)
  | 0x08 => some (.exit f)
  | 0x09 => some (.yield f)
  | 0x0A => some (.wsync f)
  | 0x0B => some (.elect f)
  | 0x0C => some (.vote f)
  | 0x0D => some (.icmp f)
  | 0x0E => some (.plop f)
  | 0x0F => some (.p2s f)
  | 0x10 => some (.s2p f)
  | 0x11 => some (.brk f)
  | 0x12 => some (.trap f)
  | 0x20 => some (.move f)
  | 0x21 => some (.cpy f)
  | 0x22 => some (.give f)
  | 0x23 => some (.take f)
  | 0x24 => some (.aliasName f)
  | 0x25 => some (.unmap f)
  | 0x26 => some (.perm f)
  | 0x27 => some (.swapn f)
  | 0x28 => some (.mapq f)
  | 0x29 => some (.mbxq f)
  | 0x30 => some (.iadd f)
  | 0x31 => some (.iaddc f)
  | 0x32 => some (.isub f)
  | 0x33 => some (.imul f)
  | 0x34 => some (.imulh f)
  | 0x35 => some (.imad f)
  | 0x36 => some (.idiv f)
  | 0x37 => some (.irem f)
  | 0x38 => some (.imin f)
  | 0x39 => some (.imax f)
  | 0x3A => some (.iabs f)
  | 0x3B => some (.bfn f)
  | 0x3C => some (.shl f)
  | 0x3D => some (.shr f)
  | 0x3E => some (.sar f)
  | 0x3F => some (.rotl f)
  | 0x40 => some (.bfe f)
  | 0x41 => some (.bfi f)
  | 0x42 => some (.popc f)
  | 0x43 => some (.clz f)
  | 0x44 => some (.brev f)
  | 0x45 => some (.sel f)
  | 0x46 => some (.lea f)
  | 0x47 => some (.movi f)
  | 0x48 => some (.vread f)
  | 0x49 => some (.redux f)
  | 0x4A => some (.shfl f)
  | 0x4B => some (.srd f)
  | 0x4C => some (.swr f)
  | 0x50 => some (.fadd f)
  | 0x51 => some (.fsub f)
  | 0x52 => some (.fmul f)
  | 0x53 => some (.ffma f)
  | 0x54 => some (.fdiv f)
  | 0x55 => some (.fsqrt f)
  | 0x56 => some (.frcp f)
  | 0x57 => some (.frsq f)
  | 0x58 => some (.fexp2 f)
  | 0x59 => some (.flog2 f)
  | 0x5A => some (.fsin f)
  | 0x5B => some (.fcos f)
  | 0x5C => some (.fmin f)
  | 0x5D => some (.fmax f)
  | 0x5E => some (.fabs f)
  | 0x5F => some (.fneg f)
  | 0x60 => some (.fcmp f)
  | 0x61 => some (.fclass f)
  | 0x62 => some (.fcvt f)
  | 0x63 => some (.f2i f)
  | 0x64 => some (.i2f f)
  | 0x65 => some (.frnd f)
  | 0x66 => some (.fscale f)
  | 0x67 => some (.fdot f)
  | 0x68 => some (.ivmk f)
  | 0x69 => some (.ivlo f)
  | 0x6A => some (.ivhi f)
  | 0x6B => some (.ivhull f)
  | 0x6C => some (.ivmeet f)
  | 0x6D => some (.ivmid f)
  | 0x6E => some (.ivwid f)
  | 0x6F => some (.ivin f)
  | 0x70 => some (.bisect f)
  | 0x8D => some (.chkerr f)
  | 0xA3 => some (.tagwa f)
  | 0xA4 => some (.tagwy f)
  | 0xA5 => some (.tagff f)
  | 0xA6 => some (.tagst f)
  | 0xA7 => some (.tagclr f)
  | 0xA8 => some (.gset f)
  | 0xA9 => some (.gclr f)
  | 0xB5 => some (.mchk f)
  | 0xC0 => some (.bar f)
  | 0xC1 => some (.cbar f)
  | 0xC4 => some (.spawn f)
  | 0xC5 => some (.join f)
  | 0xC6 => some (.signal f)
  | 0xD0 => some (.vbuf f)
  | 0xD1 => some (.pubv f)
  | 0xD2 => some (.vpin f)
  | 0xD3 => some (.vunpin f)
  | 0xD4 => some (.rfstop f)
  | 0xD5 => some (.vqry f)
  | 0xDA => some (.slateq f)
  | 0xE0 => some (.tret f)
  | 0xE1 => some (.trd f)
  | 0xE2 => some (.twr f)
  | 0xE3 => some (.tresume f)
  | 0xE4 => some (.tkill f)
  | 0xE5 => some (.temu f)
  | 0xE6 => some (.icinv f)
  | 0xE7 => some (.fflags f)
  | _ => none

/-- The format-M instruction of an opcode (Table 5.13). -/
def mkM (op : Nat) (f : FmtM) : Option Instr :=
  match op with
  | 0x80 => some (.ld f)
  | 0x81 => some (.st f)
  | 0x82 => some (.ldl f)
  | 0x83 => some (.stl f)
  | 0x84 => some (.ldt f)
  | 0x85 => some (.stt f)
  | 0x86 => some (.ldu f)
  | 0x87 => some (.atom f)
  | 0x88 => some (.atomc f)
  | 0x89 => some (.red f)
  | 0x8A => some (.pref f)
  | 0x8B => some (.cctl f)
  | 0x8C => some (.fence f)
  | 0xC2 => some (.arrive f)
  | 0xC3 => some (.await f)
  | 0xC7 => some (.qpush f)
  | 0xC8 => some (.qpop f)
  | _ => none

/-- The format-E instruction of an opcode (Table 5.13). -/
def mkE (op : Nat) (f : FmtE) : Option Instr :=
  match op with
  | 0xA0 => some (.cpya f)
  | 0xA1 => some (.cpyt f)
  | 0xA2 => some (.cpyg f)
  | 0xAA => some (.qfence f)
  | 0xB0 => some (.mma f)
  | 0xB1 => some (.mmar f)
  | 0xB2 => some (.mzero f)
  | 0xB3 => some (.mldacc f)
  | 0xB4 => some (.mdrain f)
  | 0xB6 => some (.mtrn f)
  | 0xD8 => some (.coll f)
  | 0xD9 => some (.collx f)
  | _ => none

/-- An instruction of an assigned opcode whose fields are legal (check 7 of Table 5.3). -/
def legal (op : Nat) : Option Instr → Except Reject Instr
  | some i => if i.wf then .ok i else .error .fields
  | none => .error (.opcode op)

/-- The format of an opcode (Table 5.14). -/
inductive Fmt where
  | a | m | e | b | h | x | none
  deriving DecidableEq, Repr

/-- The format of each opcode (Tables 5.13 and 5.14). -/
def fmtOf (op : Nat) : Fmt :=
  if op = 0x01 then .h
  else if op = 0x04 then .b
  else if 0xF0 ≤ op then .x
  else if (0x80 ≤ op ∧ op ≤ 0x8C) ∨ op = 0xC2 ∨ op = 0xC3 ∨ op = 0xC7 ∨ op = 0xC8 then .m
  else if (0xA0 ≤ op ∧ op ≤ 0xA2) ∨ op = 0xAA ∨ (0xB0 ≤ op ∧ op ≤ 0xB4) ∨ op = 0xB6 ∨ op = 0xD8 ∨ op = 0xD9 then .e
  else if (0x02 ≤ op ∧ op ≤ 0x12) ∨ (0x20 ≤ op ∧ op ≤ 0x29) ∨ (0x30 ≤ op ∧ op ≤ 0x4C) ∨ (0x50 ≤ op ∧ op ≤ 0x70)
    ∨ op = 0x8D ∨ (0xA3 ≤ op ∧ op ≤ 0xA9) ∨ op = 0xB5 ∨ op = 0xC0 ∨ op = 0xC1 ∨ (0xC4 ≤ op ∧ op ≤ 0xC6)
    ∨ (0xD0 ≤ op ∧ op ≤ 0xD5) ∨ op = 0xDA ∨ (0xE0 ≤ op ∧ op ≤ 0xE7) then .a
  else .none

/-- The instruction of a slot, or the reason why it is ILLEGAL_OP (R93). -/
def decodeSlot (w : Slot) : Except Reject Instr :=
  let op := fieldNat w 0 8
  match fmtOf op with
  | .h => do
    let f ← decodeH w
    legal op (some (.hdr f))
  | .b => do
    let f ← decodeB w
    legal op (some (.brm f))
  | .x => do
    let f ← decodeX w
    legal op (some (.ext f))
  | .a => do
    let f ← decodeA w
    legal op (mkA op f)
  | .m => do
    let f ← decodeM w
    legal op (mkM op f)
  | .e => do
    let f ← decodeE w
    legal op (mkE op f)
  | .none => .error (.opcode op)

/-- The 96 bits of a slot from its 12 bytes, lowest address first (R59). -/
def slotOfBytes (l : List Byte) : Slot := BitVec.ofNat 96 (natOfBytes (l.take 12))

/-- The instruction of a slot's bytes; more bytes than 12 are left alone. -/
def decodeBytes (l : List Byte) : Except Reject Instr :=
  if l.length < 12 then .error .short else decodeSlot (slotOfBytes l)

/-- The instruction that the decoder reads from a slot whose low nbits bits are w, every bit above them zero. -/
def decodeTableWord (nbits w : Nat) : Option Instr :=
  match decodeBytes (bytesOfNat 12 (w % 2 ^ nbits)) with
  | .ok i => some i
  | .error _ => none

/-! The encoder. -/

/-- One bit of an encoding. -/
def bit (b : Bool) : BitVec 1 := BitVec.ofBool b

/-- GP (R76). -/
def encodeGp : Guard → BitVec 4
  | .always => 15
  | .pred p _ => BitVec.ofNat 4 p.val

/-- GS (R76). -/
def encodeGs : Guard → Bool
  | .always => false
  | .pred _ neg => neg

/-- CF (R67). -/
def encodeAttach : Attach → BitVec 2
  | .none => 0
  | .flagA => 1
  | .flagB => 2

/-- The kind bit of a source. -/
def encodeSrcK : Src → Bool
  | .name _ => false
  | _ => true

/-- The value of a source field. -/
def encodeSrcN : Src → BitVec 8
  | .name n => BitVec.ofNat 8 n.val
  | .uni k => BitVec.ofNat 8 k.val
  | .imm => 255

/-- The kind bit of a destination. -/
def encodeDstK : Dst → Bool
  | .name _ => false
  | .uni _ => true

/-- The value of a destination field. -/
def encodeDstN : Dst → BitVec 8
  | .name n => BitVec.ofNat 8 n.val
  | .uni k => BitVec.ofNat 8 k.val

/-- QUEUE (Table 5.10). -/
def encodeQueue : QueueName → BitVec 3
  | .mq => 0
  | .cq n => BitVec.ofNat 3 (n.val + 1)
  | .xq => 5

/-- A uniform source field of format E. -/
def encodeUSrc : USrc → BitVec 8
  | .uni k => BitVec.ofNat 8 k.val
  | .imm => 255

/-- A field that is present with its valid bit. -/
def encodeOptN (k : Nat) : Option (Fin n) → BitVec k
  | some a => BitVec.ofNat k a.val
  | none => 0

/-- Bits [15:0] of formats A, M, E and the extension space. -/
def encodeLow (op : BitVec 8) (g : Guard) (cf : Attach) (ru : Bool) : BitVec 16 :=
  bit ru ++ encodeAttach cf ++ bit (encodeGs g) ++ encodeGp g ++ op

/-- Format A (Table 5.4). -/
def encodeA (op : Nat) (f : FmtA) : Slot :=
  f.imm ++ bit f.nf ++ BitVec.ofNat 3 f.rm.code ++ f.fn ++ BitVec.ofNat 4 f.ty.code
    ++ bit (encodeSrcK f.sc) ++ encodeSrcN f.sc ++ bit (encodeSrcK f.sb) ++ encodeSrcN f.sb
    ++ bit (encodeSrcK f.sa) ++ encodeSrcN f.sa ++ bit (encodeDstK f.dst) ++ encodeDstN f.dst
    ++ encodeLow (BitVec.ofNat 8 op) f.guard f.cf f.ru

/-- Format M (Table 5.8). -/
def encodeM (op : Nat) (f : FmtM) : Slot :=
  f.offset ++ bit f.st ++ BitVec.ofNat 4 f.scope.code ++ BitVec.ofNat 3 f.ord.code ++ BitVec.ofNat 4 f.ty.code
    ++ bit (encodeSrcK f.index) ++ encodeSrcN f.index ++ bit (encodeSrcK f.data) ++ encodeSrcN f.data
    ++ bit (encodeSrcK f.base) ++ encodeSrcN f.base ++ bit (encodeDstK f.dst) ++ encodeDstN f.dst
    ++ encodeLow (BitVec.ofNat 8 op) f.guard f.cf f.ru

/-- Format E (Table 5.10). -/
def encodeE (op : Nat) (f : FmtE) : Slot :=
  f.imm ++ f.sub ++ encodeUSrc f.sc ++ encodeUSrc f.sb ++ encodeUSrc f.sa ++ bit false ++ encodeQueue f.queue
    ++ bit f.slot.isSome ++ encodeOptN 4 f.slot ++ bit f.tag.isSome ++ encodeOptN 6 f.tag
    ++ encodeLow (BitVec.ofNat 8 op) f.guard f.cf f.ru

/-- One pair of format B (R89). -/
def encodePair (p : BPair) : BitVec 21 :=
  match p.test with
  | .always => p.offset ++ bit false ++ (15 : BitVec 4)
  | .pred n neg => p.offset ++ bit neg ++ BitVec.ofNat 4 n.val

/-- Pair j of format B, zero beyond N (R89). -/
def encodePairAt (f : FmtB) (j : Nat) : BitVec 21 :=
  match f.more[j]? with
  | some p => encodePair p
  | none => 0

/-- Format B (Table 5.11). -/
def encodeB (op : Nat) (f : FmtB) : Slot :=
  (0 : BitVec 2) ++ encodePairAt f 2 ++ encodePairAt f 1 ++ encodePairAt f 0 ++ encodePair f.p0
    ++ BitVec.ofNat 2 f.more.length ++ BitVec.ofNat 8 op

/-- Format H (Table 5.12). -/
def encodeH (op : Nat) (f : FmtH) : Slot :=
  (0 : BitVec 32) ++ f.live ++ bit false ++ bit f.yh ++ bit f.fb.isSome ++ encodeOptN 4 f.fb ++ bit f.fa.isSome
    ++ encodeOptN 4 f.fa ++ f.wait ++ BitVec.ofNat 8 op

/-- A slot of the extension space (R94). -/
def encodeX (f : FmtX) : Slot := f.rest ++ encodeLow ((15 : BitVec 4) ++ f.op) f.guard f.cf f.ru

/-- The fields of an instruction by its format. -/
inductive Body where
  | a (f : FmtA)
  | m (f : FmtM)
  | e (f : FmtE)
  | b (f : FmtB)
  | h (f : FmtH)
  | x (f : FmtX)
  deriving DecidableEq, Repr

/-- The opcode of an instruction and its fields (Table 5.13); none for the steps of the other agents. -/
def Instr.body : Instr → Option (Nat × Body)
  | .hdr f => some (0x01, .h f)
  | .brm f => some (0x04, .b f)
  | .ext f => some (0xF0 + f.op.toNat, .x f)
  | .nop f => some (0x02, .a f)
  | .bra f => some (0x03, .a f)
  | .call f => some (0x05, .a f)
  | .ret f => some (0x06, .a f)
  | .jmpi f => some (0x07, .a f)
  | .exit f => some (0x08, .a f)
  | .yield f => some (0x09, .a f)
  | .wsync f => some (0x0A, .a f)
  | .elect f => some (0x0B, .a f)
  | .vote f => some (0x0C, .a f)
  | .icmp f => some (0x0D, .a f)
  | .plop f => some (0x0E, .a f)
  | .p2s f => some (0x0F, .a f)
  | .s2p f => some (0x10, .a f)
  | .brk f => some (0x11, .a f)
  | .trap f => some (0x12, .a f)
  | .move f => some (0x20, .a f)
  | .cpy f => some (0x21, .a f)
  | .give f => some (0x22, .a f)
  | .take f => some (0x23, .a f)
  | .aliasName f => some (0x24, .a f)
  | .unmap f => some (0x25, .a f)
  | .perm f => some (0x26, .a f)
  | .swapn f => some (0x27, .a f)
  | .mapq f => some (0x28, .a f)
  | .mbxq f => some (0x29, .a f)
  | .iadd f => some (0x30, .a f)
  | .iaddc f => some (0x31, .a f)
  | .isub f => some (0x32, .a f)
  | .imul f => some (0x33, .a f)
  | .imulh f => some (0x34, .a f)
  | .imad f => some (0x35, .a f)
  | .idiv f => some (0x36, .a f)
  | .irem f => some (0x37, .a f)
  | .imin f => some (0x38, .a f)
  | .imax f => some (0x39, .a f)
  | .iabs f => some (0x3A, .a f)
  | .bfn f => some (0x3B, .a f)
  | .shl f => some (0x3C, .a f)
  | .shr f => some (0x3D, .a f)
  | .sar f => some (0x3E, .a f)
  | .rotl f => some (0x3F, .a f)
  | .bfe f => some (0x40, .a f)
  | .bfi f => some (0x41, .a f)
  | .popc f => some (0x42, .a f)
  | .clz f => some (0x43, .a f)
  | .brev f => some (0x44, .a f)
  | .sel f => some (0x45, .a f)
  | .lea f => some (0x46, .a f)
  | .movi f => some (0x47, .a f)
  | .vread f => some (0x48, .a f)
  | .redux f => some (0x49, .a f)
  | .shfl f => some (0x4A, .a f)
  | .srd f => some (0x4B, .a f)
  | .swr f => some (0x4C, .a f)
  | .fadd f => some (0x50, .a f)
  | .fsub f => some (0x51, .a f)
  | .fmul f => some (0x52, .a f)
  | .ffma f => some (0x53, .a f)
  | .fdiv f => some (0x54, .a f)
  | .fsqrt f => some (0x55, .a f)
  | .frcp f => some (0x56, .a f)
  | .frsq f => some (0x57, .a f)
  | .fexp2 f => some (0x58, .a f)
  | .flog2 f => some (0x59, .a f)
  | .fsin f => some (0x5A, .a f)
  | .fcos f => some (0x5B, .a f)
  | .fmin f => some (0x5C, .a f)
  | .fmax f => some (0x5D, .a f)
  | .fabs f => some (0x5E, .a f)
  | .fneg f => some (0x5F, .a f)
  | .fcmp f => some (0x60, .a f)
  | .fclass f => some (0x61, .a f)
  | .fcvt f => some (0x62, .a f)
  | .f2i f => some (0x63, .a f)
  | .i2f f => some (0x64, .a f)
  | .frnd f => some (0x65, .a f)
  | .fscale f => some (0x66, .a f)
  | .fdot f => some (0x67, .a f)
  | .ivmk f => some (0x68, .a f)
  | .ivlo f => some (0x69, .a f)
  | .ivhi f => some (0x6A, .a f)
  | .ivhull f => some (0x6B, .a f)
  | .ivmeet f => some (0x6C, .a f)
  | .ivmid f => some (0x6D, .a f)
  | .ivwid f => some (0x6E, .a f)
  | .ivin f => some (0x6F, .a f)
  | .bisect f => some (0x70, .a f)
  | .chkerr f => some (0x8D, .a f)
  | .tagwa f => some (0xA3, .a f)
  | .tagwy f => some (0xA4, .a f)
  | .tagff f => some (0xA5, .a f)
  | .tagst f => some (0xA6, .a f)
  | .tagclr f => some (0xA7, .a f)
  | .gset f => some (0xA8, .a f)
  | .gclr f => some (0xA9, .a f)
  | .mchk f => some (0xB5, .a f)
  | .bar f => some (0xC0, .a f)
  | .cbar f => some (0xC1, .a f)
  | .spawn f => some (0xC4, .a f)
  | .join f => some (0xC5, .a f)
  | .signal f => some (0xC6, .a f)
  | .vbuf f => some (0xD0, .a f)
  | .pubv f => some (0xD1, .a f)
  | .vpin f => some (0xD2, .a f)
  | .vunpin f => some (0xD3, .a f)
  | .rfstop f => some (0xD4, .a f)
  | .vqry f => some (0xD5, .a f)
  | .slateq f => some (0xDA, .a f)
  | .tret f => some (0xE0, .a f)
  | .trd f => some (0xE1, .a f)
  | .twr f => some (0xE2, .a f)
  | .tresume f => some (0xE3, .a f)
  | .tkill f => some (0xE4, .a f)
  | .temu f => some (0xE5, .a f)
  | .icinv f => some (0xE6, .a f)
  | .fflags f => some (0xE7, .a f)
  | .ld f => some (0x80, .m f)
  | .st f => some (0x81, .m f)
  | .ldl f => some (0x82, .m f)
  | .stl f => some (0x83, .m f)
  | .ldt f => some (0x84, .m f)
  | .stt f => some (0x85, .m f)
  | .ldu f => some (0x86, .m f)
  | .atom f => some (0x87, .m f)
  | .atomc f => some (0x88, .m f)
  | .red f => some (0x89, .m f)
  | .pref f => some (0x8A, .m f)
  | .cctl f => some (0x8B, .m f)
  | .fence f => some (0x8C, .m f)
  | .arrive f => some (0xC2, .m f)
  | .await f => some (0xC3, .m f)
  | .qpush f => some (0xC7, .m f)
  | .qpop f => some (0xC8, .m f)
  | .cpya f => some (0xA0, .e f)
  | .cpyt f => some (0xA1, .e f)
  | .cpyg f => some (0xA2, .e f)
  | .qfence f => some (0xAA, .e f)
  | .mma f => some (0xB0, .e f)
  | .mmar f => some (0xB1, .e f)
  | .mzero f => some (0xB2, .e f)
  | .mldacc f => some (0xB3, .e f)
  | .mdrain f => some (0xB4, .e f)
  | .mtrn f => some (0xB6, .e f)
  | .coll f => some (0xD8, .e f)
  | .collx f => some (0xD9, .e f)
  | _ => none

/-- The 96 bits of an opcode and its fields. -/
def encodeBody (op : Nat) : Body → Slot
  | .a f => encodeA op f
  | .m f => encodeM op f
  | .e f => encodeE op f
  | .b f => encodeB op f
  | .h f => encodeH op f
  | .x f => encodeX f

/-- The 96 bits of an instruction; none for a step of another agent, which has no encoding. -/
def encode (i : Instr) : Option Slot :=
  match i.body with
  | some (op, b) => some (encodeBody op b)
  | none => none

end Sys2Proof
end

