-- ==== Sys2Proof/Config.lean ====
section
/-!
DEFINITION. What one implementation fixes and the manual leaves open, as constants without a body: nothing in Lean can
evaluate them or prove a value of them. The State counter `free` numbers the uses of `freeWord` (log 3).
-/
namespace Sys2Proof.Config

/-- A value that the spec leaves open: the n-th one that the machine uses. -/
opaque freeWord : Nat → Word

/-- The hash functions of the sketches (11 R236): the column, modulo 4,096, of a frame in a row. -/
opaque sketchHash (row frame : Nat) : Nat

end Sys2Proof.Config
end

