-- ==== Sys2Proof/Machine/State.lean ====
section
/-!
DEFINITION. The state of the module as plain data: everything that the spec gives the machine (INVENTORY.md lists it rule by
rule), and the model's own fields `agenda`, `cur`, `free` and `nextUid`. A collection lists what differs from its reset
content: a register, row or line that is not listed has the value that the accessors of Machine/Ops.lean give it.
-/
namespace Sys2Proof.Machine
open Sys2Proof

/-- Why the model itself stops. -/
inductive Fault where
  /-- Raised by an instruction of a slot that is executed while the selected warp or handler run has no running thread at
  the selected PC. The module never issues such an instruction (R98); the stop is the model's own. Safe. -/
  | noIssuingRun
  deriving DecidableEq, Repr

/-- Why the model gives no answer. -/
inductive Refusal where
  /-- The arm of `exec` has no meaning yet. Safe. -/
  | notModelled (mnemonic : String)
  deriving DecidableEq, Repr

/-! ### Threads and warps -/

/-- The three states of an entry of the program-counter table (R97). -/
inductive TState where
  | running
  | parked
  | exited
  deriving DecidableEq, Repr

/-- One entry of a warp's program-counter table (R97), with what the thread carries: clause position (R66), last header
(R67), sr.fflags (R162), the PASS and XFER marks (R382, R71), whether its next arrival is that of a TRESUME.at or of a
unit's entry, a transfer still to be checked (R70, R373), and whether it has arrived at its slot and waits in the instruction (R382). -/
structure Thread where
  st       : TState := .running
  pc       : Word := 0
  pos      : Nat := 0
  hdr      : Option FmtH := none
  fflags   : BitVec 8 := 0
  pass     : Bool := false
  xfer     : Bool := false
  arriving : Bool := false
  arrived  : Bool := false
  deriving DecidableEq, Repr

/-- A join slot (R313). -/
structure JoinSlot where
  pending : Nat := 0
  normal  : Nat := 0
  faulted : Nat := 0
  killed  : Nat := 0
  deriving DecidableEq, Repr

/-- The MMAR operand latch, when it is full (R292). -/
structure Latch where
  bytes : List Byte
  name  : Nat
  fmt   : Nat
  balt  : Bool
  deriving DecidableEq, Repr

/-- A trap record (Table 22.1). HTHREAD is the lowest thread of MASK and WARP is the warp's sr.wid; `vals` gives INFO0 and INFO1 for each
thread, of which the record carries those of HTHREAD (R364). -/
structure TrapRec where
  mask  : Mask
  code  : Nat
  fpc   : Word
  ppc   : Word
  bits  : Slot
  vals  : List (Nat × Word × Word)
  deriving DecidableEq, Repr

/-- An entry of an engine queue (R267, R274): the command, its operand values read at issue, its progress, the generation of
the guard slot it is bound to, the flag it is attached to, the entries that a QFENCE awaits (`after`), and, once performed, its
status, fault code and trap request (`outcome`). -/
structure QEntry where
  uid      : Nat
  cmd      : Instr
  a        : Word
  b        : Word
  c        : Word
  warp     : Nat
  flag     : Option (Loc × Bool × Nat) := none
  guardGen : Option (Nat × Nat) := none
  latch    : List Byte := []
  started  : Bool := false
  progress : Nat := 0
  after    : List Nat := []
  accepted : Bool := false
  outcome  : Option (Nat × Nat × Bool) := none
  deriving DecidableEq, Repr

/-- What a waiting run waits for (R98), with what its completion needs: GIVE and TAKE name a mailbox and a name, a stalled
allocation the rows that it needs, an interlock the operations in flight, or the PCs of the instructions of other runs that wait and are still
to write what it touches, a command at a full queue its
entry, a tag wait its tags, destination and executing threads, an AWAIT its object, token and scope, a JOIN its slot, a ring
wait its ring and local offset, a handler instruction the warp whose writes it awaits, and an MCHK the entries that it awaits and its operands. -/
inductive WaitKind where
  | header (flags : BitVec 12)
  | wsync
  | exit
  | mapEdit
  | give (m n : Nat)
  | take (m n : Nat)
  | alloc (need : Nat)
  | granted (need : Nat)
  | queueFull (e : QEntry)
  | tagAll (tags : Word) (ex : Mask)
  | tagAny (tags : Word) (d : Nat) (ex : Mask)
  | barrier (cluster : Bool) (gen : Nat)
  | gather
  | await (at_ : Nat) (token : BitVec 16) (scope : Scope)
  | join (slot d q : Nat) (ex : Mask)
  | ringPush (ring off : Word) (ex : Mask)
  | ringPop (ring off : Word) (d : Nat) (ex : Mask)
  | chkerr
  | mchk (ops : List Nat) (off : Word) (stat : Bool) (d : Nat)
  | interlock (ops : List Nat)
  | written (pcs : List Word)
  | stalledWrite
  | settle (target : Loc)
  deriving DecidableEq, Repr

/-- A run that waits at a PC: the threads that issued the instruction, when the wait began, and the flag to which the instruction is attached,
which is set from its issue on (R102). -/
structure Wait where
  pc    : Word
  mask  : Mask
  kind  : WaitKind
  since : Nat
  flag  : Option Nat := none
  deriving DecidableEq, Repr

/-- Where an operation in flight writes: an element of a program row of the slice, an element of a handler row, or a
uniform register (of the bank that issued it). -/
inductive FlightDst where
  | row (r t : Nat)
  | hrow (h t : Nat)
  | uni (k : Nat)
  deriving DecidableEq, Repr

/-- An operation that has issued and has not completed: the flag it is attached to, the writes bound at its issue (R130),
and, for the trap of an extension code, the threads and the slot it covers (R94). -/
structure Flight where
  id     : Nat
  flag   : Option Nat
  load   : Bool
  writes : List (FlightDst × Word)
  since  : Nat := 0
  emu    : Option (Mask × Word) := none
  deriving DecidableEq, Repr

/-- The kind of unit to which a warp belongs (R17, R18). -/
inductive WarpKind where
  | launched
  | spawned (joined : Bool)
  | stage (pipe : Nat) (k : Nat)
  | refine (cell : Nat) (sub : Nat)
  deriving DecidableEq, Repr

/-- How a warp ends (R313). -/
inductive EndClass where
  | normal
  | killed
  | faulted
  deriving DecidableEq, Repr

/-- A pin on a cell (R326): the buffer and the version it was taken with. -/
structure Pin where
  cell    : Nat
  buf     : Nat
  version : Nat
  deriving DecidableEq, Repr

/-- A warp and everything its 32 threads share (R17, R50, R97, R102, R105). `queue` and `cookie` are those of the command from which its unit
comes (R42, R26). -/
structure Warp where
  loc      : Loc
  uid      : Nat
  wg       : Nat
  ctx      : Nat
  kind     : WarpKind := .launched
  wid      : Nat := 0
  crew     : Nat := 0
  gid      : Word := 0
  depth    : Nat := 0
  prio     : Nat := 0
  rowsRes  : Nat := 1
  balance  : Nat := 0
  placed   : Nat := 0
  threads  : List Thread
  map      : List (Option Nat) := List.replicate 128 none
  preds    : List Mask := List.replicate 12 0
  unif     : List Word := List.replicate 192 0
  flags    : List Nat := List.replicate 12 0
  fair     : Nat := 0
  fairQ    : Nat := 1024
  prevLow  : Bool := false
  fairPick : Option (Mask × Bool) := none
  serial   : Bool := false
  joins    : List JoinSlot := List.replicate 16 {}
  latch    : Option Latch := none
  records  : List TrapRec := []
  waits    : List Wait := []
  inflight : List Flight := []
  stall    : Nat := 0
  pins     : List Pin := []
  claims   : List (Nat × Nat) := []
  joinOf   : Option (Nat × Nat) := none
  bundle   : Option Nat := none
  queue    : Option QueueRef := none
  cookie   : BitVec 32 := 0
  endClass : EndClass := .normal
  cancel   : Bool := false
  leave    : Bool := false
  popped   : Bool := false
  yieldTo  : Bool := false
  readyAt  : Option (Bool × Word × Nat) := none
  deriving DecidableEq, Repr

/-! ### Slices and cores -/

/-- A program row in use (R127, R128): its holder count, the warp slot charged, and its 32 elements. -/
structure Row where
  no      : Nat
  holders : Nat
  charge  : Nat
  data    : List Word
  deriving DecidableEq, Repr

/-- What TRET does to the handler thread (R373, R375, R376): it resumes at its parked PC, at a target that its next arrival
checks, or past an emulated slot. -/
inductive Resume where
  | here
  | target (pc : Word)
  | past
  deriving DecidableEq, Repr

/-- A handler run with its bank of uniform registers, predicates and flags (R366, R367), what its TRET applies to its thread, and
whether a pre-emption has stopped it at its TRET (R385). -/
structure HRun where
  slot     : Nat
  trec     : TrapRec
  thread   : Nat
  pc       : Word
  pos      : Nat := 0
  hdr      : Option FmtH := none
  arriving : Bool := true
  arrived  : Bool := false
  unif     : List Word
  preds    : BitVec 12 := 0
  flags    : List Nat := List.replicate 12 0
  waits    : List Wait := []
  inflight : List Flight := []
  start    : Nat
  resume   : Option Resume := none
  kill     : Bool := false
  stop     : Bool := false
  deriving DecidableEq, Repr

/-- A slice (R9, R127, R136, R366): the program rows in use, the handler rows, the mailboxes, the handler run, the warp slot
served last by the handler, and the warp slot that issued last. -/
structure Slice where
  id         : SliceId
  rows       : List Row := []
  hrows      : List (List Word) := List.replicate 8 (List.replicate 32 0)
  mailboxes  : List (Option Nat) := List.replicate 16 none
  handler    : Option HRun := none
  lastServed : Nat := 0
  lastIssued : Nat := 0
  deriving DecidableEq, Repr

/-- A breakpoint comparator (Tables 22.11 and 22.12). -/
structure Comparator where
  en   : Bool := false
  addr : BitVec 56 := 0
  ctx  : BitVec 16 := 0
  mask : Mask := 0
  deriving DecidableEq, Repr

/-- A core (R11, R55, R56, R73, R103, R382): whether it is active, when it last held a warp, its comparators, its event
counters, whether its cluster's L1s are fused, and the queue of each engine served last. -/
structure CoreSt where
  id         : CoreId
  active     : Bool := false
  idleSince  : Nat := 0
  cmps       : List Comparator := List.replicate 8 {}
  pairSplit  : Nat := 0
  interlocks : Nat := 0
  fused      : Bool := false
  lastCq     : Nat := 0
  lastMq     : Nat := 0
  deriving DecidableEq, Repr

/-- A line of an instruction cache (R65). -/
structure ILine where
  core  : CoreId
  ctx   : Nat
  va    : Nat
  bytes : List Byte
  deriving DecidableEq, Repr

/-- What tags a line of an L1 beside its context (R242): the VA, in tiles of 256 bytes, for a linear access, or the tensor and the tile's
coordinates on the tile path. -/
inductive LineTag where
  | linear (va : Nat)
  | tile (tensor i0 i1 i2 i3 : Nat)
  deriving DecidableEq, Repr

/-- A line of an L1 (R242, R243): the core that owns it, its context and tag, the entry of the page it lies on, its physical tile, what it was
filled with, and the bytes written since, by offset. -/
structure L1Line where
  core  : CoreId
  ctx   : Nat
  tag   : LineTag
  entry : Word
  tile  : Nat
  fill  : Option (List Byte)
  dirty : List Host.Cell
  deriving DecidableEq, Repr

/-- A line of the coherent L2s (R245): the die that holds it, its physical tile, the context that used it, the tensor and format of its page,
and, for a fabric or host tile, what it was filled with and the bytes written since. The bytes of a local tile are those at its home. -/
structure L2Line where
  die    : Nat
  tile   : Nat
  ctx    : Nat
  tensor : Nat
  fmt    : Nat
  fill   : Option (List Byte) := none
  dirty  : List Host.Cell := []
  deriving DecidableEq, Repr

/-- A cached entry (R233, R235), for the page of 64 KiB of which an access has used it: one entry governs each such page (R234). It holds
the core, the context, the page, the 64 bits of the leaf or of the range's ATTR, the location of the page's first byte, and whether a range
entry gave it. A die's second-level entry names the first core of its die. -/
structure TlbEntry where
  core  : CoreId
  ctx   : Nat
  page  : Nat
  entry : Word
  base  : Nat
  range : Bool := false
  deriving DecidableEq, Repr

/-! ### Workgroups -/

/-- A tag (R270). `code` is the class of its deferred trap; `pod` says that a collective names it, whose completion is observed
at pod scope (R348). -/
structure Tag where
  pending  : Nat := 0
  status   : Nat := 0
  fcode    : Nat := 0
  trappend : Bool := false
  code     : Nat := 0
  pod      : Bool := false
  deriving DecidableEq, Repr

/-- A checksum record (R294): floating sums are FP64 bits; the INT8 sums are kept modulo 2^32. -/
structure CkRec where
  off     : Nat
  m       : Nat
  n       : Nat
  kind    : Nat
  rows    : List Word
  cols    : List Word
  mu      : Word
  skip    : Nat
  sat     : Bool := false
  drained : Bool := false
  mism    : Nat := 0
  unchk   : Nat := 0
  deriving DecidableEq, Repr

/-- A barrier's open generation (R303): its number, the warps that have arrived (by uid), and its count when it has one; `owed`
lists the warps that arrived in a generation that completed while they could not proceed (R321, R379). -/
structure BarGen where
  gen     : Nat := 0
  arrived : List Nat := []
  count   : Option Nat := none
  opened  : Bool := false
  owed    : List Nat := []
  deriving DecidableEq, Repr

/-- What a launch, an entry record or a pipe stage asks for one workgroup or wave (Tables 3.6, 3.9, 15.4). -/
structure Footprint where
  entry  : Word := 0
  warps  : Nat := 1
  crew   : Nat := 1
  rows   : Nat := 1
  tags   : Nat := 0
  guards : Nat := 0
  loc    : Nat := 0
  acckib : Nat := 0
  fairq  : Nat := 1024
  limit  : Nat := 0
  deriving DecidableEq, Repr

/-- A unit that has ended and whose end has not been counted yet (R313, R315, R329): the core on which it ended, its bundle, the
join slot that counts it, and, for an instance, its cell, subscriber and version. -/
structure Ended where
  uid      : Nat
  ctx      : Nat
  core     : CoreId
  endClass : EndClass
  bundle   : Option Nat
  joinOf   : Option (Nat × Nat)
  inst     : Option (Nat × Nat × Nat)
  deriving DecidableEq, Repr

/-- A resident workgroup, or the workgroup-equivalent of a wave (R17, R54): where it is, its allotments, tags, guard slots,
engine queues, checksum records, barrier and runtime, the offsets of the barrier objects that it has used (R305), and the cookie of its command.
`ending` is the end of a spawned wave's own unit, kept until it retires. A workgroup that has retired (`retired`) stays until its cluster group
retires (R17), and, without slices and allotments, until its entries of xq have completed (R407). -/
structure Wg where
  uid      : Nat
  ctx      : Nat
  wave     : Bool := false
  number   : Nat := 0
  bundle   : Option Nat := none
  group    : Option Nat := none
  core     : CoreId
  slices   : List Nat := []
  foot     : Footprint := {}
  prio     : Nat := 0
  locBase  : Nat := 0
  accBase  : Nat := 0
  locMem   : List Cell := []
  accMem   : List Cell := []
  tags     : List Tag := []
  guards   : List (List (Option Bool)) := []
  queues   : List (List QEntry) := List.replicate 6 []
  cks      : List CkRec := []
  bar      : BarGen := {}
  runtime  : Nat := 0
  limitHit : Bool := false
  fuse     : Bool := false
  ending   : Option Ended := none
  counted  : Bool := false
  objects  : List Nat := []
  cookie   : BitVec 32 := 0
  retired  : Bool := false
  deriving DecidableEq, Repr

/-- A resident cluster group with its CBAR barrier (R17, R303). -/
structure ClGroup where
  id   : Nat
  wgs  : List Nat
  cbar : BarGen := {}
  deriving DecidableEq, Repr

/-! ### Pending units -/

/-- The row of a given name that a pending wave holds (R310): a reference to a row of the parent's slice, or the slot of the die's spill
area that holds a captured copy (R400). -/
inductive Given where
  | ref (row : Nat)
  | copy (slot : Nat)
  deriving DecidableEq, Repr

/-- What is pending (R18, R53). -/
inductive PendKind where
  | launch (bundle first count : Nat) (fuse : Bool)
  | wave (parent : Nat) (slice : SliceId) (wgOf : Nat) (depth : Nat) (joinSlot : Nat) (threads : Mask)
      (args : List Word) (gid : Word) (give : Bool) (given : List Given) (prog : Option Nat)
  | stage (pipe k : Nat) (args : List Word)
  | refine (cell sub version buf : Nat) (args : List Word)
  deriving DecidableEq, Repr

/-- A pending unit (R53): its footprint, priority, die and arrival, and since when it is the first unfitted of its launch. -/
structure Pending where
  uid     : Nat
  ctx     : Nat
  die     : Nat
  prio    : Nat
  arrival : Nat
  foot    : Footprint
  kind    : PendKind
  queue   : Option QueueRef := none
  cookie  : BitVec 32 := 0
  blocked : Option Nat := none
  deriving DecidableEq, Repr

/-- A batch of the units of a bundle, dealt to a die and not yet accepted there (R41, R58). -/
structure Batch where
  id     : Nat
  bundle : Nat
  die    : Nat
  units  : List Pending
  deriving DecidableEq, Repr

/-- What a placement unit records of a batch that it holds: the units of it, and those that it has placed (R58). -/
structure BatchRec where
  id     : Nat
  bundle : Nat
  units  : List Nat
  placed : List Nat := []
  deriving DecidableEq, Repr

/-! ### Queues and commands -/

/-- Queue states (Table 3.3). -/
inductive QState where
  | disabled
  | active
  | fetchFault
  | error
  | held
  | destroyed
  deriving DecidableEq, Repr

/-- A user queue (Tables 3.1 to 3.2b) or the management queue of a partition (Table 3.1a); `before` is the state it held
before HELD. -/
structure Queue where
  ref    : QueueRef
  ring   : BitVec 64 := 0
  len    : BitVec 64 := 0
  logN   : Nat := 0
  ctx    : Nat := 0
  prio   : Nat := 0
  home   : Nat := 0
  en     : Bool := false
  state  : QState := .disabled
  before : QState := .disabled
  err    : Nat := 0
  wptr   : BitVec 32 := 0
  rptr   : BitVec 32 := 0
  deriving DecidableEq, Repr

/-- A copy record (Table 3.7a). -/
structure CopyRec where
  kind   : Nat
  next   : Word
  src    : Word
  dst    : Word
  len    : Word
  origin : Word
  extent : Word
  deriving DecidableEq, Repr

/-- A copy chain in progress (R33): the records still to run, the progress in the first, and who waits for the chain. -/
structure Chain where
  id       : Nat
  ctx      : Nat
  die      : Nat
  recs     : List CopyRec
  progress : Nat := 0
  failed   : Option Nat := none
  owner    : Nat
  stage    : Nat
  deriving DecidableEq, Repr

/-- The phase of a bundle (R34). -/
inductive BPhase where
  | prologue
  | run
  | epilogue
  | finish
  deriving DecidableEq, Repr

/-- A launch bundle (R33 to R35, R398): its launch record and copy chains, its phase, its workgroups that have not retired, its
waves that have not ended (R315), and what its status word will say. -/
structure Bundle where
  id      : Nat
  cmd     : Nat
  node    : Option Nat := none
  ctx     : Nat
  queue   : QueueRef
  slot    : List Byte
  pro     : List CopyRec := []
  epi     : List CopyRec := []
  phase   : BPhase := .prologue
  alive   : Nat := 0
  waves   : Nat := 0
  killed  : List (Nat × Nat) := []
  episkip : Bool := false
  rolled  : Bool := false
  reruns  : Nat := 0
  deriving DecidableEq, Repr

/-- The state of a graph node (R37 to R39). -/
inductive NodeState where
  | waiting
  | running
  | done
  | failed
  deriving DecidableEq, Repr

/-- A node of a running graph (Table 3.8, R38). -/
structure Node where
  kind  : Nat
  preds : List Nat
  cost  : Nat
  rem   : Nat
  ptr   : Word
  st    : NodeState := .waiting
  deriving DecidableEq, Repr

/-- A running graph command. `retry` is the node whose record could not be read: a retry resumes at it (R37). -/
structure Graph where
  cmd   : Nat
  ctx   : Nat
  nodes : List Node
  retry : Option Nat := none
  deriving DecidableEq, Repr

/-- A stage of a pipe record (Table 3.9), with the number of waves it has had. -/
structure Stage where
  foot : Footprint
  ring : Word
  wmin : Nat
  wmax : Nat
  deriving DecidableEq, Repr

/-- An accepted command that has not completed (R25 to R27): its slot, the records that its acceptance read, whether it has started,
whether it is held after a failed access (R37, R446), and for a DESTROY whether its context was saved and whether its scrub has
begun (R409, R410). -/
structure Cmd where
  uid     : Nat
  queue   : QueueRef
  ctx     : Nat
  seq     : Nat
  hdr     : CmdHdr
  slot    : List Byte
  pro     : List CopyRec := []
  epi     : List CopyRec := []
  nodes   : List Node := []
  stages  : List Stage := []
  started : Bool := false
  held    : Bool := false
  saved   : Bool := false
  scrub   : Bool := false
  since   : Nat := 0
  deriving DecidableEq, Repr

/-- A running pipe command (R40, R320): the uid of the unit told to leave, and the stage for which it leaves. -/
structure Pipe where
  cmd    : Nat
  ctx    : Nat
  stages : List Stage
  leave  : Option (Nat × Nat) := none
  deriving DecidableEq, Repr

/-! ### Contexts -/

/-- Whether a context runs (R386, R387, R409, R410). -/
inductive CtxStatus where
  | live
  | preempting
  | saved
  | destroying
  | destroyed
  deriving DecidableEq, Repr

/-- An open checkpoint interval (R396, R397): its bundle, whether it has overflowed, and the tiles logged, oldest first,
each with its controller and the place of its entry. -/
structure Interval where
  bundle   : Nat
  fresh    : Bool := true
  overflow : Bool := false
  log      : List (Nat × Nat × Nat)
  deriving DecidableEq, Repr

/-- A context (R225): its descriptor, its check register (Table 12.6), its checkpoint interval, whether a move disabled
its rollback (R403), and the settle groups whose
signal has been written (R338). -/
structure Ctx where
  no       : Nat
  desc     : CtxDesc
  status   : CtxStatus := .live
  chk      : BitVec 5 := 0
  interval : Option Interval := none
  moved    : Bool := false
  settled  : List Nat := []
  deriving DecidableEq, Repr

/-- What the refinement unit holds for one subscriber of a cell (R329, Table 18.5). -/
structure SubSt where
  pending  : Option Nat := none
  resident : Option Nat := none
  version  : Nat := 0
  remember : Option (Nat × Nat × Nat) := none
  fired    : Bool := false
  deriving DecidableEq, Repr

/-- The state of a version cell (R324, R326): VERSION, flags, current buffer, pin counts, BASIS, claims by warp uid, the
priority recorded with the version, with the cookie of the publishing warp's command, and the subscribers. -/
structure CellSt where
  ctx     : Nat
  cell    : Nat
  version : Nat := 0
  final   : Bool := false
  stopped : Bool := false
  cur     : Option Nat := none
  pins    : List Nat := List.replicate 4 0
  basis   : List (BitVec 32) := List.replicate 4 0
  claims  : List (Nat × Nat) := []
  prio    : Nat := 0
  cookie  : BitVec 32 := 0
  subs    : List SubSt := List.replicate 8 {}
  deriving DecidableEq, Repr

/-! ### Memory movement, collectives and the fabric -/

/-- A shootdown that has been requested (R235): the pages it names, or every page of the context. -/
structure Shootdown where
  id     : Nat
  ctx    : Nat
  first  : Nat
  pages  : Nat
  mig    : Option Nat := none
  deriving DecidableEq, Repr

/-- The phase of a migration (R239). -/
inductive MigPhase where
  | marked
  | copying
  | switching
  deriving DecidableEq, Repr

/-- A migrating page (R239, R240): its leaf entry's place, its frames, the dirty bitmap of its 4-KiB blocks, and the writes
held at the home agent since the final stall, each with its context, in order of arrival. -/
structure Migration where
  id      : Nat
  ctx     : Nat
  va      : Word
  entryAt : Nat
  old     : Nat
  new     : Nat
  dirty   : BitVec 16
  phase   : MigPhase
  stalled : List (Nat × Nat × List Byte)
  deriving DecidableEq, Repr

/-- A controller's sketch (R236, R237): DLYCTL's fields, the counters that are not zero by row and column, the frames
counted, the start of the interval and SEQ. -/
structure Dailies where
  ctl    : Nat
  buf    : BitVec 55 := 0
  ivl    : BitVec 4 := 0
  en     : Bool := false
  counts : List ((Nat × Nat) × Nat) := []
  frames : List Nat := []
  start  : Nat := 0
  seq    : Nat := 0
  deriving DecidableEq, Repr

/-- The state of a key's most recent use at a member (Table 20.5). -/
inductive KeyState where
  | requested
  | assigned
  | started
  | completed
  | cancelled
  deriving DecidableEq, Repr

/-- A member's record of a key (R342, R353). -/
structure KeyRec where
  key   : BitVec 32
  st    : KeyState
  slate : BitVec 32
  deriving DecidableEq, Repr

/-- An accepted collective entry (R346, R347): the queue entry it came from, its workgroup, operands and slate. -/
structure CollEntry where
  uid    : Nat
  wg     : Nat
  warp   : Nat
  die    : Nat
  ctx    : Nat
  tag    : Option Nat
  key    : BitVec 32
  op     : Nat
  src    : Option Nat
  dst    : Option Nat
  root   : Nat
  slate  : Option (BitVec 32)
  ready  : Bool := false
  since  : Nat := 0
  deriving DecidableEq, Repr

/-- A COLLX that a member has accepted and that has not completed (R352). -/
structure CancelRec where
  uid   : Nat
  wg    : Nat
  die   : Nat
  key   : BitVec 32
  own   : Bool
  since : Nat := 0
  deriving DecidableEq, Repr

/-- A request or a cancel (with `own`) that waits at the sequencer for a number (R345, R359). -/
structure SeqWait where
  rank   : Nat
  key    : BitVec 32
  cancel : Option Bool
  deriving DecidableEq, Repr

/-- The sequencer of a communicator, when this module runs it or holds its replica (R345, R350, R360): its generation, the next number, the
assignments, what waits for the window, when the other's heartbeat was last heard and its own last sent, and the answers and notices held until
the backup acknowledges the replication of that number. -/
structure Sequencer where
  gen      : Nat := 1
  next     : BitVec 32 := 0
  assigns  : List Assign := []
  lastBeat : Nat := 0
  sentBeat : Nat := 0
  serving  : Bool := false
  waiting  : List SeqWait := []
  sent     : Nat := 0
  held     : List (Nat × List (Nat × Instr)) := []
  deriving DecidableEq, Repr

/-- A communicator (Table 20.1) with this member's state (R346, R351 to R354) and its sequencer's. `began` says that its entry has been enabled
(R360), and `server` is the module to which the member sends. -/
structure Comm where
  no      : Nat
  desc    : CommDesc
  began   : Bool := false
  gen     : Nat := 0
  server  : Nat := 0
  next    : Option (BitVec 32) := none
  high    : Option (BitVec 32) := none
  entries : List CollEntry := []
  keys    : List KeyRec := []
  known   : List (BitVec 32 × BitVec 32) := []
  skips   : List (BitVec 32 × BitVec 32) := []
  taken   : List (BitVec 32) := []
  cancels : List CancelRec := []
  watch   : Option Nat := none
  seq     : Sequencer := {}
  deriving DecidableEq, Repr

/-- An entry of the refusal log (Table 20.6). -/
structure RefusalEntry where
  module : Nat
  kind   : Nat
  reason : Nat
  part   : BitVec 16
  eframe : Nat
  offset : Nat
  deriving DecidableEq, Repr

/-- A Dwevex port (R355): whether it is up, its consecutive failed retries and its retry counter. -/
structure LinkSt where
  port    : Nat
  up      : Bool := false
  fails   : Nat := 0
  retries : Nat := 0
  deriving DecidableEq, Repr

/-- What a request that cannot be delivered holds back (R355): a run in its instruction, named by its warp, an agent named by its uid,
bytes of a tile that are on their way to their target, or a message to a module. -/
inductive Waiter where
  | run (warp : Nat) (handler : Bool) (pc : Word)
  | agent (uid : Nat)
  | bytes (tile : Nat) (cells : List Host.Cell)
  | message (target : Nat) (m : Instr)
  deriving DecidableEq, Repr

/-- What waits is data on its way: bytes, or a message. -/
def Waiter.isBytes : Waiter → Bool
  | .bytes _ _ | .message _ _ => true
  | .run _ _ _ | .agent _ => false

/-- A fabric request of this module that has not been delivered (R355): who waits for it, since when, and whether it has come to be treated
as refused. -/
structure Undelivered where
  id      : Nat
  ctx     : Nat
  who     : Waiter
  since   : Nat
  refused : Bool := false
  deriving DecidableEq, Repr

/-! ### Management -/

/-- The boot stage of a die (R420, R422). -/
inductive Boot where
  | held
  | scrub
  | up
  | absent
  deriving DecidableEq, Repr

/-- What a die's boot flash and fuses hold (R420, R421): the SHAKE256 digest of its firmware image, the SHAKE256 hash of the public key that the
image carries, whether the image's XMSS signature verifies under that key, its version, and the fused key hash and anti-rollback count. -/
structure Firmware where
  digest   : BitVec 256 := 0
  keyHash  : BitVec 256 := 0
  signed   : Bool := true
  version  : Nat := 0
  fuseHash : BitVec 256 := 0
  rollback : Nat := 0
  deriving DecidableEq, Repr

/-- A die (R43, R56, R413, R414, R422, R423): its boot stage and firmware, its SCRUB_PROGRESS fields, whether its
scheduler core is fenced, its adopter, the last heartbeat, its recent activations, its clock steps, its set voltage in mV, when it was last
reset (sr.clock, R194), the slices that the scrubbed context held (R412), whether the host has been
told that no scheduler adopts its queues (R43), the pending units for which it has stopped placing (R53), its placement unit's record of
batches (R58), how many of its Dwevex ports have come up since the reset and when the next does, and whether its Ethernet and PCI Express ports are
up (R422). -/
structure DieSt where
  no       : Nat
  boot     : Boot := .held
  fw       : Firmware := {}
  active   : Bool := true
  phase    : Nat := 1
  ctx      : Nat := 0
  done     : Nat := 0
  fenced   : Bool := false
  dead     : Bool := false
  adopter  : Option Nat := none
  beat     : Nat := 0
  recent   : List Nat := []
  clkSteps : Nat := 0
  volts    : Nat := 500
  turn     : Nat := 0
  resetAt  : Nat := 0
  held     : List SliceId := []
  told     : Bool := false
  stopFor  : List Nat := []
  batches  : List BatchRec := []
  ports    : Nat := 0
  rising   : Option Nat := none
  eth      : Bool := false
  pcie     : Bool := false
  deriving DecidableEq, Repr

/-- A monitor register (Table 25.6), by die and number. -/
structure Monitor where
  die    : Nat
  k      : Nat
  events : BitVec 16 := 0
  peak   : BitVec 16 := 0
  value  : BitVec 16 := 0
  deriving DecidableEq, Repr

/-- The states of a TDISP interface (R418). -/
inductive TdispState where
  | unlocked
  | locked
  | run
  | error
  deriving DecidableEq, Repr

/-- A TDISP interface: its state and the requester that locked it. -/
structure Tdisp where
  fn   : Nat
  st   : TdispState := .unlocked
  by_  : Option Nat := none
  deriving DecidableEq, Repr

/-- An ATS invalidation that has been received (R417): the range, and the reads that may have used a translation in it and have not returned. -/
structure AtsInv where
  id    : Nat
  first : Nat
  pages : Nat
  waits : List Nat := []
  deriving DecidableEq, Repr

/-- A signature over the module's measurements (R421): its one-time index, and what it measures of each die. -/
structure SpdmSig where
  index    : Nat
  measures : List Firmware
  deriving DecidableEq, Repr

/-- SPDM's one-time index (R421): the next index, the first index not reserved in the boot flash, and the signatures made. -/
structure Spdm where
  next   : Nat := 0
  limit  : Nat := 0
  signed : List SpdmSig := []
  deriving DecidableEq, Repr

/-- The module's identity (R194, R357, Table 23.3). -/
structure Ident where
  moduleNum : Nat := 0
  origin    : Word := 0
  podPart   : BitVec 16 := 0
  deriving DecidableEq, Repr

/-- An event posted to the host. One that a command causes carries the command's cookie (Table 3.5). -/
inductive HostEvent where
  | fetchFault (cookie : BitVec 32) (q : QueueRef) (va : Word) (code : Nat)
  | complete (cookie : BitVec 32) (node : Option Nat)
  | killed (cookie : BitVec 32) (ctx wg code : Nat)
  | doubleFault (cookie : BitVec 32) (ctx wg : Nat)
  | signalFault (cookie : BitVec 32) (ctx : Nat) (va : Word) (code : Nat)
  | badSubscriber (ctx cell sub : Nat)
  | adopted (die by_ : Nat)
  | noAdopter (die : Nat)
  | saved (cookie : BitVec 32) (ctx size : Nat)
  | destroyed (cookie : BitVec 32) (ctx : Nat)
  | slateGap (comm : Nat)
  | seqLost (comm : Nat)
  | undeliverable (ctx : Nat)
  | thermal (die : Nat)
  | tdispError (fn : Nat)
  | tdispRefused (fn requester : Nat)
  | atsDone (id : Nat)
  | spdmRefused
  | chk (ctx : Nat) (v : BitVec 5)
  deriving DecidableEq, Repr

/-- What the module keeps of an image that it has saved (R386, R393): where the image lies, and its size. -/
structure Image where
  ctx      : Nat
  place    : Nat
  reserve  : Bool
  size     : Nat
  deriving DecidableEq, Repr

/-- Which agent moves at a step that the agenda names. -/
inductive Turn where
  | event (i : Instr)
  | warp (l : Loc)
  deriving DecidableEq, Repr

/-- The run that issues: a warp slot, whether it is the slot's handler run, its PC, and the 96 bits of the slot. -/
structure Cur where
  loc     : Loc := ⟨0, 0, 0, 0⟩
  handler : Bool := false
  pc      : Word := 0
  bits    : Slot := 0
  deriving DecidableEq, Repr

/-- The state of the module. -/
structure State where
  clk        : Nat
  agenda     : List Turn
  cur        : Cur
  free       : Nat
  nextUid    : Nat
  last       : Loc
  ident      : Ident
  mode       : Nat
  mem        : List Host.Cell
  poison     : List Nat
  errors     : List ErrPlace
  l1         : List L1Line
  l2         : List L2Line
  icache     : List ILine
  tlb        : List TlbEntry
  tlb2       : List TlbEntry
  shootdowns : List Shootdown
  migrations : List Migration
  dailies    : List Dailies
  ctxs       : List Ctx
  images     : List Image
  queues     : List Queue
  cmds       : List Cmd
  chains     : List Chain
  bundles    : List Bundle
  graphs     : List Graph
  pipes      : List Pipe
  hostEvents : List HostEvent
  pending    : List Pending
  batches    : List Batch
  ended      : List Ended
  dies       : List DieSt
  cores      : List CoreSt
  slices     : List Slice
  warps      : List Warp
  wgs        : List Wg
  groups     : List ClGroup
  rings      : List ((Nat × Word) × Nat)
  cells      : List CellSt
  comms      : List Comm
  mail       : List (Nat × Instr)
  exports    : List (BitVec 22 × ExportEntry)
  remote     : List ((Nat × Nat) × Bool × BitVec 16)
  refusals   : List RefusalEntry
  links      : List LinkSt
  undeliv    : List Undelivered
  cut        : Bool
  monitors   : List Monitor
  tdisp      : List Tdisp
  atsOn      : List Nat
  atc        : List (Nat × Nat)
  ats        : List AtsInv
  spdm       : Spdm
  deriving DecidableEq, Repr

/-- The state right after the module's reset. Each die waits for its boot (R422), its SCRUB_PROGRESS register shows the reset
scrub (Table 25.2), every core is gated (R56), and nothing is resident, queued or cached. Fields for which the spec states
no reset value hold the values of the assumption log. -/
def State.reset : State where
  clk        := 0
  agenda     := []
  cur        := {}
  free       := 0
  nextUid    := 1
  last       := ⟨0, 0, 0, 0⟩
  ident      := {}
  mode       := 1
  mem        := []
  poison     := []
  errors     := []
  l1         := []
  l2         := []
  icache     := []
  tlb        := []
  tlb2       := []
  shootdowns := []
  migrations := []
  dailies    := []
  ctxs       := []
  images     := []
  queues     := []
  cmds       := []
  chains     := []
  bundles    := []
  graphs     := []
  pipes      := []
  hostEvents := []
  pending    := []
  batches    := []
  ended      := []
  dies       := (List.range 6).map (fun d => { no := d })
  cores      := []
  slices     := []
  warps      := []
  wgs        := []
  groups     := []
  rings      := []
  cells      := []
  comms      := []
  mail       := []
  exports    := []
  remote     := []
  refusals   := []
  links      := []
  undeliv    := []
  cut        := false
  monitors   := []
  tdisp      := []
  atsOn      := []
  atc        := []
  ats        := []
  spdm       := {}

end Sys2Proof.Machine
end

