-- ==== Sys2Proof/Machine/Memory.lean ====
section
/-!
DEFINITION. Memory as programs and agents reach it (11): locations, page tables and ranges, the TLB entries of a core, the
L1 lines, the homes with the checkpoint log (23 R397), poison (23 R401), migration (11 R239, R240) and the sketches
(11 R236).
-/
namespace Sys2Proof.Machine
open Sys2Proof

/-! ### Locations and the bytes at home -/

/-- The form of a memory list: addresses strictly rise, and no entry equals 0, which an unlisted location reads as. -/
def Memory.wf (l : List Host.Cell) : Bool := sparseWf l

/-- The byte at a location. A location never written reads as 0 (log 5). -/
def State.byteAt (s : State) (a : Nat) : Byte := sparseGet s.mem a

/-- n bytes from a location, as they stand at home. -/
def State.bytesAt (s : State) (a n : Nat) : List Byte := sparseRead s.mem a n

/-- Write bytes at a location, with no further effect. -/
def State.rawWrite (s : State) (a : Nat) (l : List Byte) : State := { s with mem := sparseWrite s.mem a l }

/-- The first location of the fabric: an export frame of a module (R230) lies at its module and frame number. -/
def fabricBase : Nat := 2 ^ 60

/-- The first location of the host's space. -/
def hostBase : Nat := 2 ^ 61

/-- The location of a byte of an export frame of a module. -/
def fabricLoc (m e off : Nat) : Nat := fabricBase + m * 2 ^ 38 + e * 65536 + off

/-- A location lies on the fabric. -/
def isFabric (a : Nat) : Bool := decide (fabricBase ≤ a) && decide (a < hostBase)

/-- A location lies in host memory. -/
def isHost (a : Nat) : Bool := decide (hostBase ≤ a)

/-- A location lies in this module's DRAM. -/
def isLocal (a : Nat) : Bool := decide (a < fabricBase)

/-- The first LPDDR6 frame (R230). -/
def firstTier2 : Nat := 5859375

/-- The first frame of the save reserve (R393). -/
def firstReserve : Nat := 17568525

/-- A frame that holds storage (R230): no hole below the 384-GB boundary, and not beyond the last frame. -/
def frameExists (f : Nat) : Bool := decide (f < 5859372) || (decide (firstTier2 ≤ f) && decide (f ≤ 17578124))

/-- A run of n frames from f that a leaf or range may name (R230, R393). -/
def framesNamed (f n : Nat) : Bool :=
  decide (f + n ≤ 5859372) || (decide (firstTier2 ≤ f) && decide (f + n ≤ firstReserve))

/-- The die of a local location (R230). -/
def dieOfLoc (a : Nat) : Nat :=
  let f := a / 65536
  if f < firstTier2 then f % 6 else (f - firstTier2) % 6

/-- The memory controller of a local location (R236). -/
def controllerOf (a : Nat) : Nat :=
  let f := a / 65536
  let k := a % 65536 / 256
  if f < firstTier2 then 8 * (f % 6) + k % 8 else 48 + 4 * ((f - firstTier2) % 6) + k % 4

/-! ### Contexts -/

/-- A context of the context table. -/
def State.ctx? (s : State) (n : Nat) : Option Ctx := s.ctxs.find? (fun c => c.no == n)

/-- Change a context. -/
def State.updCtx (s : State) (n : Nat) (g : Ctx → Ctx) : State :=
  { s with ctxs := s.ctxs.map (fun c => if c.no == n then g c else c) }

/-- Set bits of a context's check register (Table 12.6). -/
def State.setChk (s : State) (n : Nat) (m : BitVec 5) : State := s.updCtx n (fun c => { c with chk := c.chk ||| m })

/-- CHK.POISON. -/
def chkPoison : BitVec 5 := 1
/-- CHK.CKSUM. -/
def chkCksum : BitVec 5 := 2
/-- CHK.BOUND. -/
def chkBound : BitVec 5 := 4
/-- CHK.REFUSED. -/
def chkRefused : BitVec 5 := 8
/-- CHK.LOGFULL. -/
def chkLogfull : BitVec 5 := 16

/-- The next uid, and the state that has used it. -/
def State.fresh (s : State) : Nat × State := (s.nextUid, { s with nextUid := s.nextUid + 1 })

/-- Post an event to the host. -/
def State.post (s : State) (e : HostEvent) : State := { s with hostEvents := s.hostEvents ++ [e] }

/-! ### Page-table entries (Table 11.4) -/

/-- V. -/
def pteV (e : Word) : Bool := bitAt e 0
/-- W. -/
def pteW (e : Word) : Bool := bitAt e 1
/-- X. -/
def pteX (e : Word) : Bool := bitAt e 2
/-- LOC. -/
def pteLoc (e : Word) : Nat := fieldNat e 4 2
/-- FMT. -/
def pteFmt (e : Word) : Nat := fieldNat e 6 4
/-- GEOM. -/
def pteGeom (e : Word) : Nat := fieldNat e 10 2
/-- SPE. -/
def pteSpe (e : Word) : Bool := bitAt e 12
/-- MIG. -/
def pteMig (e : Word) : Bool := bitAt e 13
/-- SIZE. -/
def pteSize (e : Word) : Nat := fieldNat e 14 2
/-- TENSOR. -/
def pteTensor (e : Word) : Nat := fieldNat e 16 16
/-- FRAME. -/
def pteFrame (e : Word) : Nat := fieldNat e 32 32

/-- The location of a leaf's first byte, when its FRAME names storage for all of its pages (R230). -/
def leafBase (e : Word) (pages : Nat) : Option Nat :=
  match pteLoc e with
  | 0 => if framesNamed (pteFrame e) pages then some (pteFrame e * 65536) else none
  | 1 => some (fabricLoc (fieldNat e 54 10) (fieldNat e 32 22) 0)
  | 2 => some (hostBase + pteFrame e * 65536)
  | _ => none

/-- The fields of a leaf entry or a range's ATTR are legal (R229, R233). -/
def leafOk (e : Word) : Bool := pteV e && !bitAt e 3 && decide (pteLoc e < 3) && decide (pteFmt e < 14)

/-- A walk from a table at a physical address through the levels that remain (R229): the shift of each level's index and
the SIZE of the leaf that it permits. It answers the leaf, its place in memory and the pages it covers. -/
def walkFrom (mem : List Host.Cell) (va : Nat) (tbl : Nat) : List (Nat × Option Nat) → Option (Word × Nat × Nat)
  | [] => none
  | (sh, sz) :: rest =>
    let at_ := tbl + 8 * ((va >>> sh) % 1024)
    let e := BitVec.ofNat 64 (natOfBytes (sparseRead mem at_ 8))
    if !frameExists (at_ / 65536) || !pteV e || decide (pteLoc e = 3) then none
    else if pteSize e == 3 then
      if pteLoc e == 0 then walkFrom mem va (pteFrame e * 8192) rest else none
    else if some (pteSize e) == sz && leafOk e && decide (pteFrame e % 2 ^ (sh - 16) = 0) then some (e, at_, 2 ^ (sh - 16))
    else none

/-- The four levels (Table 11.5). -/
def walkLevels : List (Nat × Option Nat) := [(46, none), (36, some 2), (26, some 1), (16, some 0)]

/-- The range entries of a context that cover an address: the one of the lowest index wins (R233, R234). The answer is none
where no range covers the address, and `some none` where the covering entry is invalid. -/
def rangeFor (mem : List Host.Cell) (rtbase : Nat) (va : Nat) : List Nat → Option (Option (Word × Nat × Nat))
  | [] => none
  | i :: rest =>
    let r := sparseRead mem (rtbase + 32 * i) 32
    let rb := recNat r 0 8
    let lim := recNat r 8 8
    let attr := recWord r 16 8
    if rb ≤ va ∧ va < lim then
      if rb % 65536 = 0 ∧ lim % 65536 = 0 ∧ pteSize attr = 0 ∧ pteMig attr = false ∧ leafOk attr = true
      then some (some (attr, rb, lim)) else some none
    else rangeFor mem rtbase va rest

/-- The leaf or range entry that governs an address now, read from the tables (R228 to R234). Until the shootdown that follows a
migration's switch completes, the page's old frame is used (R235, R239). -/
def lookupTables (s : State) (core : CoreId) (c : Ctx) (va : Nat) : Option TlbEntry :=
  match rangeFor s.mem c.desc.rtBase.toNat va (List.range c.desc.rtCount) with
  | some none => none
  | some (some (attr, rb, lim)) =>
    let pages := (lim - rb) / 65536
    (leafBase attr pages).map (fun b =>
      { core := core, ctx := c.no, page := va / 65536, entry := attr, base := b + (va / 65536 - rb / 65536) * 65536, range := true })
  | none =>
    match walkFrom s.mem va c.desc.ptRoot.toNat walkLevels with
    | none => none
    | some (e, at_, pages) =>
      let old := (s.migrations.find? (fun m => m.entryAt == at_ && m.phase == .switching)).map (fun m => m.old * 65536)
      (leafBase e pages).map (fun b =>
        { core := core, ctx := c.no, page := va / 65536, entry := e, base := old.getD b + va / 65536 % pages * 65536 })

/-- The cached entry of a core for an address (R233, R235). -/
def State.tlbFor (s : State) (core : CoreId) (ctx va : Nat) : Option TlbEntry :=
  s.tlb.find? (fun t => t.core == core && t.ctx == ctx && t.page == va / 65536)

/-- The cached entry of a core's die for an address, as the core uses it (R233). -/
def State.tlb2For (s : State) (core : CoreId) (ctx va : Nat) : Option TlbEntry :=
  (s.tlb2.find? (fun t => t.core.die == core.die && t.ctx == ctx && t.page == va / 65536)).map (fun t => { t with core := core })

/-- The entry by which a core translates an address: its own while it is cached, then its die's, then the tables' (R233, R235). -/
def State.translate (s : State) (core : CoreId) (ctx va : Nat) : Option TlbEntry :=
  if va < 2 ^ 56 then
    ((s.tlbFor core ctx va).or (s.tlb2For core ctx va)).or ((s.ctx? ctx).bind (fun c => lookupTables s core c va))
  else none

/-- The newest of the entries of a list that satisfy p, at most n of them, with the others. -/
def keepNewest (n : Nat) (p : α → Bool) (l : List α) : List α :=
  let mine := l.filter p
  l.filter (fun x => !p x) ++ mine.drop (mine.length - n)

/-- The function to which a context belongs: its partition and virtual function (Table 11.2a). -/
def fnOf (d : CtxDesc) : Nat := d.ownerPart * 64 + d.ownerVf

/-- A range of host pages holds a page. -/
def AtsInv.covers (x : AtsInv) (page : Nat) : Bool := decide (x.first ≤ page ∧ page < x.first + x.pages)

/-- A function that has ATS enabled caches the host's translation of the IOVA page that an access of its context uses, and its requests to the
page go translated (R232, R417); while an invalidation of the page is pending they do not. -/
def State.cacheAts (s : State) (t : TlbEntry) : State :=
  match s.ctx? t.ctx with
  | none => s
  | some c =>
    let k := (fnOf c.desc, (t.base - hostBase) / 65536)
    if isHost t.base && s.atsOn.contains k.1 && !s.ats.any (fun x => x.covers k.2) && !s.atc.contains k then { s with atc := s.atc ++ [k] } else s

/-- Cache the entry that an access has used: a core holds at most 64 entries of pages and 16 of ranges, and its die 8,192 (R11, R233). -/
def State.cacheTlb (s : State) (t : TlbEntry) : State :=
  let s := s.cacheAts t
  if s.tlb.contains t then s
  else
    let u := { t with core := ⟨t.core.die, 0⟩ }
    { s with
      tlb := keepNewest (if t.range then 15 else 63) (fun x => x.core == t.core && x.range == t.range) s.tlb ++ [t]
      tlb2 := if s.tlb2.contains u then s.tlb2 else keepNewest 8191 (fun x => x.core.die == t.core.die) s.tlb2 ++ [u] }

/-- Drop the entries that satisfy p from every TLB. -/
def State.dropTlb (s : State) (p : TlbEntry → Bool) : State :=
  { s with tlb := s.tlb.filter (fun t => !p t), tlb2 := s.tlb2.filter (fun t => !p t) }

/-- The location of an address under an entry. -/
def TlbEntry.loc (t : TlbEntry) (va : Nat) : Nat := t.base + (va - t.page * 65536)

/-! ### The fabric (20 R355 to R357) -/

/-- Some Dwevex port is up (R355). -/
def State.fabricUp (s : State) : Bool := s.links.any (fun l => l.up)

/-- Why a request to an export frame is refused: the reason code of Table 20.6, or none. -/
def State.fabricRefusal (s : State) (m e : Nat) (write : Bool) : Option Nat :=
  if m = s.ident.moduleNum then
    match s.exports.find? (fun p => p.1.toNat == e) with
    | none => some 0
    | some (_, x) =>
      if !x.v then some 0 else if x.part != s.ident.podPart then some 1 else if write && !x.w then some 2 else none
  else
    match lookupKey s.remote (m, e) with
    | none => some 0
    | some (w, part) => if part != s.ident.podPart then some 1 else if write && !w then some 2 else none

/-- A request to another module cannot be delivered: no port is up (R355). -/
def State.unreachable (s : State) (m : Nat) : Bool := m != s.ident.moduleNum && !s.fabricUp

/-- The module of a fabric location. -/
def fabricModule (a : Nat) : Nat := (a - fabricBase) / 2 ^ 38

/-- The export frame of a fabric location. -/
def fabricFrame (a : Nat) : Nat := (a - fabricBase) / 65536 % 2 ^ 22

/-- Where a fabric location's bytes lie: the local frame for a frame that this module itself exports. -/
def State.fabricTarget (s : State) (a : Nat) : Nat :=
  if isFabric a && fabricModule a == s.ident.moduleNum then
    match s.exports.find? (fun p => p.1.toNat == fabricFrame a) with
    | some (_, x) => x.frame.toNat * 65536 + a % 65536
    | none => a
  else a

/-! ### The homes -/

/-- The sketch of a controller. -/
def State.dailiesOf (s : State) (c : Nat) : Dailies := (s.dailies.find? (fun d => d.ctl == c)).getD { ctl := c }

/-- Store a controller's sketch. -/
def State.setDailies (s : State) (d : Dailies) : State :=
  { s with dailies := (s.dailies.filter (fun e => !(e.ctl == d.ctl))) ++ [d] }

/-- Count one tile access of a frame in the four rows of a sketch, saturating (R236). -/
def Dailies.count (d : Dailies) (f : Nat) : Dailies :=
  let bump := fun (l : List ((Nat × Nat) × Nat)) (r : Nat) =>
    let k := (r, Config.sketchHash r f % 4096)
    setKey l k (min 65535 ((lookupKey l k).getD 0 + 1))
  { d with counts := (List.range 4).foldl bump d.counts,
           frames := if d.frames.contains f then d.frames else d.frames ++ [f] }

/-- The controller of a local location counts one tile access while its sampling is enabled (R236, R237). -/
def State.countTile (s : State) (a : Nat) : State :=
  if isLocal a then
    let d := s.dailiesOf (controllerOf a)
    if d.en then s.setDailies (d.count (a / 65536)) else s
  else s

/-- The migration that holds writes to a location, or marks them dirty (R239). -/
def State.migrationOf (s : State) (a : Nat) : Option Migration :=
  s.migrations.find? (fun m => m.old * 65536 ≤ a && decide (a < m.old * 65536 + 65536))

/-- The 64-byte blocks that a write of n bytes covers wholly. -/
def wholeBlocks (a n : Nat) : List Nat :=
  (List.range (n / 64 + 1)).filterMap (fun i =>
    let b := ceilDiv a 64 + i
    if (b + 1) * 64 ≤ a + n then some b else none)

/-- The 64-byte blocks that n bytes touch. -/
def touchedBlocks (a n : Nat) : List Nat :=
  if n = 0 then [] else (List.range ((a + n - 1) / 64 - a / 64 + 1)).map (fun i => a / 64 + i)

/-- Some byte of a range lies in a poisoned block (R401). -/
def State.isPoisoned (s : State) (a n : Nat) : Bool := (touchedBlocks a n).any (fun b => s.poison.contains b)

/-- Poison blocks. -/
def State.poisonBlocks (s : State) (bs : List Nat) : State :=
  { s with poison := s.poison ++ bs.filter (fun b => !s.poison.contains b) }

/-- The poison mask of a tile's four blocks (R397). -/
def State.poisonMask (s : State) (tile : Nat) : Nat :=
  ((List.range 4).filter (fun i => s.poison.contains (tile * 4 + i))).foldl (fun m i => m + 2 ^ i) 0

/-- Log a tile's old value before the first write of an open interval to it (R397). A write that finds its slice full
closes the interval to rollback and sets CHK.LOGFULL. -/
def State.logTile (s : State) (ctx tile : Nat) : State :=
  match s.ctx? ctx with
  | none => s
  | some c =>
    match c.interval with
    | none => s
    | some iv =>
      if iv.overflow || iv.log.any (fun e => e.1 == tile) || !isLocal (tile * 256) then s
      else
        let ctl := controllerOf (tile * 256)
        let k := (iv.log.filter (fun e => e.2.1 == ctl)).length
        let base := c.desc.logBase.toNat
        if c.desc.logSlice < (k + 1) * 288 || decide (base < firstTier2 * 65536) then
          (s.updCtx ctx (fun c => { c with interval := some { iv with overflow := true } })).setChk ctx chkLogfull
        else
          let at_ := base + ctl * c.desc.logSlice + 288 * k
          let entry := bytesOfNat 8 (tile * 256) ++ [BitVec.ofNat 8 (s.poisonMask tile)] ++ List.replicate 23 0
            ++ s.bytesAt (tile * 256) 256
          (s.updCtx ctx (fun c => { c with interval := some { iv with log := iv.log ++ [(tile, ctl, at_)] } })).rawWrite
            at_ entry

/-- The tiles that n bytes touch. -/
def touchedTiles (a n : Nat) : List Nat :=
  if n = 0 then [] else (List.range ((a + n - 1) / 256 - a / 256 + 1)).map (fun i => a / 256 + i)

/-- The 4-KiB blocks of a page of 64 KiB that n bytes at a location touch, as a mask (R239). -/
def dirtyMask (a n : Nat) : BitVec 16 :=
  (List.range 16).foldl (fun m i =>
    if a < (a / 65536 * 16 + i + 1) * 4096 ∧ (a / 65536 * 16 + i) * 4096 < a + n then m ||| BitVec.ofNat 16 (2 ^ i) else m) 0

/-- A write that lands at its home: it is logged (R397), it marks the blocks of a migrating page that it touches dirty (R239), and it clears
the poison of the blocks it covers wholly (R401). -/
def State.landWrite (s : State) (ctx a : Nat) (l : List Byte) : State :=
  let s := if isLocal a then (touchedTiles a l.length).foldl (fun s t => s.logTile ctx t) s else s
  let s := { s with poison := s.poison.filter (fun b => !(wholeBlocks a l.length).contains b) }
  let s := { s with migrations := s.migrations.map (fun (m : Migration) =>
    if m.phase != MigPhase.switching && decide (m.old * 65536 ≤ a) && decide (a < m.old * 65536 + 65536)
    then { m with dirty := m.dirty ||| dirtyMask a l.length } else m) }
  s.rawWrite a l

/-- A write that arrives at its home agent. In the final pass of a migration it is held, in order of arrival (R239, R240). -/
def State.arriveWrite (s : State) (ctx a : Nat) (l : List Byte) : State :=
  match s.migrationOf a with
  | some m =>
    if m.phase == .switching then
      { s with migrations := s.migrations.map (fun n => if n.id == m.id then { n with stalled := n.stalled ++ [(ctx, a, l)] } else n) }
    else s.landWrite ctx a l
  | none => s.landWrite ctx a l

/-- The parts of a write that lie in one page each. -/
def pageParts : Nat → Nat → List Byte → List (Nat × List Byte)
  | 0, _, _ => []
  | k + 1, a, l =>
    let n := 65536 - a % 65536
    if l.length ≤ n then [(a, l)] else (a, l.take n) :: pageParts k (a + n) (l.drop n)

/-- Each tile that n bytes touch is one access at its controller (R236). -/
def State.countTiles (s : State) (a n : Nat) : State := (touchedTiles a n).foldl (fun s t => s.countTile (t * 256)) s

/-- A write at the home agents of the pages it touches. A write through an export frame of this module is made to the frame's own storage,
and is never logged (R357, R397). -/
def State.homeWrite (s : State) (ctx a : Nat) (l : List Byte) : State :=
  let ctx := if isFabric a then 65536 else ctx
  let a := s.fabricTarget a
  (pageParts (l.length / 65536 + 2) a l).foldl (fun s p => s.arriveWrite ctx p.1 p.2) (s.countTiles a l.length)

/-- The bytes of a tile that a mask covers, merged at the tile's home (R243); a block that they cover wholly loses its poison (R401). -/
def State.homeMerge (s : State) (ctx tile : Nat) (cells : List Host.Cell) : State :=
  let ctx := if isFabric (tile * 256) then 65536 else ctx
  let a := s.fabricTarget (tile * 256)
  let s := s.countTile a
  if cells.length = 256 then s.arriveWrite ctx a ((List.range 256).map (fun i => (lookupKey cells i).getD 0))
  else
    let whole := (List.range 4).filter (fun b => (List.range 64).all (fun i => (lookupKey cells (64 * b + i)).isSome))
    let s := cells.foldl (fun s p => s.arriveWrite ctx (a + p.1) [p.2]) s
    { s with poison := s.poison.filter (fun b => !(b / 4 == a / 256 && whole.contains (b % 4))) }

/-- A read at home. -/
def State.homeRead (s : State) (a n : Nat) : List Byte := s.bytesAt (s.fabricTarget a) n

/-- The block of a location is poisoned at its home. -/
def State.poisonedAt (s : State) (a : Nat) : Bool := s.poison.contains (s.fabricTarget a / 64)

/-- A location lies in the old frame of a page whose final pass has begun (R239, R240). -/
def State.stalls (s : State) (a : Nat) : Bool :=
  let a := s.fabricTarget a
  s.migrations.any (fun m => m.phase == .switching && decide (m.old * 65536 ≤ a) && decide (a < m.old * 65536 + 65536))

/-! ### Requests on the fabric (R355 to R357) -/

/-- The all-ones bytes that a refused read returns (R357). -/
def onesBytes (n : Nat) : List Byte := List.replicate n 255

/-- The reason for which an access to a fabric location is refused, if it is (R357). -/
def State.refusedAt (s : State) (a : Nat) (write : Bool) : Option Nat :=
  if isFabric a then
    if s.unreachable (fabricModule a) then some 3 else s.fabricRefusal (fabricModule a) (fabricFrame a) write
  else none

/-- A refused access sets the requester's CHK.REFUSED, and this module logs it when it is the target (R357). One that cannot be delivered
marks the step: what the step did does not stand before its time is over (R355). -/
def State.refuse (s : State) (ctx a kind reason : Nat) : State :=
  if reason = 3 then { s with cut := true }
  else
    let s := s.setChk ctx chkRefused
    if fabricModule a = s.ident.moduleNum then
      { s with refusals := s.refusals ++ [{ module := s.ident.moduleNum, kind := kind, reason := reason,
                                            part := s.ident.podPart, eframe := fabricFrame a, offset := a % 65536 }] }
    else s

/-- What waits for a request's delivery. -/
def State.waiting (s : State) (w : Waiter) : Option Undelivered := s.undeliv.find? (fun u => u.who == w)

/-- A request is recorded as undelivered, once (R355). -/
def State.holdRequest (s : State) (ctx : Nat) (w : Waiter) : State :=
  if (s.waiting w).isSome then s
  else
    let (u, s) := s.fresh
    { s with undeliv := s.undeliv ++ [{ id := u, ctx := ctx, who := w, since := s.clk }] }

/-- What a step did from s0 stands, unless a request of it cannot be delivered and is not yet treated as refused: then the step is not
taken, and `hold` says what is left (R355). -/
def State.delivered (s0 s : State) (w : Waiter) (hold : State) : State :=
  if s0.cut || !s.cut then s
  else if (s0.waiting w).any (·.refused) then { s with cut := false, undeliv := s.undeliv.filter (fun u => u.who != w) }
  else hold

/-- What an agent did from s0 stands, or waits for the delivery of a request (R355). -/
def State.agentStep (s0 : State) (ctx uid : Nat) (s : State) : State :=
  s0.delivered s (.agent uid) (s0.holdRequest ctx (.agent uid))

/-- The bytes of a tile go to their target: a host page's to the host, a fabric page's to the module that exports it (R245). Those that cannot
be delivered are held (R355); those that the target refuses are dropped (R357). -/
def State.sendBytes (s : State) (ctx tile : Nat) (cells : List Host.Cell) : State :=
  match s.refusedAt (tile * 256) true with
  | some 3 => s.holdRequest ctx (.bytes tile cells)
  | some reason => s.refuse ctx (tile * 256) 1 reason
  | none => s.homeMerge ctx tile cells

/-! ### The L2s (R245) -/

/-- How an access names the bytes that it reaches (R242, R245): its context, the tag of its line, and the leaf or range entry of the page. -/
structure View where
  ctx   : Nat
  tag   : LineTag
  entry : Word
  deriving DecidableEq, Repr

/-- The view of a linear access. -/
def linearView (ctx : Nat) (entry : Word) (va : Nat) : View := { ctx := ctx, tag := .linear (va / 256), entry := entry }

/-- Bytes with the written ones of a mask over them. -/
def overlay (f : List Byte) (dirty : List Host.Cell) : List Byte := dirty.foldl (fun f p => setNth f p.1 p.2) f

/-- The line that the L2s hold of a tile. -/
def State.l2Line (s : State) (tile : Nat) : Option L2Line := s.l2.find? (fun l => l.tile == tile)

/-- Drop the L2s' line of a tile. -/
def State.dropL2 (s : State) (tile : Nat) : State := { s with l2 := s.l2.filter (fun l => l.tile != tile) }

/-- The lines of a die's L2 (R11). -/
def l2Lines : Nat := 524288

/-- Replace or add a line: a die whose L2 is full evicts its oldest line, whose bytes go to their target (R11, R222). -/
def State.setL2 (s : State) (l : L2Line) : State :=
  let s :=
    if (s.l2Line l.tile).isSome || decide ((s.l2.filter (fun x => x.die == l.die)).length < l2Lines) then s
    else match s.l2.find? (fun x => x.die == l.die) with
      | some old => (if old.dirty.isEmpty then s else s.sendBytes old.ctx old.tile old.dirty).dropL2 old.tile
      | none => s
  { s with l2 := s.l2.filter (fun x => x.tile != l.tile) ++ [l] }

/-- The line that an access of a view brings to the L2 of its die. -/
def newL2 (c : CoreId) (v : View) (tile : Nat) : L2Line :=
  { die := c.die, tile := tile, ctx := v.ctx, tensor := pteTensor v.entry, fmt := pteFmt v.entry }

/-- The L2s hold a tile. -/
def State.holdL2 (s : State) (c : CoreId) (v : View) (tile : Nat) : State :=
  if (s.l2Line tile).isSome then s else s.setL2 (newL2 c v tile)

/-- The 256 bytes of a tile as an L1 is filled with them: those at home for a local tile; the cached ones for a fabric or host tile, which the
L2 reads first where it does not hold them. No answer where the target refuses the read. -/
def State.fetchTile (s : State) (c : CoreId) (v : View) (tile : Nat) : Option (List Byte) × State :=
  if isLocal (tile * 256) then (some (s.bytesAt (tile * 256) 256), (s.countTile (tile * 256)).holdL2 c v tile)
  else
    let l := (s.l2Line tile).getD (newL2 c v tile)
    match l.fill with
    | some f => (some (overlay f l.dirty), s)
    | none =>
      match s.refusedAt (tile * 256) false with
      | some reason => (none, s.refuse v.ctx (tile * 256) 0 reason)
      | none =>
        let f := s.homeRead (tile * 256) 256
        (some (overlay f l.dirty), (s.countTile (s.fabricTarget (tile * 256))).setL2 { l with fill := some f })

/-- Written bytes of a tile leave an L1: they are merged at a local tile's home, and in the L2 for a fabric or host tile (R243, R245). -/
def State.mergeTile (s : State) (c : CoreId) (v : View) (tile : Nat) (cells : List Host.Cell) : State :=
  if cells.isEmpty then s
  else if isLocal (tile * 256) then (s.homeMerge v.ctx tile cells).holdL2 c v tile
  else
    let l := (s.l2Line tile).getD (newL2 c v tile)
    let other := l.ctx != v.ctx && !l.dirty.isEmpty
    let s := if other then s.sendBytes l.ctx tile l.dirty else s
    let l := if other then { l with fill := l.fill.map (fun f => overlay f l.dirty), dirty := [] } else l
    s.setL2 { l with ctx := v.ctx, dirty := cells.foldl (fun d p => setKey d p.1 p.2) l.dirty }

/-- The L2 writes the bytes of a fabric or host tile to their target, and keeps the line clean. -/
def State.cleanL2 (s : State) (l : L2Line) : State :=
  let s := if l.dirty.isEmpty then s else s.sendBytes l.ctx l.tile l.dirty
  { s with l2 := s.l2.filterMap (fun x =>
      if x.tile == l.tile then (l.fill.map (fun f => { x with fill := some (overlay f l.dirty), dirty := [] })) else some x) }

/-- Write back and invalidate the L2s' copy of a fabric or host tile. -/
def State.flushL2 (s : State) (tile : Nat) : State :=
  match s.l2Line tile with
  | some l => if isLocal (tile * 256) then s else (s.cleanL2 l).dropL2 tile
  | none => s

/-- A scope reaches the agents that share a tile with this module: other modules at pod scope, the host at system scope (R245). -/
def scopeReaches (sc : Scope) (tile : Nat) : Bool :=
  (isFabric (tile * 256) && decide (7 ≤ sc.code)) || (isHost (tile * 256) && sc == .sys)

/-! ### L1 (R242 to R244) -/

/-- The core whose L1 serves a core: the first of the cluster while the cluster is fused (R55, R244). -/
def State.l1Owner (s : State) (c : CoreId) : CoreId :=
  if s.cores.any (fun k => k.id == { die := c.die, core := c.core / 4 * 4 } && k.fused)
  then { die := c.die, core := c.core / 4 * 4 } else c

/-- The line that an L1 holds of a physical tile. -/
def State.lineOf (s : State) (o : CoreId) (tile : Nat) : Option L1Line :=
  s.l1.find? (fun l => l.core == o && l.tile == tile)

/-- Drop an L1's line of a tile. -/
def State.dropLine (s : State) (o : CoreId) (tile : Nat) : State :=
  { s with l1 := s.l1.filter (fun l => !(l.core == o && l.tile == tile)) }

/-- The view by which a line was made. -/
def L1Line.view (l : L1Line) : View := { ctx := l.ctx, tag := l.tag, entry := l.entry }

/-- Write back the dirty bytes of a line (R243). -/
def State.writeBackLine (s : State) (l : L1Line) : State := s.mergeTile l.core l.view l.tile l.dirty

/-- Write back a line and keep it clean; what it held of the other bytes stays as it was filled. -/
def State.cleanLine (s : State) (l : L1Line) : State :=
  let s := s.writeBackLine l
  let f := l.fill.map (fun f => overlay f l.dirty)
  { s with l1 := s.l1.map (fun k => if k.core == l.core && k.tile == l.tile then { k with fill := f, dirty := [] } else k)
                |>.filter (fun k => k.fill.isSome || !k.dirty.isEmpty) }

/-- Write back and invalidate an L1's line of a tile (R242). -/
def State.flushLine (s : State) (o : CoreId) (tile : Nat) : State :=
  match s.lineOf o tile with
  | none => s
  | some l => (s.writeBackLine l).dropLine o tile

/-- A line cannot be written back now: its page's writes are stalled (R240). -/
def State.lineStalls (s : State) (l : L1Line) : Bool := !l.dirty.isEmpty && isLocal (l.tile * 256) && s.stalls (l.tile * 256)

/-- The lines of an L1, or of each of the four slices of a fused one (R11, R244). -/
def l1Lines : Nat := 1024

/-- The lines that share the place of a tile in an L1: all of them, or those of the tile's slice of a fused L1 (R244). -/
def State.l1Peers (s : State) (o : CoreId) (tile : Nat) : List L1Line :=
  let fused := s.cores.any (fun k => k.id == o && k.fused)
  s.l1.filter (fun l => l.core == o && (!fused || l.tile % 4 == tile % 4))

/-- Replace or add a line: a full L1 evicts its oldest line that can be written back (R11, R222). -/
def State.setLine (s : State) (l : L1Line) : State :=
  let s :=
    if (s.lineOf l.core l.tile).isSome || decide ((s.l1Peers l.core l.tile).length < l1Lines) then s
    else match (s.l1Peers l.core l.tile).find? (fun k => !s.lineStalls k) with
      | some k => s.flushLine k.core k.tile
      | none => s
  { s with l1 := (s.l1.filter (fun k => !(k.core == l.core && k.tile == l.tile))) ++ [l] }

/-- Before an access by a view, a line of the same physical tile with another context or tag is written back and invalidated (R242). One that
cannot be written back keeps its bytes, under the new tag. -/
def State.ownLine (s : State) (o : CoreId) (v : View) (tile : Nat) : State :=
  match s.lineOf o tile with
  | some l =>
    if l.ctx == v.ctx && l.tag == v.tag then s
    else if s.lineStalls l then s.setLine { l with ctx := v.ctx, tag := v.tag, entry := v.entry, fill := none }
    else s.flushLine o tile
  | none => s

/-- An L1's line of a tile as an access of a view finds it, new where there is none. -/
def State.viewLine (s : State) (o : CoreId) (v : View) (tile : Nat) : L1Line :=
  (s.lineOf o tile).getD { core := o, ctx := v.ctx, tag := v.tag, entry := v.entry, tile := tile, fill := none, dirty := [] }

/-- The offsets of a tile whose 64-byte block a mask does not cover wholly. -/
def exposed (dirty : List Host.Cell) (i : Nat) : Bool :=
  !(List.range 64).all (fun j => (lookupKey dirty (i / 64 * 64 + j)).isSome)

/-- Read n bytes of one tile through an L1: a byte that the mask does not cover fills the line first (R243). A refused fill returns ones
(R357). A poisoned block of a filled line sets CHK.POISON unless the mask covers it wholly (R401). -/
def State.threadRead (s : State) (c : CoreId) (v : View) (a n : Nat) : List Byte × State :=
  let o := s.l1Owner c
  let tile := a / 256
  let s := s.ownLine o v tile
  let l := s.viewLine o v tile
  let offs := (List.range n).map (fun i => a % 256 + i)
  let whole := offs.all (fun i => (lookupKey l.dirty i).isSome)
  match (match l.fill with
    | some f => (some f, s)
    | none => if whole then (none, s) else s.fetchTile c v tile) with
  | (none, s) => (offs.map (fun i => (lookupKey l.dirty i).getD 255), s)
  | (some f, s) =>
    let bad := offs.any (fun i => exposed l.dirty i && s.poisonedAt (tile * 256 + i))
    let s := if bad then s.setChk v.ctx chkPoison else s
    (offs.map (fun i => (lookupKey l.dirty i).getD (nth f i 0)), if l.fill.isSome then s else s.setLine { l with fill := some f })

/-- Write bytes of one tile into an L1, which allocates the line without filling it (R243). -/
def State.threadWrite (s : State) (c : CoreId) (v : View) (a : Nat) (b : List Byte) : State :=
  let o := s.l1Owner c
  let tile := a / 256
  let s := s.ownLine o v tile
  let l := s.viewLine o v tile
  s.setLine { l with dirty := (List.zip (List.range b.length) b).foldl (fun d p => setKey d (a % 256 + p.1) p.2) l.dirty }

/-- Bring a tile into an L1 (R263). -/
def State.prefetchL1 (s : State) (c : CoreId) (v : View) (tile : Nat) : State :=
  let o := s.l1Owner c
  let s := s.ownLine o v tile
  let l := s.viewLine o v tile
  if l.fill.isSome then s
  else match s.fetchTile c v tile with
    | (some f, s) => s.setLine { l with fill := some f }
    | (none, s) => s

/-- An acquire of a scope moves lines only at cluster scope or wider, and in a fused cluster only above cluster scope
(R243, R244). -/
def State.scopeMoves (s : State) (c : CoreId) (sc : Scope) : Bool :=
  decide (4 ≤ sc.code) && (sc != .cluster || s.l1Owner c == c && !(s.cores.any (fun k => k.id == c && k.fused)))

/-- An acquire invalidates every clean line of the acquiring core (R243), and of a dirty line what it was filled with, so
that no byte older than the acquire is read (R249); and so it does with the L2s' lines of the tiles that its scope reaches (R245). -/
def State.acquire (s : State) (c : CoreId) (sc : Scope) : State :=
  if s.scopeMoves c sc then
    let o := s.l1Owner c
    let s := { s with l1 := s.l1.filterMap (fun (l : L1Line) =>
      if l.core == o then (if l.dirty.isEmpty then none else some { l with fill := none }) else some l) }
    { s with l2 := s.l2.filterMap (fun (l : L2Line) =>
      if scopeReaches sc l.tile then (if l.dirty.isEmpty then none else some { l with fill := none }) else some l) }
  else s

/-- A release writes back every dirty line of the releasing core (R243), and the L2s' bytes of the tiles that its scope reaches (R245). -/
def State.release (s : State) (c : CoreId) (sc : Scope) : State :=
  if s.scopeMoves c sc then
    let o := s.l1Owner c
    let s := (s.l1.filter (fun l => l.core == o && !l.dirty.isEmpty)).foldl (fun s l => s.cleanLine l) s
    (s.l2.filter (fun l => scopeReaches sc l.tile && !l.dirty.isEmpty)).foldl (fun s l => s.cleanL2 l) s
  else s

/-- Write back and invalidate every line of an L1 (R55). -/
def State.flushL1 (s : State) (c : CoreId) : State :=
  (s.l1.filter (fun l => l.core == c)).foldl (fun s l => s.flushLine c l.tile) s

/-- Bytes of a tile cannot reach their target now: its page's writes are stalled, or no port is up (R240, R355). -/
def State.targetStalls (s : State) (tile : Nat) : Bool :=
  s.stalls (tile * 256) || (isFabric (tile * 256) && s.unreachable (fabricModule (tile * 256)))

/-- A release of a core cannot be performed now: it would write back a line of a page whose writes are stalled (R240), or send bytes to a target
that they cannot reach, or bytes for another module are still on their way (R356). -/
def State.releaseStalls (s : State) (c : CoreId) (sc : Scope) : Bool :=
  s.scopeMoves c sc &&
    (s.l1.any (fun l => l.core == s.l1Owner c && (s.lineStalls l || (!l.dirty.isEmpty && scopeReaches sc l.tile && s.targetStalls l.tile)))
      || s.l2.any (fun l => !l.dirty.isEmpty && scopeReaches sc l.tile && s.targetStalls l.tile)
      || (decide (7 ≤ sc.code) && s.undeliv.any (fun u => match u.who with
        | .bytes _ _ => true
        | _ => false)))

/-! ### Accesses at a home: atomics and engines -/

/-- Write back and invalidate the copies of a tile that a core's L1 holds, and, for a fabric or host tile, the L2s' copy. -/
def State.evictTile (s : State) (c : CoreId) (tile : Nat) : State := (s.flushLine (s.l1Owner c) tile).flushL2 tile

/-- A read-modify-write at the home of a tile (R261): the copies of the tile that the issuing core and the L2s hold are written back and
invalidated first. -/
def State.homeAtomic (s : State) (c : CoreId) (ctx a n : Nat) (op : Word → Word) : Word × State :=
  match s.refusedAt a true with
  | some reason => (wordOfBytes (onesBytes n), s.refuse ctx a 2 reason)
  | none =>
    let s := s.evictTile c (a / 256)
    let s := if s.poisonedAt a then s.setChk ctx chkPoison else s
    let old := wordOfBytes (s.homeRead a n)
    (old, s.homeWrite ctx a (bytesOfWord n (op old)))

/-- What an engine reads of a byte: a dirty byte of the issuing core's L1, else one that the L2s hold of a fabric or host tile, else the byte at
home (R277). -/
def State.engineByte (s : State) (o : CoreId) (a : Nat) : Byte :=
  let below := match (if isLocal a then none else s.l2Line (a / 256)) with
    | some l => (lookupKey l.dirty (a % 256)).getD (match l.fill with
      | some f => nth f (a % 256) 0
      | none => s.byteAt (s.fabricTarget a))
    | none => s.byteAt (s.fabricTarget a)
  match s.lineOf o (a / 256) with
  | some l => (lookupKey l.dirty (a % 256)).getD below
  | none => below

/-- An engine read of a range at a location (R277). A poisoned block that the L1 does not hide sets CHK.POISON (R401). -/
def State.engineRead (s : State) (c : CoreId) (ctx a n : Nat) : List Byte × State :=
  match s.refusedAt a false with
  | some reason => (onesBytes n, s.refuse ctx a 0 reason)
  | none =>
    let o := s.l1Owner c
    let hidden := fun (i : Nat) => match s.lineOf o (i / 256) with
      | some l => !exposed l.dirty (i % 256)
      | none => false
    let bad := (List.range n).any (fun i => s.poisonedAt (a + i) && !hidden (a + i))
    let b := (List.range n).map (fun i => s.engineByte o (a + i))
    (b, (if bad then s.setChk ctx chkPoison else s).countTiles (s.fabricTarget a) n)

/-- An engine write at the tiles' homes; the copies of those tiles that the issuing core and the L2s hold are written back before it and
invalidated (R277). -/
def State.engineWrite (s : State) (c : CoreId) (ctx a : Nat) (b : List Byte) : State :=
  match s.refusedAt a true with
  | some reason => s.refuse ctx a 1 reason
  | none => ((touchedTiles a b.length).foldl (fun s t => s.evictTile c t) s).homeWrite ctx a b

/-! ### What a clk does to the caches -/

/-- Bytes of a tile for another module that an L1 or the L2s hold, while no port is up: they are on their way from now on (R355). -/
def State.sendRemote (s : State) : State :=
  let remote := fun (tile : Nat) => isFabric (tile * 256) && s.unreachable (fabricModule (tile * 256))
  let s := (s.l1.filter (fun l => !l.dirty.isEmpty && remote l.tile)).foldl (fun s l => s.cleanLine l) s
  (s.l2.filter (fun l => !l.dirty.isEmpty && remote l.tile)).foldl (fun s l => s.cleanL2 l) s

/-- The number of clk after which the module writes back the dirty bytes of its caches of itself, so that a release is observed at last (R251). -/
def cleanPeriod : Nat := 2 ^ 20

/-- Every dirty line of every L1, and the L2s' bytes for other agents, are written back where they can be (R251). -/
def State.cleanCaches (s : State) : State :=
  let s := (s.l1.filter (fun l => !l.dirty.isEmpty && !s.lineStalls l)).foldl (fun s l => s.cleanLine l) s
  (s.l2.filter (fun l => !l.dirty.isEmpty && !s.targetStalls l.tile)).foldl (fun s l => s.cleanL2 l) s

end Sys2Proof.Machine
end

