-- ==== Sys2Proof/Machine/Ops.lean ====
section
/-!
DEFINITION. The named operations over warps, slices, rows, registers and runs that the meanings share: the accessors, row
allocation and release (07), the advance of a run (06), waiting (06 R98), attachment to flags (06 R102), and, written once
from 22, the taking of an exception (a fault parks threads and queues a record, a handler run starts) and the return from it.
-/
namespace Sys2Proof.Machine
open Sys2Proof

/-! ### Accessors -/

/-- The slice of a warp slot. -/
def sliceOfLoc (l : Loc) : SliceId := ⟨l.die, l.core, l.slice⟩

/-- The core of a warp slot. -/
def coreOfLoc (l : Loc) : CoreId := ⟨l.die, l.core⟩

/-- The warp in a slot. -/
def State.warp? (s : State) (l : Loc) : Option Warp := s.warps.find? (fun w => w.loc == l)

/-- The warp of a uid. -/
def State.warpByUid (s : State) (u : Nat) : Option Warp := s.warps.find? (fun w => w.uid == u)

/-- Change the warp in a slot. -/
def State.updWarp (s : State) (l : Loc) (g : Warp → Warp) : State :=
  { s with warps := s.warps.map (fun w => if w.loc == l then g w else w) }

/-- A slice; one that is not listed holds nothing. -/
def State.slice (s : State) (i : SliceId) : Slice := (s.slices.find? (fun x => x.id == i)).getD { id := i }

/-- Store a slice. -/
def State.setSlice (s : State) (x : Slice) : State :=
  if s.slices.any (fun y => y.id == x.id) then { s with slices := s.slices.map (fun y => if y.id == x.id then x else y) }
  else { s with slices := s.slices ++ [x] }

/-- Change a slice. -/
def State.updSlice (s : State) (i : SliceId) (g : Slice → Slice) : State := s.setSlice (g (s.slice i))

/-- A core; one that is not listed is gated. -/
def State.core (s : State) (i : CoreId) : CoreSt := (s.cores.find? (fun x => x.id == i)).getD { id := i }

/-- Change a core. -/
def State.updCore (s : State) (i : CoreId) (g : CoreSt → CoreSt) : State :=
  if s.cores.any (fun y => y.id == i) then { s with cores := s.cores.map (fun y => if y.id == i then g y else y) }
  else { s with cores := s.cores ++ [g { id := i }] }

/-- A die. -/
def State.die (s : State) (d : Nat) : DieSt := (s.dies.find? (fun x => x.no == d)).getD { no := d }

/-- Change a die. -/
def State.updDie (s : State) (d : Nat) (g : DieSt → DieSt) : State :=
  { s with dies := s.dies.map (fun x => if x.no == d then g x else x) }

/-- A resident workgroup or workgroup-equivalent. -/
def State.wg? (s : State) (u : Nat) : Option Wg := s.wgs.find? (fun g => g.uid == u)

/-- Change a workgroup. -/
def State.updWg (s : State) (u : Nat) (g : Wg → Wg) : State :=
  { s with wgs := s.wgs.map (fun x => if x.uid == u then g x else x) }

/-- A bundle. -/
def State.bundle? (s : State) (b : Nat) : Option Bundle := s.bundles.find? (fun x => x.id == b)

/-- Change a bundle. -/
def State.updBundle (s : State) (b : Nat) (g : Bundle → Bundle) : State :=
  { s with bundles := s.bundles.map (fun x => if x.id == b then g x else x) }

/-- The handler run of a warp slot. -/
def State.hrun? (s : State) (l : Loc) : Option HRun :=
  match (s.slice (sliceOfLoc l)).handler with
  | some h => if h.slot == l.slot then some h else none
  | none => none

/-- Change the handler run of a slice. -/
def State.updHrun (s : State) (l : Loc) (g : HRun → HRun) : State :=
  s.updSlice (sliceOfLoc l) (fun x => { x with handler := x.handler.map g })

/-- Thread t of a warp. -/
def Warp.thread (w : Warp) (t : Nat) : Thread := nth w.threads t { st := .exited }

/-- Change the threads of a mask. -/
def Warp.updThreads (w : Warp) (m : Mask) (g : Nat → Thread → Thread) : Warp :=
  { w with threads := (List.zip (List.range 32) w.threads).map (fun p => if bitAt m p.1 then g p.1 p.2 else p.2) }

/-- The threads of a warp in a state. -/
def Warp.inState (w : Warp) (st : TState) : Mask := maskOf (fun t => (w.thread t).st == st)

/-- The running threads that hold a PC: a run (R98). -/
def Warp.runAt (w : Warp) (pc : Word) : Mask := maskOf (fun t => (w.thread t).st == .running && (w.thread t).pc == pc)

/-- The threads that have not exited. -/
def Warp.alive (w : Warp) : Mask := maskOf (fun t => (w.thread t).st != .exited)

/-- A value that the spec leaves open, and the state that has used it (log 3). -/
def State.freeValue (s : State) : Word × State := (Config.freeWord s.free, { s with free := s.free + 1 })

/-- The context of a unit is not being pre-empted or destroyed. -/
def State.ctxLive (s : State) (ctx : Nat) : Bool := (s.ctx? ctx).any (fun c => c.status == .live)

/-- The context of the warp in a slot is not being pre-empted or destroyed: an instruction of it that waits may take effect (R387). -/
def State.locLive (s : State) (l : Loc) : Bool := (s.warp? l).any (fun w => s.ctxLive w.ctx)

/-! ### Slot addresses (R61) -/

/-- A slot address: 64L + 12s with s ≤ 4. -/
def isSlotAddr (a : Nat) : Bool := a % 64 % 12 == 0 && decide (a % 64 ≤ 48)

/-- The slot index of a slot address. -/
def slotIndex (a : Nat) : Nat := a / 64 * 5 + a % 64 / 12

/-- The address of a slot index. -/
def addrOfIndex (i : Int) : Int := i / 5 * 64 + i % 5 * 12

/-- The sequential successor of a slot. -/
def succPc (pc : Word) : Word := if pc.toNat % 64 == 48 then pc + 16 else pc + 12

/-- The line that an instruction cache holds. -/
def State.icLine (s : State) (c : CoreId) (ctx va : Nat) : Option ILine :=
  s.icache.find? (fun l => l.core == c && l.ctx == ctx && l.va == va)

/-- Slot k of a line (R59). -/
def lineSlot (l : List Byte) (k : Nat) : Slot := slotOfBytes (l.drop (12 * k))

/-- The bits of a slot as the core's instruction cache holds them; 0 where it does not hold the line. -/
def State.slotBits (s : State) (c : CoreId) (ctx : Nat) (pc : Word) : Slot :=
  match s.icLine c ctx (pc.toNat / 64 * 64) with
  | some l => lineSlot l.bytes (pc.toNat % 64 / 12)
  | none => 0

/-! ### The issuing run -/

/-- The threads of the issuing run: the running threads of the selected warp at the selected PC (R98), or HTHREAD of the
selected handler run (R366). -/
def State.run (s : State) : Mask :=
  if s.cur.handler then
    match s.hrun? s.cur.loc with
    | some h => if h.pc == s.cur.pc then listMask [h.thread] else 0
    | none => 0
  else match s.warp? s.cur.loc with
    | some w => w.runAt s.cur.pc
    | none => 0

/-- The meaning of an instruction of a slot: it needs an issuing run (log 1). -/
def State.onRun (s : State) (g : Mask → State) : Host.Outcome State Fault Refusal :=
  if s.run = 0 then .fault .noIssuingRun else .next (g s.run)

/-- The issuing warp. -/
def State.me (s : State) : Warp :=
  (s.warp? s.cur.loc).getD { loc := s.cur.loc, uid := 0, wg := 0, ctx := 0, threads := List.replicate 32 { st := .exited } }

/-- The issuing handler run. -/
def State.myH (s : State) : HRun :=
  (s.hrun? s.cur.loc).getD
    { slot := 0, trec := ⟨0, 0, 0, 0, 0, []⟩, thread := 0, pc := 0, unif := List.replicate 16 0, start := 0 }

/-- The workgroup of the issuing warp. -/
def State.myWg (s : State) : Wg := (s.wg? s.me.wg).getD { uid := 0, ctx := s.me.ctx, core := coreOfLoc s.cur.loc }

/-- The core that issues. -/
def State.myCore (s : State) : CoreId := coreOfLoc s.cur.loc

/-- The context that issues. -/
def State.myCtx (s : State) : Nat := s.me.ctx

/-- Predicate p in thread t, in the bank of the issuing run (R109, R367). -/
def State.pred (s : State) (p t : Nat) : Bool :=
  if s.cur.handler then bitAt s.myH.preds p else bitAt (nth s.me.preds p 0) t

/-- The predicates of one thread with predicate p set to a value. -/
def withBit (w : BitVec 12) (p : Nat) (b : Bool) : BitVec 12 :=
  if b then w ||| BitVec.ofNat 12 (2 ^ p) else w &&& ~~~(BitVec.ofNat 12 (2 ^ p))

/-- Write predicate p in the threads of a mask. -/
def State.setPred (s : State) (p : Nat) (m v : Mask) : State :=
  if s.cur.handler then
    s.updHrun s.cur.loc (fun h =>
      { h with preds := if bitAt m h.thread then withBit h.preds p (bitAt v h.thread) else h.preds })
  else s.updWarp s.cur.loc (fun w => { w with preds := tweakNth 0 w.preds p (fun o => (o &&& ~~~m) ||| (v &&& m)) })

/-- Uniform register k in the bank of the issuing run. -/
def State.uni (s : State) (k : Nat) : Word := if s.cur.handler then nth s.myH.unif k 0 else nth s.me.unif k 0

/-- Write uniform register k. -/
def State.setUni (s : State) (k : Nat) (v : Word) : State :=
  if s.cur.handler then s.updHrun s.cur.loc (fun h => { h with unif := putNth 0 h.unif k v })
  else s.updWarp s.cur.loc (fun w => { w with unif := putNth 0 w.unif k v })

/-- The threads of a run whose guard passes (R76, R98). -/
def State.executing (s : State) (g : Guard) (run : Mask) : Mask :=
  match g with
  | .always => run
  | .pred p neg => maskOf (fun t => bitAt run t && (s.pred p.val t != neg))

/-! ### Rows (07) -/

/-- A program row of a slice, when it is in use. -/
def Slice.row? (x : Slice) (r : Nat) : Option Row := x.rows.find? (fun y => y.no == r)

/-- Change a row. -/
def Slice.updRow (x : Slice) (r : Nat) (g : Row → Row) : Slice :=
  { x with rows := x.rows.map (fun y => if y.no == r then g y else y) }

/-- Change the elements of a row. A row that is not listed holds zeros, and is listed from then on. -/
def Slice.editData (x : Slice) (r : Nat) (g : List Word → List Word) : Slice :=
  match x.row? r with
  | some _ => x.updRow r (fun y => { y with data := g y.data })
  | none => { x with rows := x.rows ++ [{ no := r, holders := 0, charge := 0, data := g [] }] }

/-- Element t of a row; a row not in use holds 0. -/
def Slice.elem (x : Slice) (r t : Nat) : Word :=
  match x.row? r with
  | some y => nth y.data t 0
  | none => 0

/-- The resident warps of a slice, by ascending slot. -/
def State.warpsOn (s : State) (i : SliceId) : List Warp :=
  (List.range 4).filterMap (fun k => s.warp? ⟨i.die, i.core, i.slice, k⟩)

/-- The slack of a slice (R50). -/
def State.slack (s : State) (i : SliceId) : Int :=
  128 - (s.warpsOn i).foldl (fun a w => a + (max w.balance w.rowsRes : Int)) 0

/-- The rows that a warp can allocate now: those of its reservation, then the slack (R50). -/
def State.rowsFor (s : State) (w : Warp) : Nat := (w.rowsRes - w.balance) + (s.slack (sliceOfLoc w.loc)).toNat

/-- A row allocation by a warp is possible now: from its reservation, or from the slack (R50). -/
def State.canAlloc (s : State) (w : Warp) : Bool :=
  decide (w.balance < w.rowsRes) || decide (0 < s.slack (sliceOfLoc w.loc))

/-- The lowest program row of a slice that is not in use. -/
def Slice.freeRow (x : Slice) : Nat := ((List.range 128).find? (fun r => (x.row? r).isNone)).getD 128

/-- Allocate a zero-filled row with one holder, charged to a warp; none when R50 yields no row (R129). -/
def State.allocRow (s : State) (l : Loc) : Option (Nat × State) :=
  match s.warp? l with
  | none => none
  | some w =>
    let i := sliceOfLoc l
    let r := (s.slice i).freeRow
    if s.canAlloc w && decide (r < 128) then
      let s := s.updSlice i (fun x =>
        { x with rows := x.rows ++ [{ no := r, holders := 1, charge := l.slot, data := List.replicate 32 0 }] })
      some (r, s.updWarp l (fun w => { w with balance := w.balance + 1 }))
    else none

/-- Map a name of a warp. -/
def State.setMap (s : State) (l : Loc) (n : Nat) (r : Option Nat) : State :=
  s.updWarp l (fun w => { w with map := putNth none w.map n r })

/-- What a warp's name maps. -/
def Warp.mapOf (w : Warp) (n : Nat) : Option Nat := nth w.map n none

/-- Move the charge of a row, with its unit of balance, to the warp of a slot (R137). -/
def State.moveCharge (s : State) (i : SliceId) (r slot : Nat) : State :=
  match (s.slice i).row? r with
  | none => s
  | some y =>
    if y.charge == slot then s
    else
      let s := s.updWarp ⟨i.die, i.core, i.slice, y.charge⟩ (fun w => { w with balance := w.balance - 1 })
      let s := s.updWarp ⟨i.die, i.core, i.slice, slot⟩ (fun w => { w with balance := w.balance + 1 })
      s.updSlice i (fun x => x.updRow r (fun y => { y with charge := slot }))

/-- A write of some warp of the slice is still in flight to a row (R132). -/
def State.rowPending (s : State) (i : SliceId) (r : Nat) : Bool :=
  (s.warpsOn i).any (fun w => w.inflight.any (fun f => f.writes.any (fun x => match x.1 with
    | .row q _ => q == r
    | _ => false)))

/-- Free the rows of a slice that no holder and no write in flight keeps; each leaves its charged warp's balance (R132). -/
def State.freeIdle (s : State) (i : SliceId) : State :=
  let idle := (s.slice i).rows.filter (fun y => y.holders == 0 && !s.rowPending i y.no)
  idle.foldl (fun s y =>
    (s.updSlice i (fun x => { x with rows := x.rows.filter (fun z => z.no != y.no) })).updWarp
      ⟨i.die, i.core, i.slice, y.charge⟩ (fun w => { w with balance := w.balance - 1 })) s

/-- Release one holder of a row; at zero the row is freed (R132). -/
def State.releaseRow (s : State) (i : SliceId) (r : Nat) : State :=
  (s.updSlice i (fun x => x.updRow r (fun y => { y with holders := y.holders - 1 }))).freeIdle i

/-- Add one holder of a row. -/
def State.holdRow (s : State) (i : SliceId) (r : Nat) : State :=
  s.updSlice i (fun x => x.updRow r (fun y => { y with holders := y.holders + 1 }))

/-- Drop a name's mapping and release its row (UNMAP, R147). -/
def State.unmapName (s : State) (l : Loc) (n : Nat) : State :=
  match s.warp? l with
  | none => s
  | some w =>
    match w.mapOf n with
    | none => s
    | some r => (s.setMap l n none).releaseRow (sliceOfLoc l) r

/-- Allocate each name of a list that is unmapped, in order (R129); none when a row is missing, and then nothing is done. -/
def State.allocNames (s : State) (l : Loc) : List Nat → Option State
  | [] => some s
  | n :: rest =>
    match s.warp? l with
    | none => none
    | some w =>
      match w.mapOf n with
      | some _ => s.allocNames l rest
      | none =>
        match s.allocRow l with
        | none => none
        | some (r, s) => (s.setMap l n (some r)).allocNames l rest

/-- Element t of a name, in the bank of the issuing run (R127, R367). -/
def State.elem (s : State) (n t : Nat) : Word :=
  if s.cur.handler then nth (nth (s.slice (sliceOfLoc s.cur.loc)).hrows n []) t 0
  else match s.me.mapOf n with
    | some r => (s.slice (sliceOfLoc s.cur.loc)).elem r t
    | none => 0

/-- Write element t of the row that a mapped name maps, in the bank of the issuing run (R130). -/
def State.setElem (s : State) (n t : Nat) (v : Word) : State :=
  if s.cur.handler then
    s.updSlice (sliceOfLoc s.cur.loc) (fun x => { x with hrows := tweakNth [] x.hrows n (fun d => putNth 0 d t v) })
  else match s.me.mapOf n with
    | some r => s.updSlice (sliceOfLoc s.cur.loc) (fun x => x.editData r (fun d => putNth 0 d t v))
    | none => s

/-- Write several elements of a name. -/
def State.setElems (s : State) (n : Nat) (l : List (Nat × Word)) : State := l.foldl (fun s p => s.setElem n p.1 p.2) s

/-- A name of a handler run is always mapped; a name of a warp may not be (R131). -/
def State.isMapped (s : State) (n : Nat) : Bool := s.cur.handler || (s.me.mapOf n).isSome

/-! ### Waiting (R98) -/

/-- Put a wait of a run at a PC; a wait that is already there keeps its beginning (R136). -/
def putWait (ws : List Wait) (pc : Word) (m : Mask) (k : WaitKind) (now : Nat) (flag : Option Nat) : List Wait :=
  let since := ((ws.find? (fun x => x.pc == pc)).map (·.since)).getD now
  ws.filter (fun x => x.pc != pc) ++ [{ pc := pc, mask := m, kind := k, since := since, flag := flag }]

/-- The issuing run waits in its instruction, which has had no effect, and which is attached to a flag or to none. -/
def State.waitOn (s : State) (flag : Option Nat) (k : WaitKind) : State :=
  if s.cur.handler then s.updHrun s.cur.loc (fun h => { h with waits := putWait h.waits s.cur.pc s.run k s.clk flag })
  else s.updWarp s.cur.loc (fun w => { w with waits := putWait w.waits s.cur.pc s.run k s.clk flag })

/-- The issuing run waits in its instruction, attached to no flag. -/
def State.waitRun (s : State) (k : WaitKind) : State := s.waitOn none k

/-- A flag is set: operations attached to it have not completed, one that waits in its issue among them (R102). -/
def flagIsSet (flags : List Nat) (waits : List Wait) (k : Nat) : Bool := nth flags k 0 != 0 || waits.any (fun x => x.flag == some k)

/-- No run of a warp waits at a PC any longer. -/
def State.dropWait (s : State) (l : Loc) (handler : Bool) (pc : Word) : State :=
  if handler then s.updHrun l (fun h => { h with waits := h.waits.filter (fun x => x.pc != pc) })
  else s.updWarp l (fun w => { w with waits := w.waits.filter (fun x => x.pc != pc) })

/-- The wait of a warp, or of its handler run, at a PC. -/
def State.waitAt (s : State) (l : Loc) (handler : Bool) (pc : Word) : Option Wait :=
  if handler then (s.hrun? l).bind (fun h => h.waits.find? (fun x => x.pc == pc))
  else (s.warp? l).bind (fun w => w.waits.find? (fun x => x.pc == pc))

/-- Waits of threads that have left their PC go with them. -/
def Warp.tidyWaits (w : Warp) : Warp :=
  { w with waits := w.waits.filter (fun x => (w.runAt x.pc &&& x.mask) != 0) }

/-! ### Advancing -/

/-- The threads of a mask pass the slot: each takes its next PC, its clause position rises and its PASS bit clears (R66,
R98, R382). -/
def State.advanceTo (s : State) (m : Mask) (next : Nat → Word) : State :=
  if s.cur.handler then
    s.updHrun s.cur.loc (fun h =>
      { h with pc := next h.thread, pos := h.pos + 1, arrived := false, waits := h.waits.filter (fun x => x.pc != s.cur.pc) })
  else
    s.updWarp s.cur.loc (fun w =>
      (w.updThreads m (fun t x => { x with pc := next t, pos := x.pos + 1, pass := false, arrived := false })).tidyWaits)

/-- The threads of a mask take the sequential successor. -/
def State.advance (s : State) (m : Mask) : State := s.advanceTo m (fun _ => succPc s.cur.pc)

/-! ### Flags (R67, R102) -/

/-- The header that the issuing run last issued. -/
def State.lastHdr (s : State) : Option FmtH :=
  if s.cur.handler then s.myH.hdr
  else match maskList s.run with
    | t :: _ => (s.me.thread t).hdr
    | [] => none

/-- The flag that CF names: an answer of none is ILLEGAL_OP (R67). -/
def State.flagOf (s : State) (cf : Attach) : Option (Option Nat) :=
  match cf with
  | .none => some none
  | .flagA => (s.lastHdr.bind (·.fa)).map (fun k => some k.val)
  | .flagB => (s.lastHdr.bind (·.fb)).map (fun k => some k.val)

/-- The issuing run waits in an instruction that CF may attach to a flag: the flag is set from the issue on (R67, R102). -/
def State.waitFor (s : State) (cf : Attach) (k : WaitKind) : State := s.waitOn (s.flagOf cf).join k

/-- Add to a flag's count. -/
def State.flagUp (s : State) (l : Loc) (handler : Bool) (k : Option Nat) : State :=
  match k with
  | none => s
  | some k =>
    if handler then s.updHrun l (fun h => { h with flags := tweakNth 0 h.flags k (· + 1) })
    else s.updWarp l (fun w => { w with flags := tweakNth 0 w.flags k (· + 1) })

/-- Take one from a flag's count. -/
def State.flagDown (s : State) (l : Loc) (handler : Bool) (k : Option Nat) : State :=
  match k with
  | none => s
  | some k =>
    if handler then s.updHrun l (fun h => { h with flags := tweakNth 0 h.flags k (· - 1) })
    else s.updWarp l (fun w => { w with flags := tweakNth 0 w.flags k (· - 1) })

/-- An operation issues and stays in flight until it completes; its flag's count rises (R102). -/
def State.launchFlight (s : State) (f : Flight) : State :=
  let (u, s) := s.fresh
  let f := { f with id := u, since := s.clk }
  let s := s.flagUp s.cur.loc s.cur.handler f.flag
  if s.cur.handler then s.updHrun s.cur.loc (fun h => { h with inflight := h.inflight ++ [f] })
  else s.updWarp s.cur.loc (fun w => { w with inflight := w.inflight ++ [f] })

/-- An instruction that has had its effect at issue, attached to a flag: the flag is set until the operation's completion
(R102). -/
def State.attach (s : State) (cf : Attach) : State :=
  match s.flagOf cf with
  | some (some k) => s.launchFlight { id := 0, flag := some k, load := false, writes := [] }
  | _ => s

/-! ### Killing (R374, R313) -/

/-- The class of an end with one more kill (R313). -/
def EndClass.join : EndClass → EndClass → EndClass
  | .faulted, _ => .faulted
  | _, .faulted => .faulted
  | .killed, _ => .killed
  | _, .killed => .killed
  | .normal, .normal => .normal

/-- Trap records reduced to the threads that are still parked at their parked PC; an empty record is discarded (R362). -/
def Warp.tidyRecords (w : Warp) : Warp :=
  { w with records := w.records.filterMap (fun r =>
      let m := maskOf (fun t => bitAt r.mask t && (w.thread t).st == .parked && (w.thread t).pc == r.ppc)
      if m = 0 then none else some { r with mask := m }) }

/-- The flag of an extension slot's trap is cleared when no thread of it is left (R94, R375). -/
def State.tidyEmu (s : State) (l : Loc) : State :=
  match s.warp? l with
  | none => s
  | some w =>
    let gone := w.inflight.filter (fun f => match f.emu with
      | some (m, _) => m == 0
      | none => false)
    gone.foldl (fun s f => (s.flagDown l false f.flag).updWarp l (fun w =>
      { w with inflight := w.inflight.filter (fun g => g.id != f.id) })) s

/-- Parked threads of a warp that are resumed or killed leave the record of the warp's handler run and the traps of extension slots, whose
flag clears when none is left (R362, R375). -/
def State.forget (s : State) (l : Loc) (m : Mask) : State :=
  let s := if (s.hrun? l).isSome then s.updHrun l (fun h => { h with trec := { h.trec with mask := h.trec.mask &&& ~~~m } }) else s
  let s := s.updWarp l (fun w => { w with inflight := w.inflight.map (fun f => { f with emu := f.emu.map (fun p => (p.1 &&& ~~~m, p.2)) }) })
  s.tidyEmu l

/-- Threads of a warp are killed: they become exited, the instructions they wait in have no effect, and the warp's end is
faulted when one of them was parked at a fault, killed otherwise (R374, R313). -/
def State.killThreads (s : State) (l : Loc) (m : Mask) : State :=
  let s := s.updWarp l (fun w =>
    let live := w.alive &&& m
    let parked := w.inState .parked &&& m
    let c := if parked != 0 then EndClass.faulted else if live != 0 then .killed else .normal
    ((({ w with endClass := w.endClass.join c }).updThreads live (fun _ x => { x with st := .exited })).tidyWaits).tidyRecords)
  s.forget l m

/-- End the handler run of a warp slot, if it has one. Its flags end with it. -/
def State.endHandler (s : State) (l : Loc) : State :=
  match s.hrun? l with
  | none => s
  | some h =>
    let s := s.updSlice (sliceOfLoc l) (fun x => { x with handler := none, lastServed := h.slot })
    let drop := fun (e : QEntry) => match e.flag with
      | some (k, true, _) => if k == l then { e with flag := none } else e
      | _ => e
    { s with wgs := s.wgs.map (fun g => { g with queues := g.queues.map (fun q => q.map drop) }) }

/-- A workgroup is counted once in its bundle's KILLED, with its fault code (R35); the bundle's checkpoint interval closes
(R396). -/
def State.countKilled (s : State) (u code : Nat) : State :=
  match s.wg? u with
  | none => s
  | some g =>
    if g.counted || g.retired then s
    else
      let s := s.updWg u (fun g => { g with counted := true })
      match g.bundle with
      | some b =>
        if g.wave then s
        else (s.updBundle b (fun x => { x with killed := x.killed ++ [(g.number, code)] })).updCtx g.ctx (fun c =>
          if c.interval.any (fun i => i.bundle == b) then { c with interval := none } else c)
      | none => s

/-- Every thread of every warp of a workgroup, joined waves included, is killed, and their handler runs end (R374, R365). -/
def State.killWg (s : State) (u : Nat) : State :=
  (s.warps.filter (fun w => w.wg == u)).foldl (fun s w =>
    ((s.endHandler w.loc).killThreads w.loc (-1)).updWarp w.loc (fun w => { w with records := [] })) s

/-- The cookie of the command from which a workgroup comes (Table 3.5). -/
def State.cookieOf (s : State) (u : Nat) : BitVec 32 := ((s.wg? u).map (·.cookie)).getD 0

/-- A workgroup is killed with a fault code, and the host is sent an event (R365, R369). -/
def State.killWgWith (s : State) (u code : Nat) : State :=
  let s := s.countKilled u code
  let g := (s.wg? u).map (fun g => (g.ctx, g.number))
  (s.killWg u).post (.killed (s.cookieOf u) ((g.map (·.1)).getD 0) ((g.map (·.2)).getD 0) code)

/-- A double fault (R370): the handler run ends, every thread of the warp is killed as faulted, its queued records are
discarded, a launched warp's workgroup is counted in KILLED with FCODE 0x1A, and the host is sent an event. -/
def State.doubleFault (s : State) (l : Loc) : State :=
  match s.warp? l with
  | none => s
  | some w =>
    let s := s.endHandler l
    let s := s.killThreads l (-1)
    let s := s.updWarp l (fun w => { w with records := [], endClass := .faulted })
    let s := if w.kind == .launched then s.countKilled w.wg 0x1A else s
    s.post (.doubleFault w.cookie w.ctx ((s.wg? w.wg).map (·.number) |>.getD 0))

/-! ### Taking an exception (22 R362 to R367) -/

/-- What one thread raises: the fault code, where it parks, and the record's INFO words for it. -/
structure Raise where
  code  : Nat
  ppc   : Word
  info0 : Word := 0
  info1 : Word := 0
  deriving DecidableEq, Repr

/-- Threads park and one record is queued for them (R362, R363): the record names the slot at FPC, where the threads are
parked, and the INFO words of each thread. A thread parked beyond the slot has passed it. -/
def State.parkAll (s : State) (l : Loc) (m : Mask) (fpc : Word) (bits : Slot) (code : Nat) (ppc : Word)
    (vals : List (Nat × Word × Word)) : State :=
  s.updWarp l (fun w =>
    let w := (w.updThreads m (fun _ x =>
      { x with st := .parked, pc := ppc, pos := if ppc == fpc then x.pos else x.pos + 1,
               pass := if ppc == fpc then x.pass else false, arrived := false })).tidyWaits
    { w with records := w.records ++ [{ mask := m, code := code, fpc := fpc, ppc := ppc, bits := bits, vals := vals }] })

/-- Threads park with one record and the same INFO words. -/
def State.parkOne (s : State) (l : Loc) (m : Mask) (fpc : Word) (bits : Slot) (r : Raise) : State :=
  s.parkAll l m fpc bits r.code r.ppc ((maskList m).map (fun t => (t, r.info0, r.info1)))

/-- The codes that a list of faults raises, each once, in order. -/
def codesOf (l : List (Nat × Raise)) : List Nat :=
  l.foldl (fun acc p => if acc.contains p.2.code then acc else acc ++ [p.2.code]) []

/-- TAKING AN EXCEPTION. The threads of the issuing run that fault are parked, and the warp queues one record for each code
that this issue raises (R362). A fault of a handler run is a double fault (R370). -/
def State.raise (s : State) (l : List (Nat × Raise)) : State :=
  if l.isEmpty then s
  else if s.cur.handler then s.doubleFault s.cur.loc
  else (codesOf l).foldl (fun s c =>
    match l.filter (fun p => p.2.code == c) with
    | [] => s
    | p :: ps => s.parkAll s.cur.loc (listMask ((p :: ps).map (·.1))) s.cur.pc s.cur.bits c p.2.ppc
        ((p :: ps).map (fun q => (q.1, q.2.info0, q.2.info1)))) s

/-- Every thread of a mask raises one fault. -/
def State.raiseAll (s : State) (m : Mask) (r : Raise) : State := s.raise ((maskList m).map (fun t => (t, r)))

/-- Threads of a warp raise a fault that no issue of theirs causes (R379, R380, R351): one record for each PC. -/
def State.raiseAt (s : State) (l : Loc) (m : Mask) (code : Nat) (i0 i1 : Word) : State :=
  match s.warp? l with
  | none => s
  | some w =>
    let pcs := (maskList m).foldl (fun acc t =>
      if acc.contains (w.thread t).pc then acc else acc ++ [(w.thread t).pc]) []
    pcs.foldl (fun s pc =>
      let g := maskOf (fun t => bitAt m t && (w.thread t).pc == pc)
      s.parkOne l g pc (s.slotBits (coreOfLoc l) w.ctx pc) { code := code, ppc := pc, info0 := i0, info1 := i1 }) s

/-- HTHREAD of a record: the lowest thread of MASK. -/
def TrapRec.hthread (r : TrapRec) : Nat := ((maskList r.mask)[0]?).getD 0

/-- The INFO words of a record: those of HTHREAD (R364). -/
def TrapRec.info (r : TrapRec) : Word × Word := (lookupKey r.vals r.hthread).getD (0, 0)

/-- The eight words of a trap record (Table 22.1). -/
def TrapRec.words (r : TrapRec) (wid : Nat) : List Word :=
  [word (r.mask.toNat * 2 ^ 32 + wid * 2 ^ 16 + r.hthread * 2 ^ 8 + r.code), r.fpc, r.ppc, (field r.bits 0 64),
   word (fieldNat r.bits 64 32), r.info.1, r.info.2, 0]

/-- The workgroup that a kill of a record takes: the warp's own (R365). -/
def Warp.killTarget (w : Warp) : Nat := w.wg

/-- The entry address of a fault code in the vector table (R365): none when the read fails translation or permission. A
VTBASE of 0 names no table, and its entries read as 0. -/
def State.vectorEntry (s : State) (core : CoreId) (ctx code : Nat) : Option Word × State :=
  match s.ctx? ctx with
  | none => (some 0, s)
  | some c =>
    if c.desc.vtBase = 0 then (some 0, s)
    else
      let va := c.desc.vtBase.toNat + 8 * code
      match s.translate core ctx va with
      | none => (none, s)
      | some t =>
        let (b, s) := (s.cacheTlb t).threadRead core (linearView ctx t.entry va) (t.loc va) 8
        (some (wordOfBytes b), s)

/-- The record that a handler run takes next from a warp: the lowest FPC, then the lowest HTHREAD (R366). -/
def nextRecord (l : List TrapRec) : Option TrapRec :=
  l.foldl (fun acc r =>
    match acc with
    | none => some r
    | some a =>
      if r.fpc.toNat < a.fpc.toNat || (r.fpc == a.fpc && decide (r.hthread < a.hthread)) then some r else some a) none

/-- THE START OF A HANDLER RUN for a record of a warp (R365 to R367): the vector is read; an entry of 0 kills the workgroup
with FCODE = CODE; a failed read is a double fault; otherwise the handler bank is loaded and HTHREAD becomes the handler
run's thread with its PC at the entry, which is a transfer target. -/
def State.startHandler (s : State) (l : Loc) (r : TrapRec) : State :=
  match s.warp? l with
  | none => s
  | some w =>
    let s := s.updWarp l (fun w => { w with records := w.records.filter (fun x => x != r) })
    match s.vectorEntry (coreOfLoc l) w.ctx r.code with
    | (none, s) => s.doubleFault l
    | (some e, s) =>
      if e = 0 then
        (s.killWgWith w.killTarget r.code).updSlice (sliceOfLoc l) (fun x => { x with lastServed := l.slot })
      else
        s.updSlice (sliceOfLoc l) (fun x =>
          { x with hrows := List.replicate 8 (List.replicate 32 0),
                   handler := some { slot := l.slot, trec := r, thread := r.hthread, pc := e,
                                     unif := r.words w.wid ++ List.replicate 8 0, start := s.clk } })

/-- Parked threads of a mask return to running at their parked PC, with PASS set (R373 .here). -/
def State.resumeHere (s : State) (l : Loc) (m : Mask) : State :=
  (s.updWarp l (fun w =>
    (w.updThreads (w.inState .parked &&& m) (fun _ x => { x with st := .running, pass := true })).tidyRecords)).forget l m

/-- Parked threads of a mask return to running at a given PC, a transfer checked at their next arrival (R373 .at). -/
def State.resumeAt (s : State) (l : Loc) (m : Mask) (pc : Word) : State :=
  (s.updWarp l (fun w =>
    (w.updThreads (w.inState .parked &&& m) (fun _ x =>
      { x with st := .running, pc := pc, xfer := false, arriving := true })).tidyRecords)).forget l m

/-- Parked threads of a mask return to running at the successor of their slot, which they have passed (R375). -/
def State.resumePast (s : State) (l : Loc) (m : Mask) : State :=
  (s.updWarp l (fun w =>
    (w.updThreads (w.inState .parked &&& m) (fun _ x =>
      { x with st := .running, pc := succPc x.pc, pos := x.pos + 1, pass := false })).tidyRecords)).forget l m

/-- Parked threads of a mask are resumed in a given way. -/
def State.resumeAs (s : State) (l : Loc) (m : Mask) (r : Resume) : State :=
  match r with
  | .here => s.resumeHere l m
  | .target pc => s.resumeAt l m pc
  | .past => s.resumePast l m

/-- THE RETURN FROM AN EXCEPTION (R376): the handler run ends, and a pending kill or resume of its thread is applied. -/
def State.returnFromHandler (s : State) (l : Loc) : State :=
  match s.hrun? l with
  | none => s
  | some h =>
    let s := s.endHandler l
    let m := listMask [h.thread]
    if h.kill then s.killThreads l m
    else match h.resume with
      | some r => s.resumeAs l m r
      | none => s

end Sys2Proof.Machine
end

