-- ==== Sys2Proof/Machine/Flags.lean ====
section
/-!
DEFINITION. The sticky flags (08 R162, 05 R82, 22 R367): the one operation that raises them, and the two that set them.
-/
namespace Sys2Proof.Machine
open Sys2Proof

/-- OR flags into sr.fflags of the listed threads of the issuing run. With NF = 1, and in a handler run, nothing is raised
(R82, R367). -/
def State.orFlags (s : State) (nf : Bool) (l : List (Nat × BitVec 8)) : State :=
  if nf || s.cur.handler then s
  else s.updWarp s.cur.loc (fun w =>
    w.updThreads (listMask (l.map (·.1))) (fun t x => { x with fflags := x.fflags ||| (lookupKey l t).getD 0 }))

/-- Clear the flags of a mask in the threads of a run (FFLAGS). -/
def State.clearFlags (s : State) (m : Mask) (fl : BitVec 8) : State :=
  s.updWarp s.cur.loc (fun w => w.updThreads m (fun _ x => { x with fflags := x.fflags &&& ~~~fl }))

/-- Set sr.fflags of one thread (TWR.fflags). -/
def State.putFlags (s : State) (l : Loc) (t : Nat) (fl : BitVec 8) : State :=
  s.updWarp l (fun w => w.updThreads (listMask [t]) (fun _ x => { x with fflags := fl }))

end Sys2Proof.Machine
end

