-- ==== Sys2Proof/Machine/Trans.lean ====
section
/-!
DEFINITION. The transcendental functions (08 R161, 10 R202): the exact value is enclosed by fixed-point arithmetic with far
more bits than any binary32 result needs, a sticky bit stands for the irrational rest, and the result is rounded once. The
values that are rational (R161) are computed exactly. Log 8 says how many bits are carried, and why.
-/
namespace Sys2Proof

/-- The terms z^(2k+1) / (2k+1) of the area tangent of n / d, at P fractional bits. -/
def atanhTerms (n d : Nat) : Nat → Nat → Nat → Nat
  | 0, _, _ => 0
  | fuel + 1, k, t => t / (2 * k + 1) + atanhTerms n d fuel (k + 1) (t * n * n / (d * d))

/-- The area tangent of n / d at P fractional bits. -/
def atanhFix (P n d : Nat) : Nat := atanhTerms n d (P / 2 + 8) 0 (2 ^ P * n / d)

/-- The terms (−1)^k z^(2k+1) / (2k+1) of the arc tangent of 1 / d. -/
def atanTerms (d : Nat) : Nat → Nat → Int → Int
  | 0, _, _ => 0
  | fuel + 1, k, t => t / (2 * k + 1) + atanTerms d fuel (k + 1) (-(t / (d * d)))

/-- π at P fractional bits, by Machin's formula. -/
def piFix (P : Nat) : Nat :=
  let Q := P + 16
  let at5 := atanTerms 5 (Q / 4 + 8) 0 (2 ^ Q / 5 : Nat)
  let at239 := atanTerms 239 (Q / 4 + 8) 0 (2 ^ Q / 239 : Nat)
  ((16 * at5 - 4 * at239) / 2 ^ 16).toNat

/-- ln 2 at P fractional bits. -/
def ln2Fix (P : Nat) : Nat := 2 * atanhFix P 1 3

/-- The terms y^k / k! of the exponential at P fractional bits. -/
def expTerms (P y : Nat) : Nat → Nat → Nat → Nat
  | 0, _, _ => 0
  | fuel + 1, k, t => t + expTerms P y fuel (k + 1) (t * y / 2 ^ P / (k + 1))

/-- The terms of the sine (first term r, index 1) or cosine (first term 1, index 0) at P fractional bits. -/
def circTerms (P : Nat) (r2 : Int) : Nat → Nat → Int → Int
  | 0, _, _ => 0
  | fuel + 1, k, t => t + circTerms P r2 fuel (k + 2) (-(t * r2 / 2 ^ P / ((k + 1) * (k + 2))))

/-- A number to round: ±(n / d) × 2^exp. -/
structure Parts where
  neg : Bool
  n   : Nat
  d   : Nat := 1
  exp : Int
  deriving DecidableEq, Repr

/-- A fixed-point number with a sticky bit below it. -/
def sticky (P : Nat) (v : Int) : Parts := { neg := decide (v < 0), n := 2 * v.natAbs + 1, exp := -(P + 1 : Int) }

/-- The bits carried for exponentials and logarithms. -/
def expBits : Nat := 192
/-- The bits carried for the reduction of an angle. -/
def angleBits : Nat := 640

/-- The greatest integer not above ±sig × 2^e, and the fraction at P bits (exact when e ≥ −P). -/
def splitFix (P : Nat) (neg : Bool) (sig : Nat) (e : Int) : Int × Nat :=
  let v : Int := if 0 ≤ e + P then sigInt neg (sig * 2 ^ (e + P).toNat) else sigInt neg sig / 2 ^ (-(e + P)).toNat
  (v / 2 ^ P, (v % 2 ^ P).toNat)

/-- 2 to the power ±sig × 2^e, for sig ≠ 0. An argument beyond ±2^12 overflows or underflows in every format as ±2^12 does; an
argument below 2^−40 gives a value next to 1. -/
def exp2Parts (neg : Bool) (sig : Nat) (e : Int) : Parts :=
  let top := ilog sig 1 e
  if 12 ≤ top then { neg := false, n := 1, exp := if neg then -4096 else 4096 }
  else if top < -40 then { neg := false, n := if neg then 2 ^ 64 - 1 else 2 ^ 64 + 1, exp := -64 }
  else
    let (k, f) := splitFix expBits neg sig e
    if f = 0 then { neg := false, n := 1, exp := k }
    else
      let y := f * ln2Fix expBits / 2 ^ expBits
      { neg := false, n := 2 * expTerms expBits y 64 0 (2 ^ expBits) + 1, exp := k - expBits - 1 }

/-- The base-two logarithm of sig × 2^e, for sig ≠ 0. -/
def log2Parts (sig : Nat) (e : Int) : Parts :=
  let k := Nat.log2 sig
  let whole : Int := k + e
  if sig = 2 ^ k then { neg := decide (whole < 0), n := whole.natAbs, exp := 0 }
  else
    let lnm := 2 * atanhFix expBits (sig - 2 ^ k) (sig + 2 ^ k)
    sticky expBits (whole * 2 ^ expBits + (lnm * 2 ^ expBits / ln2Fix expBits : Nat))

/-- The quadrant of an angle and what remains of it, at 320 bits: sig × 2^e = q × π/2 + r with |r| ≤ π/4. -/
def reduceAngle (sig : Nat) (e : Int) : Nat × Int :=
  let x : Nat := if 0 ≤ e + angleBits then sig * 2 ^ (e + angleBits).toNat else sig / 2 ^ (-(e + angleBits)).toNat
  let h := piFix angleBits / 2
  let q := (2 * x + h) / (2 * h)
  (q, ((x : Int) - q * h) / 2 ^ (angleBits - 320))

/-- The sine or the cosine of a reduced angle in quadrant q. -/
def circParts (q : Nat) (r : Int) : Parts :=
  let r2 := r * r / 2 ^ 320
  let v := if q % 2 = 0 then circTerms 320 r2 48 1 r else circTerms 320 r2 48 0 (2 ^ 320)
  sticky 320 (if q % 4 < 2 then v else -v)

/-- The sine of ±sig × 2^e, for sig ≠ 0. -/
def sinParts (neg : Bool) (sig : Nat) (e : Int) : Parts :=
  if ilog sig 1 e < -40 then { neg := neg, n := sig * 2 ^ 64 - 1, exp := e - 64 }
  else
    let (q, r) := reduceAngle sig e
    let p := circParts q r
    { p with neg := p.neg != neg }

/-- The cosine of ±sig × 2^e, for sig ≠ 0. -/
def cosParts (sig : Nat) (e : Int) : Parts :=
  if ilog sig 1 e < -40 then { neg := false, n := 2 ^ 64 - 1, exp := -64 }
  else
    let (q, r) := reduceAngle sig e
    circParts (q + 1) r

/-- Round a number. -/
def FFmt.ofParts (F : FFmt) (rm : Rm) (p : Parts) : FRes := F.result rm p.neg p.n p.d p.exp

/-- The six functions of R202. -/
inductive TransOp where
  | rcp | rsq | exp2 | log2 | sin | cos
  deriving DecidableEq, Repr

/-- A transcendental function on one element (R161, R202). -/
def FFmt.trans (F : FFmt) (op : TransOp) (rm : Rm) (a : Nat) : FRes :=
  match F.nanRule [a] with
  | some r => r
  | none =>
    let one := (F.result .rn false 1 1 0).bits
    match op, F.decode a with
    | .rcp, .inf n => { bits := F.signBit n }
    | .rcp, .fin n s e =>
      if s = 0 then { bits := F.infBits n, flags := flDZ } else F.result rm n 1 s (-e)
    | .rsq, .inf n => if n then F.invalid else { bits := F.signBit false }
    | .rsq, .fin n s e =>
      if s = 0 then { bits := F.infBits n, flags := flDZ }
      else if n then F.invalid
      else let (m, k) := sqrtParts 1 s (-e); F.result rm false m 1 k
    | .exp2, .inf n => { bits := if n then 0 else F.infBits false }
    | .exp2, .fin n s e => if s = 0 then { bits := one } else F.ofParts rm (exp2Parts n s e)
    | .log2, .inf n => if n then F.invalid else { bits := F.infBits false }
    | .log2, .fin n s e =>
      if s = 0 then { bits := F.infBits true, flags := flDZ } else if n then F.invalid
      else F.ofParts rm (log2Parts s e)
    | .sin, .fin n s e => if s = 0 then { bits := a } else F.ofParts rm (sinParts n s e)
    | .cos, .fin _ s e => if s = 0 then { bits := one } else F.ofParts rm (cosParts s e)
    | _, _ => F.invalid

end Sys2Proof
end

