-- ==== Sys2Proof/Machine/Intervals.lean ====
section
/-!
DEFINITION. Intervals (08 R168 to R172, 10 R201 to R217): a pair of bound codes of FP32 or FP64, the operations on the exact
sets of R169, each bound rounded outward once, and the midpoint of Table 8.7.
-/
namespace Sys2Proof

/-- The codes of a lower and an upper bound. -/
abbrev Iv := Nat × Nat

/-- The canonical empty interval (R168). -/
def FFmt.emptyIv (F : FFmt) : Iv := (F.infBits false, F.infBits true)
/-- The entire interval. -/
def FFmt.entire (F : FFmt) : Iv := (F.infBits true, F.infBits false)
/-- Canonical empty. -/
def FFmt.isEmpty (F : FFmt) (x : Iv) : Bool := x == F.emptyIv
/-- Well-formed (R168). -/
def FFmt.ivWf (F : FFmt) (x : Iv) : Bool :=
  !F.isNan x.1 && !F.isNan x.2
  && (F.isEmpty x || (F.le x.1 x.2 && x.1 != F.infBits false && x.2 != F.infBits true))

/-- A zero bound of a result is written +0 (R168). -/
def FFmt.plusZero (F : FFmt) (b : Nat) : Nat := if b = F.signBit true then 0 else b

/-- An extended real rounded to a bound: down with rd, up with ru (R169). -/
def FFmt.bound (F : FFmt) (rm : Rm) (v : FVal) : Nat :=
  match v with
  | .inf n => F.infBits n
  | .fin n s e => F.plusZero (F.result rm n s 1 e).bits
  | .nan _ _ => F.canon

/-- The interval whose bounds are given exactly. -/
def FFmt.hull (F : FFmt) (lo hi : FVal) : Iv := (F.bound .rd lo, F.bound .ru hi)

/-- The sum of two extended reals that are not infinities of opposite signs. -/
def FVal.plus : FVal → FVal → FVal
  | .inf n, _ => .inf n
  | _, .inf n => .inf n
  | .fin n1 s1 e1, .fin n2 s2 e2 =>
    let (m, e) := addDyadic (sigInt n1 s1) e1 (sigInt n2 s2) e2
    .fin (decide (m < 0)) m.natAbs e
  | v, _ => v

/-- The negative. -/
def FVal.opp : FVal → FVal
  | .inf n => .inf (!n)
  | .fin n s e => .fin (!n) s e
  | v => v

/-- The product of two extended reals, with 0 × ±∞ = 0 (R169). -/
def FVal.times : FVal → FVal → FVal
  | .inf n1, .inf n2 => .inf (n1 != n2)
  | .inf n1, .fin n2 s e => if s = 0 then .fin false 0 e else .inf (n1 != n2)
  | .fin n1 s e, .inf n2 => if s = 0 then .fin false 0 e else .inf (n1 != n2)
  | .fin n1 s1 e1, .fin n2 s2 e2 => .fin (n1 != n2) (s1 * s2) (e1 + e2)
  | v, _ => v

/-- The lesser of two extended reals. -/
def FVal.min (a b : FVal) : FVal := if cmpVal b a == .lt then b else a
/-- The greater of two extended reals. -/
def FVal.max (a b : FVal) : FVal := if cmpVal a b == .lt then b else a

/-- The bounds as extended reals. -/
def FFmt.vals (F : FFmt) (x : Iv) : FVal × FVal := (F.decode x.1, F.decode x.2)

/-- The exact bounds of the product of two intervals. -/
def FFmt.mulVals (F : FFmt) (x y : Iv) : FVal × FVal :=
  let (a, b) := F.vals x
  let (c, d) := F.vals y
  let p := a.times c
  let q := a.times d
  let r := b.times c
  let t := b.times d
  ((p.min q).min (r.min t), (p.max q).max (r.max t))

/-- The interval contains 0. -/
def FFmt.hasZero (F : FFmt) (x : Iv) : Bool := F.le x.1 0 && F.le 0 x.2
/-- The interval is exactly [0, 0]. -/
def FFmt.isZeroIv (F : FFmt) (x : Iv) : Bool := F.eqv x.1 0 && F.eqv x.2 0

/-- A quotient of extended reals, the divisor not zero, rounded to a bound: a finite number over ∞ is 0 (R169). -/
def FFmt.quot (F : FFmt) (rm : Rm) (a b : FVal) : FVal :=
  match a, b with
  | .inf n1, .fin n2 _ _ => .inf (n1 != n2)
  | .fin n1 s1 e1, .fin n2 s2 e2 => F.decode (F.plusZero (F.result rm (n1 != n2) s1 s2 (e1 - e2)).bits)
  | _, _ => .fin false 0 0

/-- What an interval operation gives: an interval with its flags, or nothing, when S is empty (R170). -/
abbrev IvOut := Option (Iv × BitVec 8)

/-- Division (R171). -/
def FFmt.ivDiv (F : FFmt) (x y : Iv) : IvOut :=
  if F.isEmpty x || F.isEmpty y then none
  else if F.hasZero y then some (F.entire, if F.isZeroIv y then flDZ else 0)
  else
    let (a, b) := F.vals x
    let (c, d) := F.vals y
    let corners := fun (rm : Rm) => [F.quot rm a c, F.quot rm a d, F.quot rm b c, F.quot rm b d]
    let lo := (corners .rd).foldl FVal.min (.inf false)
    let hi := (corners .ru).foldl FVal.max (.inf true)
    some (F.hull lo hi, 0)

/-- Sum (R201). -/
def FFmt.ivAdd (F : FFmt) (x y : Iv) : IvOut :=
  if F.isEmpty x || F.isEmpty y then none
  else some (F.hull ((F.decode x.1).plus (F.decode y.1)) ((F.decode x.2).plus (F.decode y.2)), 0)

/-- Negation (R204). -/
def FFmt.ivNeg (F : FFmt) (x : Iv) : IvOut :=
  if F.isEmpty x then none else some (F.hull (F.decode x.2).opp (F.decode x.1).opp, 0)

/-- Difference. -/
def FFmt.ivSub (F : FFmt) (x y : Iv) : IvOut :=
  if F.isEmpty x || F.isEmpty y then none
  else some (F.hull ((F.decode x.1).plus (F.decode y.2).opp) ((F.decode x.2).plus (F.decode y.1).opp), 0)

/-- Product. -/
def FFmt.ivMul (F : FFmt) (x y : Iv) : IvOut :=
  if F.isEmpty x || F.isEmpty y then none else some (F.hull (F.mulVals x y).1 (F.mulVals x y).2, 0)

/-- { x × y + z }, each bound rounded once (R201). -/
def FFmt.ivFma (F : FFmt) (x y z : Iv) : IvOut :=
  if F.isEmpty x || F.isEmpty y || F.isEmpty z then none
  else some (F.hull ((F.mulVals x y).1.plus (F.decode z.1)) ((F.mulVals x y).2.plus (F.decode z.2)), 0)

/-- Square root over the non-negative part (R201). -/
def FFmt.ivSqrt (F : FFmt) (x : Iv) : IvOut :=
  if F.isEmpty x || F.lt x.2 0 then none
  else
    let lo := if F.lt x.1 0 then 0 else F.plusZero (F.sqrt .rd x.1).bits
    some ((lo, F.plusZero (F.sqrt .ru x.2).bits), 0)

/-- Minimum and maximum (R203). -/
def FFmt.ivMinMax (F : FFmt) (max : Bool) (x y : Iv) : IvOut :=
  if F.isEmpty x || F.isEmpty y then none
  else
    let g := fun (a b : Nat) => F.plusZero (if max then F.greater a b else F.lesser a b)
    some ((g x.1 y.1, g x.2 y.2), 0)

/-- Absolute value (R204). -/
def FFmt.ivAbs (F : FFmt) (x : Iv) : IvOut :=
  if F.isEmpty x then none
  else
    let a := if x.1.testBit (F.mw + F.ew) then F.neg x.1 else x.1
    let b := if x.2.testBit (F.mw + F.ew) then F.neg x.2 else x.2
    some (if F.hasZero x then (0, F.plusZero (F.greater a b)) else (F.plusZero (F.lesser a b), F.plusZero (F.greater a b)), 0)

/-- Hull (R214): an empty operand contributes nothing. -/
def FFmt.ivHull (F : FFmt) (x y : Iv) : IvOut :=
  if F.isEmpty x && F.isEmpty y then none
  else if F.isEmpty x then some ((F.plusZero y.1, F.plusZero y.2), 0)
  else if F.isEmpty y then some ((F.plusZero x.1, F.plusZero x.2), 0)
  else some ((F.plusZero (F.lesser x.1 y.1), F.plusZero (F.greater x.2 y.2)), 0)

/-- Intersection (R214). -/
def FFmt.ivMeet (F : FFmt) (x y : Iv) : IvOut :=
  if F.isEmpty x || F.isEmpty y then none
  else
    let lo := F.greater x.1 y.1
    let hi := F.lesser x.2 y.2
    if F.le lo hi then some ((F.plusZero lo, F.plusZero hi), 0) else none

/-- The smallest interval with integral bounds that contains X (R209). -/
def FFmt.ivRound (F : FFmt) (x : Iv) : IvOut :=
  if F.isEmpty x then none
  else some ((F.plusZero (F.roundIntegral .rd x.1).bits, F.plusZero (F.roundIntegral .ru x.2).bits), 0)

/-- X × 2^n, each bound rounded outward (R210). -/
def FFmt.ivScale (F : FFmt) (x : Iv) (n : Int) : IvOut :=
  if F.isEmpty x then none
  else some ((F.plusZero (F.scale .rd x.1 n).bits, F.plusZero (F.scale .ru x.2 n).bits), 0)

/-- [RoundDown(lo), RoundUp(hi)] of two scalars that are no NaN (R212). -/
def FFmt.ivMake (F : FFmt) (lo hi : Nat) : IvOut :=
  if !F.le lo hi || lo == F.infBits false || hi == F.infBits true then none
  else some ((F.plusZero lo, F.plusZero hi), 0)

/-- ±sig × 2^e as a multiple of 2^−640. -/
def angleFix : FVal → Int
  | .fin n s e => if 0 ≤ e + angleBits then sigInt n (s * 2 ^ (e + angleBits).toNat) else sigInt n s / 2 ^ (-(e + angleBits)).toNat
  | _ => 0

/-- Some number off + 2πk lies in [a, b], all as multiples of 2^−640. -/
def hitsAngle (a b off : Int) : Bool :=
  let T : Int := 2 * (piFix angleBits : Int)
  decide (-((off - a) / T) ≤ (b - off) / T)

/-- The image of the sine or cosine (R202): whole at a width of 2π or with an infinite bound; an interior extremum gives ±1. -/
def FFmt.ivCirc (F : FFmt) (cos : Bool) (x : Iv) : IvOut :=
  let one := (F.result .rn false 1 1 0).bits
  let mone := (F.result .rn true 1 1 0).bits
  if F.isEmpty x then none
  else match F.decode x.1, F.decode x.2 with
    | .fin n1 s1 e1, .fin n2 s2 e2 =>
      let a := angleFix (.fin n1 s1 e1)
      let b := angleFix (.fin n2 s2 e2)
      let p : Int := piFix angleBits
      if 2 * p < b - a then some ((mone, one), 0)
      else
        let top := hitsAngle a b (if cos then 0 else p / 2)
        let low := hitsAngle a b (if cos then p else -(p / 2))
        let f := fun (rm : Rm) (v : Nat) => F.plusZero (F.trans (if cos then .cos else .sin) rm v).bits
        let lo := if low then mone else F.lesser (f .rd x.1) (f .rd x.2)
        let hi := if top then one else F.greater (f .ru x.1) (f .ru x.2)
        some ((lo, hi), 0)
    | _, _ => some ((mone, one), 0)

/-- The image of a transcendental function (R202). -/
def FFmt.ivTrans (F : FFmt) (op : TransOp) (x : Iv) : IvOut :=
  let one := (F.result .rn false 1 1 0).bits
  let g := fun (o : TransOp) (rm : Rm) (v : Nat) => F.plusZero (F.trans o rm v).bits
  match op with
  | .rcp => F.ivDiv (one, one) x
  | .rsq =>
    if F.isEmpty x || F.le x.2 0 then none
    else some ((g .rsq .rd x.2, if F.le x.1 0 then F.infBits false else g .rsq .ru x.1), 0)
  | .exp2 => if F.isEmpty x then none else some ((g .exp2 .rd x.1, g .exp2 .ru x.2), 0)
  | .log2 =>
    if F.isEmpty x || F.le x.2 0 then none
    else some ((if F.le x.1 0 then F.infBits true else g .log2 .rd x.1, g .log2 .ru x.2), 0)
  | .sin => F.ivCirc false x
  | .cos => F.ivCirc true x

/-- The midpoint of Table 8.7 of an interval that is not empty, clamped into it, a zero written +0. -/
def FFmt.mid (F : FFmt) (x : Iv) : Nat :=
  let (lo, hi) := F.vals x
  let rn := fun (v : FVal) => F.bound .rn v
  let half := fun (v : FVal) => match v with
    | .fin n s e => FVal.fin n s (e - 1)
    | w => w
  let twice := fun (v : FVal) => match v with
    | .fin n s e => FVal.fin n s (e + 1)
    | w => w
  let one := FVal.fin false 1 0
  let m := match lo, hi with
    | .inf _, .inf _ => 0
    | .inf _, h =>
      if F.lt 0 x.2 then F.bound .rn one.opp
      else
        let r := rn ((twice h).plus one.opp)
        if r = F.infBits true then F.maxBits true else r
    | l, .inf _ =>
      if F.lt x.1 0 then F.bound .rn one
      else
        let r := rn ((twice l).plus one)
        if r = F.infBits false then F.maxBits false else r
    | l, h => rn ((half l).plus (half h))
  let m := if F.lt m x.1 then x.1 else if F.lt x.2 m then x.2 else m
  F.plusZero m

/-- The width, rounded up (R215). -/
def FFmt.wid (F : FFmt) (x : Iv) : Nat := F.bound .ru ((F.decode x.2).plus (F.decode x.1).opp)

/-- A three-valued verdict (R110): true, false, or none for undecided. -/
abbrev Verdict := Option Bool

/-- The relation of FCMP on two points (R205). -/
def FFmt.relPoint (F : FFmt) (rel a b : Nat) : Verdict :=
  if F.isNan a || F.isNan b then none
  else
    let c := cmpVal (F.decode a) (F.decode b)
    some (match rel with
      | 0 => c == .eq
      | 1 => c != .eq
      | 2 => c == .lt
      | 3 => c != .gt
      | 4 => c == .gt
      | _ => c != .lt)

/-- The relation of FCMP on two intervals that are not empty (Table 10.3). -/
def FFmt.relIv (F : FFmt) (rel : Nat) (x y : Iv) : Verdict :=
  let same := F.eqv x.1 x.2 && F.eqv y.1 y.2 && F.eqv x.1 y.1
  let apart := F.lt x.2 y.1 || F.lt y.2 x.1
  let v := fun (t f : Bool) => if t then some true else if f then some false else none
  match rel with
  | 0 => v same apart
  | 1 => v apart same
  | 2 => v (F.lt x.2 y.1) (F.le y.2 x.1)
  | 3 => v (F.le x.2 y.1) (F.lt y.2 x.1)
  | 4 => v (F.lt y.2 x.1) (F.le x.2 y.1)
  | _ => v (F.le y.2 x.1) (F.lt x.2 y.1)

/-- Whether A lies within B (R216). -/
def FFmt.inside (F : FFmt) (a b : Iv) : Verdict :=
  if F.le b.1 a.1 && F.le a.2 b.2 then some true
  else if F.lt a.2 b.1 || F.lt b.2 a.1 then some false else none

/-- The class bit of a point (Table 10.4). -/
def FFmt.classPoint (F : FFmt) (b : Nat) : Nat :=
  if F.isSnan b then 0 else if F.isNan b then 1
  else match F.decode b with
    | .inf n => if n then 2 else 9
    | .fin n s _ =>
      if s = 0 then (if n then 5 else 6)
      else if s < 2 ^ F.mw then (if n then 4 else 7)
      else if n then 3 else 8
    | .nan _ _ => 1

/-- A code is subnormal. -/
def FFmt.isSub (F : FFmt) (b : Nat) : Bool :=
  match F.decode b with
  | .fin _ s _ => s != 0 && decide (s < 2 ^ F.mw)
  | _ => false

/-- The class mask of an interval (Table 10.4). -/
def FFmt.classIv (F : FFmt) (x : Iv) : Nat :=
  if !F.ivWf x then 1 else if F.isEmpty x then 2
  else
    let bit := fun (k : Nat) (b : Bool) => if b then 2 ^ k else 0
    bit 2 (x == F.entire) + bit 3 (F.eqv x.1 x.2) + bit 4 (F.hasZero x) + bit 5 (x.1 == F.infBits true)
      + bit 6 (x.2 == F.infBits false) + bit 7 (F.lt x.2 0) + bit 8 (F.lt 0 x.1) + bit 9 (F.isSub x.1 || F.isSub x.2)

/-- A value is a NaN. -/
def FVal.isNanV : FVal → Bool
  | .nan _ _ => true
  | _ => false

/-- A value is an infinity of a sign. -/
def FVal.isInfV (neg : Bool) : FVal → Bool
  | .inf n => n == neg
  | _ => false

/-- A value is zero. -/
def FVal.isZeroV : FVal → Bool
  | .fin _ s _ => s == 0
  | _ => false

end Sys2Proof
end

