-- ==== Sys2Proof/Machine/Operands.lean ====
section
/-!
DEFINITION. Operand forms (05 R76 to R81, 08 R153) and the common course of an instruction of a slot: the checks that need
the state (05 R67, R87, 22 R368), the guard (R76), the interlock of 06 R103, the reads with UNMAPPED_NAME (07 R131), the
allocation and write of a destination (07 R129), the flags and the faults of each thread (10 R198).
-/
namespace Sys2Proof

/-! ### What an instruction touches -/

/-- A vector name, uniform register or predicate that an instruction reads or writes; its guard's predicate is not listed. -/
inductive Touch where
  | name (n : Nat)
  | uni (k : Nat)
  | pred (p : Nat)
  deriving DecidableEq, Repr

/-- What a source touches; an iv64 source takes a pair (R80). -/
def Src.touch (o : Src) (wide : Bool := false) : List Touch :=
  match o with
  | .name n => if wide then [.name n.val, .name (n.val + 1)] else [.name n.val]
  | .uni k => if wide then [.uni k.val, .uni (k.val + 1)] else [.uni k.val]
  | .imm => []

/-- What a destination touches. -/
def Dst.touch (d : Dst) (wide : Bool := false) : List Touch :=
  match d with
  | .name n => if wide then [.name n.val, .name (n.val + 1)] else [.name n.val]
  | .uni k => if wide then [.uni k.val, .uni (k.val + 1)] else [.uni k.val]

/-- What a destination touches whose kind 0 is a predicate, or the pair of predicates from it on. -/
def Dst.touchUni (d : Dst) (pair : Bool := false) : List Touch :=
  match d with
  | .name p => if pair then [.pred p.val, .pred (p.val + 1)] else [.pred p.val]
  | .uni k => [.uni k.val]

/-- The predicate that a guard reads. -/
def Guard.touch : Guard → List Touch
  | .always => []
  | .pred p _ => [.pred p.val]

/-- The predicate that a source names; 15 is true (R111). -/
def Src.touchPred : Src → List Touch
  | .name n => if n.val = 15 then [] else [.pred n.val]
  | _ => []

/-- The predicate that a pair of BRM reads. -/
def BPair.touch (p : BPair) : List Touch :=
  match p.test with
  | .always => []
  | .pred q _ => [.pred q.val]

/-- What a uniform source of format E touches. -/
def USrc.touch (o : USrc) : List Touch :=
  match o with
  | .uni k => [.uni k.val]
  | .imm => []

/-- In a handler run names 0 to 7 and registers 0 to 15 exist (R367, R368). -/
def Touch.inBank : Touch → Bool
  | .name n => decide (n < 8)
  | .uni k => decide (k < 16)
  | .pred _ => true

/-- The number of a name operand. -/
def Src.no : Src → Nat
  | .name n => n.val
  | .uni k => k.val
  | .imm => 255

/-- The number of a destination. -/
def Dst.no : Dst → Nat
  | .name n => n.val
  | .uni k => k.val

/-- The names that a destination maps. -/
def Dst.names (d : Dst) (wide : Bool := false) : List Nat :=
  match d with
  | .name n => if wide then [n.val, n.val + 1] else [n.val]
  | .uni _ => []

end Sys2Proof
namespace Sys2Proof.Machine
open Sys2Proof

/-- The operations of the issuing bank in flight whose writes fall on a register or row (R103; rows are judged as physical
rows). -/
def State.ownPending (s : State) (ts : List Touch) : List Nat :=
  let fl := if s.cur.handler then s.myH.inflight else s.me.inflight
  let hit := fun (d : FlightDst) (x : Touch) => match d, x with
    | .uni k, .uni j => k == j
    | .hrow h _, .name n => s.cur.handler && h == n
    | .row r _, .name n => !s.cur.handler && s.me.mapOf n == some r
    | _, _ => false
  (fl.filter (fun f => f.writes.any (fun w => ts.any (hit w.1)))).map (·.id)

/-- The operations of other warps of the slice in flight whose writes fall on a row that an instruction touches. A read returns the value
after such a write, as R140 asks of one that is ordered before it and allows of any other. -/
def State.otherPending (s : State) (ts : List Touch) : List Nat :=
  if s.cur.handler then []
  else
    let hit := fun (d : FlightDst) => match d with
      | .row r _ => ts.any (fun x => match x with
        | .name n => s.me.mapOf n == some r
        | _ => false)
      | _ => false
    ((s.warpsOn (sliceOfLoc s.cur.loc)).filter (fun w => w.loc != s.cur.loc)).flatMap (fun w =>
      (w.inflight.filter (fun f => f.writes.any (fun x => hit x.1))).map (·.id))

/-- The operations in flight that an instruction waits for before it reads or writes what it touches. -/
def State.pendingOn (s : State) (ts : List Touch) : List Nat := s.ownPending ts ++ s.otherPending ts

/-- What a waiting instruction has still to write. -/
def WaitKind.dests : WaitKind → List Touch
  | .tagAny _ d _ => [.uni d]
  | .join _ d q _ => [.uni d, .pred q]
  | .ringPop _ _ d _ => [.uni d]
  | .mchk _ _ _ d => [.uni d]
  | _ => []

/-- An instruction that issued in another run of a warp waits, and is still to write a register or predicate. -/
def Warp.stillToWrite (w : Warp) (x : Wait) : Bool := !x.kind.dests.isEmpty && x.mask == w.runAt x.pc

/-- The PCs of the instructions of the warp's other runs that wait and are still to write what an instruction touches (R103). -/
def State.toWrite (s : State) (ts : List Touch) : List Word :=
  if s.cur.handler then []
  else (s.me.waits.filter (fun x => x.pc != s.cur.pc && s.me.stillToWrite x && x.kind.dests.any (fun d => ts.contains d))).map (·.pc)

/-- The run waits for earlier instructions of its warp to write what it touches, which the core counts (R103). -/
def State.interlocked (s : State) (k : WaitKind) : State :=
  (s.updCore s.myCore (fun c => { c with interlocks := c.interlocks + 1 })).waitRun k

/-- The run waits for operations in flight: on an interlock when some are of its warp (R103). -/
def State.interlock (s : State) (ts : List Touch) : State :=
  if (s.ownPending ts).isEmpty then s.waitRun (.interlock (s.pendingOn ts)) else s.interlocked (.interlock (s.pendingOn ts))

/-! ### The common course -/

/-- ILLEGAL_OP in every thread of the run, parked at the slot (R93). -/
def illegalOp (s : State) : Raise := { code := 0x01, ppc := s.cur.pc }

/-- A fault of code c parked at the instruction, with its INFO words. -/
def State.faultHere (s : State) (c : Nat) (i0 : Word := 0) (i1 : Word := 0) : Raise :=
  { code := c, ppc := s.cur.pc, info0 := i0, info1 := i1 }

/-- The course of a slot up to its execution: check 7 as far as it needs the state (`ok`, the flag of CF, the handler's
bank), the guard (check 8), and the interlock. The body receives the run and its executing threads. -/
def State.issue (s : State) (ok : Bool) (g : Guard) (cf : Attach) (ts : List Touch) (body : Mask → Mask → State) :
    Host.Outcome State Fault Refusal :=
  s.onRun (fun run =>
    if !ok || (s.flagOf cf).isNone || (s.cur.handler && !ts.all Touch.inBank) then s.raiseAll run (illegalOp s)
    else if !(s.toWrite g.touch).isEmpty then s.interlocked (.written (s.toWrite g.touch))
    else if s.executing g run = 0 then s.advance run
    else if !(s.toWrite ts).isEmpty then s.interlocked (.written (s.toWrite ts))
    else if !(s.pendingOn ts).isEmpty then s.interlock ts
    else body run (s.executing g run))

/-- The end of an instruction: the threads that fault are parked, the others pass the slot, and the instruction attaches to
its flag when some thread executed it (R67, R102, R107). -/
def State.complete (s : State) (run ex : Mask) (cf : Attach) (faults : List (Nat × Raise)) : State :=
  let bad := listMask (faults.map (·.1))
  let s := if ex &&& ~~~bad = 0 then s else s.attach cf
  (s.advance (run &&& ~~~bad)).raise faults

/-- What an instruction of the issuing run does, unless a fabric request of it cannot be delivered: then the run waits in it (R355). -/
def State.runStep (s0 s : State) : State :=
  let w := Waiter.run s0.me.uid s0.cur.handler s0.cur.pc
  s0.delivered s w ((s0.holdRequest s0.myCtx w).waitRun .stalledWrite)

/-- Every executing thread faults. -/
def State.allFault (s : State) (run ex : Mask) (r : Raise) : State :=
  s.complete run ex .none ((maskList ex).map (fun t => (t, r)))

/-- The first unmapped name of a list of touches, in order (R131, Table 22.2). -/
def State.firstUnmapped (s : State) (ts : List Touch) : Option Nat :=
  ts.findSome? (fun x => match x with
    | .name n => if s.isMapped n then none else some n
    | _ => none)

/-- Go on when every name that is read is mapped; otherwise UNMAPPED_NAME in every executing thread (R131). -/
def State.reading (s : State) (run ex : Mask) (ts : List Touch) (k : State) : State :=
  match s.firstUnmapped ts with
  | some n => s.allFault run ex (s.faultHere 0x08 (word n))
  | none => k

/-- Go on with the names of a destination mapped; when no row is available the run stalls (R129, R133). -/
def State.allocating (s : State) (ns : List Nat) (k : State → State) : State :=
  if s.cur.handler then k s
  else match s.allocNames s.cur.loc ns with
    | some s' => k s'
    | none => s.waitRun (.alloc (ns.filter (fun n => !s.isMapped n)).length)

/-! ### Reading operands -/

/-- The exact FP64 code of an immediate read as binary32 (R79). -/
def immF64 (imm : BitVec 32) : Word := word (f32to64 imm.toNat)

/-- A value of n bits replicated over a word (R79). -/
def replicateWord (n : Nat) (v : Nat) : Word :=
  word ((List.range (64 / n)).foldl (fun acc i => acc + v % 2 ^ n * 2 ^ (n * i)) 0)

/-- The immediate read by TY (R79); for iv64, one bound. -/
def immOf (ty : Ty) (imm : BitVec 32) : Word :=
  match ty with
  | .i8x8 | .n8x8 => replicateWord 8 imm.toNat
  | .i16x4 | .n16x4 | .f16x4 | .bf16x4 => replicateWord 16 imm.toNat
  | .i32 | .n32 | .f32 | .n64 => imm.setWidth 64
  | .i64 => imm.signExtend 64
  | .f64 | .iv64 => immF64 imm
  | .f32x2 | .iv32 => replicateWord 32 imm.toNat

/-- The 64 bits that a source gives thread t, with the immediate already read. -/
def State.src (s : State) (o : Src) (t : Nat) (imm : Word) : Word :=
  match o with
  | .name n => s.elem n.val t
  | .uni k => s.uni k.val
  | .imm => imm

/-- The second 64 bits of an iv64 source (R80). -/
def State.srcHi (s : State) (o : Src) (t : Nat) (imm : Word) : Word :=
  match o with
  | .name n => s.elem (n.val + 1) t
  | .uni k => s.uni (k.val + 1)
  | .imm => imm

/-- A source read by TY. -/
def State.srcA (s : State) (f : FmtA) (o : Src) (t : Nat) : Word := s.src o t (immOf f.ty f.imm)

/-- A uniform source of format E: IMM is zero-extended (R79). -/
def State.usrc (s : State) (o : USrc) (imm : BitVec 32) : Word :=
  match o with
  | .uni k => s.uni k.val
  | .imm => imm.setWidth 64

/-- The interval that a source gives thread t, by TY 13 or 14 (R153). -/
def State.ivSrc (s : State) (f : FmtA) (o : Src) (t : Nat) : Iv :=
  let lo := s.src o t (immOf f.ty f.imm)
  if f.ty == .iv64 then (lo.toNat, (s.srcHi o t (immOf f.ty f.imm)).toNat)
  else (fieldNat lo 0 32, fieldNat lo 32 32)

/-- The bound format of an interval type. -/
def boundFmt (ty : Ty) : FFmt := if ty == .iv64 then fp64 else fp32

/-- The words that hold an interval. -/
def ivWords (ty : Ty) (x : Iv) : Word × Word :=
  if ty == .iv64 then (word x.1, word x.2) else (word (x.1 + x.2 * 2 ^ 32), 0)

/-- The element formats of the point types: the format, the width and the number of elements (Table 5.6, R153). -/
def pointFmt (ty : Ty) : FFmt × Nat × Nat :=
  match ty with
  | .f64 => (fp64, 64, 1)
  | .f16x4 => (fp16, 16, 4)
  | .bf16x4 => (bf16, 16, 4)
  | .f32x2 => (fp32, 32, 2)
  | _ => (fp32, 32, 1)

/-- The element width and the number of elements of an integer type. -/
def intShape (ty : Ty) : Nat × Nat :=
  match ty with
  | .i8x8 | .n8x8 => (8, 8)
  | .i16x4 | .n16x4 => (16, 4)
  | .i32 | .n32 => (32, 1)
  | _ => (64, 1)

/-- Element k, of width w, of a word. -/
def elemOf (w : Nat) (v : Word) (k : Nat) : Nat := fieldNat v (w * k) w

/-- A word built of n elements of width w. -/
def packElems (w : Nat) (l : List Nat) : Word :=
  word ((List.zip (List.range l.length) l).foldl (fun acc p => acc + p.2 % 2 ^ w * 2 ^ (w * p.1)) 0)

/-! ### Writing results -/

/-- What an instruction gives one thread: a fault, or one or two words with flags. -/
inductive ThreadOut where
  | fault (r : Raise)
  | done (v hi : Word) (fl : BitVec 8)
  deriving DecidableEq, Repr

/-- The faults of a list of outcomes. -/
def faultsOf (l : List (Nat × ThreadOut)) : List (Nat × Raise) :=
  l.filterMap (fun p => match p.2 with
    | .fault r => some (p.1, r)
    | .done _ _ _ => none)

/-- The results of a list of outcomes. -/
def donesOf (l : List (Nat × ThreadOut)) : List (Nat × Word × Word × BitVec 8) :=
  l.filterMap (fun p => match p.2 with
    | .fault _ => none
    | .done v hi fl => some (p.1, v, hi, fl))

/-- The lowest thread of a mask. -/
def lowest (m : Mask) : Nat := ((maskList m)[0]?).getD 0

/-- The outcomes of the executing threads: one each for a vector destination; for a uniform one the instruction executes once,
and its fault is raised in every executing thread (R81, R198). -/
def outcomes (uniform : Bool) (ex : Mask) (out : Nat → ThreadOut) : List (Nat × ThreadOut) :=
  if uniform then
    match out (lowest ex) with
    | .fault r => (maskList ex).map (fun t => (t, .fault r))
    | .done v hi fl => (maskList ex).map (fun t => (t, .done v hi fl))
  else (maskList ex).map (fun t => (t, out t))

/-- Write a destination with the results of the threads that have one. -/
def State.writeDst (s : State) (d : Dst) (wide : Bool) (l : List (Nat × Word × Word × BitVec 8)) : State :=
  match d with
  | .name n =>
    let s := s.setElems n.val (l.map (fun p => (p.1, p.2.1)))
    if wide then s.setElems (n.val + 1) (l.map (fun p => (p.1, p.2.2.1))) else s
  | .uni k =>
    match l with
    | [] => s
    | p :: _ =>
      let s := s.setUni k.val p.2.1
      if wide then s.setUni (k.val + 1) p.2.2.1 else s

/-- The course of a format-A computation of each executing thread on its own (R198): the sources are read, the destination is
allocated when some thread completes, written, and the flags are raised. -/
def State.compute (s : State) (f : FmtA) (reads : List Touch) (d : Dst) (wide : Bool) (out : Nat → ThreadOut)
    (run ex : Mask) : State :=
  s.reading run ex reads
    (let res := outcomes d.isUni ex out
     let oks := donesOf res
     if oks.isEmpty then s.complete run ex f.cf (faultsOf res)
     else s.allocating (d.names wide) (fun s' =>
       ((s'.writeDst d wide oks).orFlags f.nf (oks.map (fun p => (p.1, p.2.2.2)))).complete run ex f.cf (faultsOf res)))

/-- A whole instruction of format A with a vector or uniform destination. -/
def State.execA (s : State) (f : FmtA) (reads : List Touch) (wide : Bool) (out : Nat → ThreadOut) :
    Host.Outcome State Fault Refusal :=
  s.issue true f.guard f.cf (reads ++ f.dst.touch wide) (s.compute f reads f.dst wide out)

/-- The word of a verdict for a uniform destination (R205). -/
def verdictWord : Verdict → Word
  | some true => 1
  | some false => 2
  | none => 0

/-- What a three-valued instruction gives one thread. -/
inductive VerdictOut where
  | fault (r : Raise)
  | done (v : Verdict) (fl : BitVec 8)
  deriving DecidableEq, Repr

/-- The threads of a list whose verdict is the given one. -/
def verdictMask (b : Bool) (l : List (Nat × Verdict × BitVec 8)) : Mask :=
  listMask ((l.filter (fun (p : Nat × Verdict × BitVec 8) => p.2.1 == some b)).map (·.1))

/-- Write verdicts: both bits of a pair in each thread, or one uniform register (R110, R205). -/
def State.writeVerdicts (s : State) (d : Dst) (l : List (Nat × Verdict × BitVec 8)) : State :=
  match d, l with
  | _, [] => s
  | .uni k, p :: _ => s.setUni k.val (verdictWord p.2.1)
  | .name n, _ =>
    let m := listMask (l.map (·.1))
    (s.setPred n.val m (verdictMask true l)).setPred (n.val + 1) m (verdictMask false l)

/-- A whole three-valued instruction (FCMP, IVIN): a pair of predicates, or a uniform register (R110, R205). -/
def State.execVerdict (s : State) (f : FmtA) (reads : List Touch) (out : Nat → VerdictOut) :
    Host.Outcome State Fault Refusal :=
  s.issue true f.guard f.cf (reads ++ f.dst.touchUni true) (fun run ex =>
    s.reading run ex reads
      (let once : Nat → VerdictOut := fun t => if f.dst.isUni then out (lowest ex) else out t
       let res : List (Nat × VerdictOut) := (maskList ex).map (fun t => (t, once t))
       let faults : List (Nat × Raise) := res.filterMap (fun p => match p.2 with
         | .fault r => some (p.1, r)
         | .done _ _ => none)
       let oks : List (Nat × Verdict × BitVec 8) := res.filterMap (fun p => match p.2 with
         | .fault _ => none
         | .done v fl => some (p.1, v, fl))
       let s := s.writeVerdicts f.dst oks
       (s.orFlags f.nf (oks.map (fun p => (p.1, p.2.2)))).complete run ex f.cf faults))

end Sys2Proof.Machine
end

