-- ==== Sys2Proof/Machine/Fetch.lean ====
section
/-!
DEFINITION. Fetch lines (05 R59 to R65), transfers of control (05 R70, R71, 06 R98) and the comparators (22 R382).
-/
namespace Sys2Proof.Machine
open Sys2Proof

/-! ### Lines -/

/-- The line word (Table 5.1). -/
def lineWord (l : List Byte) : Nat := recNat l 60 4

/-- TGT of slot k (Table 5.1). -/
def lineTgt (l : List Byte) (k : Nat) : Bool := (lineWord l).testBit (4 + k)

/-- The PAR bits that a consistent line has (R62). -/
def parOf (l : List Byte) : Nat :=
  let bits := natOfBytes (l.take 60)
  ((List.range 4).filter (fun q => parityNat bits (120 * q) (120 * q + 120))).foldl (fun a q => a + 2 ^ q) 0

/-- The mask of the PAR bits that fail (R62). -/
def parFails (l : List Byte) : Nat := parOf l ^^^ (lineWord l % 16)

/-- What a fetch gives: a consistent line, or a fault with its INFO words and the line as far as it was read. -/
inductive Fetched where
  | line (bytes : List Byte)
  | fault (code : Nat) (i0 i1 : Word) (bytes : List Byte)
  deriving DecidableEq, Repr

/-- Drop a line from an instruction cache. -/
def State.dropILine (s : State) (c : CoreId) (ctx va : Nat) : State :=
  { s with icache := s.icache.filter (fun l => !(l.core == c && l.ctx == ctx && l.va == va)) }

/-- The lines of an instruction cache: 128 KiB (R11). -/
def icacheLines : Nat := 2048

/-- Keep a line in an instruction cache; a full one loses its oldest line. -/
def State.keepILine (s : State) (l : ILine) : State :=
  { s with icache := keepNewest (icacheLines - 1) (fun x => x.core == l.core) s.icache ++ [l] }

/-- Fill a line: translate with execute permission, and read it whole from one state of its tile in the L2 (R65). A poisoned block is a
mismatch (R401), as is a line whose fabric target refuses the read, and an inconsistent line raises LINE_PARITY and is not kept (R63). -/
def State.fillLine (s : State) (c : CoreId) (ctx va : Nat) : Fetched × State :=
  match s.translate c ctx va with
  | none => (.fault 0x0B (word va) 0 [], s)
  | some t =>
    let s := s.cacheTlb t
    if !pteX t.entry || pteFmt t.entry != 0 then (.fault 0x0C (word va) 0 [], s)
    else
      let a := t.loc va
      let (f, s) := s.fetchTile c (linearView ctx t.entry va) (a / 256)
      let poisoned := s.poisonedAt a
      let s := if poisoned then s.setChk ctx chkPoison else s
      let b := ((f.getD (onesBytes 256)).drop (a % 256)).take 64
      if parFails b != 0 || poisoned then (.fault 0x07 (word va) (word (parFails b)) b, s)
      else (.line b, s.keepILine { core := c, ctx := ctx, va := va, bytes := b })

/-- Checks 2 to 4 of Table 5.3 for a line: fetched, consistent after one refetch, reserved bits zero (R63 to R65). -/
def State.fetchLine (s : State) (c : CoreId) (ctx va : Nat) : Fetched × State :=
  let r := match s.icLine c ctx va with
    | some l => if parFails l.bytes = 0 then (Fetched.line l.bytes, s) else (s.dropILine c ctx va).fillLine c ctx va
    | none => s.fillLine c ctx va
  match r with
  | (.line b, s) => if lineWord b / 4096 = 0 then (.line b, s) else (.fault 0x06 (word (lineWord b)) 0 b, s)
  | r => r

/-! ### Transfers -/

/-- The checks of a transfer's target (Table 5.3): legal, a bad target (checks 1 and 5), or a fetch fault at a target that is a
slot address, with the slot's bits where the line could be read (R71). -/
inductive Probe where
  | go
  | bad (code : Nat)
  | stuck (code : Nat) (i0 i1 : Word) (bits : Slot)
  deriving DecidableEq, Repr

/-- Probe a target (R61, R70, R71). -/
def State.probe (s : State) (c : CoreId) (ctx : Nat) (target : Word) : Probe × State :=
  let a := target.toNat
  if !isSlotAddr a then (.bad 0x03, s)
  else if 2 ^ 56 ≤ a then (.stuck 0x0B target 0 0, s)
  else
    match s.fetchLine c ctx (a / 64 * 64) with
    | (.fault code i0 i1 b, s) => (.stuck code i0 i1 (lineSlot b (a % 64 / 12)), s)
    | (.line b, s) =>
      if lineTgt b (a % 64 / 12) && fieldNat (lineSlot b (a % 64 / 12)) 0 8 == 0x01 then (.go, s) else (.bad 0x04, s)

/-- Probe the targets of a list of threads, in order. -/
def State.probeAll (s : State) (target : Nat → Word) : List Nat → List (Nat × Probe) × State
  | [] => ([], s)
  | t :: rest =>
    let (p, s) := s.probe s.myCore s.myCtx (target t)
    let (ps, s) := s.probeAll target rest
    ((t, p) :: ps, s)

/-- Probe the targets of a list of threads, and go on with what they give, unless a line cannot be delivered (R355). -/
def State.probing (s : State) (target : Nat → Word) (ts : List Nat) (k : List (Nat × Probe) → State → State) : State :=
  let (ps, s') := s.probeAll target ts
  s.runStep (k ps s')

/-- The threads of a list of probes whose transfer takes effect (R71). -/
def wentMask (ps : List (Nat × Probe)) : Mask :=
  listMask ((ps.filter (fun p => match p.2 with | .bad _ => false | _ => true)).map (·.1))

/-- A thread whose transfer took effect and whose target cannot be fetched is parked there and holds XFER (R71). A fault of a
handler run is a double fault (R370). -/
def State.parkStuck (s : State) (target : Nat → Word) (ps : List (Nat × Probe)) : State :=
  ps.foldl (fun s p => match p.2 with
    | .stuck code i0 i1 bits =>
      if s.cur.handler then s.doubleFault s.cur.loc
      else
        let pc := target p.1
        let m := listMask [p.1]
        let w := s.me
        match w.records.find? (fun r => r.fpc == pc && r.ppc == pc && r.code == code && r.bits == bits && r.info == (i0, i1)
            && (maskList r.mask).all (fun u => ps.any (fun q => q.1 == u))) with
        | some r =>
          s.updWarp s.cur.loc (fun w =>
            let w := w.updThreads m (fun _ x => { x with st := .parked, pc := pc, xfer := true })
            { w with records := w.records.map (fun q =>
              if q == r then { r with mask := r.mask ||| m, vals := r.vals ++ [(p.1, i0, i1)] } else q) })
        | none =>
          (s.parkOne s.cur.loc m pc bits { code := code, ppc := pc, info0 := i0, info1 := i1 }).updWarp s.cur.loc (fun w =>
            w.updThreads m (fun _ x => { x with xfer := true }))
    | _ => s) s

/-- A transfer of the executing threads: those with a legal target, or one that only cannot be fetched, take it; the others are
parked at the transferring instruction with the target in INFO0; guarded-off threads take the successor (R70, R71, R98). -/
def State.transfer (s : State) (run ex : Mask) (cf : Attach) (target : Nat → Word) (ps : List (Nat × Probe)) : State :=
  let went := wentMask ps
  let bad := ps.filterMap (fun p => match p.2 with
    | .bad code => some (p.1, (s.faultHere code (target p.1)))
    | _ => none)
  let s := if went = 0 then s else s.attach cf
  let s := s.advanceTo ((run &&& ~~~ex) ||| went) (fun t => if bitAt went t then target t else succPc s.cur.pc)
  (s.parkStuck target ps).raise bad

/-- The address of a slot index, as a 64-bit target; one outside 0 to 2^56 − 1 lies outside it as a word too (R61). -/
def targetOf (pc : Word) (off : Int) : Word := wordInt (addrOfIndex ((slotIndex pc.toNat : Int) + off))

/-! ### Comparators (R382) -/

/-- The lowest comparator of a core that matches an arrival of a thread. -/
def State.breakAt (s : State) (c : CoreId) (ctx : Nat) (pc : Word) (t : Nat) : Option Nat :=
  ((List.zip (List.range 8) (s.core c).cmps).find? (fun p =>
    p.2.en && p.2.addr.toNat == pc.toNat && p.2.ctx.toNat == ctx && (p.2.mask == 0 || bitAt p.2.mask t)
      && isSlotAddr pc.toNat)).map (·.1)

end Sys2Proof.Machine
end

