-- ==== Sys2Proof/Machine/Integer.lean ====
section
/-!
DEFINITION. The integer, address and warp instructions (09 R175 to R196).
-/
namespace Sys2Proof.Machine
open Sys2Proof

/-! ### Elements (R176) -/

/-- The integer value of an element of W bits. -/
def intVal (signed : Bool) (W n : Nat) : Int := if signed && n.testBit (W - 1) then (n : Int) - 2 ^ W else n

/-- Wrap: modulo 2^W. -/
def wrapInt (W : Nat) (v : Int) : Nat := (v % 2 ^ W).toNat

/-- Sat: clamp into the type's range. -/
def satInt (signed : Bool) (W : Nat) (v : Int) : Nat :=
  if signed then
    let v := if v < -(2 ^ (W - 1)) then -(2 ^ (W - 1)) else if 2 ^ (W - 1) - 1 < v then 2 ^ (W - 1) - 1 else v
    wrapInt W v
  else if v < 0 then 0 else if (2 : Int) ^ W - 1 < v then 2 ^ W - 1 else v.toNat

/-- Wrap or Sat by FN (R177). -/
def narrowInt (sat signed : Bool) (W : Nat) (v : Int) : Nat := if sat then satInt signed W v else wrapInt W v

/-- An operation on the elements of one word. -/
def map1 (ty : Ty) (g : Nat → Nat) (a : Word) : Word :=
  let (W, n) := intShape ty
  packElems W ((List.range n).map (fun k => g (elemOf W a k)))

/-- An operation on the elements of two words. -/
def map2 (ty : Ty) (g : Nat → Nat → Nat) (a b : Word) : Word :=
  let (W, n) := intShape ty
  packElems W ((List.range n).map (fun k => g (elemOf W a k) (elemOf W b k)))

/-- An operation on the elements of three words. -/
def map3 (ty : Ty) (g : Nat → Nat → Nat → Nat) (a b c : Word) : Word :=
  let (W, n) := intShape ty
  packElems W ((List.range n).map (fun k => g (elemOf W a k) (elemOf W b k) (elemOf W c k)))

/-- Integer arithmetic on two elements, exact and then narrowed. -/
def arith2 (ty : Ty) (sat : Bool) (g : Int → Int → Int) : Nat → Nat → Nat := fun a b =>
  let W := (intShape ty).1
  narrowInt sat ty.isI W (g (intVal ty.isI W a) (intVal ty.isI W b))

/-- An instruction of one source. -/
def State.int1 (s : State) (f : FmtA) (g : Word → Word) : Host.Outcome State Fault Refusal :=
  s.execA f f.sa.touch false (fun t => .done (g (s.srcA f f.sa t)) 0 0)

/-- An instruction of two sources. -/
def State.int2 (s : State) (f : FmtA) (g : Word → Word → Word) : Host.Outcome State Fault Refusal :=
  s.execA f (f.sa.touch ++ f.sb.touch) false (fun t => .done (g (s.srcA f f.sa t) (s.srcA f f.sb t)) 0 0)

/-- An instruction of three sources. -/
def State.int3 (s : State) (f : FmtA) (g : Word → Word → Word → Word) : Host.Outcome State Fault Refusal :=
  s.execA f (f.sa.touch ++ f.sb.touch ++ f.sc.touch) false
    (fun t => .done (g (s.srcA f f.sa t) (s.srcA f f.sb t) (s.srcA f f.sc t)) 0 0)

/-! ### Addition, subtraction and multiplication -/

/-- IADD (R177). -/
def execIadd (f : FmtA) (s : State) : Host.Outcome State Fault Refusal :=
  s.int2 f (map2 f.ty (arith2 f.ty (f.fn == 1) (fun x y => x + y)))

/-- ISUB (R177). -/
def execIsub (f : FmtA) (s : State) : Host.Outcome State Fault Refusal :=
  s.int2 f (map2 f.ty (arith2 f.ty (f.fn == 1) (fun x y => x - y)))

/-- The exact 64-bit product of IMUL.wide (R177). -/
def mulWide (ty : Ty) (a b : Word) : Word :=
  wordInt (intVal ty.isI 32 (fieldNat a 0 32) * intVal ty.isI 32 (fieldNat b 0 32))

/-- IMUL (R177). -/
def execImul (f : FmtA) (s : State) : Host.Outcome State Fault Refusal :=
  if f.fn == 2 then s.int2 f (mulWide f.ty)
  else s.int2 f (map2 f.ty (arith2 f.ty (f.fn == 1) (fun x y => x * y)))

/-- IMULH: the high half of the product (R179). -/
def execImulh (f : FmtA) (s : State) : Host.Outcome State Fault Refusal :=
  s.int2 f (map2 f.ty (arith2 f.ty false (fun x y => x * y / 2 ^ (intShape f.ty).1)))

/-- x × y + z, formed exactly before one narrowing (R177). -/
def madElem (ty : Ty) (sat : Bool) (a b c : Nat) : Nat :=
  let W := (intShape ty).1
  narrowInt sat ty.isI W (intVal ty.isI W a * intVal ty.isI W b + intVal ty.isI W c)

/-- IMAD (R177). -/
def execImad (f : FmtA) (s : State) : Host.Outcome State Fault Refusal :=
  s.int3 f (map3 f.ty (madElem f.ty (f.fn == 1)))

/-- The sum with carry: the word and the carry out (R178). -/
def addCarry (ty : Ty) (a b : Word) (c : Bool) : Word × Bool :=
  let W := (intShape ty).1
  let v := fieldNat a 0 W + fieldNat b 0 W + (if c then 1 else 0)
  (word (v % 2 ^ W), decide (2 ^ W ≤ v))

/-- IADDC: the operands are read before the carry predicate is written (R178). -/
def execIaddc (f : FmtA) (s : State) : Host.Outcome State Fault Refusal :=
  let p := f.fn.toNat
  s.issue true f.guard f.cf (f.sa.touch ++ f.sb.touch ++ f.dst.touch ++ [.pred p]) (fun run ex =>
    s.reading run ex (f.sa.touch ++ f.sb.touch)
      (let res := (maskList ex).map (fun t => (t, addCarry f.ty (s.srcA f f.sa t) (s.srcA f f.sb t) (s.pred p t)))
       s.allocating f.dst.names (fun s' =>
         let s' := s'.writeDst f.dst false (res.map (fun r => (r.1, r.2.1, 0, 0)))
         let s' := s'.setPred p ex (listMask ((res.filter (fun r => r.2.2)).map (·.1)))
         s'.complete run ex f.cf [])))

/-! ### Division (R180) -/

/-- The quotient and remainder of two elements. -/
def divRem (signed : Bool) (W : Nat) (x y : Int) : Int × Int :=
  if y = 0 then ((if signed then -1 else 2 ^ W - 1), x)
  else if signed ∧ x = -(2 ^ (W - 1)) ∧ y = -1 then (x, 0)
  else (x.tdiv y, x - x.tdiv y * y)

/-- IDIV (R180). -/
def execIdiv (f : FmtA) (s : State) : Host.Outcome State Fault Refusal :=
  s.int2 f (map2 f.ty (arith2 f.ty false (fun x y => (divRem f.ty.isI (intShape f.ty).1 x y).1)))

/-- IREM (R180). -/
def execIrem (f : FmtA) (s : State) : Host.Outcome State Fault Refusal :=
  s.int2 f (map2 f.ty (arith2 f.ty false (fun x y => (divRem f.ty.isI (intShape f.ty).1 x y).2)))

/-! ### Minimum, maximum, absolute value (R181) -/

/-- IMIN (R181). -/
def execImin (f : FmtA) (s : State) : Host.Outcome State Fault Refusal :=
  s.int2 f (map2 f.ty (arith2 f.ty false (fun x y => min x y)))

/-- IMAX (R181). -/
def execImax (f : FmtA) (s : State) : Host.Outcome State Fault Refusal :=
  s.int2 f (map2 f.ty (arith2 f.ty false (fun x y => max x y)))

/-- |x|, wrapped or saturated (R181). -/
def absElem (ty : Ty) (sat : Bool) (a : Nat) : Nat :=
  let W := (intShape ty).1
  narrowInt sat true W (intVal true W a).natAbs

/-- IABS (R181). -/
def execIabs (f : FmtA) (s : State) : Host.Outcome State Fault Refusal := s.int1 f (map1 f.ty (absElem f.ty (f.fn == 1)))

/-! ### Logic, shifts and bit fields -/

/-- The bit function of a table (R182). -/
def bitFunction (table : Nat) (a b c : Word) : Word :=
  let m := fun (i : Nat) => if table.testBit i then
      (if i % 2 = 1 then a else ~~~a) &&& (if i / 2 % 2 = 1 then b else ~~~b) &&& (if i / 4 % 2 = 1 then c else ~~~c)
    else 0
  m 0 ||| m 1 ||| m 2 ||| m 3 ||| m 4 ||| m 5 ||| m 6 ||| m 7

/-- The bits of an element type that a whole word holds: 32 for TY 4 and 5, otherwise all 64 (R182). -/
def typeBits (ty : Ty) (v : Word) : Word :=
  match ty with
  | .i32 | .n32 | .f32 => zextWord 32 v
  | _ => v

/-- BFN (R182). -/
def execBfn (f : FmtA) (s : State) : Host.Outcome State Fault Refusal :=
  s.int3 f (fun a b c => typeBits f.ty (bitFunction (f.imm.toNat % 256) a b c))

/-- Shift left, by an unsigned amount (R183). -/
def shlElem (W a n : Nat) : Nat := if n < W then a * 2 ^ n % 2 ^ W else 0
/-- Shift right, unsigned (R183). -/
def shrElem (W a n : Nat) : Nat := if n < W then a / 2 ^ n else 0
/-- Shift right, signed (R183). -/
def sarElem (W a n : Nat) : Nat :=
  let x := intVal true W a
  wrapInt W (if n < W then x / 2 ^ n else if x < 0 then -1 else 0)
/-- Rotate left (R183). -/
def rotlElem (W a n : Nat) : Nat :=
  let k := n % W
  a * 2 ^ k % 2 ^ W + a / 2 ^ (W - k)

/-- SHL (R183). -/
def execShl (f : FmtA) (s : State) : Host.Outcome State Fault Refusal :=
  s.int2 f (map2 f.ty (shlElem (intShape f.ty).1))

/-- SHR (R183). -/
def execShr (f : FmtA) (s : State) : Host.Outcome State Fault Refusal :=
  s.int2 f (map2 f.ty (shrElem (intShape f.ty).1))

/-- SAR (R183). -/
def execSar (f : FmtA) (s : State) : Host.Outcome State Fault Refusal :=
  s.int2 f (map2 f.ty (sarElem (intShape f.ty).1))

/-- ROTL (R183). -/
def execRotl (f : FmtA) (s : State) : Host.Outcome State Fault Refusal :=
  s.int2 f (map2 f.ty (rotlElem (intShape f.ty).1))

/-- BFE: bits [e − 1 : pos] of a, sign-extended for iN (R184). -/
def bitExtract (signed : Bool) (W : Nat) (a d : Word) : Word :=
  let pos := fieldNat d 0 8
  let len := fieldNat d 8 8
  if W ≤ pos ∨ len = 0 then 0
  else
    let n := min (pos + len) W - pos
    word (wrapInt W (intVal signed n (fieldNat a pos n)))

/-- BFI: base with bits [e − 1 : pos] taken from the low bits of insert (R184). -/
def bitInsert (W : Nat) (ins base d : Word) : Word :=
  let pos := fieldNat d 0 8
  let len := fieldNat d 8 8
  let b := fieldNat base 0 W
  if W ≤ pos ∨ len = 0 then word b
  else
    let n := min (pos + len) W - pos
    word (b - fieldNat base pos n * 2 ^ pos + fieldNat ins 0 n * 2 ^ pos)

/-- BFE (R184). -/
def execBfe (f : FmtA) (s : State) : Host.Outcome State Fault Refusal :=
  s.int2 f (bitExtract f.ty.isI (intShape f.ty).1)

/-- BFI (R184): a is inserted into b under the field c. -/
def execBfi (f : FmtA) (s : State) : Host.Outcome State Fault Refusal := s.int3 f (bitInsert (intShape f.ty).1)

/-- The number of one bits of a W-bit number. -/
def popElem (W a : Nat) : Nat := ((List.range W).filter (fun i => a.testBit i)).length
/-- The number of zero bits above the highest one bit (R185). -/
def clzElem (W a : Nat) : Nat := if a = 0 then W else W - 1 - Nat.log2 a
/-- Bit i moved to bit W − 1 − i (R185). -/
def revElem (W a : Nat) : Nat := (List.range W).foldl (fun acc i => if a.testBit i then acc + 2 ^ (W - 1 - i) else acc) 0

/-- POPC (R185). -/
def execPopc (f : FmtA) (s : State) : Host.Outcome State Fault Refusal :=
  s.int1 f (map1 f.ty (popElem (intShape f.ty).1))

/-- CLZ (R185). -/
def execClz (f : FmtA) (s : State) : Host.Outcome State Fault Refusal :=
  s.int1 f (map1 f.ty (clzElem (intShape f.ty).1))

/-- BREV (R185). -/
def execBrev (f : FmtA) (s : State) : Host.Outcome State Fault Refusal :=
  s.int1 f (map1 f.ty (revElem (intShape f.ty).1))

/-! ### Selection, addresses and constants -/

/-- SEL: by predicate FN of the thread; for a uniform destination, of the lowest executing thread (R186). -/
def execSel (f : FmtA) (s : State) : Host.Outcome State Fault Refusal :=
  let wide := f.ty == .iv64
  s.execA f (f.sa.touch wide ++ f.sb.touch wide ++ [.pred f.fn.toNat]) wide (fun t =>
    let o := if s.pred f.fn.toNat t then f.sa else f.sb
    .done (typeBits f.ty (s.srcA f o t)) (s.srcHi o t (immOf f.ty f.imm)) 0)

/-- The 64-bit index of LEA (R187). -/
def leaIndex (ty : Ty) (v : Word) : Word :=
  match ty with
  | .i32 => sextWord 32 v
  | .n32 => zextWord 32 v
  | _ => v

/-- LEA: base + index × 2^FN + IMM (R187). -/
def execLea (f : FmtA) (s : State) : Host.Outcome State Fault Refusal :=
  s.int2 f (fun a b => a + leaIndex f.ty b * word (2 ^ f.fn.toNat) + f.imm.signExtend 64)

/-- MOVI (R188). -/
def execMovi (f : FmtA) (s : State) : Host.Outcome State Fault Refusal :=
  if f.fn == 1 then
    s.execA f f.sa.touch false (fun t => .done (word (f.imm.toNat * 2 ^ 32 + fieldNat (s.src f.sa t 0) 0 32)) 0 0)
  else s.execA f [] (f.ty == .iv64) (fun _ => .done (immOf f.ty f.imm) (immOf f.ty f.imm) 0)

/-! ### Values across threads -/

/-- VREAD: element i of vA, whether or not thread i is in the run (R189). -/
def execVread (f : FmtA) (s : State) : Host.Outcome State Fault Refusal :=
  let wide := f.ty == .iv64
  s.issue true f.guard f.cf (f.sa.touch wide ++ f.sb.touch ++ f.dst.touch wide)
    (s.compute f (f.sa.touch wide) f.dst wide (fun t =>
      let i := fieldNat (s.src f.sb t (f.imm.setWidth 64)) 0 5
      .done (typeBits f.ty (s.src f.sa i 0)) (s.srcHi f.sa i 0) 0))

/-- One combination of REDUX (R190). -/
def reduxElem (ty : Ty) (fn : Nat) : Nat → Nat → Nat :=
  match fn with
  | 0 => arith2 ty false (fun x y => x + y)
  | 1 => arith2 ty false (fun x y => min x y)
  | 2 => arith2 ty false (fun x y => max x y)
  | 3 => fun a b => a &&& b
  | 4 => fun a b => a ||| b
  | _ => fun a b => a ^^^ b

/-- The combination of a list of words in order (R190). -/
def reduxWords (ty : Ty) (fn : Nat) : List Word → Word
  | [] => 0
  | w :: ws => ws.foldl (map2 ty (reduxElem ty fn)) (typeBits ty w)

/-- REDUX: over the executing threads, in ascending order (R190). -/
def execRedux (f : FmtA) (s : State) : Host.Outcome State Fault Refusal :=
  s.issue true f.guard f.cf (f.sa.touch ++ f.dst.touch) (fun run ex =>
    s.compute f f.sa.touch f.dst false
      (fun _ => .done (reduxWords f.ty f.fn.toNat ((maskList ex).map (fun t => s.src f.sa t 0))) 0 0) run ex)

/-- The source thread of SHFL, when it lies in 0 to 31 (R191). -/
def shflSource (mode t d : Nat) : Option Nat :=
  match mode with
  | 0 => if d < 32 then some d else none
  | 1 => if d ≤ t then some (t - d) else none
  | 2 => if t + d < 32 then some (t + d) else none
  | _ => some (t ^^^ (d % 32))

/-- SHFL: each executing thread takes the element of a source thread that executes, otherwise its own (R191). -/
def execShfl (f : FmtA) (s : State) : Host.Outcome State Fault Refusal :=
  let wide := f.ty == .iv64
  s.issue true f.guard f.cf (f.sa.touch wide ++ f.sb.touch ++ f.dst.touch wide) (fun run ex =>
    s.compute f (f.sa.touch wide ++ f.sb.touch) f.dst wide (fun t =>
      let d := fieldNat (s.src f.sb t (f.imm.setWidth 64)) 0 32
      let u := match shflSource f.fn.toNat t d with
        | some u => if bitAt ex u then u else t
        | none => t
      .done (typeBits f.ty (s.src f.sa u 0)) (s.srcHi f.sa u 0) 0) run ex)

/-! ### Special registers (R194 to R196) -/

/-- clk periods counted on a die since its last reset (Table 9.4). -/
def State.clockOf (s : State) (d : Nat) : Word := word (s.clk - (s.die d).resetAt)

/-- The value of a special register in thread t (Table 9.4). sr.feat0 and sr.feat1 read 0 (R95). -/
def State.special (s : State) (n t : Nat) : Word :=
  let w := s.me
  match n with
  | 0 => word t
  | 1 => word w.wid
  | 2 => w.gid
  | 3 => word w.crew
  | 4 => word w.loc.slice
  | 5 => word w.loc.core
  | 6 => word w.loc.die
  | 7 => word s.ident.moduleNum
  | 8 => s.clockOf w.loc.die
  | 9 => (w.thread t).fflags.setWidth 64
  | 10 => word w.depth
  | 13 => s.run.setWidth 64
  | 14 =>
    match (if s.cur.handler then s.myH.hdr else (w.thread t).hdr) with
    | some h => h.live.setWidth 64
    | none => 0
  | _ => 0

/-- SRD (R194). -/
def execSrd (f : FmtA) (s : State) : Host.Outcome State Fault Refusal :=
  s.execA f [] false (fun t => .done (s.special f.imm.toNat t) 0 0)

/-- SWR: it ORs into sr.fflags; every other special register raises PERMISSION (R196). It is illegal in a handler run (R368).
DESIGN CHOICE (log 46): an unmapped source of it raises UNMAPPED_NAME first. -/
def execSwr (f : FmtA) (s : State) : Host.Outcome State Fault Refusal :=
  s.issue (!s.cur.handler) f.guard f.cf f.sa.touch (fun run ex =>
    s.reading run ex f.sa.touch
      (if f.imm.toNat = 9 then
        (s.orFlags false ((maskList ex).map (fun t => (t, (field (s.srcA f f.sa t) 0 8 &&& 0x7F))))).complete run ex f.cf []
       else s.allFault run ex (s.faultHere 0x0C (word f.imm.toNat))))

end Sys2Proof.Machine
end

