-- ==== Sys2Proof/Machine/Control.lean ====
section
/-!
DEFINITION. Headers, control flow, predicates and the extension space (06 R97 to R126, 05 R94).
-/
namespace Sys2Proof.Machine
open Sys2Proof

/-! ### Clause headers (R112, R102, R105, R106) -/

/-- HDR: the threads of the run take clause position 0 and this header, and wait at it (R112). The warp's stall count starts
again (R378). -/
def execHdr (f : FmtH) (s : State) : Host.Outcome State Fault Refusal :=
  s.onRun (fun run =>
    if s.cur.handler then
      ((s.updHrun s.cur.loc (fun h => { h with hdr := some f, pos := 0 })).updWarp s.cur.loc (fun w => { w with stall := 0 })).waitRun
        (.header f.wait)
    else
      (s.updWarp s.cur.loc (fun w =>
        { w.updThreads run (fun _ x => { x with hdr := some f, pos := 0 }) with stall := 0 })).waitRun (.header f.wait))

/-- The distinct PCs of a list of threads. -/
def pcsOf (w : Warp) (l : List Nat) : List Word :=
  l.foldl (fun acc t => if acc.contains (w.thread t).pc then acc else acc ++ [(w.thread t).pc]) []

/-- The PCs of a warp's runs (R98). -/
def Warp.runPcs (w : Warp) : List Word := pcsOf w (maskList (w.inState .running))

/-- The distinct PCs of a warp: those of its running and parked threads (R97). -/
def Warp.allPcs (w : Warp) : List Word := pcsOf w (maskList w.alive)

/-- A PC is the lowest of a warp's runs. -/
def Warp.isLowest (w : Warp) (pc : Word) : Bool := w.runPcs.all (fun q => decide (pc.toNat ≤ q.toNat))

/-- The fairness step of a header that a run issues (R105): with another run, the count rises when the warp's previous header was
issued at the lowest PC, and is 1 otherwise; with one run it is 0. It stays at Q when the lowest run issues because no higher one is ready
(R106). -/
def Warp.fairnessStep (w : Warp) (pc : Word) : Warp :=
  let c := if w.runPcs.length ≤ 1 then 0 else if w.fair = w.fairQ && w.isLowest pc then w.fairQ else if w.prevLow then min (w.fair + 1) w.fairQ else 1
  { w with fair := c, prevLow := w.isLowest pc }

/-- The run at a PC holds every thread of the warp that has not exited, and none is parked (R120). -/
def Warp.whole (w : Warp) (pc : Word) : Bool := w.runAt pc == w.alive && w.alive != 0

/-- A wait has ended with what it waited for: a warp that gathers at a barrier is whole (R303), a stalled allocation can be made (R133), the
instructions of other runs have written what the run touches (R103). -/
def Warp.waitOver (w : Warp) (x : Wait) : Bool :=
  match x.kind with
  | .gather => w.whole x.pc
  | .granted _ => true
  | .written pcs => !w.waits.any (fun y => pcs.contains y.pc && w.stillToWrite y)
  | _ => false

/-- A run waits at a PC: a wait of exactly its threads is still open (R98). -/
def Warp.waitsAt (w : Warp) (pc : Word) : Bool :=
  w.waits.any (fun x => x.pc == pc && x.mask == w.runAt pc && !w.waitOver x)

/-- The names that a header releases: every name outside its live groups (R68). -/
def releasedNames (live : BitVec 32) : List Nat := (List.range 128).filter (fun n => !bitAt live (n / 4))

/-- Every flag of a header's WAIT is clear in a bank. -/
def flagsClear (flags : List Nat) (waits : List Wait) (wait : BitVec 12) : Bool :=
  (List.range 12).all (fun k => !bitAt wait k || !flagIsSet flags waits k)

/-- A run waits at a header whose flags are clear: it could start its clause (R102). -/
def Warp.couldStart (w : Warp) (pc : Word) : Bool :=
  w.waits.any (fun x => x.pc == pc && x.mask == w.runAt pc && (match x.kind with
    | .header wait => flagsClear w.flags w.waits wait
    | _ => false))

/-- The PCs of the ready runs of a warp, in ascending order (R98). -/
def Warp.readyPcs (w : Warp) : List Word :=
  sortBy (fun a b => decide (a.toNat ≤ b.toNat)) (w.runPcs.filter (fun pc => !w.waitsAt pc || w.couldStart pc))

/-- The slot at a PC in the core's instruction cache holds a header: its WAIT. -/
def State.headerAt (s : State) (c : CoreId) (ctx : Nat) (pc : Word) : Option (BitVec 12) :=
  match s.icLine c ctx (pc.toNat / 64 * 64) with
  | some l =>
    let b := lineSlot l.bytes (pc.toNat % 64 / 12)
    if fieldNat b 0 8 == 0x01 then some (field b 8 12) else none
  | none => none

/-- A run is about to issue a header: it waits at one whose flags are clear, or stands at one. -/
def State.atHdr (s : State) (w : Warp) (pc : Word) : Bool :=
  w.couldStart pc || (s.headerAt (coreOfLoc w.loc) w.ctx pc).any (fun wait => flagsClear w.flags w.waits wait)

/-- The run that the fairness timer selects instead of the lowest one, and the lowest one's PC (R106): the count equals Q, the lowest
ready run is about to issue a header, and a higher run is ready. -/
def State.fairnessDue (s : State) (l : Loc) : Option (Word × Mask) :=
  match s.warp? l with
  | none => none
  | some w =>
    match w.readyPcs with
    | p :: q :: _ => if w.fairPick == none && w.fair == w.fairQ && s.atHdr w p then some (p, w.runAt q) else none
    | _ => none

/-- The PC of the run that the fairness timer has selected. -/
def Warp.pickedPc (w : Warp) : Option Word :=
  w.fairPick.bind (fun p => ((maskList (p.1 &&& w.inState .running)).head?).map (fun t => (w.thread t).pc))

/-- The fairness timer holds a run: another one is selected and ready, or is about to be (R106). -/
def State.fairHeld (s : State) (w : Warp) (pc : Word) : Bool :=
  (match w.pickedPc with
    | some p => p != pc && w.readyPcs.contains p
    | none => false)
  || (s.fairnessDue w.loc).any (fun x => x.1 == pc)

/-- A run waits at a header whose flags are clear, the waiting threads are the whole run, and the fairness timer does not hold it. A
cancelled instance, and a warp of a context that is being pre-empted, stop at the header before its wait ends (R102, R106, R330,
R387). -/
def State.clauseReady (s : State) (r : RunRef) : Bool :=
  match s.waitAt r.loc r.handler r.pc with
  | some { kind := .header wait, mask := m, .. } =>
    match s.warp? r.loc with
    | none => false
    | some w =>
      let live := (s.ctx? w.ctx).any (fun c => c.status == .live)
      if r.handler then
        (s.hrun? r.loc).any (fun h => flagsClear h.flags h.waits wait && h.pc == r.pc) && live
      else m == w.runAt r.pc && m != 0 && flagsClear w.flags w.waits wait && !w.cancel && live && !s.fairHeld w r.pc
  | _ => false

/-- A selected run has issued. -/
def Warp.pickIssues (w : Warp) (pc : Word) : Warp :=
  if w.pickedPc == some pc then { w with fairPick := w.fairPick.map (fun p => (p.1, true)) } else w

/-- CLAUSE_START: the waiting run starts its clause; a header issued by the whole warp, with no thread parked, releases the
names outside its live groups (R68), and the fairness count takes its step (R105). -/
def execClauseStart (r : RunRef) (s : State) : Host.Outcome State Fault Refusal :=
  if !s.clauseReady r then .next s
  else
    let s := { s with cur := { s.cur with loc := r.loc, handler := r.handler, pc := r.pc } }
    let run := s.run
    if r.handler then .next (s.advance run)
    else
      let w := s.me
      let live := (((w.thread (lowest run)).hdr).map (·.live)).getD 0
      let s := if run == w.alive && w.inState .parked == 0 then
          (releasedNames live).foldl (fun s n => s.unmapName r.loc n) s
        else s
      .next ((s.updWarp r.loc (fun w => (w.pickIssues r.pc).fairnessStep r.pc)).advance run)

/-- FAIRNESS_YIELD: the lowest run is held at its header and the next higher ready run is selected (R106). -/
def execFairnessYield (l : Loc) (s : State) : Host.Outcome State Fault Refusal :=
  match s.fairnessDue l with
  | some (_, m) => .next (s.updWarp l (fun w => { w with fairPick := some (m, false) }))
  | none => .next s

/-! ### Fetch -/

/-- Threads that fail to be fetched at the target of a transfer keep the mark of R71; their arrival is over. -/
def Thread.failFetch (x : Thread) : Thread := { x with arriving := false, xfer := x.xfer || x.arriving }

/-- A run is parked by a check of its arrival at a slot (Table 5.3). -/
def State.parkArrival (s : State) (r : RunRef) (m : Mask) (bits : Slot) (code : Nat) (i0 i1 : Word) : State :=
  if r.handler then s.doubleFault r.loc
  else (s.updWarp r.loc (fun w => w.updThreads m (fun _ x => x.failFetch))).parkOne r.loc m r.pc bits
    { code := code, ppc := r.pc, info0 := i0, info1 := i1 }

/-- INSTRUCTION_FETCH: the line of a run's PC is fetched; a fault of checks 2 to 4 parks the run there (R63 to R65). -/
def execInstructionFetch (r : RunRef) (s : State) : Host.Outcome State Fault Refusal :=
  match s.warp? r.loc with
  | none => .next s
  | some w =>
    let m := if r.handler then (match s.hrun? r.loc with
        | some h => if h.pc == r.pc then listMask [h.thread] else 0
        | none => 0) else w.runAt r.pc
    if m = 0 then .next s
    else if 2 ^ 56 ≤ r.pc.toNat then .next (s.parkArrival r m 0 0x0B r.pc 0)
    else
      let s0 := s
      match s.fetchLine (coreOfLoc r.loc) w.ctx (r.pc.toNat / 64 * 64) with
      | (.line _, s) => .next (s0.agentStep w.ctx w.uid s)
      | (.fault code i0 i1 b, s) =>
        .next (s0.agentStep w.ctx w.uid (s.parkArrival r m (lineSlot b (r.pc.toNat % 64 / 12)) code i0 i1))

/-! ### The extension space (R94) -/

/-- The threads of a mask leave the flags that earlier traps of the same slot hold (R94). -/
def State.dropEmu (s : State) (l : Loc) (m : Mask) (pc : Word) : State :=
  let s := s.updWarp l (fun w => { w with inflight := w.inflight.map (fun f => match f.emu with
    | some (k, p) => if p == pc then { f with emu := some (k &&& ~~~m, p) } else f
    | none => f) })
  s.tidyEmu l

/-- EXT: every executing thread raises EXT_EMU, and the flag of CF is set at the trap (R94). -/
def execExt (f : FmtX) (s : State) : Host.Outcome State Fault Refusal :=
  s.issue true f.guard f.cf [] (fun run ex =>
    let s := match s.flagOf f.cf with
      | some (some k) =>
        if s.cur.handler then s
        else s.launchFlight { id := 0, flag := some k, load := false, writes := [], emu := some (ex, s.cur.pc) }
      | _ => s
    s.allFault run ex (s.faultHere 0x02))

/-! ### Transfers -/

/-- NOP (R113). -/
def execNop (f : FmtA) (s : State) : Host.Outcome State Fault Refusal :=
  s.issue true f.guard f.cf [] (fun run ex => s.complete run ex f.cf [])

/-- BRA (R114). -/
def execBra (f : FmtA) (s : State) : Host.Outcome State Fault Refusal :=
  s.issue true f.guard f.cf [] (fun run ex =>
    let target := fun (_ : Nat) => targetOf s.cur.pc f.imm.toInt
    s.probing target (maskList ex) (fun ps s => s.transfer run ex f.cf target ps))

/-- A pair of BRM matches a thread (R89). -/
def State.matches_ (s : State) (p : BPair) (t : Nat) : Bool :=
  match p.test with
  | .always => true
  | .pred q neg => s.pred q.val t != neg

/-- The offset of the first pair that matches a thread (R115). -/
def State.brmOffset (s : State) (f : FmtB) (t : Nat) : Option Int :=
  ((f.p0 :: f.more).find? (fun p => s.matches_ p t)).map (·.offset.toInt)

/-- BRM (R115). -/
def execBrm (f : FmtB) (s : State) : Host.Outcome State Fault Refusal :=
  s.onRun (fun run =>
    let ex := maskOf (fun t => bitAt run t && (s.brmOffset f t).isSome)
    let ts := (f.p0 :: f.more).flatMap BPair.touch
    if !(s.toWrite ts).isEmpty then s.interlocked (.written (s.toWrite ts))
    else
    let target := fun (t : Nat) => targetOf s.cur.pc ((s.brmOffset f t).getD 0)
    s.probing target (maskList ex) (fun ps s => s.transfer run ex .none target ps))

/-- CALL: the link of each thread whose transfer takes effect is the successor; the target is read first (R116, R71). -/
def execCall (f : FmtA) (s : State) : Host.Outcome State Fault Refusal :=
  let direct := f.fn == 0
  let reads := if direct then [] else f.sa.touch
  s.issue true f.guard f.cf (reads ++ f.dst.touch) (fun run ex =>
    s.reading run ex reads
      (let target := fun (t : Nat) => if direct then targetOf s.cur.pc f.imm.toInt else s.src f.sa t 0
       let link := succPc s.cur.pc
       s.probing target (maskList ex) (fun ps s =>
         let went := wentMask ps
         if went = 0 then s.transfer run ex f.cf target ps
         else s.allocating f.dst.names (fun s' =>
           (s'.writeDst f.dst false ((maskList went).map (fun t => (t, link, 0, 0)))).transfer run ex f.cf target ps))))

/-- The indirect transfer of RET and JMPI (R117). -/
def State.jump (s : State) (f : FmtA) : Host.Outcome State Fault Refusal :=
  s.issue true f.guard f.cf f.sa.touch (fun run ex =>
    s.reading run ex f.sa.touch
      (let target := fun (t : Nat) => s.src f.sa t (f.imm.setWidth 64)
       s.probing target (maskList ex) (fun ps s => s.transfer run ex f.cf target ps)))

/-- RET (R117). -/
def execRet (f : FmtA) (s : State) : Host.Outcome State Fault Refusal := s.jump f

/-- JMPI (R117). -/
def execJmpi (f : FmtA) (s : State) : Host.Outcome State Fault Refusal := s.jump f

/-! ### EXIT, YIELD, WSYNC -/

/-- Threads of the issuing run exit (R118). -/
def State.exitThreads (s : State) (m : Mask) : State :=
  (s.updWarp s.cur.loc (fun w => (w.updThreads m (fun _ x => { x with st := .exited, pc := 0 })).tidyWaits))

/-- EXIT: it waits when it would leave the warp with parked threads and no running one (R107, R118); it is illegal in a handler
run (R368). -/
def execExit (f : FmtA) (s : State) : Host.Outcome State Fault Refusal :=
  s.issue (!s.cur.handler) f.guard f.cf [] (fun run ex =>
    let w := s.me
    if w.inState .running &&& ~~~ex == 0 && w.inState .parked != 0 then s.waitFor f.cf .exit
    else ((s.attach f.cf).advance (run &&& ~~~ex)).exitThreads ex)

/-- The agent re-issues the instruction in which a run of a warp waits: the wait is dropped. -/
def State.reissue (s : State) (l : Loc) (handler : Bool) (pc : Word) (ready : WaitKind → Bool) : State :=
  match s.waitAt l handler pc with
  | some x => if ready x.kind then s.dropWait l handler pc else s
  | none => s

/-- EXIT_PROCEED: no thread of the warp is parked any longer, and the waiting EXIT issues again (R107). -/
def execExitProceed (l : Loc) (pc : Word) (s : State) : Host.Outcome State Fault Refusal :=
  match s.warp? l with
  | some w => .next (if w.inState .parked == 0 && s.ctxLive w.ctx then s.reissue l false pc (· == .exit) else s)
  | none => .next s

/-- YIELD: the fairness count becomes Q, and the slice may prefer another warp (R119). -/
def execYield (f : FmtA) (s : State) : Host.Outcome State Fault Refusal :=
  s.issue true f.guard f.cf [] (fun run ex =>
    (s.updWarp s.cur.loc (fun w => { w with fair := w.fairQ, yieldTo := true })).complete run ex f.cf [])

/-- WSYNC: it completes when its run holds the whole warp; otherwise the run waits (R120). -/
def execWsync (f : FmtA) (s : State) : Host.Outcome State Fault Refusal :=
  s.issue true f.guard f.cf [] (fun run ex =>
    if !s.cur.handler && s.me.whole s.cur.pc then s.complete run ex f.cf [] else s.waitFor f.cf .wsync)

/-- WSYNC_COMPLETE: the waiting run has become the whole warp and passes the WSYNC (R120). -/
def execWsyncComplete (l : Loc) (pc : Word) (s : State) : Host.Outcome State Fault Refusal :=
  match s.warp? l, s.waitAt l false pc with
  | some w, some x =>
    if x.kind == .wsync && w.whole pc && s.ctxLive w.ctx then
      let s := { s with cur := { s.cur with loc := l, handler := false, pc := pc } }
      .next (s.advance s.run)
    else .next s
  | _, _ => .next s

/-! ### Predicates -/

/-- ELECT: the lowest executing thread receives 1, the others 0 (R121). -/
def execElect (f : FmtA) (s : State) : Host.Outcome State Fault Refusal :=
  s.issue true f.guard f.cf f.dst.touchUni (fun run ex =>
    match f.dst with
    | .name p => (s.setPred p.val ex (listMask [lowest ex])).complete run ex f.cf []
    | .uni _ => s.complete run ex f.cf [])

/-- The threads of a mask in which predicate p holds. -/
def State.predMask (s : State) (p : Nat) (m : Mask) : Mask := maskOf (fun t => bitAt m t && s.pred p t)

/-- VOTE (R122). -/
def execVote (f : FmtA) (s : State) : Host.Outcome State Fault Refusal :=
  s.issue true f.guard f.cf (f.sa.touchPred ++ f.dst.touchUni) (fun run ex =>
    let p := match f.sa with
      | .name n => n.val
      | _ => 0
    let yes := s.predMask p ex
    let all := yes == ex
    let any := yes != 0
    let s := match f.dst with
      | .name d =>
        let r := match f.fn.toNat with
          | 0 => all
          | 1 => any
          | _ => all || !any
        s.setPred d.val ex (if r then ex else 0)
      | .uni k => s.setUni k.val (if f.fn.toNat = 3 then yes.setWidth 64 else word (countOnes yes))
    s.complete run ex f.cf [])

/-- The relation of ICMP (R123). -/
def relInt (rel : Nat) (x y : Int) : Bool :=
  match rel with
  | 0 => decide (x = y)
  | 1 => decide (x ≠ y)
  | 2 => decide (x < y)
  | 3 => decide (x ≤ y)
  | 4 => decide (y < x)
  | _ => decide (y ≤ x)

/-- ICMP (R123). -/
def execIcmp (f : FmtA) (s : State) : Host.Outcome State Fault Refusal :=
  let W := (intShape f.ty).1
  let val := fun (o : Src) (t : Nat) => intVal f.ty.isI W (fieldNat (s.srcA f o t) 0 W)
  s.issue true f.guard f.cf (f.sa.touch ++ f.sb.touch ++ f.dst.touchUni) (fun run ex =>
    s.reading run ex (f.sa.touch ++ f.sb.touch)
      (let r := fun (t : Nat) => relInt f.fn.toNat (val f.sa t) (val f.sb t)
       let s := match f.dst with
         | .name d => s.setPred d.val ex (maskOf (fun t => bitAt ex t && r t))
         | .uni k => s.setUni k.val (boolWord (r (lowest ex)))
       s.complete run ex f.cf []))

/-- A source of PLOP in a thread: a predicate, or 15 for true (R111). -/
def State.plopSrc (s : State) (o : Src) (t : Nat) : Bool :=
  match o with
  | .name n => n.val == 15 || s.pred n.val t
  | _ => true

/-- PLOP (R124). -/
def execPlop (f : FmtA) (s : State) : Host.Outcome State Fault Refusal :=
  s.issue true f.guard f.cf (f.sa.touchPred ++ f.sb.touchPred ++ f.sc.touchPred ++ f.dst.touchUni) (fun run ex =>
    let bit := fun (b : Bool) => if b then 1 else 0
    let v := fun (t : Nat) => f.imm.getLsbD
      (bit (s.plopSrc f.sa t) + 2 * bit (s.plopSrc f.sb t) + 4 * bit (s.plopSrc f.sc t))
    match f.dst with
    | .name d => (s.setPred d.val ex (maskOf (fun t => bitAt ex t && v t))).complete run ex f.cf []
    | .uni _ => s.complete run ex f.cf [])

/-- The selected predicates of a thread as a number (R125). -/
def State.predBits (s : State) (sel : BitVec 32) (t : Nat) : Word :=
  word ((List.range 12).foldl (fun a k => if sel.getLsbD k && s.pred k t then a + 2 ^ k else a) 0)

/-- The predicates that a selection names. -/
def selected (sel : BitVec 32) : List Touch := ((List.range 12).filter (fun k => sel.getLsbD k)).map Touch.pred

/-- P2S (R125). -/
def execP2s (f : FmtA) (s : State) : Host.Outcome State Fault Refusal :=
  s.execA f (selected f.imm) false (fun t => .done (s.predBits f.imm t) 0 0)

/-- S2P (R125). -/
def execS2p (f : FmtA) (s : State) : Host.Outcome State Fault Refusal :=
  s.issue true f.guard f.cf (f.sa.touch ++ selected f.imm) (fun run ex =>
    s.reading run ex f.sa.touch
      (let v := fun (t : Nat) => s.src f.sa t (f.imm.setWidth 64)
       let s' := ((List.range 12).filter (fun k => f.imm.getLsbD k)).foldl
         (fun s' k => s'.setPred k ex (maskOf (fun t => bitAt ex t && bitAt (v t) k))) s
       s'.complete run ex f.cf []))

/-! ### BRK and TRAP (R126) -/

/-- BRK: BREAKPOINT with the code in INFO0, parked at the BRK. -/
def execBrk (f : FmtA) (s : State) : Host.Outcome State Fault Refusal :=
  s.issue true f.guard f.cf [] (fun run ex => s.allFault run ex (s.faultHere 0x16 (f.imm.setWidth 64)))

/-- TRAP: SOFTWARE_TRAP with the code in INFO0, parked at the successor. -/
def execTrap (f : FmtA) (s : State) : Host.Outcome State Fault Refusal :=
  s.issue true f.guard f.cf [] (fun run ex =>
    s.allFault run ex { code := 0x17, ppc := succPc s.cur.pc, info0 := f.imm.setWidth 64 })

end Sys2Proof.Machine
end

