-- ==== Sys2Proof/Machine/Map.lean ====
section
/-!
DEFINITION. The register map: map edits, mailboxes, copies and queries (07 R127 to R150), and stalled allocations (07 R133).
-/
namespace Sys2Proof.Machine
open Sys2Proof

/-- The course of a map edit (R134): DIVERGENT_MAP_EDIT when the run lacks a running thread of the warp; a wait while a thread
is parked; otherwise it executes once for the warp. It is illegal in a handler run. -/
def State.mapEdit (s : State) (f : FmtA) (body : Mask → State) : Host.Outcome State Fault Refusal :=
  s.issue (!s.cur.handler) f.guard f.cf [] (fun run ex =>
    let w := s.me
    let absent := w.inState .running &&& ~~~run
    if absent != 0 then s.allFault run ex (s.faultHere 0x09 (absent.setWidth 64))
    else if w.inState .parked != 0 then s.waitRun .mapEdit
    else body run)

/-- The old row of a name is released after the name maps another one. -/
def State.releaseOpt (s : State) (l : Loc) (r : Option Nat) : State :=
  match r with
  | some r => s.releaseRow (sliceOfLoc l) r
  | none => s

/-- MOVE (R143). -/
def execMove (f : FmtA) (s : State) : Host.Outcome State Fault Refusal :=
  s.mapEdit f (fun run =>
    let l := s.cur.loc
    let d := f.dst.no
    let n := f.sa.no
    if d = n then s.advance run
    else
      let new := s.me.mapOf n
      let old := s.me.mapOf d
      ((((s.setMap l d new).setMap l n none).releaseOpt l old)).advance run)

/-- ALIAS: the new holder is counted before the old one is released (R146). -/
def execAliasName (f : FmtA) (s : State) : Host.Outcome State Fault Refusal :=
  s.mapEdit f (fun run =>
    let l := s.cur.loc
    let new := s.me.mapOf f.sa.no
    let old := s.me.mapOf f.dst.no
    let s := match new with
      | some r => s.holdRow (sliceOfLoc l) r
      | none => s
    ((s.setMap l f.dst.no new).releaseOpt l old).advance run)

/-- UNMAP (R147). -/
def execUnmap (f : FmtA) (s : State) : Host.Outcome State Fault Refusal :=
  s.mapEdit f (fun run => (s.unmapName s.cur.loc f.dst.no).advance run)

/-- The mapping of each name of a list passes to the next, and the last one's to the first (R148). -/
def rotateMap (m : List (Option Nat)) (ns : List Nat) : List (Option Nat) :=
  let vals := ns.map (fun n => nth m n none)
  let rot := match vals.reverse with
    | [] => []
    | v :: vs => v :: vs.reverse
  (List.zip ns rot).foldl (fun m p => putNth none m p.1 p.2) m

/-- PERM (R148). -/
def execPerm (f : FmtA) (s : State) : Host.Outcome State Fault Refusal :=
  s.mapEdit f (fun run =>
    let ns := [f.dst.no, f.sa.no, f.sb.no, f.sc.no].take (f.fn.toNat + 2)
    (s.updWarp s.cur.loc (fun w => { w with map := rotateMap w.map ns })).advance run)

/-- SWAPN (R148). -/
def execSwapn (f : FmtA) (s : State) : Host.Outcome State Fault Refusal :=
  s.mapEdit f (fun run =>
    (s.updWarp s.cur.loc (fun w => { w with map := rotateMap w.map [f.dst.no, f.sa.no] })).advance run)

/-- MAP_EDIT_WAIT_END: no thread of the warp is parked any longer, and the waiting edit applies its rules again (R134). -/
def execMapEditWaitEnd (l : Loc) (pc : Word) (s : State) : Host.Outcome State Fault Refusal :=
  match s.warp? l with
  | some w => .next (if w.inState .parked == 0 && s.ctxLive w.ctx then s.reissue l false pc (· == .mapEdit) else s)
  | none => .next s

/-! ### CPY (R144) -/

/-- CPY: a fresh row takes the source's elements of the executing threads and the old ones of the others. -/
def execCpy (f : FmtA) (s : State) : Host.Outcome State Fault Refusal :=
  s.issue (!s.cur.handler) f.guard f.cf (f.sa.touch ++ f.dst.touch) (fun run ex =>
    s.reading run ex f.sa.touch
      (let l := s.cur.loc
       let i := sliceOfLoc l
       let old := s.me.mapOf f.dst.no
       let data := (List.range 32).map (fun t =>
         if bitAt ex t then s.elem f.sa.no t else s.elem f.dst.no t)
       match s.allocRow l with
       | none => s.waitRun (.alloc 1)
       | some (r, s') =>
         let s' := s'.updSlice i (fun x => x.updRow r (fun y => { y with data := data }))
         ((s'.setMap l f.dst.no (some r)).releaseOpt l old).complete run ex f.cf []))

/-! ### Mailboxes (R136, R145) -/

/-- Mailbox m of a slice. -/
def State.mailbox (s : State) (i : SliceId) (m : Nat) : Option Nat := nth (s.slice i).mailboxes m none

/-- Set a mailbox. -/
def State.setMailbox (s : State) (i : SliceId) (m : Nat) (r : Option Nat) : State :=
  s.updSlice i (fun x => { x with mailboxes := putNth none x.mailboxes m r })

/-- The waits of a slice's warps that a test picks, each with its slot. -/
def State.waitsOn (s : State) (i : SliceId) (p : WaitKind → Bool) : List (Nat × Wait) :=
  (s.warpsOn i).flatMap (fun w => (w.waits.filter (fun x => p x.kind && x.mask == w.runAt x.pc)).map (fun x => (w.loc.slot, x)))

/-- A wait comes before another: it began earlier, or at the same time in a lower warp slot (R136). -/
def waitBefore (a b : Nat × Wait) : Bool := decide (a.2.since < b.2.since) || (a.2.since == b.2.since && decide (a.1 ≤ b.1))

/-- The wait that is served first (R136). -/
def firstWait (l : List (Nat × Wait)) : Option (Nat × Wait) := (sortBy waitBefore l).head?

/-- A GIVE of mailbox m. -/
def isGive (m : Nat) : WaitKind → Bool
  | .give k _ => k == m
  | _ => false

/-- A TAKE of mailbox m. -/
def isTake (m : Nat) : WaitKind → Bool
  | .take k _ => k == m
  | _ => false

/-- The effect of GIVE: the reference that the name maps as the effect takes place moves to the mailbox; holders and charge do not change
(R145). A name that a handler has emptied while the GIVE waited gives nothing (log 46: DESIGN CHOICE). -/
def State.giveRow (s : State) (l : Loc) (n m : Nat) : State :=
  match s.warp? l with
  | none => s
  | some w => (s.setMailbox (sliceOfLoc l) m (w.mapOf n)).setMap l n none

/-- The effect of TAKE: the reference moves to the name, and the charge under R137 (R145). -/
def State.takeRow (s : State) (l : Loc) (n m : Nat) : State :=
  let i := sliceOfLoc l
  match s.mailbox i m, s.warp? l with
  | some r, some w =>
    let old := w.mapOf n
    let s := s.setMailbox i m none
    let held : Bool := match (s.slice i).row? r with
      | some y => (s.warp? ⟨i.die, i.core, i.slice, y.charge⟩).any (fun c => c.map.contains (some r))
      | none => true
    let s := if held then s else s.moveCharge i r l.slot
    (s.setMap l n (some r)).releaseOpt l old
  | _, _ => s

/-- The predicate of a .try form is written in every thread of the run (R145). -/
def State.tryPred (s : State) (f : FmtA) (run : Mask) (v : Bool) : State :=
  if f.fn == 1 then s.setPred (f.imm.toNat / 256) run (if v then run else 0) else s

/-- GIVE (R145). A GIVE waits behind the one that began to wait on the mailbox before it (R136), and GIVE.try answers 0 there
(log 46: DESIGN CHOICE). -/
def execGive (f : FmtA) (s : State) : Host.Outcome State Fault Refusal :=
  let m := f.imm.toNat % 16
  let n := f.sa.no
  s.mapEdit f (fun run =>
    if (s.me.mapOf n).isNone then s.allFault run run (s.faultHere 0x08 (word n))
    else
      let i := sliceOfLoc s.cur.loc
      if (s.mailbox i m).isNone && (s.waitsOn i (isGive m)).all (fun x => x.1 == s.cur.loc.slot) then
        ((s.giveRow s.cur.loc n m).tryPred f run true).advance run
      else if f.fn == 1 then (s.tryPred f run false).advance run
      else s.waitRun (.give m n))

/-- TAKE (R145). A TAKE waits behind the one that began to wait before it (R136), and TAKE.try answers 0 there (log 46: DESIGN CHOICE). -/
def execTake (f : FmtA) (s : State) : Host.Outcome State Fault Refusal :=
  let m := f.imm.toNat % 16
  let n := f.dst.no
  s.mapEdit f (fun run =>
    let i := sliceOfLoc s.cur.loc
    if (s.mailbox i m).isSome && (s.waitsOn i (isTake m)).all (fun x => x.1 == s.cur.loc.slot) then
      ((s.takeRow s.cur.loc n m).tryPred f run true).advance run
    else if f.fn == 1 then (s.tryPred f run false).advance run
    else s.waitRun (.take m n))

/-- The wait at a PC of a warp is the first one of its kind and can be served: a GIVE while the mailbox is empty, a TAKE while it
is full (R136). -/
def State.mailboxReady (s : State) (l : Loc) (pc : Word) : Bool :=
  let i := sliceOfLoc l
  match s.waitAt l false pc with
  | some x =>
    (s.warp? l).any (fun w => w.runAt pc == x.mask && s.ctxLive w.ctx) &&
    (match x.kind with
     | .give m _ => (s.mailbox i m).isNone && firstWait (s.waitsOn i (isGive m)) == some (l.slot, x)
     | .take m _ => (s.mailbox i m).isSome && firstWait (s.waitsOn i (isTake m)) == some (l.slot, x)
     | _ => false)
  | none => false

/-- MAILBOX_WAIT_SERVED: the waiting GIVE or TAKE takes effect (R136). -/
def execMailboxWaitServed (l : Loc) (pc : Word) (s : State) : Host.Outcome State Fault Refusal :=
  if s.mailboxReady l pc then
    match s.waitAt l false pc with
    | some x =>
      let s := { s with cur := { s.cur with loc := l, handler := false, pc := pc } }
      let s := match x.kind with
        | .give m n => s.giveRow l n m
        | .take m n => s.takeRow l n m
        | _ => s
      .next (s.advance s.run)
    | none => .next s
  else .next s

/-! ### Queries -/

/-- The mask of the names from lo on, 64 of them, that map a row (R149). -/
def namesOf (m : List (Option Nat)) (r lo : Nat) : Word :=
  word (((List.range 64).filter (fun n => nth m (lo + n) none == some r)).foldl (fun a n => a + 2 ^ n) 0)

/-- The word of a row for the calling warp (Tables 7.3 and 7.4). -/
def State.rowWord (s : State) (l : Loc) (r : Nat) (inmbx : Bool) : Word :=
  match (s.slice (sliceOfLoc l)).row? r with
  | some y => word (y.holders * 256 + (if inmbx then 4 else 0) + (if y.charge = l.slot then 2 else 0) + 1)
  | none => 0

/-- MAPQ (R149). -/
def execMapq (f : FmtA) (s : State) : Host.Outcome State Fault Refusal :=
  s.issue (!s.cur.handler) f.guard f.cf f.dst.touch (fun run ex =>
    let l := s.cur.loc
    let v : Word := match s.me.mapOf f.sa.no with
      | none => 0
      | some r => match f.fn.toNat with
        | 0 => s.rowWord l r ((s.slice (sliceOfLoc l)).mailboxes.contains (some r))
        | 1 => namesOf s.me.map r 0
        | _ => namesOf s.me.map r 64
    (s.setUni f.dst.no v).complete run ex f.cf [])

/-- MBXQ (R150). -/
def execMbxq (f : FmtA) (s : State) : Host.Outcome State Fault Refusal :=
  s.issue (!s.cur.handler) f.guard f.cf f.dst.touch (fun run ex =>
    let l := s.cur.loc
    let v : Word := match s.mailbox (sliceOfLoc l) (f.imm.toNat % 16) with
      | none => 0
      | some r => s.rowWord l r false
    (s.setUni f.dst.no v).complete run ex f.cf [])

/-! ### Stalled allocations (R133) -/

/-- The rows of an allocation that a warp draws from the slack, after those of its reservation (R50). -/
def Warp.draw (w : Warp) (need : Nat) : Nat := need - (w.rowsRes - w.balance)

/-- The rows that runs of a slice have been granted and have still to take, and how many of them come from the slack. -/
def State.promised (s : State) (i : SliceId) : Nat × Nat :=
  (s.warpsOn i).foldl (fun a w => w.waits.foldl (fun a x => match x.kind with
    | .granted need => if x.mask == w.runAt x.pc then (a.1 + need, a.2 + w.draw need) else a
    | _ => a) a) (0, 0)

/-- A wait for an allocation that can now be made: by R50, and in rows that are not in use. -/
def State.allocDue (s : State) (w : Warp) (x : Wait) : Bool :=
  match x.kind with
  | .alloc need =>
    let i := sliceOfLoc w.loc
    let p := s.promised i
    decide (need + p.1 + (s.slice i).rows.length ≤ 128) && decide ((w.draw need + p.2 : Int) ≤ s.slack i || w.draw need = 0)
  | _ => false

/-- The slack that a placement test sees: that of the slice when the allocations that its stalled runs can make have been applied (R51). -/
def State.placeSlack (s : State) (i : SliceId) : Int :=
  let due := (s.warpsOn i).foldl (fun a w => w.waits.foldl (fun a x => match x.kind with
    | .alloc need => if x.mask == w.runAt x.pc && s.allocDue w x then a + w.draw need else a
    | _ => a) a) 0
  s.slack i - (s.promised i).2 - due

/-- The wait of a warp at a PC is granted its rows. -/
def Warp.grant (w : Warp) (pc : Word) : Warp :=
  { w with waits := w.waits.map (fun x => match x.kind with
      | .alloc need => if x.pc == pc then { x with kind := .granted need } else x
      | _ => x) }

/-- ALLOCATION_RESUME: the rows that a stalled run needs are available to it; they are kept for it, and the instruction issues again
(R133, R51). -/
def execAllocationResume (l : Loc) (pc : Word) (s : State) : Host.Outcome State Fault Refusal :=
  match s.warp? l, s.waitAt l false pc with
  | some w, some x => .next (if s.allocDue w x && s.ctxLive w.ctx then s.updWarp l (·.grant pc) else s)
  | _, _ => .next s

/-- The stalled run of a warp of the lowest PC: one whose allocation can not be made. -/
def State.stalledAt (s : State) (w : Warp) : Option Wait :=
  (sortBy (fun (a b : Wait) => decide (a.pc.toNat ≤ b.pc.toNat)) (w.waits.filter (fun x =>
    (match x.kind with | .alloc _ => true | _ => false) && x.mask == w.runAt x.pc && !s.allocDue w x))).head?

/-- A slice is starved: every resident warp has a run stalled on allocation, and no handler run is active (R133). -/
def State.starved (s : State) (i : SliceId) : Bool :=
  let ws := s.warpsOn i
  !ws.isEmpty && (s.slice i).handler.isNone && ws.all (fun w => (s.stalledAt w).isSome)

/-- The youngest warp of a slice: placed last, and on a tie in the higher slot (R133). -/
def youngest (ws : List Warp) : Option Warp :=
  ws.foldl (fun acc w => match acc with
    | none => some w
    | some a => if a.placed ≤ w.placed then some w else some a) none

/-- ROW_STARVATION: the stalled run of the youngest warp of a starved slice is parked at the allocating instruction (R133). -/
def execRowStarvation (i : SliceId) (s : State) : Host.Outcome State Fault Refusal :=
  if s.starved i then
    match youngest (s.warpsOn i) with
    | some w =>
      match s.stalledAt w with
      | some x =>
        .next (s.parkOne w.loc x.mask x.pc (s.slotBits (coreOfLoc w.loc) w.ctx x.pc)
          { code := 0x0A, ppc := x.pc, info0 := word (w.balance % 256 + w.rowsRes % 256 * 256) })
      | none => .next s
    | none => .next s
  else .next s

end Sys2Proof.Machine
end

