-- ==== Sys2Proof/Machine/F4S.lean ====
section
/-!
DEFINITION. The scaled four-bit format F4S (08 R154 to R157, R166): decoding of a code under its block's scale and special
bytes, the nibble permutation of a group, and the encoding of a block of 32 FP32 values.
-/
namespace Sys2Proof

/-- Twice the E2M1 magnitude of a code's low three bits (Table 8.3). -/
def e2m1Twice (c : Nat) : Nat :=
  match c % 8 with
  | 0 => 0 | 1 => 1 | 2 => 2 | 3 => 3 | 4 => 4 | 5 => 6 | 6 => 8 | _ => 12

/-- The value of a code other than the special one, times 2^(σ − 127). -/
def e2m1Val (c sigma : Nat) : FVal := .fin (decide (8 ≤ c % 16)) (e2m1Twice c) ((sigma : Int) - 128)

/-- E4M3(π) × 2^(σ − 127). -/
def specialVal (p sigma : Nat) : FVal :=
  match fe4m3.decode p with
  | .fin n s e => .fin n s (e + sigma - 127)
  | v => v

/-- The value of an F4S element (R155). A NaN of scale 0xFF is the canonical one: positive, fraction 0 here stands for it. -/
def decodeF4S (code sigma p : Nat) (spe : Bool) : FVal :=
  if sigma = 255 then .nan false 0
  else if code % 16 = 8 then (if spe then specialVal p sigma else .fin true 0 0)
  else e2m1Val code sigma

/-- A decoded F4S value in a format: a NaN of scale 0xFF is canonical, and a NaN special converts as E4M3's NaN does (R165). -/
def f4sTo (G : FFmt) : FVal → Nat
  | .nan n f => if f = 0 then G.canon else cvtNan fe4m3 G n f
  | .inf n => G.infBits n
  | .fin n s e => (G.result .rn n s 1 e).bits

/-- The nibble position of element i of a group (R156). -/
def f4sPos (i : Nat) : Nat := i % 4 * 8 + i / 4

/-- Element i of a group of 16 bytes. -/
def f4sGet (grp : List Byte) (i : Nat) : Nat :=
  let p := f4sPos i
  (nth grp (p / 2) 0).toNat / 16 ^ (p % 2) % 16

/-- A group of 16 bytes with element i set. -/
def f4sSet (grp : List Byte) (i c : Nat) : List Byte :=
  let p := f4sPos i
  updNth grp (p / 2) (fun b => if p % 2 = 0 then BitVec.ofNat 8 (b.toNat / 16 * 16 + c % 16)
    else BitVec.ofNat 8 (b.toNat % 16 + c % 16 * 16))

/-- |v| of an extended real that is finite. -/
def FVal.abs : FVal → FVal
  | .fin _ s e => .fin false s e
  | .inf _ => .inf false
  | v => v

/-- |m| ≤ 6 × 2^e. -/
def fitsScale (m : FVal) (e : Int) : Bool := cmpVal m.abs (.fin false 6 e) != .gt

/-- The smallest e in −127 to 127 with |m| ≤ 6 × 2^e (R166, step 2); 127 when none fits, which no FP32 value needs. -/
def scaleFor (m : FVal) : Int :=
  (((List.range 255).map (fun (i : Nat) => (i : Int) - 127)).find? (fitsScale m)).getD 127

/-- The distance of two finite values. -/
def distVal (a b : FVal) : FVal := (a.plus b.opp).abs

/-- Of a list of codes with their values, the one nearest to x; on a tie the earlier one stays unless `prefer` takes the
later. -/
def nearest (x : FVal) (prefer : Nat → Nat → Bool) : List (Nat × FVal) → Nat × FVal → Nat × FVal
  | [], best => best
  | c :: rest, best =>
    let r := match cmpVal (distVal x c.2) (distVal x best.2) with
      | .lt => c
      | .gt => best
      | .eq => if prefer c.1 best.1 then c else best
    nearest x prefer rest r

/-- The E4M3 code nearest to a finite q, ties to even M (R166, step 3). DESIGN CHOICE (log 46): a negative q that rounds to zero gives −0. -/
def nearestE4M3 (q : FVal) : Nat :=
  match q with
  | .fin n s e => (cvtFloat fp64 fe4m3 .rn true (fp64.result .rn n s 1 e).bits).bits
  | _ => 0

/-- The code nearest to x under a scale and special (R166, step 4). Of two tied codes the one with fraction bit 0 wins (code
0b1000 has it), and of two such the ordinary one. A value that rounds to zero is 0b0000. -/
def encodeF4S (x : FVal) (sigma p : Nat) (spe : Bool) : Nat :=
  let ords := ([0, 1, 2, 3, 4, 5, 6, 7, 9, 10, 11, 12, 13, 14, 15].map (fun c => (c, e2m1Val c sigma)))
  let sv := specialVal p sigma
  let special := spe && !(match sv with | .nan .. => true | _ => false)
    && !ords.any (fun c => cmpVal c.2 sv == .eq)
  let prefer := fun (c best : Nat) => c % 2 == 0 && best % 2 == 1
  let b := nearest x prefer ords (0, e2m1Val 0 sigma)
  let b := if special then
      match cmpVal (distVal x sv) (distVal x b.2) with
      | .lt => 8
      | .eq => if b.1 % 2 == 1 then 8 else b.1
      | .gt => b.1
    else b.1
  b

/-- The encoding of a block of 32 FP32 codes (R166): σ, π and the 32 element codes. DESIGN CHOICE (log 46): a block of 32 infinities under .sat has
no finite m, and takes m = 0. -/
def encodeBlock (xs : List Nat) (spe sat : Bool) : Nat × Nat × List Nat :=
  let vs := xs.map fp32.decode
  let isNan := fun (v : FVal) => match v with | .nan .. => true | _ => false
  let isInf := fun (v : FVal) => match v with | .inf _ => true | _ => false
  if vs.any isNan || (vs.any isInf && !sat) then (255, 0, List.replicate xs.length 0)
  else
    let fins := vs.filter (fun v => !isInf v)
    let m := fins.foldl (fun m v => if cmpVal m.abs v.abs == .lt then v else m) (.fin false 0 0)
    let zero := match m with | .fin _ s _ => s == 0 | _ => true
    let e := if zero then -127 else scaleFor m
    let sigma := (e + 127).toNat
    let q := match m with | .fin n s k => FVal.fin n s (k - e) | v => v
    let exactQ := [0, 1, 2, 3, 4, 6, 8, 12].any (fun h => cmpVal q.abs (.fin false h (-1)) == .eq)
    let p := if spe && !exactQ then nearestE4M3 q else 0
    let clampInf := fun (v : FVal) => match v with
      | .inf n => FVal.fin n 6 e
      | w => w
    (sigma, p, vs.map (fun v => encodeF4S (clampInf v) sigma p spe))

end Sys2Proof
end

