-- ==== Sys2Proof/Machine/Access.lean ====
section
/-!
DEFINITION. Checked accesses (12 R255): linear addresses, tensors and their tiles (11 R222 to R231), elements by format
(12 Table 12.4) and the bound policies (23 R404).
-/
namespace Sys2Proof.Machine
open Sys2Proof

/-- A failed check: the fault code and INFO0. -/
abbrev Bad := Nat × Word

/-- What a check answers. -/
inductive Checked (α : Type) where
  | ok (a : α)
  | bad (b : Bad)
  deriving DecidableEq, Repr

/-- Go on after a check. -/
def Checked.andThen (x : Checked α) (g : α → Checked β) : Checked β :=
  match x with
  | .ok a => g a
  | .bad b => .bad b

/-- A condition that a check needs. -/
def need (c : Bool) (code : Nat) (info : Word) : Checked Unit := if c then .ok () else .bad (code, info)

/-! ### Linear accesses -/

/-- Checks 3, 5 and 6 of R255 for bytes at an address. -/
def State.walk (s : State) (c : CoreId) (ctx : Nat) (va : Word) (write : Bool) : Checked TlbEntry :=
  match s.translate c ctx va.toNat with
  | none => .bad (0x0B, va)
  | some t => if write && !pteW t.entry then .bad (0x0C, va) else .ok t

/-- Checks 2 to 6 of R255 for a naturally aligned linear access. -/
def State.linear (s : State) (c : CoreId) (ctx : Nat) (ea : Word) (size : Nat) (write : Bool) : Checked TlbEntry :=
  if ea.toNat % size ≠ 0 then .bad (0x0D, ea) else s.walk c ctx ea write

/-- Checks 2 and 4 of R255 for an access to local memory of a given allotment (R220). -/
def localCheck (allot : Nat) (off : Word) (size : Nat) : Checked Nat :=
  if off.toNat % size ≠ 0 then .bad (0x0D, off)
  else if allot < off.toNat + size then .bad (0x0C, off) else .ok off.toNat

/-! ### Tensors (R227) -/

/-- A tensor table entry (Table 11.3). -/
structure Tensor where
  no        : Nat
  base      : Nat
  dims      : List Nat
  strides   : List Nat
  companion : Nat
  policy    : Nat
  blo       : Nat
  bhi       : Nat
  deriving DecidableEq, Repr

/-- The entry of tensor n, when n names one and the entry is well formed (R227). -/
def State.tensor? (s : State) (ctx n : Nat) : Option Tensor :=
  match s.ctx? ctx with
  | none => none
  | some c =>
    if n = 0 ∨ c.desc.ttCount ≤ n then none
    else
      let r := s.bytesAt (c.desc.ttBase.toNat + 64 * n) 64
      let base := recNat r 0 8
      let rank := recNat r 8 1
      let dims := (List.range 4).map (fun j => recNat r (16 + 4 * j) 4)
      let strides := (List.range 4).map (fun j => recNat r (32 + 4 * j) 4)
      let tail := (List.range 4).all (fun j => decide (j < rank) || (nth dims j 0 == 1 && nth strides j 0 == 0))
      if 2 ≤ rank ∧ rank ≤ 4 ∧ tail = true ∧ base % 65536 = 0 then
        some { no := n, base := base, dims := dims, strides := strides, companion := recNat r 10 2,
               policy := recNat r 9 1 % 4, blo := recNat r 48 4, bhi := recNat r 52 4 }
      else none

/-- The coordinates [i0, i1, i2, i3] lie within the dimensions. -/
def Tensor.within (T : Tensor) (i : List Nat) : Bool :=
  (List.range 4).all (fun j => decide (nth i j 0 < nth T.dims j 1))

/-- The address of a tile. A sum beyond 64 bits wraps, which the rule does not say (log 46: DESIGN CHOICE). -/
def Tensor.tileVa (T : Tensor) (i : List Nat) : Word :=
  word (T.base + 256 * ((List.range 4).foldl (fun a j => a + nth i j 0 * nth T.strides j 0) 0))

/-- The tag of a tile's line (R242). -/
def Tensor.tileTag (T : Tensor) (i : List Nat) : LineTag := .tile T.no (nth i 0 0) (nth i 1 0) (nth i 2 0) (nth i 3 0)

/-- The outer coordinates and the tensor of a tensor word (Table 12.3). -/
def tensorWord (w : Word) : Nat × Nat × Nat := (fieldNat w 0 16, fieldNat w 16 24, fieldNat w 40 24)

/-- The bytes of an element and the elements of a tile row, by page format (Table 11.1); F4S has half-byte elements. -/
def fmtShape (fmt : Nat) : Nat × Nat :=
  match fmt with
  | 2 => (8, 4)
  | 1 | 11 => (4, 8)
  | 12 => (8, 4)
  | 3 | 4 | 8 => (2, 16)
  | 5 | 6 | 9 | 10 => (1, 32)
  | 7 => (0, 64)
  | 13 => (16, 2)
  | _ => (1, 32)

/-- GEOM 2 and 3 of an F4S page raise FORMAT_MISMATCH on the tile path (R157). -/
def geomOk (e : Word) : Bool := pteFmt e != 7 || decide (pteGeom e < 2)

/-- A page agrees with the tensor's base page (R231). -/
def pageAgrees (T : Tensor) (base e : Word) : Bool :=
  pteFmt e != 0 && geomOk e && pteFmt e == pteFmt base && (pteFmt e == 8 || pteGeom e == pteGeom base) && pteSpe e == pteSpe base && pteTensor e == T.no

/-- The page that holds a tile, checked against the tensor's base page (checks 5 to 7 of R255). -/
def State.tilePage (s : State) (c : CoreId) (ctx : Nat) (T : Tensor) (base : Word) (va : Word) (write : Bool) :
    Checked TlbEntry :=
  (s.walk c ctx va write).andThen (fun t => if pageAgrees T base t.entry then .ok t else .bad (0x0E, va))

/-- The tensor that an access names with its base page: checks 3 and 4 of R255 on the tile path. -/
def State.openTensor (s : State) (c : CoreId) (ctx n : Nat) (info : Word) : Checked (Tensor × TlbEntry) :=
  match s.tensor? ctx n with
  | none => .bad (0x0B, info)
  | some T =>
    match s.translate c ctx T.base with
    | none => .bad (0x0B, word T.base)
    | some t => .ok (T, t)

/-- The entry by which a page names the format of an access: FMT 0 has no element width (check 4). -/
def needFmt (T : Tensor) (t : TlbEntry) : Checked Unit := need (pteFmt t.entry != 0) 0x0E (word T.base)


/-- Where an element lies: its tile's coordinates [i0, i1] and its byte in the tile (R223). For F4S the byte is that of its
group's first byte plus the nibble's byte. -/
def elementPlace (fmt row col : Nat) : List Nat × Nat :=
  let (w, n) := fmtShape fmt
  if fmt = 7 then
    ([col / 64, row / 8], row % 8 * 32 + col % 64 / 32 * 16 + f4sPos (col % 32) / 2)
  else ([col / n, row / 8], row % 8 * 32 + col % n * w)

/-- A located element: its tensor, the entry of the base page, its page, its address and the tag of its tile. -/
structure Element where
  T    : Tensor
  base : Word
  page : TlbEntry
  va   : Word
  tag  : LineTag
  deriving DecidableEq, Repr

/-- The view by which an element is reached. -/
def Element.view (e : Element) (ctx : Nat) : View := { ctx := ctx, tag := e.tag, entry := e.page.entry }

/-- Locate element (row, col) of a tensor with outer coordinates, for a read or a write (checks 3 to 7 of R255). -/
def State.element (s : State) (c : CoreId) (ctx : Nat) (tw : Word) (row : Nat) (col : Int) (write : Bool) : Checked Element :=
  let (n, i2, i3) := tensorWord tw
  (s.openTensor c ctx n tw).andThen (fun (T, b) =>
    (needFmt T b).andThen (fun _ =>
      if col < 0 then .bad (0x0C, tw)
      else
        let (ij, off) := elementPlace (pteFmt b.entry) row col.toNat
        let i := ij ++ [i2, i3]
        if !T.within i then .bad (0x0C, tw)
        else
          let va := T.tileVa i + word off
          (s.tilePage c ctx T b.entry va write).andThen (fun p => .ok { T := T, base := b.entry, page := p, va := va, tag := T.tileTag i })))

/-- The coordinates of an F4S element's block: GEOM 0 blocks run along rows, GEOM 1 along columns (R157). -/
def blockOf (geom row col : Nat) : Nat × Nat := if geom = 1 then (row / 32, col) else (row, col / 32)

/-- The companion pair of a block: its page, its address and the tag of its tile. A companion whose pages are not FMT 8, and none at all, raise
FORMAT_MISMATCH (R227). -/
def State.companionPair (s : State) (c : CoreId) (ctx : Nat) (T : Tensor) (br bc i2 i3 : Nat) (info : Word) (write : Bool) :
    Checked (TlbEntry × Word × LineTag) :=
  if T.companion = 0 then .bad (0x0E, info)
  else
    (s.openTensor c ctx T.companion info).andThen (fun (K, b) =>
      if pteFmt b.entry ≠ 8 then .bad (0x0E, word K.base)
      else
        let i := [bc / 16, br / 8, i2, i3]
        if !K.within i then .bad (0x0C, info)
        else
          let va := K.tileVa i + word (br % 8 * 32 + bc % 16 * 2)
          (s.tilePage c ctx K b.entry va write).andThen (fun p => .ok (p, va, K.tileTag i)))

/-- An F4S tensor has a companion whose base page is FMT 8 (R227). -/
def State.companionFmt (s : State) (c : CoreId) (ctx : Nat) (T : Tensor) (info : Word) : Checked Unit :=
  if T.companion = 0 then .bad (0x0E, info)
  else (s.openTensor c ctx T.companion info).andThen (fun (K, b) => need (pteFmt b.entry == 8) 0x0E (word K.base))

/-! ### Formats -/

/-- The point format of a page format, 1 to 6. -/
def pagePoint (fmt : Nat) : FFmt :=
  match fmt with
  | 1 => fp32 | 2 => fp64 | 3 => fp16 | 4 => bf16 | 5 => fe4m3 | _ => fe5m2

/-- The access type that LDT and STT accept for a page format (Table 12.4). -/
def fmtAccepts (fmt : Nat) (ty : MTy) : Bool :=
  match fmt with
  | 1 | 3 | 4 | 5 | 6 | 7 => ty == .n32
  | 2 => ty == .n64
  | 8 => ty == .n16
  | 9 => ty == .i8
  | 10 => ty == .n8
  | 11 => ty == .i32
  | 12 => ty == .iv32
  | 13 => ty == .iv64
  | _ => false

/-! ### Bound policies (R404) -/

/-- What a bound policy does with a value. -/
inductive Bound where
  | store (v : Nat) (flagged : Bool)
  | trap
  | malformed
  deriving DecidableEq, Repr

/-- Apply a tensor's policy to a value of FP32 or FP64, before it is rounded to the page format. -/
def applyPolicy (T : Tensor) (F : FFmt) (v : Nat) : Bound :=
  if T.policy = 0 then .store v false
  else if fp32.isNan T.blo || fp32.isNan T.bhi || fp32.lt T.bhi T.blo then .malformed
  else
    let lo := (cvtFloat fp32 F .rn false T.blo).bits
    let hi := (cvtFloat fp32 F .rn false T.bhi).bits
    let nan := F.isNan v
    let low := nan || F.lt v lo
    let high := !nan && F.lt hi v
    if !low && !high then .store v false
    else match T.policy with
      | 1 => .store v true
      | 2 => .store (if low then lo else hi) true
      | _ => .trap

/-! ### Format M operands (R85, R86) -/

/-- Table 5.9: the size of an access. -/
def mtySize : MTy → Nat
  | .n8 | .i8 => 1
  | .n16 | .i16 => 2
  | .i32 | .n32 => 4
  | .iv64 => 16
  | _ => 8

/-- Table 5.9: what a loaded value becomes in a register. -/
def mtyExtend (ty : MTy) (v : Word) : Word :=
  match ty with
  | .n8 => zextWord 8 v
  | .i8 => sextWord 8 v
  | .n16 => zextWord 16 v
  | .i16 => sextWord 16 v
  | .i32 => sextWord 32 v
  | .n32 => zextWord 32 v
  | _ => v

/-- A base or index: 255 of kind 1 is a base of 0 or no index (R85). -/
def State.srcM (s : State) (o : Src) (t : Nat) : Word := s.src o t 0

/-- The effective address of thread t (R86). -/
def State.eaOf (s : State) (f : FmtM) (size : Nat) (index : Bool) (t : Nat) : Word :=
  s.srcM f.base t + (if index then s.srcM f.index t * word size else 0) + f.offset.signExtend 64

/-- Where the result of a pending operation goes (R130). -/
def State.flightDst (s : State) (d : Dst) (second : Bool) (t : Nat) : FlightDst :=
  let k := d.no + (if second then 1 else 0)
  match d with
  | .uni _ => .uni k
  | .name _ => if s.cur.handler then .hrow k t else .row ((s.me.mapOf k).getD 0) t

/-- The acquire side of an order. -/
def acquires : Ord → Bool
  | .acq | .acqRel | .sc => true
  | _ => false

/-- The release side of an order. -/
def releases : Ord → Bool
  | .rel | .acqRel | .sc => true
  | _ => false

end Sys2Proof.Machine
end

