-- ==== Sys2Proof/Machine/MemoryOps.lean ====
section
/-!
DEFINITION. The memory instructions (12 R253 to R266), the completion of their operations (12 R256, 06 R102) and the fabric as
the module meets it (20 R355 to R357). A load reads its value when it issues and writes its destination at LOAD_RETURN; a
store is performed when it issues.
-/
namespace Sys2Proof

/-- What a format-M access with base and index reads (R85). -/
def FmtM.reads (f : FmtM) : List Touch := f.base.touch ++ f.index.touch

/-- The access is of an iv64. -/
def FmtM.wide (f : FmtM) : Bool := f.ty == .iv64

end Sys2Proof
namespace Sys2Proof.Machine
open Sys2Proof

/-! ### The accesses of a run -/

/-- What a memory instruction gives one thread: a failed check, or the words of its destination and sticky flags. -/
inductive MemOut where
  | bad (b : Bad)
  | done (v hi : Word) (fl : BitVec 8)
  deriving DecidableEq, Repr

/-- An access of one thread: the state after it, what it gives, and whether it meets a page whose writes are stalled (R240). -/
structure MemAct where
  s    : State
  out  : MemOut
  held : Bool := false

/-- The accesses of the threads of a run in ascending order (R247). -/
structure MemRun where
  s    : State
  outs : List (Nat × MemOut) := []
  held : Bool := false

/-- Make the accesses of a list of threads, in order. -/
def State.memRun (s : State) (act : State → Nat → MemAct) (ts : List Nat) : MemRun :=
  ts.foldl (fun r t =>
    let a := act r.s t
    { s := a.s, outs := r.outs ++ [(t, a.out)], held := r.held || a.held }) { s := s }

/-- The threads that an access is made for: every executing thread, or one for the run (R260). -/
def memThreads (once : Bool) (ex : Mask) : List Nat := if once then [lowest ex] else maskList ex

/-- The faults of a run's accesses: a fault of an access made once is raised in every executing thread (R260). -/
def MemRun.faults (r : MemRun) (s : State) (once : Bool) (ex : Mask) : List (Nat × Raise) :=
  let l := r.outs.filterMap (fun p => match p.2 with
    | .bad b => some (p.1, s.faultHere b.1 b.2)
    | .done _ _ _ => none)
  if once then l.flatMap (fun p => (maskList ex).map (fun t => (t, p.2))) else l

/-- The threads that complete, with their words and flags. -/
def MemRun.oks (r : MemRun) : List (Nat × Word × Word × BitVec 8) :=
  r.outs.filterMap (fun p => match p.2 with
    | .bad _ => none
    | .done v hi fl => some (p.1, v, hi, fl))

/-- The end of an instruction that returns values: the destination is allocated, the operation goes into flight with its
writes bound (R130), and the threads that fault are parked. Where no row is available the run stalls, and nothing that the
accesses did stands (R129, R133); so it is where an access cannot be delivered (R355). -/
def State.finishLoad (s0 : State) (r : MemRun) (f : FmtM) (wide : Bool) (run ex : Mask) : State :=
  let faults := r.faults s0 f.dst.isUni ex
  let oks := r.oks
  let ns := f.dst.names wide
  let goOn : State → State := fun s =>
    let ws := oks.flatMap (fun p =>
      (s.flightDst f.dst false p.1, p.2.1) :: (if wide then [(s.flightDst f.dst true p.1, p.2.2.1)] else []))
    let s := s.launchFlight { id := 0, flag := (s.flagOf f.cf).join, load := true, writes := ws }
    (s.orFlags false (oks.map (fun p => (p.1, p.2.2.2)))).complete run ex .none faults
  if r.held then s0.waitFor f.cf .stalledWrite
  else s0.runStep (
    if oks.isEmpty then r.s.complete run ex .none faults
    else if s0.cur.handler then goOn r.s
    else match r.s.allocNames s0.cur.loc ns with
      | some s => goOn s
      | none => s0.waitRun (.alloc (ns.filter (fun n => !s0.isMapped n)).length))

/-- The end of an instruction that only stores. -/
def State.finishStore (s0 : State) (r : MemRun) (f : FmtM) (run ex : Mask) : State :=
  let faults := r.faults s0 false ex
  let oks := r.oks
  if r.held then s0.waitFor f.cf .stalledWrite
  else s0.runStep (
    if oks.isEmpty then r.s.complete run ex .none faults
    else ((r.s.orFlags false (oks.map (fun p => (p.1, p.2.2.2)))).attach f.cf).complete run ex .none faults)

/-- The release of a store that has one: it waits while it would write back a page whose writes are stalled (R240, R248). An sc store is an
acquire too, in the order S (R250, Table 27.1). -/
def MemRun.release (r : MemRun) (c : CoreId) (f : FmtM) : MemRun :=
  if releases f.ord && !r.oks.isEmpty then
    if r.s.releaseStalls c f.scope then { r with held := true }
    else { r with s := if f.ord == .sc then (r.s.release c f.scope).acquire c f.scope else r.s.release c f.scope }
  else r

/-- The acquire of a load (R248). -/
def State.acquireFor (s : State) (f : FmtM) : State := if acquires f.ord then s.acquire s.myCore f.scope else s

/-- An sc access is ordered with every sc operation before and after it in S (R250, Table 27.1): a load of ORD 4 is performed after a release
too. -/
def State.scLoads (s : State) (f : FmtM) : Bool := f.ord == .sc && s.releaseStalls s.myCore f.scope

/-- What precedes the accesses of a load: the acquire of its order, and the release of an sc one. -/
def State.beforeLoad (s : State) (f : FmtM) : State :=
  (if f.ord == .sc then s.release s.myCore f.scope else s).acquireFor f

/-! ### Bytes and words -/

/-- Bytes read as a type, with the second word of an iv64 value. -/
def wordsOf (ty : MTy) (b : List Byte) : Word × Word := (mtyExtend ty (wordOfBytes (b.take 8)), wordOfBytes (b.drop 8))

/-- The bytes of a type that a register, or a pair, gives. -/
def bytesFor (ty : MTy) (v hi : Word) : List Byte :=
  if ty == .iv64 then bytesOfWord 8 v ++ bytesOfWord 8 hi else bytesOfWord (mtySize ty) v

/-- A loaded interval is malformed (R168). -/
def badInterval (ty : MTy) (v hi : Word) : Bool :=
  match ty with
  | .iv32 => !fp32.ivWf (fieldNat v 0 32, fieldNat v 32 32)
  | .iv64 => !fp64.ivWf (v.toNat, hi.toNat)
  | _ => false

/-- A loaded value, with the check of intervals (check 8 of R255). -/
def loaded (ty : MTy) (b : List Byte) : MemOut :=
  let (v, hi) := wordsOf ty b
  if badInterval ty v hi then .bad (0x10, 3) else .done v hi 0

/-! ### LD, LDL, LDU, ST, STL (R257, R260) -/

/-- A load of one thread from generic memory. -/
def State.loadOne (s : State) (f : FmtM) (t : Nat) : MemAct :=
  let n := mtySize f.ty
  let ea := s.eaOf f n true t
  match s.linear s.myCore s.myCtx ea n false with
  | .bad b => { s := s, out := .bad b }
  | .ok p =>
    let (b, s') := (s.cacheTlb p).threadRead s.myCore (linearView s.myCtx p.entry ea.toNat) (p.loc ea.toNat) n
    { s := s', out := loaded f.ty b }

/-- The common course of LD and LDU. -/
def State.load (s : State) (f : FmtM) : Host.Outcome State Fault Refusal :=
  s.issue true f.guard f.cf (f.reads ++ f.dst.touch f.wide) (fun run ex =>
    s.reading run ex f.reads
      (if s.scLoads f then s.waitFor f.cf .stalledWrite
       else s.finishLoad ((s.beforeLoad f).memRun (fun s t => s.loadOne f t) (memThreads f.dst.isUni ex)) f f.wide run ex))

/-- LD (R257). -/
def execLd (f : FmtM) (s : State) : Host.Outcome State Fault Refusal := s.load f

/-- LDU: executed once for the run (R260). -/
def execLdu (f : FmtM) (s : State) : Host.Outcome State Fault Refusal := s.load f

/-- The header of a ring in use lies in a tile of a context: a pipe that runs has the ring, or a QPUSH or QPOP waits on it (R317). -/
def State.ringInUse (s : State) (ctx : Nat) (va : Word) : Bool :=
  s.pipes.any (fun p => p.ctx == ctx && p.stages.any (fun k => k.ring == va))
    || s.warps.any (fun w => w.ctx == ctx && w.waits.any (fun x => match x.kind with
      | .ringPush r _ _ => r == va
      | .ringPop r _ _ _ => r == va
      | _ => false))

/-- The next 8 n bytes that the spec leaves open. -/
def State.freeBytes (s : State) : Nat → List Byte × State
  | 0 => ([], s)
  | n + 1 =>
    let (v, s) := s.freeValue
    let (b, s) := s.freeBytes n
    (bytesOfWord 8 v ++ b, s)

/-- A store of bytes at an address that passed its checks. A header of a ring in use must not be written: one that is takes a value that the
module does not define (R317, R2). -/
def State.storeBytes (s : State) (p : TlbEntry) (ea : Word) (v : List Byte) : State :=
  let write := fun (s : State) (a : Nat) (v : List Byte) => s.threadWrite s.myCore (linearView s.myCtx p.entry ea.toNat) a v
  let s := write (s.cacheTlb p) (p.loc ea.toNat) v
  if ea.toNat % 256 < 64 && s.ringInUse s.myCtx (word (ea.toNat / 256 * 256)) then
    let (b, s) := s.freeBytes 8
    write s (p.loc ea.toNat / 256 * 256) b
  else s

/-- A store of one thread to generic memory. -/
def State.storeOne (s : State) (f : FmtM) (t : Nat) : MemAct :=
  let n := mtySize f.ty
  let ea := s.eaOf f n true t
  match s.linear s.myCore s.myCtx ea n true with
  | .bad b => { s := s, out := .bad b }
  | .ok p => { s := s.storeBytes p ea (bytesFor f.ty (s.src f.data t 0) (s.srcHi f.data t 0)), out := .done 0 0 0 }

/-- ST (R257). -/
def execSt (f : FmtM) (s : State) : Host.Outcome State Fault Refusal :=
  let reads := f.base.touch ++ f.data.touch f.wide ++ f.index.touch
  s.issue true f.guard f.cf reads (fun run ex =>
    s.reading run ex reads
      (s.finishStore ((s.memRun (fun s t => s.storeOne f t) (maskList ex)).release s.myCore f) f run ex))

/-- LDL (R220, R257). -/
def execLdl (f : FmtM) (s : State) : Host.Outcome State Fault Refusal :=
  let n := mtySize f.ty
  s.issue true f.guard f.cf (f.reads ++ f.dst.touch f.wide) (fun run ex =>
    s.reading run ex f.reads
      (s.finishLoad (s.memRun (fun s t =>
        match localCheck s.myWg.foot.loc (s.eaOf f n true t) n with
        | .bad b => { s := s, out := .bad b }
        | .ok a => { s := s, out := loaded f.ty (sparseRead s.myWg.locMem a n) }) (maskList ex)) f f.wide run ex))

/-- Put bytes into a workgroup's local memory. -/
def State.setLocal (s : State) (u a : Nat) (b : List Byte) : State :=
  s.updWg u (fun g => { g with locMem := sparseWrite g.locMem a b })

/-- A barrier object of a workgroup is in use: some arrivals of its phase have been made, or an AWAIT waits on it (R305). -/
def State.inUse (s : State) (g : Wg) (o : Nat) : Bool :=
  fieldNat (wordOfBytes (sparseRead g.locMem o 8)) 0 16 != fieldNat (wordOfBytes (sparseRead g.locMem o 8)) 16 16
    || s.warps.any (fun w => w.wg == g.uid && w.waits.any (fun x => match x.kind with
      | .await a _ _ => a == o
      | _ => false))

/-- A range of local memory meets a barrier object. -/
def meetsObject (a n o : Nat) : Bool := decide (o < a + n) && decide (a < o + 8)

/-- The barrier objects of a workgroup in use that a range of local memory meets. -/
def State.objectsAt (s : State) (u a n : Nat) : List Nat :=
  ((s.wg? u).map (fun g => g.objects.filter (fun o => meetsObject a n o && s.inUse g o))).getD []

/-- Write bytes of a workgroup's local memory. A barrier object in use must not be stored to: one that is takes a value that the module does
not define (R305, R2); one that is not in use ceases to be an object until it is used again. -/
def State.writeLocal (s : State) (u a : Nat) (b : List Byte) : State :=
  let used := s.objectsAt u a b.length
  used.foldl (fun s o =>
    let (v, s) := s.freeValue
    s.setLocal u o (bytesOfWord 8 v))
    ((s.setLocal u a b).updWg u (fun g => { g with objects := g.objects.filter (fun o => used.contains o || !meetsObject a b.length o) }))

/-- STL (R220, R257). -/
def execStl (f : FmtM) (s : State) : Host.Outcome State Fault Refusal :=
  let n := mtySize f.ty
  let reads := f.base.touch ++ f.data.touch f.wide ++ f.index.touch
  s.issue true f.guard f.cf reads (fun run ex =>
    s.reading run ex reads
      (s.finishStore (s.memRun (fun s t =>
        match localCheck s.myWg.foot.loc (s.eaOf f n true t) n with
        | .bad b => { s := s, out := .bad b }
        | .ok a =>
          { s := s.writeLocal s.me.wg a (bytesFor f.ty (s.src f.data t 0) (s.srcHi f.data t 0)),
            out := .done 0 0 0 }) (maskList ex)) f run ex))

/-! ### LDT, STT (R258, R259) -/

/-- The element that a thread names (Table 12.3). -/
def State.elementOf (s : State) (f : FmtM) (t : Nat) (write : Bool) : Checked Element :=
  let row := fieldNat (s.srcM f.index t) 0 32
  let col := (fieldNat (s.src f.data t 0) 0 32 : Int) + f.offset.toInt
  s.element s.myCore s.myCtx (s.srcM f.base t) row col write

/-- The row and column of a thread's element. -/
def State.rowCol (s : State) (f : FmtM) (t : Nat) : Nat × Nat :=
  (fieldNat (s.srcM f.index t) 0 32, ((fieldNat (s.src f.data t 0) 0 32 : Int) + f.offset.toInt).toNat)

/-- Table 12.4 for LDT, but for F4S: the value of an element's bytes. -/
def elementLoad (fmt : Nat) (ty : MTy) (b : List Byte) : MemOut :=
  match fmt with
  | 3 | 4 | 5 | 6 =>
    let r := cvtFloat (pagePoint fmt) fp32 .rn false (natOfBytes b)
    .done (word r.bits) 0 r.flags
  | _ => loaded ty b

/-- An F4S element in FP32 (R155, R158), with the flags of the rounding. -/
def f4sWord (v : FVal) : MemOut :=
  .done (word (f4sTo fp32 v)) 0 (match v with
    | .fin n g e => (fp32.result .rn n g 1 e).flags
    | _ => 0)

/-- LDT of one thread. -/
def State.ldtOne (s : State) (f : FmtM) (t : Nat) : MemAct :=
  match s.elementOf f t false with
  | .bad b => { s := s, out := .bad b }
  | .ok e =>
    let fmt := pteFmt e.base
    let c := s.myCore
    let a := e.page.loc e.va.toNat
    if !fmtAccepts fmt f.ty then { s := s, out := .bad (0x0E, e.va) }
    else if fmt = 7 then
      let (row, col) := s.rowCol f t
      let (br, bc) := blockOf (pteGeom e.base) row col
      let (_, i2, i3) := tensorWord (s.srcM f.base t)
      match s.companionPair c s.myCtx e.T br bc i2 i3 e.va false with
      | .bad b => { s := s, out := .bad b }
      | .ok (kp, kva, ktag) =>
        let (b, s1) := ((s.cacheTlb e.page).cacheTlb kp).threadRead c (e.view s.myCtx) a 1
        let (pr, s2) := s1.threadRead c { ctx := s.myCtx, tag := ktag, entry := kp.entry } (kp.loc kva.toNat) 2
        let code := (nth b 0 0).toNat / 16 ^ (f4sPos (col % 32) % 2) % 16
        { s := s2, out := f4sWord (decodeF4S code (nth pr 0 0).toNat (nth pr 1 0).toNat (pteSpe e.base)) }
    else
      let (b, s') := (s.cacheTlb e.page).threadRead c (e.view s.myCtx) a (fmtShape fmt).1
      { s := s', out := elementLoad fmt f.ty b }

/-- LDT (R258). -/
def execLdt (f : FmtM) (s : State) : Host.Outcome State Fault Refusal :=
  let reads := f.base.touch ++ f.data.touch ++ f.index.touch
  s.issue true f.guard f.cf (reads ++ f.dst.touch f.wide) (fun run ex =>
    s.reading run ex reads
      (if s.scLoads f then s.waitFor f.cf .stalledWrite
       else s.finishLoad ((s.beforeLoad f).memRun (fun s t => s.ldtOne f t) (maskList ex)) f f.wide run ex))

/-- A destination field read as a data source (STT). -/
def State.dstSrc (s : State) (d : Dst) (t : Nat) (hi : Bool) : Word :=
  let k := d.no + (if hi then 1 else 0)
  match d with
  | .name _ => s.elem k t
  | .uni _ => s.uni k

/-- The element's bytes that STT stores, after the bound policy (R404): `bad` carries the fault, and CHK.BOUND is set when the
flag says so. -/
def sttValue (T : Tensor) (fmt : Nat) (ty : MTy) (v hi : Word) (va : Word) : Checked (List Byte × BitVec 8) × Bool :=
  let F := if fmt = 2 then fp64 else fp32
  if fmt = 0 ∨ 6 < fmt then (.ok (bytesFor ty v hi, 0), false)
  else
    match applyPolicy T F (fieldNat v 0 F.width) with
    | .malformed => (.bad (0x0C, va), false)
    | .trap => (.bad (0x11, va), true)
    | .store x flagged =>
      if fmt = 1 ∨ fmt = 2 then (.ok (bytesOfNat (F.width / 8) x, 0), flagged)
      else
        let r := cvtFloat fp32 (pagePoint fmt) .rn false x
        (.ok (bytesOfNat (fmtShape fmt).1 r.bits, r.flags), flagged)

/-- STT of one thread. -/
def State.sttOne (s : State) (f : FmtM) (t : Nat) : MemAct :=
  match s.elementOf f t true with
  | .bad b => { s := s, out := .bad b }
  | .ok e =>
    let fmt := pteFmt e.base
    if !fmtAccepts fmt f.ty || fmt == 7 then { s := s, out := .bad (0x0E, e.va) }
    else
      let (r, bound) := sttValue e.T fmt f.ty (s.dstSrc f.dst t false) (s.dstSrc f.dst t true) e.va
      let s' := if bound then s.setChk s.myCtx chkBound else s
      match r with
      | .bad b => { s := s', out := .bad b }
      | .ok (b, fl) =>
        { s := (s'.cacheTlb e.page).threadWrite s.myCore (e.view s.myCtx) (e.page.loc e.va.toNat) b, out := .done 0 0 fl }

/-- STT (R258, R259). -/
def execStt (f : FmtM) (s : State) : Host.Outcome State Fault Refusal :=
  let reads := f.base.touch ++ f.data.touch ++ f.index.touch ++ f.dst.touch f.wide
  s.issue true f.guard f.cf reads (fun run ex =>
    s.reading run ex reads
      (s.finishStore ((s.memRun (fun s t => s.sttOne f t) (maskList ex)).release s.myCore f) f run ex))

/-! ### ATOM, ATOMC, RED (R261, R262) -/

/-- Op of Table 12.5 on values of an access type. -/
def atomOp (op : Nat) (ty : MTy) (old x : Word) : Word :=
  let W := 8 * mtySize ty
  let signed := ty == .i32 || ty == .i64
  let F := if W = 32 then fp32 else fp64
  let lt := fun (a b : Word) =>
    if signed then decide ((sextWord W a).toInt < (sextWord W b).toInt)
    else decide ((zextWord W a).toNat < (zextWord W b).toNat)
  match op with
  | 0 => old + x
  | 1 => if lt x old then x else old
  | 2 => if lt old x then x else old
  | 3 => old &&& x
  | 4 => old ||| x
  | 5 => old ^^^ x
  | 6 => x
  | 7 => word (F.minmax false false (fieldNat old 0 W) (fieldNat x 0 W)).bits
  | _ => word (F.minmax true false (fieldNat old 0 W) (fieldNat x 0 W)).bits

/-- One atomic access of a thread. A host page takes only the operations that PCI Express has (R262). -/
def State.atomOne (s : State) (f : FmtM) (onHost : Bool) (op : Nat → Word → Word) (t : Nat) : MemAct :=
  let n := mtySize f.ty
  let ea := s.eaOf f n false t
  match s.linear s.myCore s.myCtx ea n true with
  | .bad b => { s := s, out := .bad b }
  | .ok p =>
    let a := p.loc ea.toNat
    if isHost a && !onHost then { s := s, out := .bad (0x0C, ea) }
    else
      let (old, s') := (s.cacheTlb p).homeAtomic s.myCore s.myCtx a n (op t)
      { s := s', out := .done (mtyExtend f.ty old) 0 0, held := s.stalls a }

/-- The accesses of an atomic instruction: the release before them, the acquire after them (R262). -/
def State.atomRun (s : State) (f : FmtM) (onHost : Bool) (op : Nat → Word → Word) (ex : Mask) : MemRun :=
  if releases f.ord && s.releaseStalls s.myCore f.scope then { s := s, held := true }
  else
    let s1 := if releases f.ord then s.release s.myCore f.scope else s
    let r := s1.memRun (fun s t => s.atomOne f onHost op t) (maskList ex)
    if acquires f.ord then { r with s := r.s.acquire s.myCore f.scope } else r

/-- ATOM (R261). -/
def execAtom (f : FmtM) (s : State) : Host.Outcome State Fault Refusal :=
  let reads := f.base.touch ++ f.data.touch
  let op := f.index.no
  s.issue true f.guard f.cf (reads ++ f.dst.touch) (fun run ex =>
    s.reading run ex reads
      (s.finishLoad (s.atomRun f (op == 0 || op == 6) (fun t old => atomOp op f.ty old (s.src f.data t 0)) ex) f false run ex))

/-- ATOMC (R261). -/
def execAtomc (f : FmtM) (s : State) : Host.Outcome State Fault Refusal :=
  let reads := f.base.touch ++ f.data.touch ++ f.index.touch
  let W := 8 * mtySize f.ty
  s.issue true f.guard f.cf (reads ++ f.dst.touch) (fun run ex =>
    s.reading run ex reads
      (s.finishLoad (s.atomRun f true (fun t old =>
        if zextWord W old == zextWord W (s.src f.data t 0) then s.src f.index t 0 else old) ex) f false run ex))

/-- RED: ATOM without the old value (R261). -/
def execRed (f : FmtM) (s : State) : Host.Outcome State Fault Refusal :=
  let reads := f.base.touch ++ f.data.touch
  let op := f.index.no
  s.issue true f.guard f.cf reads (fun run ex =>
    s.reading run ex reads
      (s.finishStore (s.atomRun f (op == 0) (fun t old => atomOp op f.ty old (s.src f.data t 0)) ex) f run ex))

/-! ### PREF, CCTL, FENCE (R263 to R265) -/

/-- PREF: the tile of an access that passes its checks is brought into the core's L1, or into the L2; no value, order or CHK bit changes, no
check raises anything, and a fill that the fabric does not give is none (R263). It completes at issue, so that a flag it is attached to is
not left set (R256). -/
def execPref (f : FmtM) (s : State) : Host.Outcome State Fault Refusal :=
  s.issue true f.guard f.cf f.reads (fun run ex =>
    let n := mtySize f.ty
    let s' := if (s.firstUnmapped f.reads).isSome then s else (maskList ex).foldl (fun s' t =>
      let ea := s.eaOf f n true t
      match s'.linear s.myCore s.myCtx ea n false with
      | .bad _ => s'
      | .ok p =>
        let a := p.loc ea.toNat
        if (s'.refusedAt a false).isSome then s'
        else
          let v := linearView s.myCtx p.entry ea.toNat
          let s' := s'.cacheTlb p
          if bitAt (word f.dst.no) 0 then (if isLocal a then (s'.countTile a).holdL2 s.myCore v (a / 256) else (s'.fetchTile s.myCore v (a / 256)).2)
          else s'.prefetchL1 s.myCore v (a / 256)) s
    s'.complete run ex .none [])

/-- The physical ranges of the translated pages of n bytes at an address. -/
def State.rangesOf (s : State) (c : CoreId) (ctx va n : Nat) : List (Nat × Nat) :=
  if n = 0 then []
  else (List.range ((va + n - 1) / 65536 - va / 65536 + 1)).filterMap (fun i =>
    let pg := (va / 65536 + i) * 65536
    let lo := max va pg
    (s.translate c ctx lo).map (fun t => (t.loc lo, t.loc lo + (min (va + n) (pg + 65536) - lo))))

/-- The tiles' ranges of a tensor's rectangle, in tiles; those beyond the dimensions are skipped. -/
def State.rectRanges (s : State) (c : CoreId) (ctx : Nat) (tw origin extent : Word) : List (Nat × Nat) :=
  let (n, i2, i3) := tensorWord tw
  match s.tensor? ctx n with
  | none => []
  | some T =>
    let r0 := fieldNat origin 0 32
    let c0 := fieldNat origin 32 32
    let rows := min (r0 + fieldNat extent 0 32) (nth T.dims 1 0) - r0
    let cols := min (c0 + fieldNat extent 32 32) (nth T.dims 0 0) - c0
    (List.range rows).flatMap (fun i => (List.range cols).flatMap (fun j =>
      if T.within [c0 + j, r0 + i, i2, i3] then s.rangesOf c ctx (T.tileVa [c0 + j, r0 + i, i2, i3]).toNat 256 else []))

/-- A tile lies in one of several physical ranges. -/
def inRanges (rs : List (Nat × Nat)) (tile : Nat) : Bool :=
  rs.any (fun r => decide (tile * 256 < r.2) && decide (r.1 < tile * 256 + 256))

/-- CCTL on the L2s' line of a tile: its bytes go to their target, and .inv drops it (R264). -/
def State.cctlL2 (s : State) (inv : Bool) (l : L2Line) : State :=
  if isLocal (l.tile * 256) then (if inv then s.dropL2 l.tile else s) else if inv then s.flushL2 l.tile else s.cleanL2 l

/-- CCTL: the issuing core's lines of a range, and with bit 2 of the operation the L2s' too, are written back, and invalidated by .inv
(R264). -/
def execCctl (f : FmtM) (s : State) : Host.Outcome State Fault Refusal :=
  let op := f.index.no
  let touches := f.base.touch ++ f.data.touch ++ (if op / 8 = 1 then f.dst.touch else [])
  s.issue true f.guard f.cf touches (fun run ex =>
    let c := s.myCore
    let base := s.srcM f.base 0
    let len := s.srcM f.data 0
    if op / 8 = 0 ∧ 2 ^ 40 < len.toNat then s.allFault run ex (illegalOp s)
    else
      let rs := if op / 8 = 1 then s.rectRanges c s.myCtx base (s.dstSrc f.dst 0 false) len
                else s.rangesOf c s.myCtx (base + f.offset.signExtend 64).toNat len.toNat
      let inv := op % 4 == 1
      let hit := s.l1.filter (fun l => l.core == s.l1Owner c && l.ctx == s.myCtx && inRanges rs l.tile)
      let hit2 := if op / 4 % 2 = 1 then s.l2.filter (fun l => inRanges rs l.tile) else []
      if hit.any (fun l => s.lineStalls l) || hit2.any (fun l => !l.dirty.isEmpty && s.targetStalls l.tile) then s.waitFor f.cf .stalledWrite
      else
        let s := hit.foldl (fun s l => if inv then s.flushLine l.core l.tile else if l.dirty.isEmpty then s else s.cleanLine l) s
        let s := (if op / 4 % 2 = 1 then s.l2.filter (fun l => inRanges rs l.tile) else []).foldl (fun s l => s.cctlL2 inv l) s
        s.complete run ex f.cf [])

/-- FENCE (R265). -/
def execFence (f : FmtM) (s : State) : Host.Outcome State Fault Refusal :=
  s.issue true f.guard f.cf [] (fun run ex =>
    if releases f.ord && s.releaseStalls s.myCore f.scope then s.waitFor f.cf .stalledWrite
    else
      let s := if releases f.ord then s.release s.myCore f.scope else s
      (s.acquireFor f).complete run ex f.cf [])

/-! ### CHKERR (R266) -/

/-- Every memory access that a warp, or its handler run, has issued has completed. -/
def State.accessesDone (s : State) (l : Loc) (handler : Bool) : Bool :=
  let fl := if handler then ((s.hrun? l).map (·.inflight)).getD [] else ((s.warp? l).map (·.inflight)).getD []
  fl.all (fun f => !f.load)

/-- The check register of a context. -/
def State.chkOf (s : State) (n : Nat) : BitVec 5 := ((s.ctx? n).map (·.chk)).getD 0

/-- CHKERR (R266). -/
def execChkerr (f : FmtA) (s : State) : Host.Outcome State Fault Refusal :=
  let m : BitVec 5 := f.imm.setWidth 5
  s.issue true f.guard f.cf f.dst.touchUni (fun run ex =>
    if !s.accessesDone s.cur.loc s.cur.handler then s.waitFor f.cf .chkerr
    else
      let v := s.chkOf s.myCtx
      match f.fn.toNat with
      | 0 => (s.setUni f.dst.no ((v &&& m).setWidth 64)).complete run ex f.cf []
      | 1 =>
        if v &&& m = 0 then s.complete run ex f.cf []
        else s.allFault run ex { code := 0x13, ppc := succPc s.cur.pc, info0 := v.setWidth 64 }
      | _ =>
        ((s.updCtx s.myCtx (fun c => { c with chk := c.chk &&& ~~~m })).setUni f.dst.no ((v &&& m).setWidth 64)).complete
          run ex f.cf [])

/-! ### Completion (R256, R102, R103) -/

/-- The operations in flight of a warp and of its handler run. -/
def State.flightsOf (s : State) (l : Loc) (handler : Bool) : List Flight :=
  if handler then ((s.hrun? l).map (·.inflight)).getD [] else ((s.warp? l).map (·.inflight)).getD []

/-- Change the operations in flight. -/
def State.updFlights (s : State) (l : Loc) (handler : Bool) (g : List Flight → List Flight) : State :=
  if handler then s.updHrun l (fun h => { h with inflight := g h.inflight })
  else s.updWarp l (fun w => { w with inflight := g w.inflight })

/-- The operations in flight for which a run of a slot may wait on an interlock: those of the slice's warps, or of its handler run. -/
def State.flightsFor (s : State) (l : Loc) (handler : Bool) : List Flight :=
  if handler then s.flightsOf l true else (s.warpsOn (sliceOfLoc l)).flatMap (·.inflight)

/-- A wait that the completion of operations ends: an interlock whose writes are made, a CHKERR whose accesses are done. -/
def State.idleWait (s : State) (l : Loc) (handler : Bool) (x : Wait) : Bool :=
  match x.kind with
  | .interlock ops => (s.flightsFor l handler).all (fun f => !(ops.contains f.id && !f.writes.isEmpty))
  | .chkerr => s.accessesDone l handler
  | _ => false

/-- The runs of a slot whose interlock or CHKERR wait has ended are ready again. -/
def State.wakeIdle (s : State) (l : Loc) (handler : Bool) : State :=
  if handler then s.updHrun l (fun h => { h with waits := h.waits.filter (fun x => !s.idleWait l handler x) })
  else s.updWarp l (fun w => { w with waits := w.waits.filter (fun x => !s.idleWait l handler x) })

/-- The runs of a slice whose interlock or CHKERR wait has ended are ready again. -/
def State.wakeSlice (s : State) (l : Loc) (handler : Bool) : State :=
  if handler then s.wakeIdle l true else (s.warpsOn (sliceOfLoc l)).foldl (fun s w => s.wakeIdle w.loc false) s

/-- Whether an operation of a slot is the handler run's. -/
def State.flightSide (s : State) (l : Loc) (op : Nat) : Bool := (s.flightsOf l true).any (fun f => f.id == op)

/-- The write of one element or register by an operation in flight. -/
def State.landFlight (s : State) (l : Loc) (handler : Bool) (w : FlightDst × Word) : State :=
  match w.1 with
  | .row r t => s.updSlice (sliceOfLoc l) (fun x => x.editData r (fun d => putNth 0 d t w.2))
  | .hrow h t => s.updSlice (sliceOfLoc l) (fun x => { x with hrows := tweakNth [] x.hrows h (fun d => putNth 0 d t w.2) })
  | .uni k =>
    if handler then s.updHrun l (fun h => { h with unif := putNth 0 h.unif k w.2 })
    else s.updWarp l (fun x => { x with unif := putNth 0 x.unif k w.2 })

/-- An operation of a slot that can return now. -/
def State.returnable (s : State) (l : Loc) (handler : Bool) (op : Nat) : Option Flight :=
  (s.flightsOf l handler).find? (fun f => f.id == op && f.load)

/-- LOAD_RETURN: the data of a load or atomic returns, and its destination is written; rows that only the write kept are freed
(R130, R132, R256). A flag that it is attached to clears at FLAG_OPERATION_COMPLETE. -/
def execLoadReturn (l : Loc) (op : Nat) (s : State) : Host.Outcome State Fault Refusal :=
  let handler := s.flightSide l op
  match s.returnable l handler op with
  | none => .next s
  | some f =>
    let s := f.writes.foldl (fun s w => s.landFlight l handler w) s
    let s := s.updFlights l handler (fun fl => fl.filterMap (fun g =>
      if g.id == op then (if g.flag.isSome then some { g with writes := [], load := false } else none) else some g))
    .next ((s.freeIdle (sliceOfLoc l)).wakeSlice l handler)

/-- An operation whose flag can clear now: it is no load that has still to return, and no trap of an extension slot. -/
def State.flagDue (s : State) (l : Loc) (handler : Bool) (op : Nat) : Option Flight :=
  (s.flightsOf l handler).find? (fun f => f.id == op && !f.load && f.emu.isNone)

/-- FLAG_OPERATION_COMPLETE: the operation has completed, and its flag's count falls (R102). -/
def execFlagOperationComplete (l : Loc) (op : Nat) (s : State) : Host.Outcome State Fault Refusal :=
  let handler := s.flightSide l op
  match s.flagDue l handler op with
  | none => .next s
  | some f => .next ((s.flagDown l handler f.flag).updFlights l handler (fun fl => fl.filter (fun g => g.id != op)))

/-! ### The fabric (R355 to R357) -/

/-- What a request does to the value of its location, when it is an atomic. -/
def fabricAtomic : FabricOp → Option (Nat × (Word → Word))
  | .read _ | .write _ => none
  | .atomicAdd n x => some (n, fun o => o + x)
  | .atomicMin n sg x => some (n, fun o => atomOp 1 (if n = 4 then (if sg then .i32 else .n32) else if sg then .i64 else .n64) o x)
  | .atomicMax n sg x => some (n, fun o => atomOp 2 (if n = 4 then (if sg then .i32 else .n32) else if sg then .i64 else .n64) o x)
  | .atomicAnd n x => some (n, fun o => o &&& x)
  | .atomicOr n x => some (n, fun o => o ||| x)
  | .atomicXor n x => some (n, fun o => o ^^^ x)
  | .atomicExch n x => some (n, fun _ => x)
  | .atomicFmin n x => some (n, fun o => atomOp 7 (if n = 4 then .n32 else .n64) o x)
  | .atomicFmax n x => some (n, fun o => atomOp 8 (if n = 4 then .n32 else .n64) o x)
  | .atomicCas n c v => some (n, fun o => if zextWord (8 * n) o == zextWord (8 * n) c then v else o)

/-- The kind of a request in the refusal log. -/
def fabricKind : FabricOp → Nat
  | .read _ => 0
  | .write _ => 1
  | _ => 2

/-- Why a remote request is refused (R357). -/
def State.remoteRefusal (s : State) (r : FabricReq) : Option Nat :=
  match lookupKey s.exports r.eframe with
  | none => some 0
  | some x =>
    if !x.v then some 0 else if x.part != r.part then some 1 else if fabricKind r.op != 0 && !x.w then some 2 else none

/-- A context number that names no context: a remote write belongs to no context of this module. -/
def noCtx : Nat := 65536

/-- FABRIC_REQUEST: a remote request is performed at the page's home agent, or refused and logged (R357). A write to a page whose
writes are stalled is held there, and an atomic is performed when the stall has ended (R239, R240). -/
def execFabricRequest (r : FabricReq) (s : State) : Host.Outcome State Fault Refusal :=
  match s.remoteRefusal r with
  | some reason =>
    .next { s with refusals := s.refusals ++ [{ module := r.src.toNat, kind := fabricKind r.op, reason := reason,
                                                part := r.part, eframe := r.eframe.toNat, offset := r.offset.toNat }] }
  | none =>
    let frame := ((lookupKey s.exports r.eframe).map (·.frame.toNat)).getD 0
    let a := frame * 65536 + r.offset.toNat
    match r.op with
    | .read n => .next (s.countTiles a n)
    | .write b => .next (s.homeWrite noCtx a b)
    | op =>
      match fabricAtomic op with
      | none => .next s
      | some (n, g) =>
        if s.stalls a then .next s
        else .next (s.homeWrite noCtx a (bytesOfWord n (g (wordOfBytes (s.bytesAt a n)))))

/-- The clk after which a request that cannot be delivered is treated as refused (R355). -/
def deliveryLimit : Nat := 2 ^ 24

/-- The runs that a stalled page or an undelivered request made wait issue again. -/
def State.wakeStalled (s : State) : State :=
  let drop := fun (ws : List Wait) => ws.filter (fun x => x.kind != .stalledWrite)
  let s := { s with warps := s.warps.map (fun (w : Warp) => { w with waits := drop w.waits }) }
  { s with slices := s.slices.map (fun (x : Slice) => { x with handler := x.handler.map (fun (h : HRun) => { h with waits := drop h.waits }) }) }

/-- A message for a module waits to be delivered. -/
def State.holdsMessage (s : State) (m : Nat) : Bool :=
  s.undeliv.any (fun u => match u.who with
    | .message target _ => target == m
    | _ => false)

/-- Send a message of a communicator's context to a module (R356, R13): another module's waits while no Dwevex port is up, and behind those that
wait already. -/
def State.send (s : State) (ctx m : Nat) (i : Instr) : State :=
  if m == s.ident.moduleNum || (s.fabricUp && !s.holdsMessage m) then { s with mail := s.mail ++ [(m, i)] }
  else
    let (u, s) := s.fresh
    { s with undeliv := s.undeliv ++ [{ id := u, ctx := ctx, who := .message m i, since := s.clk }] }

/-- REQUEST_UNDELIVERABLE: the request is treated as refused; CHK.REFUSED is set before the access completes, and the host is sent
an event (R355, R357). Bytes and messages on their way are dropped; a run or an agent that waits goes on with a refused access. -/
def execRequestUndeliverable (id : Nat) (s : State) : Host.Outcome State Fault Refusal :=
  match s.undeliv.find? (fun u => u.id == id && !u.refused) with
  | none => .next s
  | some u =>
    if s.clk < u.since + deliveryLimit then .next s
    else
      let s := (s.setChk u.ctx chkRefused).post (.undeliverable u.ctx)
      .next ({ s with undeliv := s.undeliv.filterMap (fun (v : Undelivered) =>
        if v.id == id then (match v.who with
          | .bytes _ _ | .message _ _ => none
          | _ => some { v with refused := true }) else some v) }.wakeStalled)

/-- A request is still waited for: its bytes are on their way, its agent may try again, or its run is at its instruction (R355). -/
def State.stillWaits (s : State) (u : Undelivered) : Bool :=
  match u.who with
  | .run w handler pc => (s.warpByUid w).any (fun x => if handler then (s.hrun? x.loc).any (fun h => h.pc == pc) else x.runAt pc != 0)
  | _ => true

/-- What a clk does to undelivered requests (R355, R356): with a port up the bytes and messages on their way are delivered in the order sent, and
what waits tries again; with none, the caches' bytes for other modules are on their way. -/
def State.pumpFabric (s : State) : State :=
  if s.fabricUp then
    if s.undeliv.isEmpty then s
    else (s.undeliv.foldl (fun (s : State) (u : Undelivered) => match u.who with
      | .bytes t cells => s.sendBytes u.ctx t cells
      | .message m i => s.send u.ctx m i
      | _ => s) { s with undeliv := [] }).wakeStalled
  else
    let s := s.sendRemote
    { s with undeliv := s.undeliv.filter (fun u => s.stillWaits u) }

/-- LINK_RETRY: a flit is resent. Eight consecutive retries that fail take the port down (R355). -/
def execLinkRetry (port : Nat) (corrected : Bool) (s : State) : Host.Outcome State Fault Refusal :=
  .next { s with links := s.links.map (fun k =>
    if k.port == port && k.up then
      let fails := if corrected then 0 else k.fails + 1
      { k with retries := k.retries + 1, fails := if fails = 8 then 0 else fails, up := decide (fails < 8) }
    else k) }

end Sys2Proof.Machine
end

