-- ==== Sys2Proof/Machine/Engine.lean ====
section
/-!
DEFINITION. The engine queues of a workgroup, its tags and guard slots (13 R267 to R276, R285 to R288): the issue of a command,
its admission to a queue, and the tag and guard instructions; and the issue of the copy commands (13 R279 to R284).
-/
namespace Sys2Proof

/-- The fields of a format-E command. -/
def Instr.fmtE : Instr → Option FmtE
  | .cpya f | .cpyt f | .cpyg f | .qfence f | .mma f | .mmar f | .mzero f | .mldacc f | .mdrain f | .mtrn f | .coll f
  | .collx f => some f
  | _ => none

/-- The command is a collective's. -/
def Instr.isColl : Instr → Bool
  | .coll _ | .collx _ => true
  | _ => false

/-- The command is a QFENCE. -/
def Instr.isFence : Instr → Bool
  | .qfence _ => true
  | _ => false

/-- The number of a queue (Table 13.1). -/
def QueueName.no : QueueName → Nat
  | .mq => 0
  | .cq n => 1 + n.val
  | .xq => 5

end Sys2Proof
namespace Sys2Proof.Machine
open Sys2Proof

/-! ### Tags (R270) -/

/-- A command that names the tag issues. -/
def Tag.enter (t : Tag) (coll : Bool) : Tag :=
  if t.pending = 0 then { pending := 1, pod := coll } else { t with pending := t.pending + 1, pod := t.pod || coll }

/-- A command that names the tag completes. Of two trap requests the lower code is kept. -/
def Tag.finish (t : Tag) (st code : Nat) (trap : Bool) : Tag :=
  { pending  := t.pending - 1
    status   := max t.status st
    fcode    := if st = 2 then (if t.fcode = 0 then code else min t.fcode code) else t.fcode
    trappend := t.trappend || trap
    code     := if trap then (if t.trappend then min t.code code else code) else t.code
    pod      := t.pod }

/-- The tag is set. -/
def Tag.isSet (t : Tag) : Bool := t.pending == 0

/-- Change a tag of a workgroup. -/
def State.updTag (s : State) (u : Nat) (t : Option (Fin 64)) (g : Tag → Tag) : State :=
  match t with
  | none => s
  | some t => s.updWg u (fun x => { x with tags := updNth x.tags t.val g })

/-! ### Queues (R267, R388) -/

/-- The fields of an entry's command. -/
def QEntry.fields (e : QEntry) : FmtE :=
  e.cmd.fmtE.getD { guard := .always, cf := .none, ru := false, tag := none, slot := none, queue := .mq, sa := .imm, sb := .imm,
                    sc := .imm, sub := 0, imm := 0 }

/-- A queue of a workgroup, its head first. -/
def Wg.queue (g : Wg) (q : QueueName) : List QEntry := nth g.queues q.no []

/-- Change a queue of a workgroup. -/
def State.updQueue (s : State) (u : Nat) (q : QueueName) (g : List QEntry → List QEntry) : State :=
  s.updWg u (fun x => { x with queues := tweakNth [] x.queues q.no g })

/-- Change an entry of a queue. -/
def State.updEntry (s : State) (u : Nat) (q : QueueName) (id : Nat) (g : QEntry → QEntry) : State :=
  s.updQueue u q (fun l => l.map (fun e => if e.uid == id then g e else e))

/-- The head of a queue: the first entry, or the first of xq that has not been accepted (R269, R347). -/
def Wg.head (g : Wg) (q : QueueName) : Option QEntry := (g.queue q).find? (fun e => !e.accepted)

/-- The matrix entries entered on a core, QFENCE entries apart (R388). -/
def State.matrixEntries (s : State) (c : CoreId) : Nat :=
  (s.wgs.filter (fun g => g.core == c)).foldl (fun n g => n + ((g.queue .mq).filter (fun e => !e.cmd.isFence)).length) 0

/-- The collective entries of a context that a die's engine has accepted and that have not completed (R347). -/
def State.collHeld (s : State) (ctx d : Nat) : Nat :=
  (s.comms.filter (fun c => c.desc.ctx == ctx)).foldl (fun n c =>
    n + (c.entries.filter (fun e => e.die == d)).length + (c.cancels.filter (fun e => e.die == d)).length) 0

/-- A queue has a place for a command: fewer than 32 entries hold one, the matrix engine has fewer than 64, and a die's collective
engine fewer than 1,024 of the context (R267, R388, R347). The release that a COLL's issue is must be possible (R348, R240). -/
def State.hasRoom (s : State) (u : Nat) (e : QEntry) : Bool :=
  match s.wg? u with
  | none => false
  | some g =>
    let q := e.fields.queue
    decide (((g.queue q).filter (fun x => !x.accepted)).length < 32)
      && (q != .mq || e.cmd.isFence || decide (s.matrixEntries g.core < 64))
      && (!e.cmd.isColl || (decide (s.collHeld g.ctx g.core.die < 1024) && !s.releaseStalls g.core .pod))

/-- A COLL names a key whose previous use by a COLL of this member has not completed: an entry of it is on some xq of its context (R342). -/
def State.keyUsed (s : State) (u : Nat) (e : QEntry) : Bool :=
  match e.cmd, s.wg? u with
  | .coll _, some g => s.wgs.any (fun x => x.ctx == g.ctx && (x.queue .xq).any (fun y => match y.cmd with
      | .coll _ => fieldNat y.c 0 12 == fieldNat e.c 0 12 && y.fields.imm == e.fields.imm
      | _ => false))
  | _, _ => false

/-- The entries that wait for a place in a queue of a workgroup. -/
def waitsForQueue (q : QueueName) (x : Wait) : Bool :=
  match x.kind with
  | .queueFull e => e.fields.queue == q
  | _ => false

/-- The runs of a workgroup that wait for a place in a queue, in the order in which they are served. -/
def State.queueWaits (s : State) (u : Nat) (q : QueueName) : List (RunRef × Wait) :=
  let ws := s.warps.filter (fun w => w.wg == u)
  let a := ws.flatMap (fun w => (w.waits.filter (fun x => waitsForQueue q x && x.mask == w.runAt x.pc)).map (fun x =>
    (({ loc := w.loc, handler := false, pc := x.pc } : RunRef), x)))
  let b := ws.flatMap (fun w => match s.hrun? w.loc with
    | some h => (h.waits.filter (waitsForQueue q)).map (fun x => (({ loc := w.loc, handler := true, pc := x.pc } : RunRef), x))
    | none => [])
  sortBy (fun x y => decide (x.2.since ≤ y.2.since)) (a ++ b)

/-- The latch after an MMAR (R292). -/
def latchAfter (e : QEntry) (old : Option Latch) : Option Latch :=
  match e.cmd with
  | .mmar f =>
    if f.ru then some { bytes := e.latch, name := (match f.sc with | .uni k => k.val | .imm => 255), fmt := f.sub.toNat % 8,
                        balt := bitAt f.sub 3 }
    else none
  | _ => old

/-- The issue of a COLL is a release at pod scope (R348), and commits the context's open checkpoint interval (R396). -/
def State.collIssue (s : State) (u : Nat) (cmd : Instr) : State :=
  match cmd, s.wg? u with
  | .coll _, some g =>
    (s.release g.core .pod).updCtx g.ctx (fun c => { c with interval := c.interval.map (fun v =>
      { v with fresh := false, log := [] }) })
  | _, _ => s

/-- The warp's latch after the issue of a command, at which an MMAR reads it, fills it or leaves it empty (R292). -/
def State.takeLatch (s : State) (e : QEntry) : State :=
  { s with warps := s.warps.map (fun (w : Warp) => if w.uid == e.warp then { w with latch := latchAfter e w.latch } else w) }

/-- A command is entered in its queue, acts on its tag and sets its flag (R267, R270, R102). A COLL that names a key in use is entered nowhere:
it completes at once with status 2 (R342). -/
def State.enter (s : State) (u : Nat) (e : QEntry) : State :=
  let (id, s) := s.fresh
  let f := e.fields
  let used := s.keyUsed u e
  let s := s.collIssue u e.cmd
  let s := s.updTag u f.tag (fun t => t.enter e.cmd.isColl)
  if used then s.updTag u f.tag (fun t => t.finish 2 0x0C false)
  else
    let s := s.updQueue u f.queue (fun l => l ++ [{ e with uid := id }])
    match e.flag with
    | some (l, h, k) => s.flagUp l h (some k)
    | none => s

/-- A unit that has retired has returned its resources, and only its entries of xq are left (R407). -/
def Wg.gone (g : Wg) : Bool := g.retired && g.slices.isEmpty

/-- A retired unit whose entries have all completed leaves no trace. -/
def State.forgetGone (s : State) : State := { s with wgs := s.wgs.filter (fun g => !(g.gone && g.queues.all (·.isEmpty))) }

/-- An entry leaves its queue with a status: its flag clears and its tag completes (R270, R276, R102). -/
def State.finishEntry (s : State) (u : Nat) (q : QueueName) (e : QEntry) (st code : Nat) (trap : Bool) : State :=
  let s := (s.updQueue u q (fun l => l.filter (fun x => x.uid != e.uid))).forgetGone
  let s : State := match e.flag with
    | some (l, h, k) => if (s.warp? l).any (fun (w : Warp) => w.uid == e.warp) then s.flagDown l h (some k) else s
    | none => s
  s.updTag u e.fields.tag (fun t => t.finish st code trap)

/-- The generation of a guard slot that is current: its number (R272). -/
def Wg.currentGen (g : Wg) (k : Nat) : Nat := (nth g.guards k []).length - 1

/-- What a generation of a slot is resolved to. -/
def Wg.genOf (g : Wg) (b : Nat × Nat) : Option Bool := nth (nth g.guards b.1 []) b.2 none

/-! ### Issuing a command (R274) -/

/-- The operands of a command beyond a workgroup's allotment make it illegal (R87). -/
def Wg.permits (g : Wg) (f : FmtE) : Bool :=
  (match f.tag with | some t => decide (t.val < g.tags.length) | none => true)
  && (match f.slot with | some k => decide (k.val < g.guards.length) | none => true)

/-- The entries that a QFENCE awaits: those of its named queues, its own apart; on xq, whose entries leave the queue's order when they are
accepted, those of its own queue too, which complete later (R288, R347). -/
def Wg.fenced (g : Wg) (f : FmtE) : List Nat :=
  ([QueueName.mq, .cq 0, .cq 1, .cq 2, .cq 3, .xq].filter (fun q =>
      if q == f.queue then q == .xq else f.imm.getLsbD q.no)).flatMap
    (fun q => (g.queue q).map (·.uid))

/-- The course of a command: the checks of R274 in order, then its entry, or a wait for a place. `names` are the names that it
reads, `latch` the bytes that it takes from them. -/
def State.command (s : State) (cmd : Instr) (f : FmtE) (legal : Bool) (names : List Nat) (latch : List Byte)
    (check : Word → Word → Word → Checked Unit) : Host.Outcome State Fault Refusal :=
  let sc := if names.isEmpty then f.sc.touch else []
  let sc := match cmd with
    | .mmar _ => []
    | _ => sc
  s.issue (legal && s.myWg.permits f) f.guard f.cf (f.sa.touch ++ f.sb.touch ++ sc ++ names.map Touch.name) (fun run ex =>
    s.reading run ex (names.map Touch.name)
      (let a := s.usrc f.sa f.imm
       let b := s.usrc f.sb f.imm
       let c := s.usrc f.sc f.imm
       match check a b c with
       | .bad e => s.allFault run ex (s.faultHere e.1 e.2)
       | .ok _ =>
         let g := s.myWg
         let e : QEntry := {
           uid := 0, cmd := cmd, a := a, b := b, c := c, warp := s.me.uid,
           flag := (s.flagOf f.cf).join.map (fun k => (s.cur.loc, s.cur.handler, k)),
           guardGen := f.slot.map (fun k => (k.val, g.currentGen k.val)),
           latch := latch, after := if cmd.isFence then g.fenced f else [] }
         let atOnce := s.keyUsed g.uid e && !s.releaseStalls g.core .pod
         if atOnce || (s.hasRoom g.uid e && (s.queueWaits g.uid f.queue).isEmpty) then
           ((s.takeLatch e).enter g.uid e).complete run ex .none []
         else (s.takeLatch e).waitFor f.cf (.queueFull e)))

/-- The first waiting run of its queue is at a PC of a slot, and a place is free (R267). -/
def State.admitDue (s : State) (l : Loc) (pc : Word) : Option (RunRef × Nat × QEntry) :=
  match s.warp? l with
  | none => none
  | some w =>
    [QueueName.mq, .cq 0, .cq 1, .cq 2, .cq 3, .xq].findSome? (fun q =>
      match s.queueWaits w.wg q with
      | (r, x) :: _ =>
        match x.kind with
        | .queueFull e => if r.loc == l && r.pc == pc && s.ctxLive w.ctx && s.hasRoom w.wg e then some (r, w.wg, e) else none
        | _ => none
      | [] => none)

/-- QUEUE_ENTRY_ADMIT: the waiting command is entered, and its run passes it (R267). -/
def execQueueEntryAdmit (l : Loc) (pc : Word) (s : State) : Host.Outcome State Fault Refusal :=
  match s.admitDue l pc with
  | none => .next s
  | some (r, u, e) =>
    let s := { s with cur := { s.cur with loc := l, handler := r.handler, pc := pc } }
    let run := s.run
    .next (((s.enter u e).advance run).dropWait l r.handler pc)

/-! ### The copy commands (R279 to R284) -/

/-- A local range lies in the allotment; an empty range always does (R220). -/
def inLocal (g : Wg) (off : Word) (n : Nat) : Checked Unit :=
  need (n == 0 || decide (off.toNat + n ≤ g.foot.loc)) 0x0C off

/-- An offset is a multiple of an alignment. -/
def aligned (off : Word) (k : Nat) : Checked Unit := need (off.toNat % k == 0) 0x0D off

/-- Two checks in order. -/
def Checked.both (x y : Checked Unit) : Checked Unit := x.andThen (fun _ => y)

/-- CPYA (R280). -/
def execCpya (f : FmtE) (s : State) : Host.Outcome State Fault Refusal :=
  let g := s.myWg
  s.command (.cpya f) f true [] [] (fun a b c =>
    (need (decide (c.toNat ≤ 2 ^ 24)) 0x0C c).both
      (match f.sub.toNat % 4 with
       | 2 => .ok ()
       | 3 => (inLocal g a c.toNat).both (inLocal g b c.toNat)
       | _ => inLocal g a c.toNat))

/-- The rows and columns of an origin or extent (R281). -/
def rowsCols (w : Word) : Nat × Nat := (fieldNat w 0 32, fieldNat w 32 32)

/-- CPYT (R281). -/
def execCpyt (f : FmtE) (s : State) : Host.Outcome State Fault Refusal :=
  let g := s.myWg
  let off := f.imm.setWidth 64
  s.command (.cpyt f) f true [] [] (fun _ _ c =>
    let (r, k) := rowsCols c
    match f.sub.toNat % 4 with
    | 0 => (aligned off 256).both (inLocal g off (r * k * 256))
    | 1 => aligned off 256
    | _ => (aligned off 16).both (inLocal g off (r * k * 2)))

/-- CPYG (R284). -/
def execCpyg (f : FmtE) (s : State) : Host.Outcome State Fault Refusal :=
  let g := s.myWg
  let len := fieldNat f.imm 0 12 * 16
  let n := fieldNat f.imm 12 16
  s.command (.cpyg f) f true [] [] (fun a _ _ =>
    let dst := word (fieldNat a 0 32)
    let list := word (fieldNat a 32 32)
    (aligned dst 16).both ((aligned list 4).both ((inLocal g dst (n * len)).both (inLocal g list (4 * n)))))

/-- QFENCE (R288). -/
def execQfence (f : FmtE) (s : State) : Host.Outcome State Fault Refusal :=
  s.command (.qfence f) f true [] [] (fun _ _ _ => .ok ())

/-! ### Tag instructions (R285, R286) -/

/-- The mask of a tag instruction, without the bits beyond the workgroup's tags. -/
def State.tagMask (s : State) (f : FmtA) : Word :=
  let m := match f.sa with
    | .uni k => s.uni k.val
    | _ => if f.fn == 1 then f.imm.setWidth 64 <<< 32 else f.imm.setWidth 64
  m &&& word (2 ^ s.myWg.tags.length - 1)

/-- The tags of a mask that are set, in ascending order. -/
def Wg.setTags (g : Wg) (m : Word) : List Nat :=
  (List.range g.tags.length).filter (fun t => bitAt m t && (nth g.tags t {}).isSet)

/-- Every tag of a mask is set. -/
def Wg.allSet (g : Wg) (m : Word) : Bool :=
  (List.range g.tags.length).all (fun t => !bitAt m t || (nth g.tags t {}).isSet)

/-- The lowest of a list of tags, or all ones. -/
def firstTag (l : List Nat) : Word :=
  match l with
  | t :: _ => word t
  | [] => -1

/-- The end of a tag instruction that has observed tags set, an acquire at workgroup scope, or at pod scope for a collective's tag
(R276, R348): the deferred trap of the lowest of them that holds one is delivered,
parked at the successor (R271). -/
def State.deliver (s : State) (run ex : Mask) (cf : Attach) (seen : List Nat) : State :=
  let g := s.myWg
  let s := if seen.any (fun t => (nth g.tags t {}).pod) then s.acquire s.myCore .pod else s
  match seen.find? (fun t => (nth g.tags t {}).trappend) with
  | none => s.complete run ex cf []
  | some t =>
    let code := (nth g.tags t {}).code
    let s := s.updWg g.uid (fun x => { x with tags := updNth x.tags t (fun y => { y with trappend := false }) })
    s.allFault run ex { code := code, ppc := succPc s.cur.pc, info0 := word t }

/-- TAGWA (R286). -/
def execTagwa (f : FmtA) (s : State) : Host.Outcome State Fault Refusal :=
  s.issue true f.guard f.cf f.sa.touch (fun run ex =>
    let m := s.tagMask f
    if s.myWg.allSet m then s.deliver run ex f.cf (s.myWg.setTags m) else s.waitFor f.cf (.tagAll m ex))

/-- TAGWY (R286). -/
def execTagwy (f : FmtA) (s : State) : Host.Outcome State Fault Refusal :=
  s.issue true f.guard f.cf (f.sa.touch ++ f.dst.touch) (fun run ex =>
    let m := s.tagMask f
    let seen := s.myWg.setTags m
    if m = 0 || !seen.isEmpty then (s.setUni f.dst.no (firstTag seen)).deliver run ex f.cf seen
    else s.waitFor f.cf (.tagAny m f.dst.no ex))

/-- TAGFF (R286). -/
def execTagff (f : FmtA) (s : State) : Host.Outcome State Fault Refusal :=
  s.issue true f.guard f.cf (f.sa.touch ++ f.dst.touch) (fun run ex =>
    let seen := s.myWg.setTags (s.tagMask f)
    (s.setUni f.dst.no (firstTag seen)).deliver run ex f.cf seen)

/-- A tag wait whose condition holds. -/
def State.tagReady (s : State) (r : RunRef) : Option Wait :=
  match s.waitAt r.loc r.handler r.pc, (s.warp? r.loc).bind (fun w => s.wg? w.wg) with
  | some x, some g =>
    let live := (s.warp? r.loc).any (fun w => s.ctxLive w.ctx && (r.handler || w.runAt r.pc == x.mask))
    match x.kind with
    | .tagAll m _ => if live && g.allSet m then some x else none
    | .tagAny m _ _ => if live && !(g.setTags m).isEmpty then some x else none
    | _ => none
  | _, _ => none

/-- TAG_WAIT_COMPLETE: a waiting TAGWA or TAGWY observes its tags set, and completes (R276, R286). -/
def execTagWaitComplete (r : RunRef) (s : State) : Host.Outcome State Fault Refusal :=
  match s.tagReady r with
  | none => .next s
  | some x =>
    let w := (s.warp? r.loc)
    let s := { s with cur := { loc := r.loc, handler := r.handler, pc := r.pc,
                               bits := s.slotBits (coreOfLoc r.loc) ((w.map (·.ctx)).getD 0) r.pc } }
    let run := s.run
    match x.kind with
    | .tagAll m ex => .next ((s.deliver run ex .none (s.myWg.setTags m)).dropWait r.loc r.handler r.pc)
    | .tagAny m d ex =>
      let seen := s.myWg.setTags m
      .next (((s.setUni d (firstTag seen)).deliver run ex .none seen).dropWait r.loc r.handler r.pc)
    | _ => .next s

/-- The word of TAGST (Table 13.5). -/
def Tag.word (t : Tag) : Word :=
  Sys2Proof.word (t.fcode % 256 * 65536 + (if t.trappend then 512 else 0) + (if t.isSet then 256 else 0) + t.status % 4)

/-- TAGST (R286). -/
def execTagst (f : FmtA) (s : State) : Host.Outcome State Fault Refusal :=
  let t := f.imm.toNat
  s.issue (decide (t < s.myWg.tags.length)) f.guard f.cf f.dst.touch (fun run ex =>
    (s.setUni f.dst.no (nth s.myWg.tags t {}).word).complete run ex f.cf [])

/-- TAGCLR (R286). -/
def execTagclr (f : FmtA) (s : State) : Host.Outcome State Fault Refusal :=
  s.issue true f.guard f.cf f.sa.touch (fun run ex =>
    let l := s.myWg.setTags (s.tagMask f)
    (s.updWg s.myWg.uid (fun g => { g with tags := l.foldl (fun ts t => setNth ts t {}) g.tags })).complete run ex f.cf [])

/-! ### Guard slots (R272, R287) -/

/-- GSET on the generations of a slot. -/
def gensSet (l : List (Option Bool)) (v : Bool) : List (Option Bool) :=
  if nth l (l.length - 1) none == none then setNth l (l.length - 1) (some v) else l ++ [some v]

/-- GCLR on the generations of a slot. -/
def gensClear (l : List (Option Bool)) : List (Option Bool) :=
  (if nth l (l.length - 1) none == none then setNth l (l.length - 1) (some false) else l) ++ [none]

/-- GSET (R287). -/
def execGset (f : FmtA) (s : State) : Host.Outcome State Fault Refusal :=
  let k := f.imm.toNat
  s.issue (decide (k < s.myWg.guards.length)) f.guard f.cf [.pred f.sa.no] (fun run ex =>
    let yes := s.predMask f.sa.no ex
    let v := if f.fn == 1 then yes == ex else yes != 0
    (s.updWg s.myWg.uid (fun g => { g with guards := updNth g.guards k (fun l => gensSet l v) })).complete run ex f.cf [])

/-- GCLR (R287). -/
def execGclr (f : FmtA) (s : State) : Host.Outcome State Fault Refusal :=
  s.issue (decide (f.imm.toNat < 2 ^ s.myWg.guards.length)) f.guard f.cf [] (fun run ex =>
    let l := (List.range 16).filter (fun k => f.imm.getLsbD k)
    (s.updWg s.myWg.uid (fun g => { g with guards := l.foldl (fun gs k => updNth gs k gensClear) g.guards })).complete
      run ex f.cf [])

end Sys2Proof.Machine
end

