-- ==== Sys2Proof/Machine/Copy.lean ====
section
/-!
DEFINITION. What a copy engine does with one progress step of a command (13 R277, R280 to R284): the checks page by page, the
chunks, tiles, pairs and rows, with the conversions of 08 R155, R163 to R166, the bound policies of 23 R404 and the poison of
23 R401; and the records of a copy chain (03 R33).
-/
namespace Sys2Proof.Machine
open Sys2Proof

/-! ### Ranges of generic memory -/

/-- The pieces of a range that lie each in one 64-KiB page: their addresses and lengths, from a first page, for n pages. -/
def piecesFrom (va len : Nat) : Nat → Nat → List (Nat × Nat)
  | _, 0 => []
  | pg, n + 1 =>
    let lo := max va (pg * 65536)
    let hi := min (va + len) (pg * 65536 + 65536)
    if lo < hi then (lo, hi - lo) :: piecesFrom va len (pg + 1) n else []

/-- The pieces of a range, in ascending address. -/
def pieces (va len : Nat) : List (Nat × Nat) := piecesFrom va len (va / 65536) (len / 65536 + 2)

/-- Check a range page by page (R231, R280): the locations and lengths of its pieces. -/
def State.segments (s : State) (c : CoreId) (ctx : Nat) (va : Word) (len : Nat) (write : Bool) : Checked (List (Nat × Nat)) :=
  (pieces va.toNat len).foldl (fun acc p => acc.andThen (fun l =>
    (s.walk c ctx (word p.1) write).andThen (fun t => .ok (l ++ [(t.loc p.1, p.2)])))) (.ok [])

/-- Read a list of pieces. -/
def State.readSegs (s : State) (c : CoreId) (ctx : Nat) : List (Nat × Nat) → List Byte × State
  | [] => ([], s)
  | (a, n) :: rest =>
    let (b, s) := s.engineRead c ctx a n
    let (r, s) := s.readSegs c ctx rest
    (b ++ r, s)

/-- Write bytes over a list of pieces. -/
def State.writeSegs (s : State) (c : CoreId) (ctx : Nat) : List (Nat × Nat) → List Byte → State
  | [], _ => s
  | (a, n) :: rest, b => (s.engineWrite c ctx a (b.take n)).writeSegs c ctx rest (b.drop n)

/-- The locations of the bytes of a list of pieces. -/
def segLocs (l : List (Nat × Nat)) : List Nat := l.flatMap (fun p => (List.range p.2).map (fun i => p.1 + i))

/-- The blocks that receive a byte of a poisoned block are poisoned (R401). `from_` lists the source and destination locations;
`was` is the poison before the copy. -/
def State.poisonCopied (s : State) (was : List Nat) (from_ : List (Nat × Nat)) : State :=
  s.poisonBlocks ((from_.filter (fun p => was.contains (s.fabricTarget p.1 / 64))).foldl (fun l p =>
    let b := s.fabricTarget p.2 / 64
    if l.contains b then l else l ++ [b]) [])

/-- Some location of a list of pieces lies in a page whose writes are stalled (R240). -/
def State.segsHeld (s : State) (l : List (Nat × Nat)) : Bool := l.any (fun p => s.stalls p.1)

/-- A step of a copy: done so far or stopped with a status, code and trap request, or held by a migration. -/
inductive CopyStep where
  | more (s : State) (progress : Nat)
  | stop (s : State) (st code : Nat) (trap : Bool)
  | held

/-- Stop with a fault code (status 2). -/
def CopyStep.fault (s : State) (b : Bad) : CopyStep := .stop s 2 b.1 false

/-- One chunk of a copy between generic ranges (R280). -/
def State.copyGeneric (s : State) (c : CoreId) (ctx : Nat) (src dst : Word) (n progress : Nat) : CopyStep :=
  match s.segments c ctx src n false with
  | .bad b => .fault s b
  | .ok rs =>
    match s.segments c ctx dst n true with
    | .bad b => .fault s b
    | .ok ws =>
      if s.segsHeld ws then .held
      else
        let was := s.poison
        let (b, s) := s.readSegs c ctx rs
        .more ((s.writeSegs c ctx ws b).poisonCopied was (List.zip (segLocs rs) (segLocs ws))) progress

/-! ### CPYA and CPYG -/

/-- Local bytes of a workgroup. -/
def State.readLocal (s : State) (u a n : Nat) : List Byte := ((s.wg? u).map (fun g => sparseRead g.locMem a n)).getD []

/-- One chunk of a CPYA (R280). -/
def State.cpyaStep (s : State) (g : Wg) (e : QEntry) : CopyStep :=
  let j := e.progress
  let n := min 4096 (e.c.toNat - 4096 * j)
  let o := word (4096 * j)
  match e.fields.sub.toNat % 4 with
  | 0 =>
    match s.segments g.core g.ctx (e.b + o) n false with
    | .bad b => .fault s b
    | .ok rs =>
      let (b, s) := s.readSegs g.core g.ctx rs
      .more (s.writeLocal g.uid (e.a + o).toNat b) (j + 1)
  | 1 =>
    match s.segments g.core g.ctx (e.b + o) n true with
    | .bad b => .fault s b
    | .ok ws =>
      if s.segsHeld ws then .held
      else .more (s.writeSegs g.core g.ctx ws (s.readLocal g.uid (e.a + o).toNat n)) (j + 1)
  | 2 => s.copyGeneric g.core g.ctx (e.b + o) (e.a + o) n (j + 1)
  | _ => .more (s.writeLocal g.uid (e.a + o).toNat (s.readLocal g.uid (e.b + o).toNat n)) (j + 1)

/-- One row of a CPYG (R284). -/
def State.cpygStep (s : State) (g : Wg) (e : QEntry) : CopyStep :=
  let i := e.progress
  let len := fieldNat e.fields.imm 0 12 * 16
  let dst := fieldNat e.a 0 32
  let list := fieldNat e.a 32 32
  let idx := wordOfBytes (s.readLocal g.uid (list + 4 * i) 4)
  match s.segments g.core g.ctx (e.b + idx * e.c) len false with
  | .bad b => .fault s b
  | .ok rs =>
    let (b, s) := s.readSegs g.core g.ctx rs
    .more (s.writeLocal g.uid (dst + i * len) b) (i + 1)

/-! ### Tiles (R281 to R283) -/

/-- The tile of coordinates [column, row, i2, i3], checked by the engine: coordinates, pages, format (R282). Every page agrees with the one at
the tensor's BASE (R227, R231), and an F4S tensor has a companion (R227). -/
def State.engineTile (s : State) (c : CoreId) (ctx : Nat) (T : Tensor) (i : List Nat) (write : Bool) : Checked TlbEntry :=
  if !T.within i then .bad (0x0C, T.tileVa i)
  else
    (s.walk c ctx (T.tileVa i) write).andThen (fun t =>
      match s.translate c ctx T.base with
      | none => .bad (0x0B, word T.base)
      | some b =>
        if !pageAgrees T b.entry t.entry then .bad (0x0E, T.tileVa i)
        else if pteFmt t.entry = 7 then (s.companionFmt c ctx T (T.tileVa i)).andThen (fun _ => .ok t)
        else .ok t)

/-- The location of a tile under its page. -/
def tileLoc (T : Tensor) (t : TlbEntry) (i : List Nat) : Nat := t.loc (T.tileVa i).toNat

/-- The tensor that a word names. -/
def State.tensorOf (s : State) (ctx : Nat) (w : Word) : Checked (Tensor × Nat × Nat) :=
  let (n, i2, i3) := tensorWord w
  match s.tensor? ctx n with
  | none => .bad (0x0B, w)
  | some T => .ok (T, i2, i3)

/-- Up to n of the tiles of a copy, from tile k to the next progress point, in the order that the engine takes them (R282). -/
def State.overTiles (s : State) (act : State → Nat → Checked State) (total k : Nat) : Nat → CopyStep
  | 0 => .more s k
  | n + 1 =>
    if total ≤ k then .more s k
    else match act s k with
      | .bad b => .fault s b
      | .ok s => s.overTiles act total (k + 1) n

/-- The tiles of 4 KiB: a progress point follows each 4 KiB of tiles (R282). -/
def tilesPerStep : Nat := 16

/-- Tile k of a .raw copy, in ascending row, then column (R282). -/
def State.rawTile (s : State) (g : Wg) (e : QEntry) (T : Tensor) (i2 i3 k : Nat) : Checked State :=
  let (r0, c0) := rowsCols e.b
  let (_, cols) := rowsCols e.c
  let l2g := bitAt e.fields.sub 2
  let i := [c0 + k % cols, r0 + k / cols, i2, i3]
  let off := e.fields.imm.toNat + 256 * k
  (s.engineTile g.core g.ctx T i l2g).andThen (fun t =>
    let a := tileLoc T t i
    .ok (if l2g then s.engineWrite g.core g.ctx a (s.readLocal g.uid off 256)
      else
        let (b, s) := s.engineRead g.core g.ctx a 256
        s.writeLocal g.uid off b))

/-- The pairs of a .pairs copy that lie in one companion tile (R282). -/
def State.pairTile (s : State) (g : Wg) (e : QEntry) (T : Tensor) (i2 i3 : Nat) (q : Nat × Nat) : Checked State :=
  let (r0, c0) := rowsCols e.b
  let (rows, cols) := rowsCols e.c
  let l2g := bitAt e.fields.sub 2
  let i := [q.2, q.1, i2, i3]
  (s.engineTile g.core g.ctx T i l2g).andThen (fun t =>
    if pteFmt t.entry ≠ 8 then .bad (0x0E, T.tileVa i)
    else
      let a := tileLoc T t i
      let ps := (List.range 8).flatMap (fun r => (List.range 16).filterMap (fun k =>
        let row := 8 * q.1 + r
        let col := 16 * q.2 + k
        if r0 ≤ row && decide (row < r0 + rows) && decide (c0 ≤ col) && decide (col < c0 + cols) then
          some (r * 32 + k * 2, e.fields.imm.toNat + 2 * ((row - r0) * cols + (col - c0)))
        else none))
      .ok (if l2g then ps.foldl (fun s p => s.engineWrite g.core g.ctx (a + p.1) (s.readLocal g.uid p.2 2)) s
        else
          let (b, s) := s.engineRead g.core g.ctx a 256
          ps.foldl (fun s p => s.writeLocal g.uid p.2
            [nth b p.1 0, if pteSpe t.entry then nth b (p.1 + 1) 0 else 0x80]) s))

/-- The tiles of a tensor of n elements to a row of a tile that a rectangle of elements touches, in ascending row, then column. -/
def tilesOf (n r0 c0 rows cols : Nat) : List (Nat × Nat) :=
  if rows = 0 ∨ cols = 0 then []
  else (List.range ((r0 + rows - 1) / 8 - r0 / 8 + 1)).flatMap (fun i =>
    (List.range ((c0 + cols - 1) / n - c0 / n + 1)).map (fun j => (r0 / 8 + i, c0 / n + j)))

/-! ### Conversions (Table 13.3) -/

/-- The FP32 code of element (r, k) of a tile's bytes, by page format; an F4S element takes its pair. -/
def decodeTile (fmt : Nat) (spe : Bool) (b : List Byte) (r k : Nat) (pair : Nat × Nat) : Nat :=
  if fmt = 7 then
    f4sTo fp32 (decodeF4S (f4sGet ((b.drop (r * 32 + k / 32 * 16)).take 16) (k % 32)) pair.1 pair.2 spe)
  else
    let w := (fmtShape fmt).1
    let v := recNat b (r * 32 + k * w) w
    if fmt = 1 then v else (cvtFloat (pagePoint fmt) fp32 .rn false v).bits

/-- Read the elements of one tile as FP32 codes, row by row, each with whether its block was poisoned (R282, R401). -/
def State.readTile (s : State) (c : CoreId) (ctx : Nat) (T : Tensor) (tr tc i2 i3 : Nat) : Checked (List (Nat × Bool)) × State :=
  match s.engineTile c ctx T [tc, tr, i2, i3] false with
  | .bad b => (.bad b, s)
  | .ok t =>
    let fmt := pteFmt t.entry
    let n := (fmtShape fmt).2
    let a := tileLoc T t [tc, tr, i2, i3]
    let (b, s) := s.engineRead c ctx a 256
    let idx := (List.range 8).flatMap (fun r => (List.range n).map (fun k => (r, k)))
    let bad := fun (p : Nat × Nat) => s.poisonedAt (a + p.1 * 32)
    if fmt = 7 then
      let g := pteGeom t.entry
      let blocks := idx.foldl (fun (l : List (Nat × Nat)) p =>
        let q := blockOf g (8 * tr + p.1) (n * tc + p.2)
        if l.contains q then l else l ++ [q]) []
      let step := fun (x : Checked (List ((Nat × Nat) × (Nat × Nat))) × State) (q : Nat × Nat) =>
        match x with
        | (.bad e, s) => (.bad e, s)
        | (.ok l, s) =>
          match s.companionPair c ctx T q.1 q.2 i2 i3 (word T.base) false with
          | .bad e => (.bad e, s)
          | .ok (p, va, _) =>
            let (pb, s) := s.engineRead c ctx (p.loc va.toNat) 2
            (.ok (l ++ [(q, ((nth pb 0 0).toNat, (nth pb 1 0).toNat))]), s)
      match blocks.foldl step (.ok [], s) with
      | (.bad e, s) => (.bad e, s)
      | (.ok ps, s) =>
        (.ok (idx.map (fun p => (decodeTile fmt (pteSpe t.entry) b p.1 p.2
          ((lookupKey ps (blockOf g (8 * tr + p.1) (n * tc + p.2))).getD (0, 0)), bad p))), s)
    else (.ok (idx.map (fun p => (decodeTile fmt (pteSpe t.entry) b p.1 p.2 (0, 0), bad p))), s)

/-- The byte of element (r, k) of a local FP32 matrix stored tile-major, of `tp` tiles to a tile row (R223, R224). -/
def fp32Off (tp r k : Nat) : Nat := (r / 8 * tp + k / 8) * 256 + r % 8 * 32 + k % 8 * 4

/-- The base page of a .cvt copy, whose FMT fixes the local rectangle; its local range is checked before anything is read or
written (R282). -/
def State.cvtBase (s : State) (g : Wg) (e : QEntry) (T : Tensor) : Checked TlbEntry :=
  let (rows, cols) := rowsCols e.c
  match s.translate g.core g.ctx T.base with
  | none => .bad (0x0B, word T.base)
  | some t =>
    let fmt := pteFmt t.entry
    if fmt < 3 || 7 < fmt then .bad (0x0E, word T.base)
    else if g.foot.loc < e.fields.imm.toNat + rows * cols * (fmtShape fmt).2 * 32 then .bad (0x0C, e.fields.imm.setWidth 64)
    else .ok t

/-- Tile k of a .cvt.g2l copy (R282). -/
def State.cvtTile (s : State) (g : Wg) (e : QEntry) (T : Tensor) (fmt i2 i3 k : Nat) : Checked State :=
  let (r0, c0) := rowsCols e.b
  let (_, cols) := rowsCols e.c
  let n := (fmtShape fmt).2
  let i := k / cols
  let j := k % cols
  match s.readTile g.core g.ctx T (r0 + i) (c0 + j) i2 i3 with
  | (.bad b, _) => .bad b
  | (.ok vs, s) =>
    .ok ((List.zip (List.range vs.length) vs).foldl (fun s p =>
      s.writeLocal g.uid (e.fields.imm.toNat + fp32Off (cols * n / 8) (8 * i + p.1 / n) (n * j + p.1 % n))
        (bytesOfNat 4 p.2.1)) s)

/-- The FP32 code of element (r, k) of a .cvt.l2g rectangle in local memory. -/
def State.cvtSource (s : State) (g : Wg) (e : QEntry) (cols n r k : Nat) : Nat :=
  natOfBytes (s.readLocal g.uid (e.fields.imm.toNat + fp32Off (cols * n / 8) r k) 4)

/-- What a tensor's policy makes of an FP32 value that an engine writes: the value, and whether CHK.BOUND is set (R404). -/
def policyValue (T : Tensor) (v : Nat) : Nat × Bool :=
  match applyPolicy T fp32 v with
  | .store x fl => (x, fl)
  | .trap => (v, true)
  | .malformed => (v, false)

/-- A value that the trap policy stops. -/
def policyTraps (T : Tensor) (F : FFmt) (v : Nat) : Bool := applyPolicy T F v == .trap

/-- A tensor whose policy is malformed (R404). -/
def policyBad (T : Tensor) : Bool := applyPolicy T fp32 0 == .malformed

/-- A destination rectangle of FP32 values for a tensor of the formats 1 to 7: its tiles, and whether the value of element (r, k) comes from a
poisoned block. -/
structure CvtDst where
  T    : Tensor
  ref  : Word
  r0   : Nat
  c0   : Nat
  rows : Nat
  cols : Nat
  i2   : Nat
  i3   : Nat
  sat  : Bool
  bad  : Nat → Nat → Bool := fun _ _ => false

/-- The blocks of a written tile, and of its pairs, that hold an element from a poisoned block are poisoned (R401). -/
def CvtDst.poisonTile (D : CvtDst) (s : State) (n a : Nat) (t : Nat × Nat) (pairs : List ((Nat × Nat) × Nat)) (geom : Nat) : State :=
  let places := (List.range 8).flatMap (fun r => (List.range n).map (fun k => (r, k)))
  let bad := places.filter (fun p => D.bad (8 * t.1 + p.1) (n * t.2 + p.2))
  s.poisonBlocks (bad.foldl (fun l p =>
    let own := s.fabricTarget (a + p.1 * 32) / 64
    let l := if l.contains own then l else l ++ [own]
    match lookupKey pairs (blockOf geom (8 * t.1 + p.1) (n * t.2 + p.2)) with
    | some k => if l.contains (s.fabricTarget k / 64) then l else l ++ [s.fabricTarget k / 64]
    | none => l) [])

/-- The blocks of F4S that the elements of a band of tiles touch. -/
def blocksOf (geom n : Nat) (ts : List (Nat × Nat)) : List (Nat × Nat) :=
  (ts.flatMap (fun t => (List.range 8).flatMap (fun r => (List.range n).map (fun k => blockOf geom (8 * t.1 + r) (n * t.2 + k))))).foldl
    (fun l q => if l.contains q then l else l ++ [q]) []

/-- The 32 elements of a block, as places (row, column) of the tensor. -/
def blockElems (geom : Nat) (q : Nat × Nat) : List (Nat × Nat) :=
  (List.range 32).map (fun i => if geom = 1 then (32 * q.1 + i, q.2) else (q.1, 32 * q.2 + i))

/-- Encode and write one tile of an F4S tensor, with the pairs of its blocks, from FP32 values by place (R166, R282). A block of a GEOM 1
page spans four tiles, and is encoded from all of its values at each of them. -/
def State.writeF4S (s : State) (c : CoreId) (ctx : Nat) (D : CvtDst) (val : Nat → Nat → Nat) (t : Nat × Nat) : Checked State :=
  let geom := pteGeom D.ref
  let i := [t.2, t.1, D.i2, D.i3]
  (s.engineTile c ctx D.T i true).andThen (fun p =>
    let bs := blocksOf geom 64 [t]
    let pairs := bs.foldl (fun (acc : Checked (List ((Nat × Nat) × Nat))) q => acc.andThen (fun l =>
      (s.companionPair c ctx D.T q.1 q.2 D.i2 D.i3 (word D.T.base) true).andThen (fun (p, va, _) =>
        .ok (l ++ [(q, p.loc va.toNat)])))) (.ok [])
    pairs.andThen (fun pairs =>
      let enc := bs.map (fun q => (q, encodeBlock ((blockElems geom q).map (fun p => val p.1 p.2)) (pteSpe D.ref) D.sat))
      let s := pairs.foldl (fun s p =>
        let x := (lookupKey enc p.1).getD (0, 0, [])
        s.engineWrite c ctx p.2 [BitVec.ofNat 8 x.1, BitVec.ofNat 8 x.2.1]) s
      let codeAt := fun (row col : Nat) =>
        let q := blockOf geom row col
        nth ((lookupKey enc q).getD (0, 0, [])).2.2 (if geom = 1 then row % 32 else col % 32) 0
      let bytes := (List.range 8).flatMap (fun r => (List.range 2).flatMap (fun h =>
        (List.range 32).foldl (fun grp i => f4sSet grp i (codeAt (8 * t.1 + r) (64 * t.2 + 32 * h + i)))
          (List.replicate 16 0)))
      let a := tileLoc D.T p i
      .ok (D.poisonTile (s.engineWrite c ctx a bytes) 64 a t pairs geom)))

/-- Encode and write one tile of a tensor of the formats 1 to 6. -/
def State.writePoint (s : State) (c : CoreId) (ctx : Nat) (D : CvtDst) (val : Nat → Nat → Nat) (t : Nat × Nat) : Checked State :=
  let fmt := pteFmt D.ref
  let (w, n) := fmtShape fmt
  let i := [t.2, t.1, D.i2, D.i3]
  (s.engineTile c ctx D.T i true).andThen (fun p =>
    let bytes := (List.range 8).flatMap (fun r => (List.range n).flatMap (fun k =>
      let v := val (8 * t.1 + r) (n * t.2 + k)
      bytesOfNat w (if fmt = 1 then v else (cvtFloat fp32 (pagePoint fmt) .rn D.sat v).bits)))
    let a := tileLoc D.T p i
    .ok (D.poisonTile (s.engineWrite c ctx a bytes) n a t [] 0))

/-- Tile k of a destination rectangle, in ascending row, then column (R282). -/
def State.writeTile (s : State) (c : CoreId) (ctx : Nat) (D : CvtDst) (val : Nat → Nat → Nat) (k : Nat) : Checked State :=
  let t := (D.r0 + k / D.cols, D.c0 + k % D.cols)
  if pteFmt D.ref = 7 then s.writeF4S c ctx D val t else s.writePoint c ctx D val t

/-- Write tiles of a rectangle of FP32 values with the tensor's bound policy, from tile k on, at most n: before the first tile the whole
rectangle is judged, and under the trap policy nothing is written when a value is out of range (R283, R404). -/
def State.writeRect (s : State) (c : CoreId) (ctx : Nat) (D : CvtDst) (val : Nat → Nat → Nat) (k n : Nat) : CopyStep :=
  let w := (fmtShape (pteFmt D.ref)).2
  let geom1 := pteFmt D.ref = 7 ∧ pteGeom D.ref = 1
  if geom1 ∧ (D.r0 % 4 ≠ 0 ∨ D.rows % 4 ≠ 0) then .fault s (0x0E, word D.T.base)
  else if policyBad D.T then .fault s (0x0C, word D.T.base)
  else
    let places := if k = 0 then
      (List.range (8 * D.rows)).flatMap (fun r => (List.range (w * D.cols)).map (fun k => (8 * D.r0 + r, w * D.c0 + k))) else []
    if places.any (fun p => policyTraps D.T fp32 (val p.1 p.2)) then .stop (s.setChk ctx chkBound) 2 0x11 true
    else
      let s := if places.any (fun p => (policyValue D.T (val p.1 p.2)).2) then s.setChk ctx chkBound else s
      s.overTiles (fun s k => s.writeTile c ctx D (fun r k => (policyValue D.T (val r k)).1) k) (D.rows * D.cols) k n

/-- One progress step of a CPYT (R281 to R283). -/
def State.cpytStep (s : State) (g : Wg) (e : QEntry) : CopyStep :=
  match s.tensorOf g.ctx e.a with
  | .bad b => .fault s b
  | .ok (T, i2, i3) =>
    let (r0, c0) := rowsCols e.b
    let (rows, cols) := rowsCols e.c
    let l2g := bitAt e.fields.sub 2
    let total := rows * cols
    match e.fields.sub.toNat % 4 with
    | 0 => s.overTiles (fun s k => s.rawTile g e T i2 i3 k) total e.progress tilesPerStep
    | 1 =>
      match s.cvtBase g e T with
      | .bad b => .fault s b
      | .ok t =>
        let fmt := pteFmt t.entry
        if l2g then
          let n := (fmtShape fmt).2
          let val := fun (r k : Nat) => s.cvtSource g e cols n (r - 8 * r0) (k - n * c0)
          s.writeRect g.core g.ctx { T := T, ref := t.entry, r0 := r0, c0 := c0, rows := rows, cols := cols, i2 := i2, i3 := i3,
                                     sat := bitAt e.fields.sub 3 } val e.progress tilesPerStep
        else s.overTiles (fun s k => s.cvtTile g e T fmt i2 i3 k) total e.progress tilesPerStep
    | _ =>
      let ts := tilesOf 16 r0 c0 rows cols
      s.overTiles (fun s k => s.pairTile g e T i2 i3 (nth ts k (0, 0))) ts.length e.progress tilesPerStep

/-- The progress at which a copy has done everything. -/
def QEntry.total (e : QEntry) : Nat :=
  match e.cmd with
  | .cpya _ => ceilDiv e.c.toNat 4096
  | .cpyg f => fieldNat f.imm 12 16
  | .cpyt f =>
    let (r0, c0) := rowsCols e.b
    let (rows, cols) := rowsCols e.c
    if f.sub.toNat % 4 = 2 then (tilesOf 16 r0 c0 rows cols).length else rows * cols
  | _ => (rowsCols e.c).1 * (rowsCols e.c).2

/-- One progress step of a copy command. -/
def State.copyStep (s : State) (g : Wg) (e : QEntry) : CopyStep :=
  match e.cmd with
  | .cpya _ => s.cpyaStep g e
  | .cpyg _ => s.cpygStep g e
  | _ => s.cpytStep g e

/-! ### Copy chains (R33, R34) -/

/-- The core that stands for a copy engine which the scheduler of a die chooses: it holds no L1 line. -/
def schedCore (d : Nat) : CoreId := ⟨d, 48⟩

/-- Read the FP32 codes of a rectangle of source tiles: each with its place and whether its block was poisoned. -/
def State.readRect (s : State) (c : CoreId) (ctx : Nat) (T : Tensor) (n : Nat) :
    List (Nat × Nat) → Checked (List ((Nat × Nat) × (Nat × Bool))) × State
  | [] => (.ok [], s)
  | (tr, tc) :: rest =>
    match s.readTile c ctx T tr tc 0 0 with
    | (.bad b, s) => (.bad b, s)
    | (.ok vs, s) =>
      match s.readRect c ctx T n rest with
      | (.bad b, s) => (.bad b, s)
      | (.ok l, s) =>
        (.ok ((List.zip (List.range vs.length) vs).map (fun p => ((8 * tr + p.1 / n, n * tc + p.1 % n), p.2)) ++ l), s)

/-- Copy tiles of one format as they stand. -/
def State.copyTiles (s : State) (c : CoreId) (ctx : Nat) (S D : Tensor) : List ((Nat × Nat) × (Nat × Nat)) → CopyStep
  | [] => .stop s 0 0 false
  | (p, q) :: rest =>
    match s.engineTile c ctx S [p.2, p.1, 0, 0] false with
    | .bad b => .fault s b
    | .ok t =>
      match s.engineTile c ctx D [q.2, q.1, 0, 0] true with
      | .bad b => .fault s b
      | .ok u =>
        let a := tileLoc S t [p.2, p.1, 0, 0]
        let d := tileLoc D u [q.2, q.1, 0, 0]
        let was := s.poison
        let (b, s) := s.engineRead c ctx a 256
        let s := (s.engineWrite c ctx d b).poisonCopied was ((List.range 256).map (fun i => (a + i, d + i)))
        s.copyTiles c ctx S D rest

/-- A kind-2 record: a rectangle of the source tensor's tiles, decoded and encoded as CPYT does (Table 3.7a): through FP32 with the
destination's bound policy for the formats 1 and 3 to 7, and as the tiles stand for one of the other formats, which CPYT moves raw. Its outer
coordinates are 0; between formats of different tile widths EXTENT counts source tiles, the destination's columns are rounded up, and elements
beyond the source are written as 0 (log 46: DESIGN CHOICE). -/
def State.rectRecord (s : State) (c : CoreId) (ctx : Nat) (r : CopyRec) : CopyStep :=
  let rows := fieldNat r.extent 0 16
  let cols := fieldNat r.extent 16 16
  let o := fun (k : Nat) => fieldNat r.origin (16 * k) 16
  match s.tensor? ctx (fieldNat r.len 0 16), s.tensor? ctx (fieldNat r.len 16 16) with
  | some S, some D =>
    match s.translate c ctx S.base, s.translate c ctx D.base with
    | some sp, some dp =>
      let sf := pteFmt sp.entry
      let df := pteFmt dp.entry
      let grid := (List.range rows).flatMap (fun i => (List.range cols).map (fun j => (i, j)))
      if [1, 3, 4, 5, 6, 7].contains sf && [1, 3, 4, 5, 6, 7].contains df then
        let n := (fmtShape sf).2
        let m := (fmtShape df).2
        match s.readRect c ctx S n (grid.map (fun p => (o 0 + p.1, o 1 + p.2))) with
        | (.bad b, s) => .fault s b
        | (.ok vs, s) =>
          let source := fun (row col : Nat) => (lookupKey vs (row - 8 * o 2 + 8 * o 0, col - m * o 3 + n * o 1)).getD (0, false)
          let out := ceilDiv (cols * n) m
          match s.writeRect c ctx { T := D, ref := dp.entry, r0 := o 2, c0 := o 3, rows := rows, cols := out, i2 := 0, i3 := 0,
                                    sat := false, bad := fun row col => (source row col).2 }
              (fun row col => (source row col).1) 0 (rows * out) with
          | .more s _ => .stop s 0 0 false
          | x => x
      else if sf = df ∧ sf ≠ 0 then
        s.copyTiles c ctx S D (grid.map (fun p => ((o 0 + p.1, o 1 + p.2), (o 2 + p.1, o 3 + p.2))))
      else .fault s (0x0E, word S.base)
    | _, _ => .fault s (0x0B, word S.base)
  | _, _ => .fault s (0x0B, r.len)

/-- One progress step of a chain: a chunk of its first record, or the record whole. -/
def State.chainStep (s : State) (k : Chain) : CopyStep :=
  match k.recs with
  | [] => .stop s 0 0 false
  | r :: _ =>
    let c := schedCore k.die
    if r.kind = 1 then
      let n := min 4096 (r.len.toNat - 4096 * k.progress)
      s.copyGeneric c k.ctx (r.src + word (4096 * k.progress)) (r.dst + word (4096 * k.progress)) n (k.progress + 1)
    else s.rectRecord c k.ctx r

/-- Store a chain. -/
def State.updChain (s : State) (k : Chain) : State := { s with chains := s.chains.map (fun x => if x.id == k.id then k else x) }

/-- The effect of a step of a chain: the next chunk, the next record, or the chain's failure. -/
def State.runChain (s : State) (k : Chain) : State :=
  let next : Chain := { k with recs := k.recs.drop 1, progress := 0 }
  match s.chainStep k with
  | .held => s
  | .more s p =>
    match k.recs with
    | r :: _ => if ceilDiv r.len.toNat 4096 ≤ p then s.updChain next else s.updChain { k with progress := p }
    | [] => s
  | .stop s 0 _ _ => s.updChain next
  | .stop s _ code _ => s.updChain { k with failed := some code }

/-- Start a chain on a copy engine of the context's partition for an owner, a bundle or a command (R33, R34). -/
def State.startChain (s : State) (owner stage ctx die : Nat) (recs : List CopyRec) : State :=
  let (id, s) := s.fresh
  { s with chains := s.chains ++ [{ id := id, ctx := ctx, die := die, recs := recs, owner := owner, stage := stage }] }

/-- The chain of an owner. -/
def State.chainOf (s : State) (owner stage : Nat) : Option Chain := s.chains.find? (fun k => k.owner == owner && k.stage == stage)

/-- Forget the chain of an owner. -/
def State.dropChain (s : State) (owner stage : Nat) : State :=
  { s with chains := s.chains.filter (fun k => !(k.owner == owner && k.stage == stage)) }

/-- A chain has ended. -/
def Chain.ended (k : Chain) : Bool := k.recs.isEmpty || k.failed.isSome

end Sys2Proof.Machine
end

