-- ==== Sys2Proof/Machine/Matrix.lean ====
section
/-!
DEFINITION. The matrix engine (13 R289 to R299, 08 R173): the issue of its commands with the MMAR latch, the sums, the checksum
records, and what the engine does with an entry. An accumulator tile is held row by row from its offset (log 9: its layout is not
architectural).
-/
namespace Sys2Proof.Machine
open Sys2Proof

/-! ### Shapes (Tables 13.6, 13.7) -/

/-- The rows of a shape, by M code. -/
def mRows (sub : BitVec 8) : Nat :=
  match sub.toNat / 16 % 4 with
  | 0 => 64
  | 1 => 128
  | _ => 16

/-- The columns of a shape, by N code. -/
def nCols (sub : BitVec 8) : Nat := 64 * (sub.toNat / 64 % 4 + 1)

/-- The K of a K-step. -/
def kOf (fmt : Nat) : Nat :=
  match fmt with
  | 0 => 8 | 1 => 16 | 2 | 3 => 32 | 6 => 128 | _ => 64

/-- The bytes of an operand element; F4S has half a byte. -/
def opBytes (fmt : Nat) : Nat :=
  match fmt with
  | 0 => 8 | 1 => 4 | 2 | 3 => 2 | _ => 1

/-- The float format of an operand. -/
def opFmt (fmt : Nat) : FFmt :=
  match fmt with
  | 0 => fp64 | 1 => fp32 | 2 => fp16 | 3 => bf16 | 4 => fe4m3 | _ => fe5m2

/-- The accumulator kind of an operand format: 0 FP32, 1 FP64, 2 INT32 (Table 8.9). -/
def accKind (fmt : Nat) : Nat := if fmt = 0 then 1 else if fmt = 7 then 2 else 0

/-- The bytes of an accumulator element of a kind. -/
def accBytes (kind : Nat) : Nat := if kind = 1 then 8 else 4

/-- The float format of an accumulator kind. -/
def accFmt (kind : Nat) : FFmt := if kind = 1 then fp64 else fp32

/-- The byte of element (r, c) of a matrix of `rowBytes` bytes to a row, stored tile-major (R223, R224). -/
def tileOff (rowBytes r byteCol : Nat) : Nat := (r / 8 * (rowBytes / 32) + byteCol / 32) * 256 + r % 8 * 32 + byteCol % 32

/-! ### Issue -/

/-- An accumulator range lies in the allotment (R221). -/
def inAcc (g : Wg) (kib : Word) (n : Nat) : Checked Unit :=
  need (decide (kib.toNat * 1024 + n ≤ g.foot.acckib * 1024)) 0x0C kib

/-- A local operand: its alignment, then its range (R290). -/
def localOp (g : Wg) (off : Word) (n : Nat) : Checked Unit := (aligned off 256).both (inLocal g off n)

/-- The ranges of the pairs of an F4S command (R290). -/
def pairRanges (g : Wg) (f : FmtE) (M N : Nat) : Checked Unit :=
  if f.sub.toNat % 8 = 6 then
    (inLocal g (word (fieldNat f.imm 0 16 * 256)) (8 * M)).both (inLocal g (word (fieldNat f.imm 16 16 * 256)) (8 * N))
  else .ok ()

/-- MMA (R291). -/
def execMma (f : FmtE) (s : State) : Host.Outcome State Fault Refusal :=
  let g := s.myWg
  let M := mRows f.sub
  let N := nCols f.sub
  s.command (.mma f) f true [] [] (fun a b c =>
    (localOp g a (M * 64)).both ((localOp g b (N * 64)).both
      ((inAcc g c (M * N * accBytes (accKind (f.sub.toNat % 8)))).both (pairRanges g f M N))))

/-- The first name of an MMAR. -/
def FmtE.name (f : FmtE) : Nat :=
  match f.sc with
  | .uni k => k.val
  | .imm => 255

/-- The latch serves an MMAR: full, and filled for the same name, FMT and BALT (R292). -/
def latchHit (w : Warp) (f : FmtE) : Option (List Byte) :=
  match w.latch with
  | some k =>
    if k.name == FmtE.name f && k.fmt == f.sub.toNat % 8 && k.balt == bitAt f.sub 3 then some k.bytes else none
  | none => none

/-- MMAR (R292). Its names are of the handler's bank in a handler run, read or not (R368). -/
def execMmar (f : FmtE) (s : State) : Host.Outcome State Fault Refusal :=
  let g := s.myWg
  let N := nCols f.sub
  let hit := latchHit s.me f
  let names := if hit.isSome then [] else (List.range 4).map (fun i => FmtE.name f + i)
  let inBank := !s.cur.handler || decide (FmtE.name f + 3 < 8)
  let bytes := hit.getD (names.flatMap (fun n => (List.range 32).flatMap (fun t => bytesOfWord 8 (s.elem n t))))
  s.command (.mmar f) f inBank names bytes (fun a b _ =>
    (localOp g b (N * 64)).both ((inAcc g a (16 * N * accBytes (accKind (f.sub.toNat % 8)))).both (pairRanges g f 16 N)))

/-- MZERO (R297). -/
def execMzero (f : FmtE) (s : State) : Host.Outcome State Fault Refusal :=
  s.command (.mzero f) f true [] [] (fun a _ _ => inAcc s.myWg a (mRows f.sub * nCols f.sub * accBytes (f.imm.toNat % 4)))

/-- MLDACC (R297). -/
def execMldacc (f : FmtE) (s : State) : Host.Outcome State Fault Refusal :=
  let n := mRows f.sub * nCols f.sub * accBytes (f.imm.toNat % 4)
  s.command (.mldacc f) f true [] [] (fun a b _ => (inAcc s.myWg a n).both (localOp s.myWg b n))

/-- The bytes of an output element (Table 13.8). -/
def outBytes (out : Nat) : Nat :=
  match out with
  | 0 | 5 => 4 | 1 | 2 => 2 | 6 => 8 | _ => 1

/-- MDRAIN (R298). -/
def execMdrain (f : FmtE) (s : State) : Host.Outcome State Fault Refusal :=
  let n := mRows f.sub * nCols f.sub
  s.command (.mdrain f) f true [] [] (fun a b _ =>
    (inAcc s.myWg a (n * accBytes (f.imm.toNat % 4))).both
      (if bitAt f.imm 3 then .ok () else localOp s.myWg b (n * outBytes (f.sub.toNat % 8))))

/-- MTRN (R299). -/
def execMtrn (f : FmtE) (s : State) : Host.Outcome State Fault Refusal :=
  let w := 2 ^ (f.sub.toNat % 4)
  s.command (.mtrn f) f true [] [] (fun a b c =>
    let R := fieldNat c 0 16
    let C := fieldNat c 16 16
    (need (R % 32 == 0 && C % 32 == 0 && decide (32 ≤ R) && decide (32 ≤ C) && decide (R * C * w ≤ 65536)) 0x0C c).both
      ((localOp s.myWg a (R * C * w)).both (localOp s.myWg b (R * C * w))))

/-! ### Operands of a K-step (R290) -/

/-- The raw code of element (r, c) of an operand of `rowBytes` bytes to a row, by a byte reader. -/
def rawOp (byte : Nat → Byte) (fmt rowBytes r c : Nat) : Nat :=
  if fmt = 6 then
    let b := byte (tileOff rowBytes r (c / 64 * 32 + c % 64 / 32 * 16 + f4sPos (c % 32) / 2))
    b.toNat / 16 ^ (f4sPos (c % 32) % 2) % 16
  else
    let w := opBytes fmt
    natOfBytes ((List.range w).map (fun i => byte (tileOff rowBytes r (c * w + i))))

/-- The value of a code: an integer for INT8, a scaled value for F4S with its pair, which decodes as if SPE were 1 (R282). -/
def opValue (fmt code : Nat) (pair : Nat × Nat) : FVal :=
  if fmt = 7 then
    let v := (BitVec.ofNat 8 code).toInt
    .fin (decide (v < 0)) v.natAbs 0
  else if fmt = 6 then decodeF4S code pair.1 pair.2 true
  else (opFmt fmt).decode code

/-- The operands of one K-step: the codes and the values of A by (m, k) and of B by (k, n). -/
structure KStep where
  fmt  : Nat
  M    : Nat
  N    : Nat
  K    : Nat
  aRaw : Nat → Nat → Nat
  bRaw : Nat → Nat → Nat
  a    : Nat → Nat → FVal
  b    : Nat → Nat → FVal

/-- The operands of an MMA or MMAR entry. -/
def kStep (g : Wg) (e : QEntry) (isR : Bool) : KStep :=
  let f := e.fields
  let fmt := f.sub.toNat % 8
  let bfmt := if bitAt f.sub 3 then 9 - fmt else fmt
  let M := mRows f.sub
  let N := nCols f.sub
  let K := kOf fmt
  let loc := fun (o : Nat) => sparseGet g.locMem o
  let pair := fun (o : Nat) => ((loc o).toNat, (loc (o + 1)).toNat)
  let pa := fieldNat f.imm 0 16 * 256
  let pb := fieldNat f.imm 16 16 * 256
  let aByte := fun (o : Nat) => loc (e.a.toNat + o)
  let aRaw := fun (m k : Nat) =>
    if isR then
      let row := (e.latch.drop (64 * m)).take 64
      if fmt = 6 then (nth row (k / 64 * 32 + k % 64 / 32 * 16 + f4sPos (k % 32) / 2) 0).toNat / 16 ^ (f4sPos (k % 32) % 2) % 16
      else recNat row (k * opBytes fmt) (opBytes fmt)
    else rawOp aByte fmt 64 m k
  let bRaw := fun (k n : Nat) => rawOp (fun o => loc (e.b.toNat + o)) bfmt (N * 64 / K) k n
  { fmt := fmt, M := M, N := N, K := K, aRaw := aRaw, bRaw := bRaw,
    a := fun m k => opValue fmt (aRaw m k) (pair (pa + 8 * m + 2 * (k / 32))),
    b := fun k n => opValue bfmt (bRaw k n) (pair (pb + 2 * (k / 32 * N + n))) }

/-- The terms of row m that are present: A(m, k) is not ±0 (R173). -/
def KStep.present (x : KStep) (m : Nat) : List Nat := (List.range x.K).filter (fun k => !(x.a m k).isZeroV)

/-- An integer value. -/
def intOf : FVal → Int
  | .fin n s _ => sigInt n s
  | _ => 0

/-! ### Sums (R173) -/

/-- A term of a block: NaN when a factor is NaN, or for ∞ × 0 (R173). -/
def termOf (a b : FVal) : FVal :=
  match a, b with
  | .nan n f, _ => .nan n f
  | _, .nan n f => .nan n f
  | .inf n1, .inf n2 => .inf (n1 != n2)
  | .inf n1, .fin n2 s _ => if s = 0 then .nan false 0 else .inf (n1 != n2)
  | .fin n1 s _, .inf n2 => if s = 0 then .nan false 0 else .inf (n1 != n2)
  | .fin n1 s1 e1, .fin n2 s2 e2 => .fin (n1 != n2) (s1 * s2) (e1 + e2)

/-- The exact sum of a block (R173): zeros of one sign keep it (R158). -/
def blockSum (l : List FVal) : FVal :=
  if l.any FVal.isNanV || (l.any (FVal.isInfV true) && l.any (FVal.isInfV false)) then .nan false 0
  else if l.any (FVal.isInfV true) then .inf true
  else if l.any (FVal.isInfV false) then .inf false
  else if l.all FVal.isZeroV then
    .fin (!l.isEmpty && l.all (fun v => match v with | .fin n _ _ => n | _ => false)) 0 0
  else l.foldl FVal.plus (.fin false 0 0)

/-- A value rounded to a format; a NaN is canonical. -/
def toFmt (F : FFmt) (v : FVal) : Nat :=
  match v with
  | .nan _ _ => F.canon
  | .inf n => F.infBits n
  | .fin n s e => (F.result .rn n s 1 e).bits

/-- One step of the Block rule; a NaN that it writes is canonical (R173). -/
def blockStep (d : Nat) (sum : FVal) : Nat :=
  let r := (fp32.add .rn d (toFmt fp32 sum)).bits
  if fp32.isNan r then fp32.canon else r

/-- One element of D after a K-step (R173). -/
def elementAfter (x : KStep) (sat : Bool) (m n d : Nat) : Nat :=
  let ks := x.present m
  match x.fmt with
  | 0 => ks.foldl (fun d k => (fp64.fma .rn (x.aRaw m k) (x.bRaw k n) d).bits) d
  | 1 => ks.foldl (fun d k => (fp32.fma .rn (x.aRaw m k) (x.bRaw k n) d).bits) d
  | 7 =>
    let v := (BitVec.ofNat 32 d).toInt + ks.foldl (fun a k => a + intOf (x.a m k) * intOf (x.b k n)) 0
    (BitVec.ofInt 32 (if sat then max (-(2 ^ 31)) (min (2 ^ 31 - 1) v) else v)).toNat
  | _ =>
    let B := if x.fmt = 2 || x.fmt = 3 then 16 else 32
    (List.range (x.K / B)).foldl (fun d j =>
      let bl := ks.filter (fun k => k / B == j)
      if bl.isEmpty then d else blockStep d (blockSum (bl.map (fun k => termOf (x.a m k) (x.b k n))))) d

/-- The elements of an accumulator tile, row by row. -/
def accRead (g : Wg) (off kind n : Nat) : List Nat :=
  (List.range n).map (fun i => natOfBytes (sparseRead g.accMem (off * 1024 + i * accBytes kind) (accBytes kind)))

/-- Write an accumulator tile. -/
def State.accWrite (s : State) (u off kind : Nat) (l : List Nat) : State :=
  s.updWg u (fun g => { g with accMem := sparseWrite g.accMem (off * 1024) (l.flatMap (bytesOfNat (accBytes kind))) })

/-! ### Checksum records (R293 to R296) -/

/-- The bytes of the accumulator that a record's tile covers. -/
def CkRec.span (r : CkRec) : Nat × Nat := (r.off * 1024, r.off * 1024 + r.m * r.n * accBytes r.kind)

/-- Open a record: those that overlap its tile close, and with 16 open the earliest (R294). -/
def openRec (l : List CkRec) (r : CkRec) : List CkRec :=
  let l := l.filter (fun o => decide (o.span.2 ≤ r.span.1) || decide (r.span.2 ≤ o.span.1))
  (if 16 ≤ l.length then l.drop 1 else l) ++ [r]

/-- A record matches a tile exactly. -/
def CkRec.isFor (r : CkRec) (off m n kind : Nat) : Bool := r.off == off && r.m == m && r.n == n && r.kind == kind

/-- An FP64 sum in ascending index, rounded rn at each step. -/
def sum64 (l : List Nat) : Nat :=
  match l with
  | [] => 0
  | x :: r => r.foldl (fun a b => (fp64.add .rn a b).bits) x

/-- The magnitude of an FP64 code. -/
def abs64 (b : Nat) : Nat := b % 2 ^ 63

/-- Update a record for one K-step of an MMA (R293, R294). -/
def CkRec.update (r : CkRec) (x : KStep) (sat : Bool) : CkRec :=
  let rowsOf := fun (k : Nat) => (List.range x.M).filter (fun m => !(x.a m k).isZeroV)
  let absent := (List.range x.M).foldl (fun a m => a + (x.K - (x.present m).length)) 0
  let skip := r.skip + absent * x.N
  let ks := List.range x.K
  let ns := List.range x.N
  if r.kind = 2 then
    let bs := fun (k : Nat) => ns.foldl (fun a n => a + intOf (x.b k n)) 0
    let as_ := fun (k : Nat) => (rowsOf k).foldl (fun a m => a + intOf (x.a m k)) 0
    let wrap := fun (v : Word) (d : Int) => word ((BitVec.ofInt 32 ((v.toNat : Int) + d)).toNat)
    { r with skip := skip, sat := r.sat || sat,
             rows := (List.zip (List.range x.M) r.rows).map (fun p =>
               wrap p.2 ((x.present p.1).foldl (fun a k => a + intOf (x.a p.1 k) * bs k) 0)),
             cols := (List.zip ns r.cols).map (fun p =>
               wrap p.2 (ks.foldl (fun a k => a + as_ k * intOf (x.b k p.1)) 0)) }
  else
    let b64 := fun (k n : Nat) => toFmt fp64 (x.b k n)
    let a64 := fun (m k : Nat) => toFmt fp64 (x.a m k)
    let bs := fun (k : Nat) => sum64 (ns.map (b64 k))
    let ba := fun (k : Nat) => sum64 (ns.map (fun n => abs64 (b64 k n)))
    let as_ := fun (k : Nat) => sum64 ((rowsOf k).map (fun m => a64 m k))
    let aa := fun (k : Nat) => sum64 ((rowsOf k).map (fun m => abs64 (a64 m k)))
    let fma := fun (a b : Nat) (c : Word) => word (fp64.fma .rn a b c.toNat).bits
    { r with skip := skip,
             rows := (List.zip (List.range x.M) r.rows).map (fun p =>
               (x.present p.1).foldl (fun a k => fma (a64 p.1 k) (bs k) a) p.2),
             cols := (List.zip ns r.cols).map (fun p =>
               (ks.filter (fun k => !(rowsOf k).isEmpty)).foldl (fun a k => fma (as_ k) (b64 k p.1) a) p.2),
             mu := ks.foldl (fun a k => fma (aa k) (ba k) a) r.mu }

/-- An accumulator element in FP64. -/
def acc64 (kind v : Nat) : Nat := if kind = 1 then v else f32to64 v

/-- An FP64 code is ±∞ or NaN. -/
def nonFinite (b : Nat) : Bool := b / 2 ^ 52 % 2048 == 2047

/-- |o − p| > 2^−20 × μ, exactly (R295). -/
def differs (o p mu : Nat) : Bool :=
  match fp64.decode o, fp64.decode p, fp64.decode mu with
  | .fin n1 s1 e1, .fin n2 s2 e2, .fin _ s e =>
    cmpVal (FVal.plus (.fin n1 s1 e1) (.fin (!n2) s2 e2)).abs (.fin false s (e - 20)) == .gt
  | _, _, _ => true

/-- Compare a record with its tile: the lines that mismatch and those left unchecked (R295). -/
def CkRec.compare (r : CkRec) (D : List Nat) : Nat × Nat :=
  let row := fun (m : Nat) => (D.drop (m * r.n)).take r.n
  let col := fun (n : Nat) => (List.range r.m).map (fun m => nth D (m * r.n + n) 0)
  let lines := (List.zip (List.range r.m) r.rows).map (fun p => (row p.1, p.2))
    ++ (List.zip (List.range r.n) r.cols).map (fun p => (col p.1, p.2))
  lines.foldl (fun (acc : Nat × Nat) p =>
    if r.kind = 2 then
      if r.sat then (acc.1, acc.2 + 1)
      else if (p.1.foldl (· + ·) 0) % 2 ^ 32 ≠ p.2.toNat then (acc.1 + 1, acc.2) else acc
    else
      let v := p.1.map (acc64 r.kind)
      if v.any nonFinite || nonFinite p.2.toNat || nonFinite r.mu.toNat then (acc.1, acc.2 + 1)
      else if differs (sum64 v) p.2.toNat r.mu.toNat then (acc.1 + 1, acc.2) else acc) (0, 0)

/-- The word that MCHK writes (R296, Table 13.10). -/
def mchkWord (g : Wg) (off : Word) (stat : Bool) : Word :=
  match g.cks.find? (fun r => r.off == off.toNat) with
  | none => 0
  | some r =>
    if stat then word (2 ^ 33 + (if r.drained then 2 ^ 32 else 0) + r.mism % 512 * 65536 + r.unchk % 512)
    else word (min r.skip (2 ^ 64 - 1))

/-- MCHK: it waits for the matrix entries entered before it (R296). -/
def execMchk (f : FmtA) (s : State) : Host.Outcome State Fault Refusal :=
  s.issue true f.guard f.cf (f.sa.touch ++ f.dst.touch) (fun run ex =>
    let g := s.myWg
    let off := s.src f.sa 0 (f.imm.setWidth 64)
    let before := (g.queue .mq).map (·.uid)
    if before.isEmpty then (s.setUni f.dst.no (mchkWord g off (f.fn == 1))).complete run ex f.cf []
    else s.waitFor f.cf (.mchk before off (f.fn == 1) f.dst.no))

/-- A waiting MCHK none of whose entries is queued any longer takes effect. -/
def State.serveMchk (s : State) (l : Loc) (handler : Bool) (x : Wait) : State :=
  match x.kind, (s.warp? l).bind (fun w => s.wg? w.wg) with
  | .mchk ops off stat d, some g =>
    let live := s.ctxLive g.ctx && (handler || (s.warp? l).any (fun w => w.runAt x.pc == x.mask))
    if live && !(g.queue .mq).any (fun e => ops.contains e.uid) then
      let s := { s with cur := { s.cur with loc := l, handler := handler, pc := x.pc } }
      ((s.setUni d (mchkWord g off stat)).advance s.run).dropWait l handler x.pc
    else s
  | _, _ => s

/-- The waiting MCHKs of a workgroup's warps that can be served. -/
def State.wakeMchk (s : State) (u : Nat) : State :=
  (s.warps.filter (fun w => w.wg == u)).foldl (fun s w =>
    let s := w.waits.foldl (fun s x => s.serveMchk w.loc false x) s
    match s.hrun? w.loc with
    | some h => h.waits.foldl (fun s x => s.serveMchk w.loc true x) s
    | none => s) s

/-! ### What the engine does with an entry -/

/-- The result of a matrix entry: the state, its status, fault code and trap request. -/
abbrev Performed := State × Nat × Nat × Bool

/-- MMA and MMAR (R291, R292). -/
def State.doMma (s : State) (g : Wg) (e : QEntry) (isR : Bool) : Performed :=
  let f := e.fields
  let x := kStep g e isR
  let kind := accKind x.fmt
  let off := (if isR then e.a else e.c).toNat
  let sat := x.fmt == 7 && bitAt f.imm 0
  let D := accRead g off kind (x.M * x.N)
  let D' := (List.zip (List.range (x.M * x.N)) D).map (fun p => elementAfter x sat (p.1 / x.N) (p.1 % x.N) p.2)
  let s := s.accWrite g.uid off kind D'
  (s.updWg g.uid (fun g => { g with cks := g.cks.map (fun r =>
    if r.isFor off x.M x.N kind then r.update x sat else r) }), 0, 0, false)

/-- MZERO and MLDACC: the tile is written and a record opens (R297). -/
def State.doAcc (s : State) (g : Wg) (e : QEntry) (load : Bool) : Performed :=
  let f := e.fields
  let M := mRows f.sub
  let N := nCols f.sub
  let kind := f.imm.toNat % 4
  let w := accBytes kind
  let D : List Nat := if load then
      (List.range (M * N)).map (fun i => natOfBytes (sparseRead g.locMem (e.b.toNat + tileOff (N * w) (i / N) (i % N * w)) w))
    else List.replicate (M * N) 0
  let rowSum := fun (m : Nat) => (D.drop (m * N)).take N
  let colSum := fun (n : Nat) => (List.range M).map (fun m => nth D (m * N + n) 0)
  let total := fun (l : List Nat) =>
    if kind = 2 then word ((l.foldl (· + ·) 0) % 2 ^ 32) else word (sum64 (l.map (acc64 kind)))
  let r : CkRec := {
    off := e.a.toNat, m := M, n := N, kind := kind,
    rows := if load then (List.range M).map (fun m => total (rowSum m)) else List.replicate M 0,
    cols := if load then (List.range N).map (fun n => total (colSum n)) else List.replicate N 0,
    mu := if load && kind != 2 then word (sum64 (D.map (fun v => abs64 (acc64 kind v)))) else 0, skip := 0 }
  ((s.accWrite g.uid e.a.toNat kind D).updWg g.uid (fun g => { g with cks := openRec g.cks r }), 0, 0, false)

/-- The page FMT of an MDRAIN output (Table 13.8). -/
def outPage (out : Nat) : Nat :=
  match out with
  | 0 => 1 | 1 => 4 | 2 => 3 | 3 => 5 | 4 => 6 | 5 => 11 | _ => 2

/-- The float format of an MDRAIN output. -/
def outFmt (out : Nat) : FFmt :=
  match out with
  | 0 => fp32 | 1 => bf16 | 2 => fp16 | 3 => fe4m3 | 4 => fe5m2 | _ => fp64

/-- One accumulator element converted (R298). -/
def drainValue (kind out : Nat) (sat : Bool) (v : Nat) : Nat :=
  if kind = 2 ∨ (kind = 0 ∧ out = 0) ∨ (kind = 1 ∧ out = 6) then v
  else (cvtFloat (accFmt kind) (outFmt out) .rn sat v).bits

/-- The locations of a drain's destination tiles, each checked before any is written (R298). -/
def State.drainTiles (s : State) (g : Wg) (T : Tensor) (i2 i3 page : Nat) (r0 c0 rows cols : Nat) :
    Checked (List ((Nat × Nat) × Nat)) :=
  let grid := (List.range rows).flatMap (fun i => (List.range cols).map (fun j => (i, j)))
  grid.foldl (fun (acc : Checked (List ((Nat × Nat) × Nat))) (p : Nat × Nat) => acc.andThen (fun l =>
    let i := [c0 + p.2, r0 + p.1, i2, i3]
    (s.engineTile g.core g.ctx T i true).andThen (fun t =>
      if pteFmt t.entry = page then .ok (l ++ [(p, tileLoc T t i)]) else .bad (0x0E, T.tileVa i)))) (.ok [])

/-- The comparison of a drain that matches a record: CHK.CKSUM is set on a mismatch (R295). -/
def State.drainCheck (s : State) (g : Wg) (off M N kind : Nat) (D : List Nat) : Nat × State :=
  match g.cks.find? (fun r => r.isFor off M N kind) with
  | none => (0, s)
  | some r =>
    let (mism, un) := r.compare D
    let s := s.updWg g.uid (fun g => { g with cks := g.cks.map (fun q =>
      if q.isFor off M N kind then { q with drained := true, mism := mism, unchk := un } else q) })
    (mism, if mism = 0 then s else s.setChk g.ctx chkCksum)

/-- MDRAIN (R298, R295, R404). -/
def State.doDrain (s : State) (g : Wg) (e : QEntry) : Performed :=
  let f := e.fields
  let M := mRows f.sub
  let N := nCols f.sub
  let kind := f.imm.toNat % 4
  let out := f.sub.toNat % 8
  let sat := bitAt f.sub 3
  let w := outBytes out
  let D := accRead g e.a.toNat kind (M * N)
  let (mism, s) := s.drainCheck g e.a.toNat M N kind D
  let last : Nat × Nat × Bool := if bitAt f.imm 2 && mism != 0 then (2, 0x12, true) else (0, 0, false)
  if !bitAt f.imm 3 then
    let s := (List.zip (List.range (M * N)) D).foldl (fun s p =>
      s.writeLocal g.uid (e.b.toNat + tileOff (N * w) (p.1 / N) (p.1 % N * w)) (bytesOfNat w (drainValue kind out sat p.2))) s
    (s, last)
  else
    match s.tensorOf g.ctx e.b with
    | .bad b => (s, 2, b.1, false)
    | .ok (T, i2, i3) =>
      let (r0, c0) := rowsCols e.c
      match s.drainTiles g T i2 i3 (outPage out) r0 c0 (M / 8) (N * w / 32) with
      | .bad b => (s, 2, b.1, false)
      | .ok tiles =>
        let F := accFmt kind
        let judged := kind != 2
        if judged && policyBad T then (s, 2, 0x0C, false)
        else if judged && D.any (policyTraps T F) then (s.setChk g.ctx chkBound, 2, 0x11, true)
        else
          let pol := fun (v : Nat) => match applyPolicy T F v with
            | .store x fl => (x, fl)
            | _ => (v, false)
          let s := if judged && D.any (fun v => (pol v).2) then s.setChk g.ctx chkBound else s
          let val := fun (m n : Nat) =>
            let v := nth D (m * N + n) 0
            drainValue kind out sat (if judged then (pol v).1 else v)
          let s := tiles.foldl (fun s t =>
            s.engineWrite g.core g.ctx t.2 ((List.range 8).flatMap (fun r => (List.range (32 / w)).flatMap (fun k =>
              bytesOfNat w (val (8 * t.1.1 + r) (32 / w * t.1.2 + k)))))) s
          (s, last)

/-- MTRN: the source is read whole before the transpose is written (R299). -/
def State.doTrn (s : State) (g : Wg) (e : QEntry) : Performed :=
  let w := 2 ^ (e.fields.sub.toNat % 4)
  let R := fieldNat e.c 0 16
  let C := fieldNat e.c 16 16
  let cells := (List.range R).flatMap (fun r => (List.range C).map (fun c =>
    (tileOff (R * w) c (r * w), sparseRead g.locMem (e.b.toNat + tileOff (C * w) r (c * w)) w)))
  (cells.foldl (fun s p => s.writeLocal g.uid (e.a.toNat + p.1) p.2) s, 0, 0, false)

/-- The performance of a matrix entry. -/
def State.perform (s : State) (g : Wg) (e : QEntry) : Performed :=
  match e.cmd with
  | .mma _ => s.doMma g e false
  | .mmar _ => s.doMma g e true
  | .mzero _ => s.doAcc g e false
  | .mldacc _ => s.doAcc g e true
  | .mdrain _ => s.doDrain g e
  | .mtrn _ => s.doTrn g e
  | _ => (s, 0, 0, false)

/-! ### The steps of the engines (R269, R273, R280, R276) -/

/-- The queues of the workgroups of a core that one engine serves, in rotation order. -/
def State.served (s : State) (c : CoreId) (matrix : Bool) : List (Nat × QueueName) :=
  (s.wgs.filter (fun g => g.core == c)).flatMap (fun g =>
    if matrix then [(g.uid, .mq)] else [(g.uid, .cq 0), (g.uid, .cq 1), (g.uid, .cq 2), (g.uid, .cq 3)])

/-- The key of a queue in the rotation. -/
def turnKey (u : Nat) (q : QueueName) : Nat := u * 8 + q.no

/-- A head may start: it has not started, it is not held on a guard, and for a copy its context is not being pre-empted
(R273, R278). -/
def State.headReady (s : State) (u : Nat) (q : QueueName) : Bool :=
  match s.wg? u with
  | none => false
  | some g =>
    match g.head q with
    | none => false
    | some e => !e.started && e.guardGen.isNone && !e.cmd.isFence && q != .xq && (q == .mq || s.ctxLive g.ctx)

/-- Some entry of an engine of a core is being performed. -/
def State.engineBusy (s : State) (c : CoreId) (matrix : Bool) : Bool :=
  (s.served c matrix).any (fun p => ((s.wg? p.1).bind (fun g => g.head p.2)).any (fun e => e.started && !e.cmd.isFence))

/-- The queue that an engine serves next: the first after the last one served that has a ready head (R269). -/
def State.nextServed (s : State) (c : CoreId) (matrix : Bool) : Option (Nat × QueueName) :=
  let last := if matrix then (s.core c).lastMq else (s.core c).lastCq
  let ready := (s.served c matrix).filter (fun p => s.headReady p.1 p.2)
  let first := fun (l : List (Nat × QueueName)) =>
    (sortBy (fun (x y : Nat × QueueName) => decide (turnKey x.1 x.2 ≤ turnKey y.1 y.2)) l).head?
  (first (ready.filter (fun p => decide (last < turnKey p.1 p.2)))).or (first ready)

/-- Every entry that a QFENCE awaits has left its queue (R288). -/
def Wg.fenceMet (g : Wg) (e : QEntry) : Bool := !(g.queues.any (fun q => q.any (fun x => e.after.contains x.uid)))

/-- An entry that can start now. -/
def State.startable (s : State) (u : Nat) (q : QueueName) : Option (Wg × QEntry) :=
  match s.wg? u with
  | none => none
  | some g =>
    match g.head q with
    | none => none
    | some e =>
      let m := q == .mq
      if e.cmd.isFence then (if !e.started && e.guardGen.isNone && g.fenceMet e then some (g, e) else none)
      else if s.headReady u q && !s.engineBusy g.core m && s.nextServed g.core m == some (u, q)
        && !(m && s.migrations.any (fun x => x.phase == .switching)) then some (g, e) else none

/-- ENGINE_ENTRY_START: the head of a queue starts. A matrix command and a QFENCE are performed; a copy proceeds by COPY_CHUNK
(R269, R288). -/
def execEngineEntryStart (r : EngineRef) (s : State) : Host.Outcome State Fault Refusal :=
  match r with
  | .chain _ => .next s
  | .queue u q =>
    match s.startable u q with
    | none => .next s
    | some (g, e) =>
      if e.cmd.isFence then .next (s.updEntry u q e.uid (fun x => { x with started := true, outcome := some (0, 0, false) }))
      else if q == .mq then
        let (s', o) := s.perform g e
        .next (s.agentStep g.ctx e.uid ((s'.updEntry u q e.uid (fun x => { x with started := true, outcome := some o })).updCore
          g.core (fun c => { c with lastMq := turnKey u q })))
      else
        .next ((s.updEntry u q e.uid (fun x =>
          { x with started := true, outcome := if x.total = 0 then some (0, 0, false) else none })).updCore g.core
          (fun c => { c with lastCq := turnKey u q }))

/-- A head held on a guard whose generation is resolved. -/
def State.guardDue (s : State) (u : Nat) (q : QueueName) : Option (QEntry × Bool) :=
  match s.wg? u with
  | none => none
  | some g =>
    match g.head q with
    | none => none
    | some e => (e.guardGen.bind (fun b => g.genOf b)).map (fun v => (e, v))

/-- GUARD_HOLD_RESOLVED: true lets the command be performed, false discards it with status 1 (R273). -/
def execGuardHoldResolved (r : EngineRef) (s : State) : Host.Outcome State Fault Refusal :=
  match r with
  | .chain _ => .next s
  | .queue u q =>
    match s.guardDue u q with
    | none => .next s
    | some (e, true) => .next (s.updEntry u q e.uid (fun x => { x with guardGen := none }))
    | some (e, false) => .next ((s.finishEntry u q e 1 0 false).wakeMchk u)

/-- A copy that has started and has not ended. -/
def State.copying (s : State) (u : Nat) (q : QueueName) : Option (Wg × QEntry) :=
  match s.wg? u with
  | none => none
  | some g =>
    match g.head q with
    | none => none
    | some e => if e.started && e.outcome.isNone && s.ctxLive g.ctx && q != .mq && q != .xq then some (g, e) else none

/-- A tensor copy writes tiles that a migration may hold; it waits while some page's writes are stalled (R240). -/
def State.tilesHeld (s : State) : Bool := s.migrations.any (fun m => m.phase == .switching)

/-- COPY_CHUNK: one progress step of a copy command, or of a copy chain (R280, R282, R284, R33). -/
def execCopyChunk (r : EngineRef) (s : State) : Host.Outcome State Fault Refusal :=
  match r with
  | .queue u q =>
    match s.copying u q with
    | none => .next s
    | some (g, e) =>
      let tiles : Bool := match e.cmd with
        | .cpyt _ => true
        | _ => false
      if tiles && s.tilesHeld then .next s
      else match s.copyStep g e with
        | .held => .next s
        | .more s' p => .next (s.agentStep g.ctx e.uid (s'.updEntry u q e.uid (fun x =>
          { x with progress := p, outcome := if x.total ≤ p then some (0, 0, false) else none })))
        | .stop s' st code trap => .next (s.agentStep g.ctx e.uid (s'.updEntry u q e.uid (fun x =>
          { x with outcome := some (st, code, trap) })))
  | .chain id =>
    match s.chains.find? (fun k => k.id == id) with
    | none => .next s
    | some k =>
      if k.ended || !s.ctxLive k.ctx || ((k.recs.head?).any (fun r => r.kind != 1) && s.tilesHeld) then .next s
      else .next (s.agentStep k.ctx k.id (s.runChain k))

/-- An entry that has been performed. -/
def State.performed (s : State) (u : Nat) (q : QueueName) : Option (QEntry × Nat × Nat × Bool) :=
  if q == .xq && !((s.wg? u).bind (fun g => g.head q)).any (fun e => e.cmd.isFence) then none
  else ((s.wg? u).bind (fun g => g.head q)).bind (fun e => e.outcome.map (fun o => (e, o)))

/-- ENGINE_ENTRY_COMPLETE: the entry leaves its queue, and its tag and flag complete, as a release at workgroup scope (R270,
R276). -/
def execEngineEntryComplete (r : EngineRef) (s : State) : Host.Outcome State Fault Refusal :=
  match r with
  | .chain _ => .next s
  | .queue u q =>
    match s.performed u q with
    | none => .next s
    | some (e, st, code, trap) => .next ((s.finishEntry u q e st code trap).wakeMchk u)

end Sys2Proof.Machine
end

