-- ==== Sys2Proof/Machine/Fit.lean ====
section
/-!
DEFINITION. What a placement takes and where a unit fits (04 R47 to R55, 25 R412 to R415), the entry record of a spawned wave
or instance (15 R308), and the placing of a unit on a core (04 R57, 03 R31, R32).
-/
namespace Sys2Proof.Machine
open Sys2Proof

/-! ### Partitions (R415) -/

/-- The dies of a partition of a mode (Table 25.4). -/
def partDies (mode p : Nat) : List Nat :=
  match mode with
  | 1 => if p = 0 then [0, 1, 2, 3, 4, 5] else []
  | 2 => if p < 2 then [3 * p, 3 * p + 1, 3 * p + 2] else []
  | 3 => if p < 3 then [2 * p, 2 * p + 1] else []
  | 6 => if p < 6 then [p] else []
  | _ => []

/-- The dies of a context's partition. -/
def State.diesOf (s : State) (ctx : Nat) : List Nat :=
  match s.ctx? ctx with
  | some c => partDies s.mode c.desc.ownerPart
  | none => []

/-- The die at which a cell or a settle group of a number is served (R324, R338). -/
def State.homeDie (s : State) (ctx n : Nat) : Nat :=
  let ds := s.diesOf ctx
  nth ds (n % ds.length) 0

/-! ### Footprints (R31, R308) -/

/-- The slices that a unit takes: one for each crew. -/
def Footprint.crews (f : Footprint) : Nat := ceilDiv f.warps f.crew

/-- The fields of a footprint lie within their limits (Tables 3.6 and 15.4), and one core holds it. -/
def Footprint.ok (f : Footprint) : Bool :=
  decide (1 ≤ f.rows ∧ f.rows ≤ 128 ∧ f.tags ≤ 64 ∧ f.guards ≤ 16 ∧ f.acckib ≤ 256 ∧ f.loc ≤ 524288 ∧ f.loc % 256 = 0
    ∧ 1 ≤ f.warps ∧ f.warps ≤ 32 ∧ 1 ≤ f.crew ∧ f.crew ≤ 4 ∧ f.crew * f.rows ≤ 128)

/-- FAIRQ lies within its limits. -/
def fairqOk (q : Nat) : Bool := q == 0 || (decide (64 ≤ q) && decide (q ≤ 65536))

/-- The fairness quantum that a FAIRQ field gives. -/
def fairqOf (q : Nat) : Nat := if q = 0 then 1024 else q

/-- The footprint of an entry record (Table 15.4), with its FAIRQ field. -/
def footOfRecord (b : List Byte) : Footprint × Nat :=
  ({ entry := recWord b 0 8, rows := recNat b 8 1, tags := recNat b 9 1, guards := recNat b 10 1, acckib := recNat b 12 2,
     loc := recNat b 16 4, fairq := fairqOf (recNat b 20 4), limit := recNat b 24 8 }, recNat b 20 4)

/-- Read an entry record through a core, with the checks of R308. -/
def State.entryRecord (s : State) (c : CoreId) (ctx : Nat) (va : Word) : Checked Footprint × State :=
  match s.linear c ctx va 32 false with
  | .bad b => (.bad b, s)
  | .ok p =>
    let (b, s) := (s.cacheTlb p).engineRead c ctx (p.loc va.toNat) 32
    let (f, q) := footOfRecord b
    if f.ok && fairqOk q then (.ok f, s) else (.bad (0x0C, va), s)

/-- A wave joins its parent's crew only with a footprint of zero memory, tags and guards (R54). -/
def Footprint.bare (f : Footprint) : Bool := f.loc == 0 && f.acckib == 0 && f.tags == 0 && f.guards == 0

/-! ### Where a unit fits (R47 to R49, R52) -/

/-- The lowest multiple of a unit at which a range of a length fits beside the taken ranges of a memory (R49). -/
def lowestFit (taken : List (Nat × Nat)) (len unit cap : Nat) : Option Nat :=
  let cands := 0 :: taken.map (fun p => ceilDiv (p.1 + p.2) unit * unit)
  (sortBy (fun a b => decide (a ≤ b)) cands).find? (fun a =>
    decide (a + len ≤ cap) && taken.all (fun p => p.2 == 0 || len == 0 || decide (a + len ≤ p.1) || decide (p.1 + p.2 ≤ a)))

/-- The workgroups on a core. -/
def State.wgsOn (s : State) (c : CoreId) : List Wg := s.wgs.filter (fun g => g.core == c && !g.gone)

/-- The slices of a core that no crew holds. -/
def State.freeSlices (s : State) (c : CoreId) : List Nat :=
  (List.range 32).filter (fun k => !(s.wgsOn c).any (fun g => g.slices.contains k))

/-- Where a unit goes on a core: its slices, and the bases of its allotments. -/
structure Spot where
  core   : CoreId
  slices : List Nat
  loc    : Nat
  acc    : Nat
  deriving DecidableEq, Repr

/-- A core may take units of a context: its die is up and in the partition, no scrub holds the core (R412, R414), and no fused
group holds its cluster (R55). -/
def State.coreOpen (s : State) (ctx : Nat) (c : CoreId) : Bool :=
  let d := s.die c.die
  (s.diesOf ctx).contains c.die && d.boot == .up && !d.held.any (fun x => x.core == c.core) && !(s.core ⟨c.die, c.core / 4 * 4⟩).fused

/-- Where a workgroup or a workgroup-equivalent fits on a core. `k` is the number of fresh rows that its warp receives (R50). -/
def State.fitOn (s : State) (ctx : Nat) (f : Footprint) (k : Nat) (c : CoreId) : Option Spot :=
  let on := s.wgsOn c
  let free := s.freeSlices c
  let sum := fun (g : Footprint → Nat) => on.foldl (fun a w => a + g w.foot) 0
  if s.coreOpen ctx c && decide (f.crews ≤ free.length) && decide (f.crew * max f.rows k ≤ 128)
      && decide (sum (·.tags) + f.tags ≤ 256) && decide (sum (·.guards) + f.guards ≤ 64) then
    match lowestFit (on.map (fun g => (g.locBase, g.foot.loc))) f.loc 256 524288,
          lowestFit (on.map (fun g => (g.accBase, g.foot.acckib * 1024))) (f.acckib * 1024) 1024 262144 with
    | some l, some a => some { core := c, slices := free.take f.crews, loc := l, acc := a }
    | _, _ => none
  else none

/-- The resident warps of a core. -/
def State.residents (s : State) (c : CoreId) : Nat := (s.warps.filter (fun w => coreOfLoc w.loc == c)).length

/-- The best of a list of candidates, each with its keys: an active one first, then the fewest warps, then the first (R52). -/
def bestOf (l : List (α × Bool × Nat)) : Option α :=
  (l.foldl (fun (acc : Option (α × Bool × Nat)) x => match acc with
    | none => some x
    | some y => if (x.2.1 && !y.2.1) || (x.2.1 == y.2.1 && decide (x.2.2 < y.2.2)) then some x else acc) none).map (·.1)

/-- The cores of a die. -/
def coresOf (d : Nat) : List CoreId := (List.range 48).map (fun k => ⟨d, k⟩)

/-- The place that R52 chooses for a workgroup of its own on a die. -/
def State.bestSpot (s : State) (ctx d : Nat) (f : Footprint) (k : Nat) : Option Spot :=
  bestOf ((coresOf d).filterMap (fun c =>
    (s.fitOn ctx f k c).map (fun p => (p, (s.core c).active, s.residents c))))

/-- The places of a cluster group of n workgroups on cluster k of a die: workgroup i on core 4k + i (R54). A fused group needs the
cluster empty (R55). -/
def State.clusterSpots (s : State) (ctx d : Nat) (f : Footprint) (n : Nat) (fuse : Bool) (k : Nat) : Option (List Spot) :=
  let cs : List CoreId := (List.range 4).map (fun i => ⟨d, 4 * k + i⟩)
  if fuse && cs.any (fun c => s.residents c != 0 || !(s.wgsOn c).isEmpty) then none
  else
    let ps := (cs.take n).filterMap (s.fitOn ctx f 0)
    if ps.length = n then some ps else none

/-- The places that R54 and R52 choose for a cluster group on a die. A cluster is already active when every core that the group takes is
(log 46: DESIGN CHOICE). -/
def State.bestCluster (s : State) (ctx d : Nat) (f : Footprint) (n : Nat) (fuse : Bool) : Option (List Spot) :=
  bestOf ((List.range 12).filterMap (fun k =>
    (s.clusterSpots ctx d f n fuse k).map (fun ps =>
      let total := (List.range 4).foldl (fun a i => a + s.residents ⟨d, 4 * k + i⟩) 0
      (ps, ps.all (fun p => (s.core p.core).active), total))))

/-- The slot in which a spawned wave joins its parent's crew, when it may (R54). A wave spawned with .give receives references, and
no fresh row is counted for it; `k` counts the rows that it receives as copies (R50). -/
def State.joinSlot (s : State) (p : Pending) (k : Nat) : Option Loc :=
  match p.kind with
  | .wave _ sl u _ _ _ _ _ _ _ _ =>
    if !p.foot.bare then none
    else match s.wg? u with
      | none => none
      | some g =>
        if !g.retired && g.core == ⟨sl.die, sl.core⟩ && g.slices.contains sl.slice
            && decide ((max p.foot.rows k : Int) ≤ s.placeSlack sl) then
          ((List.range 4).map (fun i => (⟨sl.die, sl.core, sl.slice, i⟩ : Loc))).find? (fun l => (s.warp? l).isNone)
        else none
  | _ => none

/-! ### Placing (R57, R31, R32) -/

/-- A warp of a pending unit at its start: threads at ENTRY, in a mask, with its first uniform registers (R32). The entry is a target that
its first fetch checks. -/
def startWarp (p : Pending) (l : Loc) (uid wg : Nat) (kind : WarpKind) (ts : Mask) (args : List Word) : Warp :=
  { loc := l, uid := uid, wg := wg, ctx := p.ctx, kind := kind, prio := p.prio, rowsRes := p.foot.rows, fairQ := p.foot.fairq,
    queue := p.queue, cookie := p.cookie,
    threads := (List.range 32).map (fun t =>
      if bitAt ts t then { st := .running, pc := p.foot.entry, arriving := true } else { st := .exited }),
    unif := (args ++ List.replicate 192 0).take 192 }

/-- A workgroup of a pending unit at its start: tags set with status 0, guard slots unresolved, memories zero (R32). -/
def startWg (p : Pending) (uid : Nat) (sp : Spot) : Wg :=
  { uid := uid, ctx := p.ctx, core := sp.core, slices := sp.slices, foot := p.foot, prio := p.prio, cookie := p.cookie,
    locBase := sp.loc, accBase := sp.acc, tags := List.replicate p.foot.tags {}, guards := List.replicate p.foot.guards [none] }

/-- The handler rows and mailboxes of the slices that a crew takes start empty. -/
def State.clearSlices (s : State) (c : CoreId) (ks : List Nat) : State :=
  ks.foldl (fun s k => s.updSlice ⟨c.die, c.core, k⟩ (fun x => { x with mailboxes := List.replicate 16 none })) s

/-- Place a workgroup of a bundle, with its warps (R31, R57). -/
def State.placeWg (s : State) (p : Pending) (sp : Spot) (number : Nat) (b group : Nat) (fuse : Bool) (args : List Word) : State :=
  let (u, s) := s.fresh
  let g := { startWg p u sp with number := number, bundle := some b, group := some group, fuse := fuse }
  let s := { s with wgs := s.wgs ++ [g] }.clearSlices sp.core sp.slices
  (List.range p.foot.warps).foldl (fun s w =>
    let (id, s) := s.fresh
    let crew := w / p.foot.crew
    let l : Loc := ⟨sp.core.die, sp.core.core, nth sp.slices crew 0, w % p.foot.crew⟩
    let x := { startWarp p l id u .launched (-1) args with
      wid := w, crew := crew, gid := word number, placed := s.clk, bundle := some b }
    { s with warps := s.warps ++ [x] }) s

/-- Place a unit of one warp as its workgroup-equivalent (R54): the warp's slot, and the state. -/
def State.placeOwn (s : State) (p : Pending) (sp : Spot) (kind : WarpKind) (b : Option Nat) (ts : Mask) (args : List Word) :
    Loc × State :=
  let (u, s) := s.fresh
  let g := { startWg p u sp with wave := true, bundle := b }
  let s := { s with wgs := s.wgs ++ [g] }.clearSlices sp.core sp.slices
  let l : Loc := ⟨sp.core.die, sp.core.core, nth sp.slices 0 0, 0⟩
  let x := { startWarp p l p.uid u kind ts args with placed := s.clk, bundle := b }
  (l, { s with warps := s.warps ++ [x] })

/-- Put contents into a fresh row of a warp under a name (R50, R310). -/
def State.grantRow (s : State) (l : Loc) (n : Nat) (data : List Word) : State :=
  match s.allocRow l with
  | none => s
  | some (r, s) =>
    (s.updSlice (sliceOfLoc l) (fun x => x.updRow r (fun y => { y with data := data }))).setMap l n (some r)

end Sys2Proof.Machine
end

