-- ==== Sys2Proof/Machine/Sync.lean ====
section
/-!
DEFINITION. Synchronising (15): the barriers BAR and CBAR, split-phase barriers, spawned waves and their join, SIGNAL, the
stage rings and the stage governor.
-/
namespace Sys2Proof.Machine
open Sys2Proof

/-- A launched warp may wait on another party; a warp of a queued unit, and a handler run, may not (R302). -/
def State.mayWait (s : State) : Bool := !s.cur.handler && s.me.kind == .launched

/-! ### BAR and CBAR (R303, R304) -/

/-- The barrier of a workgroup, or of its cluster group, with its number. -/
def State.barrier? (s : State) (cluster : Bool) (id : Nat) : Option BarGen :=
  if cluster then (s.groups.find? (fun g => g.id == id)).map (·.cbar) else (s.wg? id).map (·.bar)

/-- Change a barrier. -/
def State.updBarrier (s : State) (cluster : Bool) (id : Nat) (g : BarGen → BarGen) : State :=
  if cluster then { s with groups := s.groups.map (fun x => if x.id == id then { x with cbar := g x.cbar } else x) }
  else s.updWg id (fun x => { x with bar := g x.bar })

/-- The launched warps that a barrier counts: those of the workgroup, or of every workgroup of the cluster group, that have not
retired. -/
def State.partiesOf (s : State) (cluster : Bool) (id : Nat) : List Warp :=
  let us := if cluster then ((s.groups.find? (fun g => g.id == id)).map (·.wgs)).getD [] else [id]
  s.warps.filter (fun w => us.contains w.wg && w.kind == .launched)

/-- An arrival differs from the generation's first (R303). -/
def BarGen.differs (b : BarGen) (count : Option Nat) : Bool := b.opened && b.count != count

/-- A count lies within its limits. -/
def countOk : Option Nat → Bool
  | none => true
  | some c => decide (1 ≤ c ∧ c ≤ 32)

/-- The issuing warp's barrier of a kind. -/
def State.myBarrier (s : State) (cluster : Bool) : Nat := if cluster then s.myWg.group.getD 0 else s.me.wg

/-- The open generation of a barrier is complete (R303). -/
def State.barrierDone (s : State) (cluster : Bool) (id : Nat) : Option BarGen :=
  (s.barrier? cluster id).bind (fun b =>
    let yes := b.opened && (match b.count with
      | some c => decide (c ≤ b.arrived.length)
      | none => (s.partiesOf cluster id).all (fun w => b.arrived.contains w.uid))
    if yes then some b else none)

/-- The PC at which a warp waits for a generation of a barrier. -/
def Warp.barrierPc (w : Warp) (cluster : Bool) (gen : Nat) : Option Word :=
  (w.waits.find? (fun x => x.kind == .barrier cluster gen && x.mask == w.runAt x.pc)).map (·.pc)

/-- An arrived warp proceeds past its barrier; one that cannot proceed now, or whose context is being pre-empted (R387), passes it when it issues
the barrier again. -/
def State.passBarrier (s : State) (cluster : Bool) (id gen uid : Nat) : State :=
  match s.warpByUid uid with
  | none => s
  | some w =>
    match (if s.ctxLive w.ctx then w.barrierPc cluster gen else none) with
    | none => s.updBarrier cluster id (fun b => { b with owed := b.owed ++ [uid] })
    | some pc =>
      let s' := { s with cur := { s.cur with loc := w.loc, handler := false, pc := pc } }
      let s' := s'.advance s'.run
      { (if cluster then s'.acquire (coreOfLoc w.loc) .cluster else s') with cur := s.cur }

/-- A generation that is complete ends: every arrived warp proceeds, and a new generation opens (R303, R304). -/
def State.endGeneration (s : State) (cluster : Bool) (id : Nat) : State :=
  match s.barrierDone cluster id with
  | none => s
  | some b =>
    let s := b.arrived.foldl (fun s u => s.passBarrier cluster id b.gen u) s
    s.updBarrier cluster id (fun x => { x with gen := b.gen + 1, arrived := [], count := none, opened := false })

/-- BARRIER_COMPLETE (R303, R304). -/
def execBarrierComplete (cluster : Bool) (id : Nat) (s : State) : Host.Outcome State Fault Refusal :=
  .next (s.endGeneration cluster id)

/-- The course of BAR and CBAR: the warp gathers, arrives once, and waits for its generation (R303, R321). A generation that is complete ends
before the arrival, which opens the next. -/
def State.arriveBar (s : State) (f : FmtA) (cluster : Bool) (count : Option Nat) (run ex : Mask) : State :=
  let s := s.endGeneration cluster (s.myBarrier cluster)
  let w := s.me
  let id := s.myBarrier cluster
  if !w.whole s.cur.pc then s.waitFor f.cf .gather
  else match s.barrier? cluster id with
    | none => s.allFault run ex (illegalOp s)
    | some b =>
      if b.owed.contains w.uid then
        let s := s.updBarrier cluster id (fun b => { b with owed := b.owed.filter (· != w.uid) })
        (if cluster then s.acquire s.myCore .cluster else s).complete run ex f.cf []
      else if b.arrived.contains w.uid then s.waitFor f.cf (.barrier cluster b.gen)
      else if !countOk count || b.differs count then s.allFault run ex (illegalOp s)
      else if cluster && s.releaseStalls s.myCore .cluster then s.waitFor f.cf .stalledWrite
      else
        let s := if cluster then s.release s.myCore .cluster else s
        (s.updBarrier cluster id (fun b =>
          { b with arrived := b.arrived ++ [w.uid], count := count, opened := true })).waitFor f.cf (.barrier cluster b.gen)

/-- BAR (R303). -/
def execBar (f : FmtA) (s : State) : Host.Outcome State Fault Refusal :=
  s.issue s.mayWait f.guard f.cf f.sa.touch (fun run ex =>
    s.arriveBar f false (if f.fn == 1 then some (s.src f.sa 0 (f.imm.setWidth 64)).toNat else none) run ex)

/-- CBAR (R303). -/
def execCbar (f : FmtA) (s : State) : Host.Outcome State Fault Refusal :=
  s.issue s.mayWait f.guard f.cf [] (fun run ex => s.arriveBar f true none run ex)

/-! ### ARRIVE and AWAIT (R305 to R307) -/

/-- A barrier object after an arrival of n (R306). -/
def barArrive (o : Word) (n : Nat) : Word :=
  let expect := fieldNat o 0 16
  let pending := fieldNat o 16 16
  let phase := fieldNat o 32 16
  let (ph, pe) := if pending ≤ n then ((phase + 1) % 65536, expect) else (phase, pending - n)
  word (fieldNat o 48 16 * 2 ^ 48 + ph * 2 ^ 32 + pe * 2 ^ 16 + expect)

/-- ARRIVE (R306). -/
def execArrive (f : FmtM) (s : State) : Host.Outcome State Fault Refusal :=
  s.issue (!s.cur.handler) f.guard f.cf (f.base.touch ++ f.index.touch ++ f.dst.touch) (fun run ex =>
    match localCheck s.myWg.foot.loc (s.eaOf f 0 false 0) 8 with
    | .bad b => s.allFault run ex (s.faultHere b.1 b.2)
    | .ok a =>
      let o := wordOfBytes (sparseRead s.myWg.locMem a 8)
      let n := if f.index == .imm then 1 else fieldNat (s.srcM f.index 0) 0 16
      let s := (s.setLocal s.me.wg a (bytesOfWord 8 (barArrive o n))).updWg s.me.wg (fun g =>
        { g with objects := if g.objects.contains a then g.objects else g.objects ++ [a] })
      (s.setUni f.dst.no (word (fieldNat o 32 16))).complete run ex f.cf [])

/-- The PHASE of a barrier object of a workgroup. -/
def Wg.phaseAt (g : Wg) (a : Nat) : Nat := fieldNat (wordOfBytes (sparseRead g.locMem a 8)) 32 16

/-- AWAIT (R307). -/
def execAwait (f : FmtM) (s : State) : Host.Outcome State Fault Refusal :=
  s.issue s.mayWait f.guard f.cf (f.base.touch ++ f.data.touch) (fun run ex =>
    match localCheck s.myWg.foot.loc (s.eaOf f 0 false 0) 8 with
    | .bad b => s.allFault run ex (s.faultHere b.1 b.2)
    | .ok a =>
      let token := fieldNat (s.src f.data 0 0) 0 16
      if s.myWg.phaseAt a ≠ token then (s.acquireFor f).complete run ex f.cf []
      else (s.updWg s.me.wg (fun g => { g with objects := if g.objects.contains a then g.objects else g.objects ++ [a] })).waitFor f.cf (.await a (BitVec.ofNat 16 token) f.scope))

/-- A waiting AWAIT whose object's phase has changed. -/
def State.awaitDue (s : State) (l : Loc) (pc : Word) : Option Scope :=
  match s.warp? l, s.waitAt l false pc with
  | some w, some x =>
    match x.kind, s.wg? w.wg with
    | .await a token sc, some g => if x.mask == w.runAt pc && s.ctxLive w.ctx && g.phaseAt a != token.toNat then some sc else none
    | _, _ => none
  | _, _ => none

/-- AWAIT_COMPLETE: the run observes the changed phase, as an acquire, and passes the AWAIT (R307). -/
def execAwaitComplete (l : Loc) (pc : Word) (s : State) : Host.Outcome State Fault Refusal :=
  match s.awaitDue l pc with
  | none => .next s
  | some sc =>
    let s := { s with cur := { s.cur with loc := l, handler := false, pc := pc } }.acquire (coreOfLoc l) sc
    .next (s.advance s.run)

/-! ### SPAWN (R308 to R312) -/

/-- A queue. -/
def State.queue? (s : State) (r : QueueRef) : Option Queue := s.queues.find? (fun q => q.ref == r)

/-- The priority of a queue now, or a default. -/
def State.prioOf (s : State) (q : Option QueueRef) (d : Nat) : Nat := ((q.bind s.queue?).map (·.prio)).getD d

/-- The pending spawned waves of a context on a die (R309). -/
def State.pendingWaves (s : State) (ctx d : Nat) : Nat :=
  (s.pending.filter (fun p => p.ctx == ctx && p.die == d && (match p.kind with | .wave .. => true | _ => false))).length

/-- The references that pending waves hold to rows of a slice (R310). -/
def State.pendingRefs (s : State) (sl : SliceId) : Nat :=
  s.pending.foldl (fun n p => match p.kind with
    | .wave _ x _ _ _ _ _ _ _ given _ =>
      if x == sl then n + (given.filter (fun (g : Given) => match g with | .ref _ => true | .copy _ => false)).length else n
    | _ => n) 0

/-- Join slot j of a warp. -/
def Warp.join (w : Warp) (j : Nat) : JoinSlot := nth w.joins j {}

/-- Change a join slot. -/
def Warp.updJoin (w : Warp) (j : Nat) (g : JoinSlot → JoinSlot) : Warp := { w with joins := tweakNth {} w.joins j g }

/-- The place of a slot of a die's spill area (Table 23.6, R400). -/
def State.spillAt (s : State) (ctx d slot : Nat) : Nat := ((s.ctx? ctx).map (·.desc.spillBase.toNat)).getD 0 + 2 ^ 23 * d + 256 * slot

/-- The slots of a die's spill area that pending waves of a context hold. -/
def State.spilled (s : State) (ctx d : Nat) : List Nat :=
  s.pending.flatMap (fun p => match p.kind with
    | .wave _ _ _ _ _ _ _ _ _ given _ => if p.ctx == ctx && p.die == d then given.filterMap (fun g => match g with | .copy k => some k | .ref _ => none) else []
    | _ => [])

/-- The contents of a row are captured in a slot of the spill area (R400). The write is the module's own, and is not logged. -/
def State.spill (s : State) (ctx d slot : Nat) (data : List Word) : State := s.homeWrite noCtx (s.spillAt ctx d slot) (data.flatMap (bytesOfWord 8))

/-- The contents that a slot of the spill area holds. -/
def State.unspill (s : State) (ctx d slot : Nat) : List Word :=
  (List.range 32).map (fun t => recWord (s.bytesAt (s.spillAt ctx d slot) 256) (8 * t) 8)

/-- The lowest slots of a spill area that hold nothing (log 24). -/
def freeSlots (used : List Nat) (n : Nat) : List Nat := ((List.range (used.length + n)).filter (fun k => !used.contains k)).take n

/-- What SPAWN answers: a predicate, or the pending wave with the state. -/
def State.spawnWave (s : State) (f : FmtA) (ex : Mask) (foot : Footprint) : State :=
  let w := s.me
  let sl := sliceOfLoc s.cur.loc
  let k := f.fn.toNat
  let give := f.imm.getLsbD 5
  let j := f.imm.toNat % 16
  let names := (List.range k).map (fun i => f.sb.no + i)
  let caught := List.zip names (freeSlots (s.spilled w.ctx s.cur.loc.die) k)
  let given := if give then names.map (fun n => Given.ref ((w.mapOf n).getD 0)) else caught.map (fun p => .copy p.2)
  let args := if f.sc == .imm then List.replicate 8 0 else (List.range 8).map (fun i => s.uni (f.sc.no + i))
  let q := w.queue
  let (u, s) := s.fresh
  let p : Pending := {
    uid := u, ctx := w.ctx, die := s.cur.loc.die, prio := s.prioOf q w.prio, arrival := s.clk, foot := foot, queue := q,
    cookie := w.cookie, kind := .wave w.uid sl w.wg (w.depth + 1) j ex args w.gid give given w.bundle }
  let s := if give then names.foldl (fun s n => s.setMap s.cur.loc n none) s
    else caught.foldl (fun (s : State) p => s.spill w.ctx s.cur.loc.die p.2 ((List.range 32).map (fun t => s.elem p.1 t))) s
  let s := s.updWarp s.cur.loc (fun w => w.updJoin j (fun x => { x with pending := x.pending + 1 }))
  let s := match w.bundle with
    | some b => s.updBundle b (fun x => { x with waves := x.waves + 1 })
    | none => s
  { s with pending := s.pending ++ [p] }

/-- A capacity of R309 is exhausted. -/
def State.spawnFull (s : State) (f : FmtA) : Bool :=
  let k := f.fn.toNat
  decide (4096 ≤ s.pendingWaves s.myCtx s.cur.loc.die) || decide (65535 ≤ (s.me.join (f.imm.toNat % 16)).pending)
    || (f.imm.getLsbD 5 && decide (32 < s.pendingRefs (sliceOfLoc s.cur.loc) + k))

/-- The end of a SPAWN: its predicate is written in every executing thread. -/
def State.spawnEnd (s : State) (f : FmtA) (run ex : Mask) (ok : Bool) : State :=
  (s.setPred f.dst.no ex (if ok then ex else 0)).complete run ex f.cf []

/-- The checks of SPAWN after its names: the depth, the entry record, the spill area and the capacities, in order (R309). -/
def State.spawnGo (s : State) (f : FmtA) (run ex : Mask) : State :=
  let k := f.fn.toNat
  let va := s.uni f.sa.no
  if 8 ≤ s.me.depth then
    if f.imm.getLsbD 4 then s.allFault run ex (s.faultHere 0x19 (word s.me.depth)) else s.spawnEnd f run ex false
  else match s.entryRecord s.myCore s.myCtx va with
    | (.bad b, s) => s.allFault run ex (s.faultHere b.1 b.2)
    | (.ok foot, s) =>
      let spill := ((s.ctx? s.myCtx).map (·.desc.spillBase)).getD 0
      if k ≠ 0 && spill == 0 then s.allFault run ex (s.faultHere 0x0C va)
      else if s.spawnFull f then s.spawnEnd f run ex false
      else if s.releaseStalls s.myCore .die then s.waitFor f.cf .stalledWrite
      else ((s.release s.myCore .die).spawnWave f ex foot).spawnEnd f run ex true

/-- SPAWN (R309, R310). With given names and .give it is a map edit too (R134). -/
def execSpawn (f : FmtA) (s : State) : Host.Outcome State Fault Refusal :=
  let k := f.fn.toNat
  let edit := f.imm.getLsbD 5 && k != 0
  let names := (List.range k).map (fun i => Touch.name (f.sb.no + i))
  let args := if f.sc == .imm then [] else (List.range 8).map (fun i => Touch.uni (f.sc.no + i))
  s.issue (!s.cur.handler) f.guard f.cf (f.sa.touch ++ args ++ (if edit then [] else names) ++ [.pred f.dst.no]) (fun run ex =>
    let w := s.me
    let absent := w.inState .running &&& ~~~run
    if edit && absent != 0 then s.allFault run run (s.faultHere 0x09 (absent.setWidth 64))
    else if edit && w.inState .parked != 0 then s.waitFor f.cf .mapEdit
    else s.runStep (s.reading run ex names (s.spawnGo f run ex)))

/-! ### JOIN (R313, R314) -/

/-- The effect of JOIN on a slot that counts no pending child (R314). -/
def State.joinNow (s : State) (j d q : Nat) (run ex : Mask) (cf : Attach) : State :=
  let x := s.me.join j
  let ended := x.normal + x.faulted + x.killed
  let s := if ended = 0 then s else s.acquire s.myCore .die
  let s := s.setUni d (word (x.normal + x.faulted * 2 ^ 16 + x.killed * 2 ^ 32))
  let s := s.setPred q ex (if x.faulted = 0 ∧ x.killed = 0 then ex else 0)
  let s := s.updWarp s.cur.loc (fun w => w.updJoin j (fun y => { y with normal := 0, faulted := 0, killed := 0 }))
  s.complete run ex cf []

/-- JOIN (R314). -/
def execJoin (f : FmtA) (s : State) : Host.Outcome State Fault Refusal :=
  let j := f.imm.toNat % 16
  let q := f.imm.toNat / 256 % 16
  s.issue (!s.cur.handler) f.guard f.cf (f.dst.touch ++ [.pred q]) (fun run ex =>
    if (s.me.join j).pending = 0 then s.joinNow j f.dst.no q run ex f.cf else s.waitFor f.cf (.join j f.dst.no q ex))

/-- A waiting JOIN whose children have all ended: its slot, destination, predicate and executing threads. -/
def State.joinDue (s : State) (l : Loc) (pc : Word) : Option (Nat × Nat × Nat × Mask) :=
  match s.warp? l, s.waitAt l false pc with
  | some w, some x =>
    match x.kind with
    | .join j d q ex => if x.mask == w.runAt pc && s.ctxLive w.ctx && (w.join j).pending == 0 then some (j, d, q, ex) else none
    | _ => none
  | _, _ => none

/-- JOIN_COMPLETE: the slot counts no pending child any longer, and the waiting JOIN takes its effect (R314). -/
def execJoinComplete (l : Loc) (pc : Word) (s : State) : Host.Outcome State Fault Refusal :=
  match s.joinDue l pc with
  | none => .next s
  | some (j, d, q, ex) =>
    let s := { s with cur := { s.cur with loc := l, handler := false, pc := pc } }
    .next (s.joinNow j d q s.run ex .none)

/-- One more end of a class in a join slot (R313). -/
def JoinSlot.count (x : JoinSlot) (c : EndClass) : JoinSlot :=
  let x := { x with pending := x.pending - 1 }
  match c with
  | .normal => { x with normal := (x.normal + 1) % 65536 }
  | .faulted => { x with faulted := (x.faulted + 1) % 65536 }
  | .killed => { x with killed := (x.killed + 1) % 65536 }

/-- CHILD_END: a spawned wave has ended, as a release at die scope; its class is added to the parent's join slot, when the parent
is still resident, and its bundle has one wave less (R313, R315). -/
def execChildEnd (uid : Nat) (s : State) : Host.Outcome State Fault Refusal :=
  match s.ended.find? (fun e => e.uid == uid && e.inst.isNone) with
  | none => .next s
  | some e =>
    if s.releaseStalls e.core .die then .next s
    else
      let s := { s with ended := s.ended.filter (fun x => x != e) }.release e.core .die
      let s := match e.joinOf.bind (fun p => (s.warpByUid p.1).map (fun w => (w.loc, p.2))) with
        | some (l, j) => s.updWarp l (fun w => w.updJoin j (fun x => x.count e.endClass))
        | none => s
      .next (match e.bundle with
        | some b => s.updBundle b (fun x => { x with waves := x.waves - 1 })
        | none => s)

/-! ### SIGNAL (R316) -/

/-- The access of a SIGNAL, made once for the run: a store that is then released, or an atomic add after the release. -/
def State.signalAct (s : State) (f : FmtA) : MemAct :=
  let ea := s.uni f.sa.no
  let v := s.src f.sb 0 (f.imm.setWidth 64)
  let sc : Scope := if f.fn.getLsbD 1 then .sys else .module
  match s.linear s.myCore s.myCtx ea 8 true with
  | .bad b => { s := s, out := .bad b }
  | .ok p =>
    let a := p.loc ea.toNat
    let s' := if f.fn.getLsbD 0 then (((s.cacheTlb p).release s.myCore sc).homeAtomic s.myCore s.myCtx a 8 (fun o => o + v)).2
      else (s.storeBytes p ea (bytesOfWord 8 v)).release s.myCore sc
    { s := s', out := .done 0 0 0, held := s.releaseStalls s.myCore sc || s.stalls a }

/-- SIGNAL (R316). -/
def execSignal (f : FmtA) (s : State) : Host.Outcome State Fault Refusal :=
  s.issue (!s.cur.handler) f.guard f.cf (f.sa.touch ++ f.sb.touch) (fun run ex =>
    let r := s.signalAct f
    match r.out with
    | .bad b => s.allFault run ex (s.faultHere b.1 b.2)
    | .done _ _ _ =>
      if r.held then s.waitFor f.cf .stalledWrite else s.runStep (r.s.complete run ex f.cf []))

/-! ### Stage rings (R317 to R319) -/

/-- A ring's header (Table 15.6). -/
structure Ring where
  head   : Nat
  tail   : Nat
  cap    : Nat
  low    : Nat
  high   : Nat
  item   : Nat
  closed : Bool
  deriving DecidableEq, Repr

/-- The header of 64 bytes. -/
def ringOf (b : List Byte) : Ring :=
  { head := recNat b 0 8, tail := recNat b 8 8, cap := recNat b 16 4, low := recNat b 20 4, high := recNat b 24 4,
    item := recNat b 28 2, closed := (recNat b 30 1).testBit 0 }

/-- The items that a ring holds. -/
def Ring.occ (r : Ring) : Nat := (r.tail + 2 ^ 64 - r.head) % 2 ^ 64

/-- A header that QPUSH and QPOP accept (R317). -/
def Ring.ok (r : Ring) : Bool :=
  decide (2 ≤ r.cap ∧ r.cap ≤ 65536 ∧ (r.item = 64 ∨ r.item = 128 ∨ r.item = 192 ∨ r.item = 256) ∧ r.low < r.high
    ∧ r.high ≤ r.cap ∧ r.occ ≤ r.cap)

/-- The address of an item. -/
def Ring.itemVa (r : Ring) (va : Word) (i : Nat) : Word := va + word (256 + i % r.cap * r.item)

/-- Open the ring at an address: its header's location and contents. The ring's die is that of its first user (R318). -/
def State.openRing (s : State) (c : CoreId) (ctx : Nat) (va : Word) : Checked (Nat × Ring) × State :=
  if va.toNat % 256 ≠ 0 then (.bad (0x0D, va), s)
  else match s.walk c ctx va true with
    | .bad b => (.bad b, s)
    | .ok t =>
      let a := t.loc va.toNat
      let (b, s) := (s.cacheTlb t).engineRead c ctx a 64
      let r := ringOf b
      if !r.ok then (.bad (0x0C, va), s)
      else
        let s := if (lookupKey s.rings (ctx, va)).isSome then s else { s with rings := s.rings ++ [((ctx, va), c.die)] }
        (.ok (a, r), s)

/-- A ring's header as its home holds it, for the governor. -/
def State.peekRing (s : State) (ctx : Nat) (va : Word) : Option Ring :=
  let d := (lookupKey s.rings (ctx, va)).getD ((s.diesOf ctx).headD 0)
  (s.translate ⟨d, 48⟩ ctx va.toNat).map (fun t => ringOf (s.homeRead (t.loc va.toNat) 64))

/-! ### The stage governor (R320) -/

/-- A stage of a pipe. -/
def Pipe.stage (p : Pipe) (k : Nat) : Stage := nth p.stages k { foot := {}, ring := 0, wmin := 0, wmax := 0 }

/-- The resident waves of a stage. -/
def State.stageWarps (s : State) (cmd k : Nat) : List Warp := s.warps.filter (fun w => w.kind == .stage cmd k)

/-- The resident and pending waves of a stage. -/
def State.stageCount (s : State) (cmd k : Nat) : Nat :=
  (s.stageWarps cmd k).length + (s.pending.filter (fun p => match p.kind with
    | .stage c j _ => c == cmd && j == k
    | _ => false)).length

/-- The die of the partition on which a stage's footprint fits now: a wave of it is placed on any (R41, R320). -/
def State.stageDie (s : State) (p : Pipe) (k : Nat) : Option Nat :=
  (s.diesOf p.ctx).find? (fun d => (s.bestSpot p.ctx d (p.stage k).foot 0).isSome)

/-- The ring of a stage is closed and empty, so that no wave of it is placed. -/
def State.stageOver (s : State) (p : Pipe) (k : Nat) : Bool :=
  (s.peekRing p.ctx (p.stage k).ring).any (fun r => r.closed && r.occ == 0)

/-- A wave of a stage becomes pending, unless its ring is closed and empty. -/
def State.addStage (s : State) (p : Pipe) (k : Nat) : State :=
  if s.stageOver p k then s
  else
    let st := p.stage k
    let q := s.cmds.find? (fun c => c.uid == p.cmd)
    let (u, s) := s.fresh
    { s with pending := s.pending ++ [{
        uid := u, ctx := p.ctx, die := (s.stageDie p k).getD ((s.diesOf p.ctx).headD 0), prio := s.prioOf (q.map (·.queue)) 0,
        arrival := s.clk, foot := st.foot, queue := q.map (·.queue), cookie := (q.map (·.hdr.cookie)).getD 0,
        kind := .stage p.cmd k [word k, st.ring] }] }

/-- The items that a stage's ring holds. -/
def State.stageOcc (s : State) (p : Pipe) (k : Nat) : Nat := ((s.peekRing p.ctx (p.stage k).ring).map (·.occ)).getD 0

/-- The stages that are congested and have fewer than WMAX waves. -/
def State.congested (s : State) (p : Pipe) : List Nat :=
  (List.range p.stages.length).filter (fun c =>
    (s.peekRing p.ctx (p.stage c).ring).any (fun r => decide (r.high ≤ r.occ)) && decide (s.stageCount p.cmd c < (p.stage c).wmax))

/-- The idle stages with more than WMIN waves, the lowest occupancy first, then the lowest number. -/
def State.idleStages (s : State) (p : Pipe) : List Nat :=
  sortBy (fun a b => decide (s.stageOcc p a ≤ s.stageOcc p b)) ((List.range p.stages.length).filter (fun i =>
    (s.peekRing p.ctx (p.stage i).ring).any (fun r => decide (r.occ < r.low)) && decide ((p.stage i).wmin < s.stageCount p.cmd i)
      && !(s.stageWarps p.cmd i).isEmpty))

/-- The wave that was placed last. -/
def lastPlaced (ws : List Warp) : Option Warp :=
  ws.foldl (fun acc w => match acc with
    | none => some w
    | some a => if a.placed < w.placed || (a.placed == w.placed && decide (a.uid < w.uid)) then some w else some a) none

/-- Change a pipe. -/
def State.updPipe (s : State) (cmd : Nat) (g : Pipe → Pipe) : State :=
  { s with pipes := s.pipes.map (fun p => if p.cmd == cmd then g p else p) }

/-- One evaluation of a pipeline (R320). -/
def State.governPipe (s : State) (p : Pipe) : State :=
  let need := (List.range p.stages.length).filter (fun k => decide (0 < s.stageOcc p k) && s.stageCount p.cmd k == 0)
  let s := need.foldl (fun s k => s.addStage p k) s
  match s.congested p with
  | [] => s
  | c :: _ =>
    if (s.stageDie p c).isSome then s.addStage p c
    else if p.leave.isSome then s
    else match s.idleStages p with
      | [] => s
      | i :: _ =>
        match lastPlaced (s.stageWarps p.cmd i) with
        | none => s
        | some w =>
          (s.updWarp w.loc (fun w => { w with leave := true })).updPipe p.cmd (fun p => { p with leave := some (w.wg, c) })

/-- A context starts new governor actions only while it runs (R387). -/
def State.govern (s : State) (ctx : Nat) (ring : Word) : State :=
  if !s.ctxLive ctx then s
  else
    (s.pipes.filter (fun p => p.ctx == ctx && p.stages.any (fun k => k.ring == ring))).foldl (fun s p =>
      match s.pipes.find? (fun q => q.cmd == p.cmd) with
      | some p => s.governPipe p
      | none => s) s

/-- The unit of a wave that was told to leave has retired: a wave of the congested stage takes its place (R320). -/
def State.waveLeft (s : State) (uid : Nat) : State :=
  match s.pipes.find? (fun p => p.leave.any (fun x => x.1 == uid)) with
  | none => s
  | some p =>
    let c := ((p.leave).map (·.2)).getD 0
    let s := s.updPipe p.cmd (fun p => { p with leave := none })
    if s.ctxLive p.ctx && decide (s.stageCount p.cmd c < (p.stage c).wmax) then s.addStage p c else s

/-! ### QPUSH and QPOP -/

/-- The local side of a ring instruction (R317). -/
def localItem (g : Wg) (off : Word) (item : Nat) : Checked Nat :=
  if off.toNat % 64 ≠ 0 then .bad (0x0D, off) else if g.foot.loc < off.toNat + item then .bad (0x0C, off) else .ok off.toNat

/-- QPUSH of the issuing run to a ring (R318). `off` is the local offset, none for .close. -/
def State.pushGo (s0 : State) (ring : Word) (off : Option Word) (run ex : Mask) (cf : Attach) : State :=
  let c := s0.myCore
  let ctx := s0.myCtx
  match s0.openRing c ctx ring with
  | (.bad b, s) => s.allFault run ex (s.faultHere b.1 b.2)
  | (.ok (a, r), s) =>
    if s.me.popped || r.closed then s.allFault run ex (s.faultHere 0x0C ring)
    else match off with
      | none =>
        if s.releaseStalls c .module || s.stalls a then s0.waitFor cf .stalledWrite
        else
          let s := (s.release c .module).engineWrite c ctx (a + 30) [1]
          (s.govern ctx ring).complete run ex cf []
      | some off =>
        match localItem s.myWg off r.item with
        | .bad b => s.allFault run ex (s.faultHere b.1 b.2)
        | .ok o =>
          if r.occ = r.cap then s0.waitFor cf (.ringPush ring off ex)
          else match s.segments c ctx (r.itemVa ring r.tail) r.item true with
            | .bad b => s.allFault run ex (s.faultHere b.1 b.2)
            | .ok ws =>
              if s.releaseStalls c .module || s.stalls a || s.segsHeld ws then s0.waitFor cf .stalledWrite
              else
                let s := s.release c .module
                let s := s.writeSegs c ctx ws (s.readLocal s.me.wg o r.item)
                let s := s.engineWrite c ctx (a + 8) (bytesOfNat 8 ((r.tail + 1) % 2 ^ 64))
                (s.govern ctx ring).complete run ex cf []

/-- The end of a QPOP that writes a status. A queued unit that receives 1 or 2 may push no more (R319). -/
def State.popStatus (s : State) (d st : Nat) (run ex : Mask) (cf : Attach) : State :=
  let s := if st = 0 || s.me.kind == .launched then s else s.updWarp s.cur.loc (fun w => { w with popped := true })
  (s.setUni d (word st)).complete run ex cf []

/-- QPOP of the issuing run from a ring (R319). -/
def State.popGo (s0 : State) (ring off : Word) (d : Nat) (run ex : Mask) (cf : Attach) : State :=
  let c := s0.myCore
  let ctx := s0.myCtx
  match s0.openRing c ctx ring with
  | (.bad b, s) => s.allFault run ex (s.faultHere b.1 b.2)
  | (.ok (a, r), s) =>
    match localItem s.myWg off r.item with
    | .bad b => s.allFault run ex (s.faultHere b.1 b.2)
    | .ok o =>
      if s.me.leave then s.popStatus d 1 run ex cf
      else if r.occ = 0 then
        if r.closed then s.popStatus d 2 run ex cf else s0.waitFor cf (.ringPop ring off d ex)
      else match s.segments c ctx (r.itemVa ring r.head) r.item false with
        | .bad b => s.allFault run ex (s.faultHere b.1 b.2)
        | .ok rs =>
          if s.stalls a then s0.waitFor cf .stalledWrite
          else
            let s := s.acquire c .module
            let (b, s) := s.readSegs c ctx rs
            let s := s.writeLocal s.me.wg o b
            let s := s.engineWrite c ctx a (bytesOfNat 8 ((r.head + 1) % 2 ^ 64))
            (s.govern ctx ring).popStatus d 0 run ex cf

/-- The local offset of a ring instruction. -/
def State.ringOff (s : State) (f : FmtM) : Word := s.src f.data 0 0 + f.offset.signExtend 64

/-- QPUSH (R318). -/
def execQpush (f : FmtM) (s : State) : Host.Outcome State Fault Refusal :=
  let close := f.ty == .i8
  s.issue (!s.cur.handler) f.guard f.cf (f.base.touch ++ (if close then [] else f.data.touch)) (fun run ex =>
    s.runStep (s.pushGo (s.srcM f.base 0) (if close then none else some (s.ringOff f)) run ex f.cf))

/-- QPOP (R319). -/
def execQpop (f : FmtM) (s : State) : Host.Outcome State Fault Refusal :=
  s.issue (!s.cur.handler) f.guard f.cf (f.base.touch ++ f.data.touch ++ f.dst.touch) (fun run ex =>
    s.runStep (s.popGo (s.srcM f.base 0) (s.ringOff f) f.dst.no run ex f.cf))

/-- A waiting QPUSH or QPOP that the governor can complete now: its ring is no longer as the wait needs it (R318, R319). -/
def State.ringDue (s : State) (l : Loc) (pc : Word) : Option Wait :=
  match s.warp? l, s.waitAt l false pc with
  | some w, some x =>
    let ring := fun (va : Word) => (s.openRing (coreOfLoc l) w.ctx va).1
    let due := x.mask == w.runAt pc && s.ctxLive w.ctx && (match x.kind with
      | .ringPush va _ _ => (match ring va with
        | .ok (_, r) => r.closed || r.occ != r.cap
        | .bad _ => true)
      | .ringPop va _ _ _ => w.leave || (match ring va with
        | .ok (_, r) => r.closed || r.occ != 0
        | .bad _ => true)
      | _ => false)
    if due then some x else none
  | _, _ => none

/-- RING_WAIT_SERVED: the governor completes a waiting QPUSH or QPOP (R318, R319). -/
def execRingWaitServed (l : Loc) (pc : Word) (s : State) : Host.Outcome State Fault Refusal :=
  match s.ringDue l pc with
  | none => .next s
  | some x =>
    let ctx := ((s.warp? l).map (·.ctx)).getD 0
    let s := { s with cur := { loc := l, handler := false, pc := pc, bits := s.slotBits (coreOfLoc l) ctx pc } }
    .next (match x.kind with
      | .ringPush va off ex => s.runStep (s.pushGo va (some off) s.run ex .none)
      | .ringPop va off d ex => s.runStep (s.popGo va off d s.run ex .none)
      | _ => s)

end Sys2Proof.Machine
end

