-- ==== Sys2Proof/Machine/Refine.lean ====
section
/-!
DEFINITION. Version cells (18 R324 to R338): the cell table, buffers, claims and pins, the firing of subscribers, the settle
groups and the refinement instructions, with the cancellation and the end of an instance (R330, R329).
-/
namespace Sys2Proof.Machine
open Sys2Proof

/-! ### The cell table (R324, R325) -/

/-- A subscriber entry (Table 18.3). -/
structure Sub where
  input  : Nat
  policy : Nat
  arg    : Nat
  rec_   : Word
  deriving DecidableEq, Repr

/-- The static fields of a cell entry (Table 18.2). -/
structure CellDesc where
  nin    : Nat
  inputs : List Nat
  group  : Nat
  nbuf   : Nat
  bufs   : List Nat
  subs   : List Sub
  deriving DecidableEq, Repr

/-- The static fields of the 256 bytes of an entry. -/
def cellDescOf (b : List Byte) : CellDesc :=
  { nin := recNat b 24 1, inputs := (List.range 4).map (fun i => recNat b (16 + 2 * i) 2), group := recNat b 9 1,
    nbuf := recNat b 8 1, bufs := (List.range 4).map (fun i => recNat b (2 * i) 2),
    subs := (List.range 8).map (fun i => { input := recNat b (128 + 16 * i + 13) 1, policy := recNat b (128 + 16 * i + 12) 1 % 4,
                                           arg := recNat b (128 + 16 * i + 8) 4, rec_ := recWord b (128 + 16 * i) 8 }) }

/-- A well-formed cell (R324). -/
def CellDesc.ok (d : CellDesc) (count : Nat) : Bool :=
  decide (2 ≤ d.nbuf ∧ d.nbuf ≤ 4 ∧ d.nin ≤ 4) && (d.bufs.take d.nbuf).all (· != 0)
    && (d.inputs.take d.nin).all (fun i => decide (i < count))

/-- The static fields of a cell, whatever they are. -/
def State.rawCell (s : State) (c : Ctx) (n : Nat) : CellDesc := cellDescOf (s.bytesAt (c.desc.ctBase.toNat + 256 * n) 256)

/-- A cell that an instruction or command may name: in use, and well formed. -/
def State.cellDesc? (s : State) (ctx n : Nat) : Option CellDesc :=
  (s.ctx? ctx).bind (fun c =>
    let d := s.rawCell c n
    if n < c.desc.ctCount && d.ok c.desc.ctCount then some d else none)

/-- The state of a cell; one never operated on is at version 0. -/
def State.cell (s : State) (ctx n : Nat) : CellSt :=
  (s.cells.find? (fun c => c.ctx == ctx && c.cell == n)).getD { ctx := ctx, cell := n }

/-- Change a cell's state. -/
def State.updCell (s : State) (ctx n : Nat) (g : CellSt → CellSt) : State :=
  if s.cells.any (fun c => c.ctx == ctx && c.cell == n) then
    { s with cells := s.cells.map (fun c => if c.ctx == ctx && c.cell == n then g c else c) }
  else { s with cells := s.cells ++ [g { ctx := ctx, cell := n }] }

/-- A cell word (Table 18.4) of a version and a named buffer. -/
def cellWord (d : CellDesc) (c : CellSt) (v : Nat) (b : Option Nat) : Word :=
  let low := match b with
    | some b => 2 ^ 18 + b * 2 ^ 16 + nth d.bufs b 0
    | none => 0
  word (v % 2 ^ 31 * 2 ^ 33 + (if c.final then 2 ^ 32 else 0) + (if c.stopped then 2 ^ 31 else 0) + low)

/-! ### Buffers and pins (R326) -/

/-- A buffer is free: not current, not claimed, not pinned. -/
def CellSt.isFree (c : CellSt) (b : Nat) : Bool :=
  c.cur != some b && !c.claims.any (fun p => p.2 == b) && nth c.pins b 0 == 0

/-- The lowest free buffer. -/
def CellSt.freeBuf (c : CellSt) (d : CellDesc) : Option Nat := (List.range d.nbuf).find? c.isFree

/-- Take a pin. -/
def CellSt.pin (c : CellSt) (b : Nat) : CellSt := { c with pins := tweakNth 0 c.pins b (· + 1) }

/-- Release a pin. -/
def CellSt.unpin (c : CellSt) (b : Nat) : CellSt := { c with pins := tweakNth 0 c.pins b (· - 1) }

/-! ### Settling (R338) -/

/-- A cell meets the settle rule's conditions. -/
def State.cellSettled (s : State) (ctx n : Nat) (d : CellDesc) : Bool :=
  let c := s.cell ctx n
  c.final && (if c.version = 0 then d.nin == 0 else (List.range d.nin).all (fun i =>
    (nth c.basis i (-1)).toNat == (s.cell ctx (nth d.inputs i 0)).version))

/-- A settle signal of a context: a 64-bit write that is dropped, with a host event, when it fails (R446), and that is never logged (R397). -/
def State.signalWrite (s : State) (d ctx : Nat) (va v : Word) (cookie : BitVec 32) : State :=
  match s.segments ⟨d, 48⟩ ctx va 8 true with
  | .bad b => s.post (.signalFault cookie ctx va b.1)
  | .ok l =>
    let refused := l.any (fun p => (s.refusedAt p.1 true).isSome)
    (if refused then s.setChk ctx chkRefused else s).writeSegs ⟨d, 48⟩ noCtx l (bytesOfWord 8 v)

/-- SETTLE_EVALUATE: when the rule of a group first holds, its signal is written once (R338). -/
def State.settle (s : State) (ctx g : Nat) (cookie : BitVec 32) : State :=
  match s.ctx? ctx with
  | none => s
  | some c =>
    if g = 0 || c.settled.contains g then s
    else
      let all := (List.range c.desc.ctCount).all (fun n =>
        let d := s.rawCell c n
        d.group != g || s.cellSettled ctx n d)
      if !all then s
      else
        let s := s.updCtx ctx (fun c => { c with settled := c.settled ++ [g] })
        let e := s.bytesAt (c.desc.gtBase.toNat + 16 * g) 16
        if recWord e 0 8 = 0 then s else s.signalWrite (s.homeDie ctx g) ctx (recWord e 0 8) (recWord e 8 8) cookie

/-- The settle evaluation after an operation on a cell. -/
def State.settleCell (s : State) (ctx n : Nat) : State :=
  match s.ctx? ctx with
  | some c => s.settle ctx (s.rawCell c n).group (s.cell ctx n).cookie
  | none => s

/-- Release a pin on a buffer of a cell (R326, R338). -/
def State.releasePin (s : State) (ctx n b : Nat) : State := (s.updCell ctx n (fun c => c.unpin b)).settleCell ctx n

/-! ### Firing (R329, Table 18.5) -/

/-- The start of an instance: its first four uniform registers. -/
def instArgs (n : Nat) (w : Word) (x : Sub) : List Word := [word n, w, word x.arg, word x.input]

/-- Change a subscriber's state. -/
def State.updSub (s : State) (ctx n i : Nat) (g : SubSt → SubSt) : State :=
  s.updCell ctx n (fun c => { c with subs := tweakNth {} c.subs i g })

/-- Fire a version: an instance becomes pending and holds a pin. A record that fails its checks leaves the subscriber unused,
with a host event (R325). -/
def State.fire (s : State) (ctx n i : Nat) (d : CellDesc) (v b prio : Nat) : State :=
  let x : Sub := nth d.subs i { input := 0, policy := 3, arg := 0, rec_ := 0 }
  let die := s.homeDie ctx n
  match s.entryRecord ⟨die, 48⟩ ctx x.rec_ with
  | (.bad _, s) => s.post (.badSubscriber ctx n i)
  | (.ok foot, s) =>
    let (u, s) := s.fresh
    let p : Pending := {
      uid := u, ctx := ctx, die := die, prio := prio, arrival := s.clk, foot := foot, cookie := (s.cell ctx n).cookie,
      kind := .refine n i v b (instArgs n (cellWord d (s.cell ctx n) v (some b)) x) }
    ({ s with pending := s.pending ++ [p] }.updCell ctx n (fun c => c.pin b)).updSub ctx n i (fun q =>
      { q with pending := some u, fired := true, remember := none })

/-- A pending instance is given a newer version: its version, pin and priority move (R329). -/
def State.moveInstance (s : State) (ctx n i : Nat) (d : CellDesc) (u v b prio : Nat) : State :=
  let x : Sub := nth d.subs i { input := 0, policy := 3, arg := 0, rec_ := 0 }
  let old := (s.pending.find? (fun p => p.uid == u)).bind (fun p => match p.kind with
    | .refine _ _ _ b _ => some b
    | _ => none)
  let w := cellWord d (s.cell ctx n) v (some b)
  let s := { s with pending := s.pending.map (fun (p : Pending) =>
    if p.uid == u then { p with prio := prio, kind := .refine n i v b (instArgs n w x) } else p) }
  let s := s.updCell ctx n (fun c => c.pin b)
  match old with
  | some o => s.releasePin ctx n o
  | none => s

/-- What a new version does to a subscriber of policy RESTART or FOLLOW. -/
def State.offer (s : State) (ctx n i : Nat) (d : CellDesc) (v b prio : Nat) : State :=
  let x : Sub := nth d.subs i { input := 0, policy := 3, arg := 0, rec_ := 0 }
  let q : SubSt := nth (s.cell ctx n).subs i {}
  if x.rec_ = 0 || 2 ≤ x.policy then s
  else match q.pending, q.resident with
    | some u, _ => s.moveInstance ctx n i d u v b prio
    | none, some u =>
      let s := s.updSub ctx n i (fun q => { q with remember := some (v, b, prio) })
      if x.policy = 0 then { s with warps := s.warps.map (fun (w : Warp) => if w.uid == u then { w with cancel := true } else w) } else s
    | none, none => s.fire ctx n i d v b prio

/-- The IGNORE subscribers of a cell that has become final at a version of at least 1 fire once. -/
def State.fireIgnore (s : State) (ctx n i : Nat) (d : CellDesc) (prio : Nat) : State :=
  let x : Sub := nth d.subs i { input := 0, policy := 3, arg := 0, rec_ := 0 }
  let c := s.cell ctx n
  if x.rec_ = 0 || x.policy != 2 || !c.final || c.version = 0 || (nth c.subs i {}).fired then s
  else s.fire ctx n i d c.version (c.cur.getD 0) prio

/-- SUBSCRIBER_FIRE: the subscribers of a cell in ascending number, after a new version (`fresh`) or a stop. -/
def State.fireAll (s : State) (ctx n : Nat) (d : CellDesc) (fresh : Bool) (prio : Nat) : State :=
  (List.range 8).foldl (fun s i =>
    let c := s.cell ctx n
    let s := if fresh then s.offer ctx n i d c.version (c.cur.getD 0) prio else s
    s.fireIgnore ctx n i d prio) s

/-! ### The instructions (R331 to R337) -/

/-- The course of a refinement instruction: it is illegal in a handler run, and a cell that is malformed or not in use raises
PERMISSION (R324, R331). -/
def State.cellOp (s : State) (f : FmtA) (ts : List Touch) (body : Nat → CellDesc → Mask → Mask → State) :
    Host.Outcome State Fault Refusal :=
  s.issue (!s.cur.handler) f.guard f.cf (f.sa.touch ++ ts) (fun run ex =>
    let n := fieldNat (s.src f.sa 0 (f.imm.setWidth 64)) 0 16
    match s.cellDesc? s.myCtx n with
    | none => s.allFault run ex (s.faultHere 0x0C (word n))
    | some d => body n d run ex)

/-- Write a predicate result in every executing thread. -/
def State.ansPred (s : State) (p : Nat) (ex : Mask) (ok : Bool) : State := s.setPred p ex (if ok then ex else 0)

/-- VBUF (R332). -/
def execVbuf (f : FmtA) (s : State) : Host.Outcome State Fault Refusal :=
  s.cellOp f (f.dst.touch ++ [.pred f.fn.toNat]) (fun n d run ex =>
    let c := s.cell s.myCtx n
    let b := if c.final then none else c.freeBuf d
    let w := cellWord d c (c.version + 1) b
    let s := match b with
      | some b =>
        (s.updCell s.myCtx n (fun c => { c with claims := c.claims ++ [(s.me.uid, b)] })).updWarp s.cur.loc (fun w =>
          { w with claims := w.claims ++ [(n, b)] }) |>.acquire s.myCore .module
      | none => s
    ((s.setUni f.dst.no w).ansPred f.fn.toNat ex b.isSome).complete run ex f.cf [])

/-- The version of a warp's pin on a cell, for BASIS (R333). -/
def Warp.basisOf (w : Warp) (n : Nat) : BitVec 32 :=
  match w.pins.find? (fun p => p.cell == n) with
  | some p => BitVec.ofNat 32 p.version
  | none => -1

/-- A claim of a warp is released. -/
def State.dropClaim (s : State) (l : Loc) (ctx n uid b : Nat) : State :=
  (s.updCell ctx n (fun c => { c with claims := c.claims.filter (fun p => p != (uid, b)) })).updWarp l (fun w =>
    { w with claims := w.claims.filter (fun p => p != (n, b)) })

/-- The effect of a PUBV that publishes (R333). -/
def State.publish (s : State) (n b : Nat) (d : CellDesc) (final : Bool) : State :=
  let w := s.me
  let s := s.dropClaim s.cur.loc w.ctx n w.uid b
  let s := s.updCell w.ctx n (fun c => { c with
    cur := some b, version := c.version + 1, prio := w.prio, cookie := w.cookie,
    basis := (List.range 4).map (fun i => if i < d.nin then w.basisOf (nth d.inputs i 0) else nth c.basis i 0),
    final := final || c.version + 1 == 2 ^ 31 - 1 })
  (s.fireAll w.ctx n d true w.prio).settleCell w.ctx n

/-- PUBV (R333). -/
def execPubv (f : FmtA) (s : State) : Host.Outcome State Fault Refusal :=
  s.cellOp f (f.sb.touch ++ [.pred f.dst.no]) (fun n d run ex =>
    let w := s.src f.sb 0 0
    let b := fieldNat w 16 2
    let ctx := s.myCtx
    if !bitAt w 18 || !(s.cell ctx n).claims.contains (s.me.uid, b) then s.allFault run ex (s.faultHere 0x0C (word n))
    else if (s.cell ctx n).final then
      (((s.dropClaim s.cur.loc ctx n s.me.uid b).acquire s.myCore .module).ansPred f.dst.no ex false).complete run ex f.cf []
    else if s.releaseStalls s.myCore .module then s.waitFor f.cf .stalledWrite
    else
      ((((s.release s.myCore .module).publish n b d (f.fn.getLsbD 0))).ansPred f.dst.no ex true).complete run ex f.cf [])

/-- A warp's pin on a cell is released. -/
def State.dropPin (s : State) (l : Loc) (ctx n : Nat) : State :=
  match (s.warp? l).bind (fun w => w.pins.find? (fun p => p.cell == n)) with
  | none => s
  | some p => (s.updWarp l (fun w => { w with pins := w.pins.filter (fun q => q.cell != n) })).releasePin ctx n p.buf

/-- VPIN (R334). -/
def execVpin (f : FmtA) (s : State) : Host.Outcome State Fault Refusal :=
  s.cellOp f (f.dst.touch ++ [.pred f.fn.toNat]) (fun n d run ex =>
    let ctx := s.myCtx
    let c := s.cell ctx n
    let had := s.me.pins.any (fun p => p.cell == n)
    match c.cur with
    | none =>
      (((s.dropPin s.cur.loc ctx n).setUni f.dst.no (cellWord d c c.version none)).ansPred f.fn.toNat ex false).complete
        run ex f.cf []
    | some b =>
      if !had && 8 ≤ s.me.pins.length then s.allFault run ex (s.faultHere 0x0C (word n))
      else
        let s := s.dropPin s.cur.loc ctx n
        let s := (s.updCell ctx n (fun c => c.pin b)).updWarp s.cur.loc (fun w =>
          { w with pins := w.pins ++ [{ cell := n, buf := b, version := c.version }] })
        let s := s.acquire s.myCore .module
        ((s.setUni f.dst.no (cellWord d c c.version (some b))).ansPred f.fn.toNat ex true).complete run ex f.cf [])

/-- VUNPIN (R335). -/
def execVunpin (f : FmtA) (s : State) : Host.Outcome State Fault Refusal :=
  s.cellOp f [] (fun n _ run ex =>
    if !s.me.pins.any (fun p => p.cell == n) then s.complete run ex f.cf []
    else if s.releaseStalls s.myCore .module then s.waitFor f.cf .stalledWrite
    else ((s.release s.myCore .module).dropPin s.cur.loc s.myCtx n).complete run ex f.cf [])

/-- RFSTOP (R336). -/
def execRfstop (f : FmtA) (s : State) : Host.Outcome State Fault Refusal :=
  s.cellOp f [.pred f.dst.no] (fun n d run ex =>
    let ctx := s.myCtx
    if (s.cell ctx n).final then (s.ansPred f.dst.no ex false).complete run ex f.cf []
    else if s.releaseStalls s.myCore .module then s.waitFor f.cf .stalledWrite
    else
      let s := s.release s.myCore .module
      let s := s.updCell ctx n (fun c => { c with final := true, stopped := true, prio := s.me.prio, cookie := s.me.cookie })
      let s := (s.fireAll ctx n d false s.me.prio).settleCell ctx n
      (s.ansPred f.dst.no ex true).complete run ex f.cf [])

/-- VQRY (R337). -/
def execVqry (f : FmtA) (s : State) : Host.Outcome State Fault Refusal :=
  s.cellOp f f.dst.touch (fun n d run ex =>
    let c := s.cell s.myCtx n
    ((s.acquire s.myCore .module).setUni f.dst.no (cellWord d c c.version c.cur)).complete run ex f.cf [])

/-! ### The end of an instance (R328 to R330, R340) -/

/-- A warp releases its pins and claims (R328). -/
def State.dropHeld (s : State) (l : Loc) : State :=
  match s.warp? l with
  | none => s
  | some w =>
    let s := w.claims.foldl (fun s p => s.dropClaim l w.ctx p.1 w.uid p.2) s
    w.pins.foldl (fun s p => s.dropPin l w.ctx p.cell) s

/-- A run of a warp waits in an instruction until no thread of it is parked (R107). -/
def Warp.awaitsParked (w : Warp) (pc : Word) : Bool :=
  w.waits.any (fun x => x.pc == pc && x.mask == w.runAt pc && (match x.kind with
    | .exit | .wsync | .mapEdit => true
    | _ => false))

/-- A cancelled instance stops now: some run of it waits at an HDR, or it is parked: none of its threads runs, or those that do only wait for
the parked ones (R330). -/
def Warp.cancelDue (w : Warp) : Bool :=
  w.cancel && w.alive != 0 && (w.inState .running == 0
    || (w.inState .parked != 0 && w.runPcs.all (fun pc => w.awaitsParked pc))
    || w.waits.any (fun x => (match x.kind with | .header _ => true | _ => false) && (w.runAt x.pc &&& x.mask) != 0))

/-- INSTANCE_CANCEL_STOP: every thread of the cancelled instance is killed, its handler run ends, and its pins and claims are
released (R330, R385). -/
def execInstanceCancelStop (l : Loc) (s : State) : Host.Outcome State Fault Refusal :=
  match s.warp? l with
  | none => .next s
  | some w =>
    if !w.cancelDue || (!w.pins.isEmpty && s.releaseStalls (coreOfLoc l) .module) then .next s
    else
      let s := if w.pins.isEmpty then s else s.release (coreOfLoc l) .module
      .next ((((s.endHandler l).killThreads l (-1)).updWarp l (fun w => { w with records := [] })).dropHeld l)

/-- INSTANCE_END: an instance has ended, and its subscriber fires the remembered version when it is newer (Table 18.5, R340). -/
def execInstanceEnd (uid : Nat) (s : State) : Host.Outcome State Fault Refusal :=
  match s.ended.find? (fun e => e.uid == uid && e.inst.isSome) with
  | none => .next s
  | some e =>
    match e.inst with
    | none => .next s
    | some (n, i, v) =>
      let s := { s with ended := s.ended.filter (fun x => x != e) }
      let q : SubSt := nth (s.cell e.ctx n).subs i {}
      let s := s.updSub e.ctx n i (fun q => { q with resident := none, remember := none })
      .next (match q.remember, s.cellDesc? e.ctx n with
        | some (v', b, prio), some d => if v < v' then s.fire e.ctx n i d v' b prio else s
        | _, _ => s)

end Sys2Proof.Machine
end

