-- ==== Sys2Proof/Machine/Coll.lean ====
section
/-!
DEFINITION. Collectives in slate order (20 R341 to R354, 21 R359, R360): COLL, COLLX and SLATEQ, a member's part, and the sequencer's. A
message to a module is put into `mail` with that module's number; those to this module are delivered by its own steps.
-/
namespace Sys2Proof

/-- An assignment is open: it has not started (R345). -/
def Assign.isOpen (a : Assign) : Bool := a.outcome.isNone

/-- A member's request has been answered with this assignment. -/
def Assign.ask (a : Assign) (rank : Nat) : Assign := { a with requests := if a.requests.contains rank then a.requests else a.requests ++ [rank] }

end Sys2Proof
namespace Sys2Proof.Machine
open Sys2Proof

/-! ### Slate numbers (R345) -/

/-- s1 comes before s2 in serial-number arithmetic. -/
def slateBefore (s1 s2 : BitVec 32) : Bool := decide (1 ≤ (s2 - s1).toNat ∧ (s2 - s1).toNat < 2 ^ 31)

/-- A communicator. -/
def State.comm? (s : State) (n : Nat) : Option Comm := s.comms.find? (fun c => c.no == n)

/-- Change a communicator. -/
def State.updComm (s : State) (n : Nat) (g : Comm → Comm) : State :=
  { s with comms := s.comms.map (fun c => if c.no == n then g c else c) }

/-- A message for every member of a communicator, in rank order. -/
def Comm.toAll (c : Comm) (i : Instr) : List (Nat × Instr) := c.desc.members.map (fun m => (m, i))

/-- Send messages of a communicator. -/
def State.sendList (s : State) (c : Comm) (l : List (Nat × Instr)) : State := l.foldl (fun s x => s.send c.desc.ctx x.1 x.2) s

/-- A member sends a message to the sequencer. -/
def State.toServer (s : State) (c : Comm) (i : Instr) : State := s.send c.desc.ctx c.server i

/-- A communicator that a context may use (R341). -/
def State.usable (s : State) (ctx n : Nat) : Option Comm :=
  (s.comm? n).bind (fun c => if c.desc.en && c.desc.ctx == ctx then some c else none)

/-! ### Issue (R343, R352, R353) -/

/-- The checks of the SC value of COLL and COLLX: its fields, the communicator, the root. -/
def State.checkComm (s : State) (ctx : Nat) (v : Word) : Checked Unit :=
  match s.usable ctx (fieldNat v 0 12) with
  | none => .bad (0x0C, v)
  | some c =>
    need (fieldNat v 12 4 == 0 && v.toNat / 2 ^ 26 == 0 && decide (fieldNat v 16 10 < c.desc.n)) 0x0C v

/-- A uniform register that names a tensor has bits [63:16] zero. -/
def checkTensorReg (o : USrc) (v : Word) : Checked Unit :=
  match o with
  | .uni _ => need (v.toNat / 65536 == 0) 0x0C v
  | .imm => .ok ()

/-- COLL (R343). -/
def execColl (f : FmtE) (s : State) : Host.Outcome State Fault Refusal :=
  let ctx := s.myCtx
  s.command (.coll f) f (!s.cur.handler) [] [] (fun a b c =>
    (s.checkComm ctx c).both ((checkTensorReg f.sa a).both (checkTensorReg f.sb b)))

/-- COLLX: its root is zero (R352). -/
def execCollx (f : FmtE) (s : State) : Host.Outcome State Fault Refusal :=
  let ctx := s.myCtx
  s.command (.collx f) f (!s.cur.handler) [] [] (fun _ _ c =>
    (need (fieldNat c 16 10 == 0) 0x0C c).both (s.checkComm ctx c))

/-- The record of a key at a member. -/
def Comm.keyRec (c : Comm) (k : BitVec 32) : Option KeyRec := c.keys.find? (fun r => r.key == k)

/-- 65,536 later slates have overtaken a slate at a member (R353). -/
def Comm.overtaken (c : Comm) (sl : BitVec 32) : Bool := c.high.any (fun h => slateBefore sl h && decide (65536 ≤ (h - sl).toNat))

/-- A key's record is live: it has no slate yet, or one that is not overtaken. -/
def Comm.live (c : Comm) (r : KeyRec) : Bool := r.st == .requested || !c.overtaken r.slate

/-- Set the record of a key. Records that are overtaken are dropped. -/
def Comm.setKey (c : Comm) (r : KeyRec) : Comm := { c with keys := (c.keys.filter (fun x => x.key != r.key) ++ [r]).filter c.live }

/-- The code of a key's state (Table 20.5). -/
def KeyState.code : KeyState → Nat
  | .requested => 1 | .assigned => 2 | .started => 3 | .completed => 4 | .cancelled => 5

/-- STATE and SLATE that SLATEQ reports: a record that 65,536 later slates have overtaken reads as state 0 (R353). -/
def Comm.report (c : Comm) (k : BitVec 32) : Nat × Option (BitVec 32) :=
  match (c.keyRec k).filter c.live with
  | none => (0, none)
  | some r => (r.st.code, if r.st == .requested then none else some r.slate)

/-- SLATEQ (R353). SLATE has no meaning in states 0 and 1, and is a free value there (log 3). -/
def execSlateq (f : FmtA) (s : State) : Host.Outcome State Fault Refusal :=
  s.issue true f.guard f.cf (f.sa.touch ++ f.sb.touch ++ f.dst.touch) (fun run ex =>
    let v := s.src f.sa 0 (f.imm.setWidth 64)
    let key := field (s.src f.sb 0 (f.imm.setWidth 64)) 0 32
    match s.usable s.myCtx v.toNat with
    | none => s.allFault run ex (s.faultHere 0x0C v)
    | some c =>
      let (st, sl) := c.report (key.setWidth 32)
      let (low, s) : Nat × State := match sl with
        | some x => (x.toNat, s)
        | none =>
          let (w, s) := s.freeValue
          (fieldNat w 0 32, s)
      (s.setUni f.dst.no (word (c.gen % 65536 * 2 ^ 48 + st * 2 ^ 32 + low))).complete run ex f.cf [])

/-! ### The end of a member's entry -/

/-- An entry of xq completes at its workgroup (R346, R407). -/
def State.finishColl (s : State) (u id st code : Nat) : State :=
  match (s.wg? u).bind (fun g => (g.queue .xq).find? (fun e => e.uid == id)) with
  | some e => s.finishEntry u .xq e st code false
  | none => s

/-- A COLLX of a key completes with a status. -/
def State.endCancels (s : State) (n : Nat) (p : CancelRec → Bool) (st : Nat) : State :=
  match s.comm? n with
  | none => s
  | some c =>
    let s := (c.cancels.filter p).foldl (fun s x => s.finishColl x.wg x.uid st 0) s
    s.updComm n (fun c => { c with cancels := c.cancels.filter (fun x => !p x) })

/-- An accepted COLL completes at this member (R346). -/
def State.endEntry (s : State) (n : Nat) (e : CollEntry) (st code : Nat) : State :=
  (s.updComm n (fun c => { c with entries := c.entries.filter (fun x => x.uid != e.uid) })).finishColl e.wg e.uid st code

/-! ### The gap watch (R351) -/

/-- The key of the slate NEXT. -/
def Comm.nextKey (c : Comm) : Option (BitVec 32) := c.next.bind (fun s => lookupKey c.known s)

/-- The accepted entries of slates after NEXT, while no entry of NEXT's key has been accepted. -/
def Comm.gap (c : Comm) : List CollEntry :=
  match c.next, c.nextKey with
  | some s, some k =>
    if c.entries.any (fun e => e.key == k) then []
    else c.entries.filter (fun e => e.slate.any (fun x => slateBefore s x))
  | _, _ => []

/-- The watch begins with a gap and ends with it. -/
def State.rewatch (s : State) (n : Nat) : State :=
  s.updComm n (fun c => { c with watch := if c.gap.isEmpty then none else some (c.watch.getD s.clk) })

/-- The clk of watching after which SLATE_GAP is raised (R351). -/
def gapLimit : Nat := 2 ^ 26

/-- The threads that wait in a TAGWA or TAGWY whose mask includes a tag raise SLATE_GAP; a handler run that waits so is a double
fault (R351, R370). -/
def State.raiseGap (s : State) (u : Nat) (t : Nat) (i0 i1 : Word) : State :=
  let hit := fun (x : Wait) => match x.kind with
    | .tagAll m _ | .tagAny m _ _ => bitAt m t
    | _ => false
  (s.warps.filter (fun w => w.wg == u)).foldl (fun s w =>
    let m := (w.waits.filter (fun x => hit x && x.mask == w.runAt x.pc)).foldl (fun m x => m ||| x.mask) 0
    let s := if m = 0 then s else s.raiseAt w.loc m 0x18 i0 i1
    if (s.hrun? w.loc).any (fun h => h.waits.any hit) then s.doubleFault w.loc else s) s

/-- SLATE_GAP: after 2^26 clk of watching, the waiting tag instructions raise it and the host is told; the watch starts again
(R351). -/
def execSlateGap (n : Nat) (s : State) : Host.Outcome State Fault Refusal :=
  match s.comm? n with
  | none => .next s
  | some c =>
    match c.watch with
    | none => .next s
    | some t =>
      if s.clk < t + gapLimit || c.gap.isEmpty then .next s
      else
        let key := word ((c.nextKey.getD 0).toNat)
        let s := c.gap.foldl (fun s e => match e.tag with
          | some t => s.raiseGap e.wg t (word n) key
          | none => s) s
        .next ((s.post (.slateGap n)).updComm n (fun c => { c with watch := some s.clk }))

/-! ### Acceptance (R342, R347, R352) -/

/-- The head of a workgroup's xq, when it can be accepted: not held on a guard, and its context runs (R347, R354). -/
def State.collHead (s : State) (u : Nat) : Option (Wg × QEntry) :=
  (s.wg? u).bind (fun g => (g.head .xq).bind (fun e =>
    if e.cmd.isColl && e.guardGen.isNone && s.ctxLive g.ctx then some (g, e) else none))

/-- A member's record when a COLL of a key is accepted: requested, unless a slate of it is still ahead. -/
def Comm.request (c : Comm) (k : BitVec 32) : Comm :=
  let ahead := (c.keyRec k).any (fun r => r.st == .assigned && c.next.all (fun n => n == r.slate || slateBefore n r.slate))
  if ahead then c else c.setKey { key := k, st := .requested, slate := 0 }

/-- COLL_ACCEPT: the die's collective engine, which holds fewer than 1,024 entries of the context, accepts the head of a workgroup's xq and sends
its request or its cancel (R347). A use that a skip has taken completes with status 3 (R352). -/
def execCollAccept (u : Nat) (s : State) : Host.Outcome State Fault Refusal :=
  match s.collHead u with
  | none => .next s
  | some (g, e) =>
    let n := fieldNat e.c 0 12
    let key : BitVec 32 := e.fields.imm
    match s.comm? n with
    | none => .next (s.finishEntry u .xq e 2 0x0C false)
    | some c =>
      if 1024 ≤ s.collHeld g.ctx g.core.die then .next s
      else
      let mark := fun (s : State) => s.updEntry u .xq e.uid (fun x => { x with accepted := true })
      match e.cmd with
      | .collx _ =>
        let own := c.entries.any (fun x => x.key == key)
        let r : CancelRec := { uid := e.uid, wg := u, die := g.core.die, key := key, own := own, since := s.clk }
        .next (((mark s).updComm n (fun c => { c with cancels := c.cancels ++ [r] })).toServer c (.collCancel n key c.desc.rank own c.gen))
      | _ =>
        if c.taken.contains key then
          .next ((s.updComm n (fun c => { c with taken := c.taken.erase key })).finishEntry u .xq e 3 0 false)
        else
          let t := fun (o : USrc) (v : Word) => if o == .imm then none else some (fieldNat v 0 16)
          let c' := c.request key
          let slate := (c'.keyRec key).bind (fun r => if r.st == .assigned then some r.slate else none)
          let x : CollEntry := {
            uid := e.uid, wg := u, warp := e.warp, die := g.core.die, ctx := g.ctx, tag := e.fields.tag.map (·.val), key := key,
            op := e.fields.sub.toNat % 16, src := t e.fields.sa e.a, dst := t e.fields.sb e.b, root := fieldNat e.c 16 10,
            slate := slate, since := s.clk }
          .next ((((mark s).updComm n (fun _ => { c' with entries := c'.entries ++ [x] })).toServer c
            (.slateRequest n (.key key) c.desc.rank c.gen)).rewatch n)

/-! ### The sequencer (R345, R346, R350, R352, R359) -/

/-- The open assignment of a key. -/
def Sequencer.openOf (q : Sequencer) (k : BitVec 32) : Option Assign := q.assigns.find? (fun a => a.key == k && a.isOpen)

/-- The last started use of a key (R352). -/
def Sequencer.startedOf (q : Sequencer) (k : BitVec 32) : Option Assign := q.assigns.find? (fun a => a.key == k && !a.isOpen)

/-- A number may be assigned: it is within 65,536 of the oldest open slate (R345). -/
def Sequencer.inWindow (q : Sequencer) : Bool :=
  (q.assigns.filter (·.isOpen)).all (fun a => decide ((q.next - a.slate).toNat < 65536))

/-- A request or cancel of a member waits for a number: its later ones wait behind it (R359). -/
def Sequencer.waits (q : Sequencer) (rank : Nat) : Bool := q.waiting.any (fun x => x.rank == rank)

/-- Change the sequencer of a communicator. -/
def State.updSeq (s : State) (n : Nat) (g : Sequencer → Sequencer) : State := s.updComm n (fun c => { c with seq := g c.seq })

/-- Change an assignment by its slate. -/
def Sequencer.upd (q : Sequencer) (sl : BitVec 32) (g : Assign → Assign) : Sequencer :=
  { q with assigns := q.assigns.map (fun a => if a.slate == sl then g a else a) }

/-- The module number of a rank. -/
def Comm.memberOf (c : Comm) (r : Nat) : Nat := nth c.desc.members r 0

/-- The backup to which a serving module replicates: none where it is itself the backup that took over (R350). -/
def Comm.replica (c : Comm) (me : Nat) : Option Nat := c.desc.backup.filter (· != me)

/-- Send messages of the sequencer, behind those that the backup's acknowledgement still holds (R350, R359). -/
def State.announce (s : State) (n : Nat) (l : List (Nat × Instr)) : State :=
  match s.comm? n with
  | none => s
  | some c =>
    match c.seq.held.getLast? with
    | none => s.sendList c l
    | some x => s.updSeq n (fun q => { q with held := q.held.dropLast ++ [(x.1, x.2 ++ l)] })

/-- An assignment is replicated to the backup, and what the sequencer answers is held until the backup acknowledges it; without a backup it is
sent (R350). -/
def State.replicate (s : State) (n : Nat) (sl : BitVec 32) (l : List (Nat × Instr)) : State :=
  match s.comm? n with
  | none => s
  | some c =>
    match c.replica s.ident.moduleNum, c.seq.assigns.find? (fun a => a.slate == sl) with
    | some b, some a =>
      let k := c.seq.sent + 1
      (s.updSeq n (fun q => { q with sent := k, held := q.held ++ [(k, l)] })).send c.desc.ctx b
        (.seqHeartbeat ⟨n, .replicate k { a with ready := [], acks := [] } c.seq.gen⟩)
    | _, _ => s.announce n l

/-- A new assignment of a key takes the next number, and every member is notified of it, and of its skip when it is cancelled at once (R345,
R352). -/
def State.assign (s : State) (n : Nat) (k : BitVec 32) (reqs : List Nat) (cancelled : Bool) : State :=
  match s.comm? n with
  | none => s
  | some c =>
    let sl := c.seq.next
    let a : Assign := { slate := sl, key := k, requests := reqs, cancelled := cancelled }
    (s.updSeq n (fun q => { q with next := q.next + 1, assigns := q.assigns ++ [a] })).replicate n sl
      (c.toAll (.slateNotify n sl k c.seq.gen) ++ (if cancelled then c.toAll (.collSkip n sl k c.seq.gen) else []))

/-- The sequencer of a communicator, when it serves here. A message of a higher generation ends its service (R350). -/
def State.serving (s : State) (n gen : Nat) : Option Comm :=
  (s.comm? n).bind (fun c => if c.seq.serving && decide (gen ≤ c.seq.gen) then some c else none)

/-- A sequencer that sees a higher generation in use stops serving (R350). -/
def State.sawGen (s : State) (n gen : Nat) : State :=
  s.updComm n (fun c => if c.seq.serving && decide (c.seq.gen < gen) then { c with seq := { c.seq with serving := false } } else c)

/-- A message waits at the sequencer. -/
def State.postpone (s : State) (n : Nat) (x : SeqWait) : State := s.updSeq n (fun q => { q with waiting := q.waiting ++ [x] })

/-- The sequencer takes a member's request: the key's open number, or the next one (R345). It waits behind an earlier one of the member, and
while the window is shut (R359). -/
def State.takeRequest (s : State) (n : Nat) (key : BitVec 32) (rank : Nat) : State :=
  match s.comm? n with
  | none => s
  | some c =>
    if c.seq.waits rank then s.postpone n ⟨rank, key, none⟩
    else match c.seq.openOf key with
      | some a => (s.updSeq n (fun q => q.upd a.slate (fun a => a.ask rank))).replicate n a.slate
          [(c.memberOf rank, .slateNotify n a.slate key c.seq.gen)]
      | none => if c.seq.inWindow then s.assign n key [rank] false else s.postpone n ⟨rank, key, none⟩

/-- A cancel names a member's own use and that use has started: the key's last started use answered the member's request, and no open
assignment has (R352). -/
def Sequencer.tooLate (q : Sequencer) (key : BitVec 32) (rank : Nat) (own : Bool) : Bool :=
  own && !(q.openOf key).any (fun a => a.requests.contains rank) && (q.startedOf key).any (fun a => a.requests.contains rank)

/-- The sequencer takes a member's cancel (R352). One that comes too late cancels nothing: its COLLX completes with status 1 with its use. -/
def State.takeCancel (s : State) (n : Nat) (key : BitVec 32) (rank : Nat) (own : Bool) : State :=
  match s.comm? n with
  | none => s
  | some c =>
    if c.seq.waits rank then s.postpone n ⟨rank, key, some own⟩
    else if c.seq.tooLate key rank own then s
    else match c.seq.openOf key with
      | some a => (s.updSeq n (fun q => q.upd a.slate (fun a => { a with cancelled := true, ready := [] }))).replicate n a.slate
          (c.toAll (.collSkip n a.slate key c.seq.gen))
      | none => if c.seq.inWindow then s.assign n key [] true else s.postpone n ⟨rank, key, some own⟩

/-- What waited at the sequencer is taken again, in order (R345, R359). -/
def State.drainWaiting (s : State) (n : Nat) : State :=
  match s.comm? n with
  | none => s
  | some c => c.seq.waiting.foldl (fun s x => match x.cancel with
      | none => s.takeRequest n x.key x.rank
      | some own => s.takeCancel n x.key x.rank own) (s.updSeq n (fun q => { q with waiting := [] }))

/-- Every open assignment and skip from a member's NEXT onward is sent to it again (R354). -/
def State.retell (s : State) (n rank : Nat) (next : Option (BitVec 32)) : State :=
  match s.comm? n with
  | none => s
  | some c =>
    let l := c.seq.assigns.filter (fun a => a.isOpen && next.all (fun x => a.slate == x || slateBefore x a.slate))
    s.announce n (l.flatMap (fun a => (c.memberOf rank, .slateNotify n a.slate a.key c.seq.gen)
      :: (if a.cancelled then [(c.memberOf rank, .collSkip n a.slate a.key c.seq.gen)] else [])))

/-- SLATE_REQUEST: a member's request, or its question after a resumption, reaches the sequencer (R345, R354). -/
def execSlateRequest (n : Nat) (ask : SlateAsk) (rank gen : Nat) (s : State) : Host.Outcome State Fault Refusal :=
  match s.serving n gen with
  | none => .next (s.sawGen n gen)
  | some _ => match ask with
    | .key k => .next (s.takeRequest n k rank)
    | .since x => .next (s.retell n rank x)

/-- COLL_CANCEL: a member's cancel reaches the sequencer (R352). -/
def execCollCancel (n : Nat) (key : BitVec 32) (rank : Nat) (own : Bool) (gen : Nat) (s : State) :
    Host.Outcome State Fault Refusal :=
  match s.serving n gen with
  | none => .next (s.sawGen n gen)
  | some _ => .next (s.takeCancel n key rank own)

/-- The outcome that N ready messages decide, in rank order (R346). -/
def decideGo (l : List ReadyMsg) : GoOutcome :=
  match l.findSome? (·.code) with
  | some c => .faulted c
  | none =>
    match l with
    | [] => .run
    | m :: rest =>
      if rest.all (fun x => x.op == m.op && x.fmt == m.fmt && x.root == m.root && x.tsrc == m.tsrc && x.tdst == m.tdst) then .run
      else .faulted 0x0E

/-- The operation code by which a member's ready message for a cancelled slate acknowledges its skip (R345). -/
def ackOp : BitVec 4 := 15

/-- The ready messages of an assignment with one more, in rank order. -/
def withReady (a : Assign) (m : ReadyMsg) : List ReadyMsg :=
  sortBy (fun (x y : ReadyMsg) => decide (x.rank ≤ y.rank)) (a.ready.filter (fun x => x.rank != m.rank) ++ [m])

/-- A skip of a cancelled assignment is acknowledged; with all N acknowledgements the assignment closes (R345). -/
def State.takeAck (s : State) (n : Nat) (c : Comm) (a : Assign) (rank : Nat) : State :=
  let acks := if a.acks.contains rank then a.acks else a.acks ++ [rank]
  if acks.length = c.desc.n then
    (s.updSeq n (fun q => { q with assigns := q.assigns.filter (fun x => x.slate != a.slate) })).drainWaiting n
  else s.updSeq n (fun q => q.upd a.slate (fun a => { a with acks := acks }))

/-- A ready message is taken; with all N the outcome is decided, replicated and sent, and the use has started (R346). The member's request for
the key, if it still waits for the window, is answered by the use. Of the key's started uses the last is kept (R352). -/
def State.takeReady (s : State) (n : Nat) (c : Comm) (a : Assign) (m : ReadyMsg) : State :=
  let l := withReady a m
  let s := s.updSeq n (fun q => { q.upd a.slate (fun a => { a.ask m.rank with ready := l }) with
    waiting := q.waiting.filter (fun x => !(x.rank == m.rank && x.key == a.key && x.cancel.isNone)) })
  if l.length < c.desc.n then s
  else
    let o := decideGo l
    let s := s.updSeq n (fun q => { q with
      assigns := (q.assigns.filter (fun x => x.isOpen || x.key != a.key)).map (fun x => if x.slate == a.slate then { x with outcome := some o } else x) })
    let s := s.updComm n (fun c => match c.keyRec a.key with
      | some r => if r.slate == a.slate && r.st == .assigned then c.setKey { r with st := .started } else c
      | none => c)
    (s.replicate n a.slate (c.toAll (.collGo n a.slate o [] c.seq.gen))).drainWaiting n

/-- SEQ_READY: a ready message of a member, or its acknowledgement of a skip, reaches the sequencer (R345, R346). Ready messages of a cancelled
assignment are void (R352). -/
def execSeqReady (n : Nat) (slate : BitVec 32) (m : ReadyMsg) (gen : Nat) (s : State) : Host.Outcome State Fault Refusal :=
  match s.serving n gen with
  | none => .next (s.sawGen n gen)
  | some c =>
    match c.seq.assigns.find? (fun a => a.slate == slate && a.isOpen) with
    | none => .next s
    | some a =>
      if a.cancelled != (m.op == ackOp) then .next s
      else if a.cancelled then .next (s.takeAck n c a m.rank)
      else .next (s.takeReady n c a m)

/-! ### The member (R345, R346, R350, R352) -/

/-- The accepted entries of a communicator that wait for an answer: no slate yet, or no go. -/
def Comm.unanswered (c : Comm) : List CollEntry := c.entries.filter (fun e => e.slate.isNone || e.ready)

/-- Every tile's coordinates of a tensor, i0 fastest (R344). -/
def tensorTiles (T : Tensor) : List (List Nat) :=
  let d := fun (j : Nat) => List.range (nth T.dims j 1)
  (d 3).flatMap (fun i3 => (d 2).flatMap (fun i2 => (d 1).flatMap (fun i1 => (d 0).map (fun i0 => [i0, i1, i2, i3]))))

/-- A condition on every tile of a tensor that a collective names: the first that fails. -/
def State.tilesPass (s : State) (ctx n : Nat) (p : Tensor → List Nat → Checked Unit) : Checked Unit :=
  (s.tensorOf ctx (word n)).andThen (fun x => (tensorTiles x.1).foldl (fun a i => a.andThen (fun _ => p x.1 i)) (.ok ()))

/-- Every tile of a tensor translates, and is writable where the collective writes it (R346). -/
def State.tilesMap (s : State) (d ctx n : Nat) (write : Bool) : Checked Unit :=
  s.tilesPass ctx n (fun T i => (s.walk (schedCore d) ctx (T.tileVa i) write).andThen (fun _ => .ok ()))

/-- The format of a tensor's pages and the locations of its tiles, each page checked by the engine (R346, R282). -/
def State.collTiles (s : State) (d ctx n : Nat) (write : Bool) : Checked (Nat × List Nat) :=
  match s.tensorOf ctx (word n) with
  | .bad b => .bad b
  | .ok (T, _, _) =>
    let step := fun (acc : Checked (Option Word × List Nat)) (i : List Nat) => acc.andThen (fun (ref, l) =>
      (s.engineTile (schedCore d) ctx T i write).andThen (fun t => .ok (some (ref.getD t.entry), l ++ [tileLoc T t i])))
    ((tensorTiles T).foldl step (.ok (none, []))).andThen (fun x => .ok ((x.1.map pteFmt).getD 0, x.2))

/-- The tile counts that an operation asks of a member (Table 20.2). -/
def countsOk (op N ts td : Nat) : Bool :=
  match op with
  | 0 | 1 | 2 | 8 => ts == td
  | 3 | 4 | 5 => ts == N * td
  | 6 => td == N * ts
  | 7 => ts == td && td % N == 0
  | _ => true

/-- A page format that a reduction accepts (R344). -/
def reducible (fmt : Nat) : Bool := [1, 2, 3, 4, 9, 10, 11].contains fmt

/-- The source that an entry's check and data use: a .bc ignores that of a rank other than the root. -/
def CollEntry.source (e : CollEntry) (rank : Nat) : Option Nat := if e.op == 8 && e.root != rank then none else e.src

/-- A .bc root names a source, and outside .ar the source and the destination differ (R344, R346). -/
def CollEntry.namesOk (e : CollEntry) (rank : Nat) : Bool :=
  !(e.op == 8 && e.root == rank && e.src.isNone) && !(decide (2 < e.op) && (e.source rank).isSome && e.source rank == e.dst)

/-- The checks of an entry's tensors, in the order of R346: translation, W on the destination, the formats, the tile counts, and the names. The
answer is the format and the counts. -/
def State.checkColl (s : State) (c : Comm) (e : CollEntry) : Checked (Nat × Nat × Nat) :=
  let src := e.source c.desc.rank
  let dst := e.dst.getD 0
  let ofSrc := fun (p : Nat → Checked Unit) => (src.map p).getD (.ok ())
  (ofSrc (fun n => s.tilesMap e.die e.ctx n false)).both ((s.tilesMap e.die e.ctx dst false).both (s.tilesMap e.die e.ctx dst true))
    |>.andThen (fun _ =>
      let so : Checked (Option (Nat × List Nat)) := match src with
        | some n => (s.collTiles e.die e.ctx n false).andThen (fun x => .ok (some x))
        | none => .ok none
      so.andThen (fun so => (s.collTiles e.die e.ctx dst true).andThen (fun (fd, ld) =>
        let td := ld.length
        let ts := (so.map (·.2.length)).getD td
        let fmtOk := so.all (fun x => x.1 == fd) && (decide (5 < e.op) || reducible fd)
        (need (fmtOk && countsOk e.op c.desc.n ts td && e.namesOk c.desc.rank) 0x0E 0).andThen (fun _ => .ok (fd, ts, td)))))

/-- The ready message of a member for an entry (R346, R344). -/
def State.readyFor (s : State) (c : Comm) (e : CollEntry) : ReadyMsg :=
  let base : ReadyMsg := { rank := c.desc.rank, op := BitVec.ofNat 4 e.op, fmt := 0, tsrc := 0, tdst := 0, root := e.root, code := none }
  if e.op = 9 then base
  else match s.checkColl c e with
    | .bad b => { base with code := some (BitVec.ofNat 8 b.1) }
    | .ok (fmt, ts, td) => { base with fmt := BitVec.ofNat 4 fmt, tsrc := ts, tdst := td }

/-- A member sends again what is unanswered: the requests, ready messages and cancels, in the order of their acceptance (R350). -/
def State.resend (s : State) (n : Nat) : State :=
  match s.comm? n with
  | none => s
  | some c =>
    let es := c.unanswered.map (fun e => (e.uid, if e.ready then Instr.seqReady n (e.slate.getD 0) (s.readyFor c e) c.gen
      else .slateRequest n (.key e.key) c.desc.rank c.gen))
    let xs := c.cancels.map (fun x => (x.uid, Instr.collCancel n x.key c.desc.rank x.own c.gen))
    let s := (sortBy (fun (x y : Nat × Instr) => decide (x.1 ≤ y.1)) (es ++ xs)).foldl (fun (s : State) x => s.toServer c x.2) s
    s.updComm n (fun c => { c with
      cancels := c.cancels.map (fun (x : CancelRec) => { x with since := s.clk })
      entries := c.entries.map (fun e => if e.slate.isNone || e.ready then { e with since := s.clk } else e) })

/-- The context of a communicator is saved: its member takes no assignment, skip or go (R354). -/
def State.away (s : State) (c : Comm) : Bool := (s.ctx? c.desc.ctx).any (fun x => x.status == .saved)

/-- The module that sends messages of a generation that a member has not heard before: the primary sends the first, and the backup the later
ones (R350, R360). -/
def Comm.sender (c : Comm) (gen : Nat) : Nat := if gen = 1 then c.desc.primary else c.desc.backup.getD c.server

/-- A member hears a message: one of a lower generation is discarded; a higher one is recorded, its sender is the one to which the member sends
from then on, and what is unanswered is sent to it at once (R350). The answer says whether the member takes the message. -/
def State.hear (s : State) (n gen : Nat) : State × Bool :=
  match s.comm? n with
  | none => (s, false)
  | some c =>
    if gen < c.gen then (s, false)
    else if gen = c.gen then (s, !s.away c)
    else
      let s := s.updComm n (fun c => { c with
        gen := gen
        server := c.sender gen
        seq := if c.seq.serving && decide (c.seq.gen < gen) then { c.seq with serving := false } else c.seq })
      (if gen = 1 then s else s.resend n, !s.away c)

/-- The later of two slates. -/
def laterSlate (a : Option (BitVec 32)) (b : BitVec 32) : Option (BitVec 32) :=
  match a with
  | none => some b
  | some a => some (if slateBefore a b then b else a)

/-- SLATE_NOTIFY: a member learns that a key has a slate (R345). NEXT starts at the first one. -/
def execSlateNotify (n : Nat) (slate key : BitVec 32) (gen : Nat) (s : State) : Host.Outcome State Fault Refusal :=
  match s.hear n gen with
  | (s, false) => .next s
  | (s, true) =>
    .next ((s.updComm n (fun c =>
      if (lookupKey c.known slate).isSome || c.next.any (fun x => slateBefore slate x) then c
      else
        let c := { c with next := some (c.next.getD slate), high := laterSlate c.high slate, known := c.known ++ [(slate, key)],
                          entries := c.entries.map (fun e => if e.key == key && e.slate.isNone then { e with slate := some slate } else e) }
        if (c.keyRec key).any (fun r => r.st != .requested && r.st != .assigned && slateBefore slate r.slate) then c
        else c.setKey { key := key, st := .assigned, slate := slate })).rewatch n)

/-- The entry of NEXT's slate that has not sent its ready message. -/
def Comm.readyDue (c : Comm) : Option CollEntry :=
  c.next.bind (fun s => c.entries.find? (fun e => e.slate == some s && !e.ready))

/-- COLL_READY: the member checks the tensors of NEXT's entry and sends its ready message (R346). A context that is being pre-empted
sends no new one (R354). -/
def execCollReady (n : Nat) (s : State) : Host.Outcome State Fault Refusal :=
  match s.comm? n with
  | none => .next s
  | some c =>
    match c.readyDue with
    | none => .next s
    | some e =>
      if !s.ctxLive c.desc.ctx then .next s
      else
        .next ((s.updComm n (fun c => { c with entries := c.entries.map (fun x =>
            if x.uid == e.uid then { x with ready := true, since := s.clk } else x) })).toServer c
          (.seqReady n (c.next.getD 0) (s.readyFor c e) c.gen))

/-! ### Moving the data (R344, R174) -/

/-- Combine a pair of elements: a sum, a minimum or a maximum, in the element's own format. -/
def combineElem (fmt kind : Nat) (a b : Nat) : Nat :=
  if reducible fmt && fmt < 9 then
    let F := pagePoint fmt
    match kind with
    | 0 => (F.add .rn a b).bits
    | 1 => (F.minmax false false a b).bits
    | _ => (F.minmax true false a b).bits
  else
    let w := 8 * (fmtShape fmt).1
    if kind = 0 then (a + b) % 2 ^ w
    else
      let v := fun (x : Nat) => intVal (fmt != 10) w x
      let less := decide (v b < v a)
      if (kind = 1) == less then b else a

/-- One level of the tree of R174: neighbouring pairs are combined. -/
def treeLevel (g : α → α → α) : List α → List α
  | a :: b :: r => g a b :: treeLevel g r
  | l => l

/-- Combine a list along the tree of R174, in at most `fuel` levels. -/
def treeFold (g : α → α → α) (z : α) : Nat → List α → α
  | 0, l => l.headD z
  | n + 1, l => match l with
    | [] => z
    | [a] => a
    | l => treeFold g z n (treeLevel g l)

/-- The reduction of the ranks' sources. -/
def reduceBytes (fmt kind : Nat) (srcs : List (List Byte)) : List Byte :=
  let w := (fmtShape fmt).1
  let n := ((srcs.headD []).length) / w
  (List.range n).flatMap (fun i =>
    bytesOfNat w (treeFold (combineElem fmt kind) 0 10 (srcs.map (fun b => recNat b (w * i) w))))

/-- The destination's bytes at a rank, from the sources in rank order (Table 20.2). -/
def collResult (op fmt N rank root : Nat) (srcs : List (List Byte)) : List Byte :=
  match op with
  | 0 | 1 | 2 => reduceBytes fmt op srcs
  | 3 | 4 | 5 =>
    let r := reduceBytes fmt (op - 3) srcs
    let k := r.length / N
    (r.drop (rank * k)).take k
  | 6 => srcs.flatten
  | 7 => srcs.flatMap (fun b => (b.drop (rank * (b.length / N))).take (b.length / N))
  | 8 => nth srcs root []
  | _ => []

/-- Read a list of tiles by the collective engine of a die. -/
def State.readTiles (s : State) (d ctx : Nat) : List Nat → List Byte × State
  | [] => ([], s)
  | a :: r =>
    let (b, s) := s.engineRead (schedCore d) ctx a 256
    let (x, s) := s.readTiles d ctx r
    (b ++ x, s)

/-- Write a collective's data to the tiles of its destination. It is never logged (R397). A tile that no longer translates, or is
not writable, is left, and its code is kept (R346). -/
def State.writeColl (s : State) (d ctx n : Nat) (b : List Byte) : Nat × State :=
  match s.tensorOf ctx (word n) with
  | .bad e => (e.1, s)
  | .ok (T, _, _) =>
    let r := (tensorTiles T).foldl (fun (acc : Nat × State × List Byte) i =>
      let (code, s, rest) := acc
      match s.walk (schedCore d) ctx (T.tileVa i) true with
      | .bad e => (if code = 0 then e.1 else code, s, rest.drop 256)
      | .ok t =>
        let a := tileLoc T t i
        match s.refusedAt a true with
        | some reason => (code, s.refuse ctx a 1 reason, rest.drop 256)
        | none => (code, s.engineWrite (schedCore d) noCtx a (rest.take 256), rest.drop 256)) (0, s, b)
    (r.1, r.2.1)

/-- A member acknowledges a skip (R345). -/
def State.ackSkip (s : State) (n : Nat) (c : Comm) (x : BitVec 32) : State :=
  s.toServer c (.seqReady n x { rank := c.desc.rank, op := ackOp, fmt := 0, tsrc := 0, tdst := 0, root := 0, code := none } c.gen)

/-- NEXT passes skipped slates: each takes the current use of its key and is acknowledged (R352). -/
def State.passSkips (s : State) (n : Nat) : Nat → State
  | 0 => s
  | k + 1 =>
    match s.comm? n with
    | none => s
    | some c =>
      match c.next.bind (fun x => (lookupKey c.skips x).map (fun key => (x, key))) with
      | none => s
      | some (x, key) =>
        let s := s.updComm n (fun c => { (c.setKey { key := key, st := .cancelled, slate := x }) with
          next := some (x + 1), skips := dropKey c.skips x, known := dropKey c.known x })
        let s := match c.entries.find? (fun e => e.key == key) with
          | some e => s.endEntry n e 3 0
          | none => s.updComm n (fun c => { c with taken := c.taken ++ [key] })
        (s.ackSkip n c x).passSkips n k

/-- NEXT passes every skipped slate that it reaches. -/
def State.advanceNext (s : State) (n : Nat) : State :=
  match s.comm? n with
  | none => s
  | some c => (s.passSkips n (c.skips.length + 1)).rewatch n

/-- The data of a member's entry moves (R344): its own source is read, the result of its rank is formed from the sources of the ranks, and its
destination is written. Where distinct tensors overlap in memory, the destination takes values that the module does not define (R2). The answer
is the code of a fault of the destination, or 0. -/
def State.moveColl (s : State) (c : Comm) (e : CollEntry) (sources : List (List Byte)) : Nat × State :=
  let tiles := fun (n : Option Nat) (write : Bool) => match n with
    | none => (0, [])
    | some n => match s.collTiles e.die e.ctx n write with
      | .ok x => x
      | .bad _ => (0, [])
  let src := tiles (e.source c.desc.rank) false
  let dst := tiles e.dst true
  let (own, s) := s.readTiles e.die e.ctx src.2
  let srcs := (List.range c.desc.n).map (fun r => if r = c.desc.rank then own else nth sources r [])
  let data := collResult e.op dst.1 c.desc.n c.desc.rank e.root srcs
  let overlap := e.source c.desc.rank != e.dst && src.2.any (fun a => dst.2.contains a)
  let (data, s) := if overlap then s.freeBytes (ceilDiv data.length 8) else (data, s)
  s.writeColl e.die e.ctx (e.dst.getD 0) data

/-- The uid under which the collective engine waits for the delivery of a request of a communicator. -/
def collAgent (n : Nat) : Nat := 2 ^ 64 + n

/-- A member's entry ends by its go: the data moves, or the fault is recorded; the entry completes, its key's use is completed, and a cancel of
this use that came too late completes with status 1 (R346, R352). -/
def State.goEntry (s : State) (n : Nat) (c : Comm) (e : CollEntry) (slate : BitVec 32) (o : GoOutcome) (sources : List (List Byte)) : State :=
  let (st, code, s) : Nat × Nat × State := match o with
    | .faulted k => (2, k.toNat, s)
    | .run =>
      if e.op = 9 then (0, 0, s)
      else
        let (code, s) := s.moveColl c e sources
        (if code = 0 then 0 else 2, code, s)
  let s := s.endEntry n e st code
  let s := s.updComm n (fun c => { (c.setKey { key := e.key, st := .completed, slate := slate }) with
    next := some (slate + 1), known := dropKey c.known slate })
  (s.endCancels n (fun x => x.key == e.key && x.own) 1).advanceNext n

/-- A message is the go of a slate. -/
def isGo (n : Nat) (slate : BitVec 32) : Instr → Bool
  | .collGo m x _ _ _ => m == n && x == slate
  | _ => false

/-- COLL_GO: a member receives go (R346). `sources` gives the sources of the ranks, in order; this member's own is read from its memory. A go whose
data cannot be delivered now is kept until it can (R355). -/
def execCollGo (n : Nat) (slate : BitVec 32) (o : GoOutcome) (sources : List (List Byte)) (gen : Nat) (s : State) :
    Host.Outcome State Fault Refusal :=
  match s.hear n gen with
  | (s, false) => .next s
  | (s, true) =>
    match s.comm? n with
    | none => .next s
    | some c =>
      let me := s.ident.moduleNum
      let s := { s with mail := s.mail.filter (fun m => !(m.1 == me && isGo n slate m.2)) }
      match c.entries.find? (fun e => e.slate == some slate && e.ready && c.next == some slate) with
      | none => .next s
      | some e =>
        let h := s.holdRequest e.ctx (.agent (collAgent n))
        .next (s.delivered (s.goEntry n c e slate o sources) (.agent (collAgent n))
          { h with mail := (me, .collGo n slate o sources gen) :: h.mail })

/-- A skip of a slate answers a COLLX of its key: one of the member's next use, or of its own use, which has that slate (R352). -/
def Comm.answers (c : Comm) (slate key : BitVec 32) (x : CancelRec) : Bool :=
  x.key == key && (!x.own || c.entries.all (fun e => e.key != key || e.slate == some slate))

/-- COLL_SKIP: a member receives a skip. The COLLX that asked for it completes with status 0, and NEXT passes the slate when it
reaches it; one that it has passed is acknowledged again (R352, R350). -/
def execCollSkip (n : Nat) (slate key : BitVec 32) (gen : Nat) (s : State) : Host.Outcome State Fault Refusal :=
  match s.hear n gen with
  | (s, false) => .next s
  | (s, true) =>
    match s.comm? n with
    | none => .next s
    | some c =>
      let s := s.endCancels n (c.answers slate key) 0
      if c.next.any (fun x => slateBefore slate x) then .next (s.ackSkip n c slate)
      else
        .next ((s.updComm n (fun c =>
          if (lookupKey c.skips slate).isSome then c
          else { c with next := some (c.next.getD slate), skips := c.skips ++ [(slate, key)] })).advanceNext n)

/-! ### Failover (R350) -/

/-- 10 µs: the period of the heartbeats, in clk of the nominal clock. -/
def beatPeriod : Nat := 15000

/-- 30 µs and 40 µs, in clk of the nominal clock. -/
def failoverLimit : Nat := 45000
/-- See `failoverLimit`. -/
def resendLimit : Nat := 60000

/-- The other sequencer of a communicator, to which this module's heartbeats go. -/
def Comm.peer (c : Comm) (me : Nat) : Option Nat :=
  if c.seq.serving then c.replica me else if c.desc.backup == some me then some c.server else none

/-- A heartbeat of this module is due (R350). -/
def State.beatDue (s : State) (c : Comm) : Option Nat :=
  if c.desc.en && decide (c.seq.sentBeat + beatPeriod ≤ s.clk) then (c.peer s.ident.moduleNum).filter (· != s.ident.moduleNum) else none

/-- The backup's replica takes an assignment as the primary has it; numbering continues from the last one plus one (R350). -/
def Sequencer.learn (q : Sequencer) (a : Assign) : Sequencer :=
  if q.assigns.any (fun x => x.slate == a.slate) then q.upd a.slate (fun _ => a)
  else { q with next := a.slate + 1, assigns := (q.assigns.filter (fun x => x.isOpen || x.key != a.key || a.isOpen)) ++ [a] }

/-- The backup has acknowledged replications up to a number: what they held is sent (R350). -/
def State.releaseHeld (s : State) (n no : Nat) : State :=
  match s.comm? n with
  | none => s
  | some c => (c.seq.held.filter (fun x => decide (x.1 ≤ no))).foldl (fun (s : State) x => s.sendList c x.2)
      (s.updSeq n (fun q => { q with held := q.held.filter (fun x => decide (no < x.1)) }))

/-- SEQ_HEARTBEAT: what passes between the two sequencers (R350). A heartbeat goes out every 10 µs, and one that arrives is noted; the backup
records an assignment and acknowledges it; the acknowledgement lets the primary answer. When both have failed the host is sent an event. -/
def execSeqHeartbeat (x : SeqNote) (s : State) : Host.Outcome State Fault Refusal :=
  let n := x.comm
  match s.comm? n with
  | none => .next s
  | some c =>
    match x.msg with
    | .due => match s.beatDue c with
      | some p => .next ((s.updSeq n (fun q => { q with sentBeat := s.clk })).send c.desc.ctx p
          (.seqHeartbeat ⟨n, .beat (if c.seq.serving then c.seq.gen else c.gen)⟩))
      | none => .next s
    | .beat gen => .next ((s.sawGen n gen).updSeq n (fun q => { q with lastBeat := s.clk }))
    | .replicate no a gen =>
      if c.seq.serving || gen < max c.gen c.seq.gen then .next (s.sawGen n gen)
      else .next ((s.updSeq n (fun q => { q.learn a with gen := gen, lastBeat := s.clk })).send c.desc.ctx c.server
        (.seqHeartbeat ⟨n, .ack no gen⟩))
    | .ack no gen => if c.seq.serving && gen == c.seq.gen then .next (s.releaseHeld n no) else .next (s.sawGen n gen)
    | .lost => .next (if c.seq.serving then s else s.post (.seqLost n))

/-- The backup takes over: this module is the backup, does not serve, and has heard nothing for 30 µs. -/
def State.failoverDue (s : State) (n : Nat) : Option Comm :=
  (s.comm? n).bind (fun c =>
    if c.desc.en && c.desc.backup == some s.ident.moduleNum && !c.seq.serving && c.server != s.ident.moduleNum
        && decide (c.seq.lastBeat + failoverLimit ≤ s.clk) then some c else none)

/-- What the backup that takes over sends for an assignment that it holds: its go, or its number with its skip (R350). -/
def Comm.tell (c : Comm) (gen : Nat) (a : Assign) : List (Nat × Instr) :=
  match a.outcome with
  | some o => c.toAll (.collGo c.no a.slate o [] gen)
  | none => c.toAll (.slateNotify c.no a.slate a.key gen) ++ (if a.cancelled then c.toAll (.collSkip c.no a.slate a.key gen) else [])

/-- SEQ_FAILOVER: the backup serves under the next generation, and sends it with every open assignment and every go and skip that
it holds to all members (R350). -/
def execSeqFailover (n : Nat) (s : State) : Host.Outcome State Fault Refusal :=
  match s.failoverDue n with
  | none => .next s
  | some c =>
    let gen := max c.gen c.seq.gen + 1
    let s := s.updComm n (fun c => { c with server := s.ident.moduleNum, seq := { c.seq with gen := gen, serving := true } })
    .next (s.sendList c (c.toAll (.collResend n gen) ++ c.seq.assigns.flatMap (c.tell gen)))

/-- Some request, ready message or cancel of a member has been unanswered for 40 µs. -/
def State.resendDue (s : State) (c : Comm) : Bool :=
  c.unanswered.any (fun e => decide (e.since + resendLimit ≤ s.clk)) || c.cancels.any (fun x => decide (x.since + resendLimit ≤ s.clk))

/-- COLL_RESEND: a member learns of a new generation, or has waited 40 µs: it sends again what is unanswered (R350). -/
def execCollResend (n gen : Nat) (s : State) : Host.Outcome State Fault Refusal :=
  match s.hear n gen with
  | (s, false) => .next s
  | (s, true) =>
    match s.comm? n with
    | none => .next s
    | some c => if s.resendDue c then .next (s.resend n) else .next s

end Sys2Proof.Machine
end

