-- ==== Sys2Proof/Machine/Handler.lean ====
section
/-!
DEFINITION. Traps and handlers (22): the handler instructions, the start and the timeout of a handler run, the watchdogs, ICINV,
and FFLAGS (23 R405).
-/
namespace Sys2Proof.Machine
open Sys2Proof

/-! ### Selectors (Table 22.5) -/

/-- What a selector names: a resident warp, a warp of the workgroup that has retired, or no warp of it. -/
inductive Target where
  | warp (w : Warp)
  | retired
  | beyond
  deriving DecidableEq, Repr

/-- The warp that a selector names; a wave reaches only itself. -/
def State.target (s : State) (sel : Word) : Target :=
  if bitAt sel 21 then .warp s.me
  else if s.me.kind != .launched then .beyond
  else
    let k := fieldNat sel 16 5
    if s.myWg.foot.warps ≤ k then .beyond
    else match s.warps.find? (fun w => w.wg == s.me.wg && w.kind == .launched && w.wid == k) with
      | some w => .warp w
      | none => .retired

/-- THREAD of a selector. -/
def selThread (sel : Word) : Nat := fieldNat sel 8 5

/-- INDEX of a selector. -/
def selIndex (sel : Word) : Nat := fieldNat sel 0 8

/-- The value of a selector or a thread mask. -/
def State.selOf (s : State) (o : Src) (imm : BitVec 32) : Word := s.src o 0 (imm.setWidth 64)

/-- A warp maps the row that an operation in flight writes. -/
def Warp.mapsRow (w : Warp) : FlightDst → Bool
  | .row r _ => w.map.contains (some r)
  | _ => false

/-- Every write that a warp has issued to its rows, registers and predicates has completed (R377), and so has every write of another warp of the
slice to a row that it maps (R140). -/
def State.settled (s : State) (l : Loc) : Bool :=
  (s.flightsOf l false).all (fun f => f.writes.isEmpty)
    && (s.warp? l).all (fun w => ((s.warpsOn (sliceOfLoc l)).filter (fun x => x.loc != l)).all (fun x =>
      x.inflight.all (fun f => f.writes.all (fun y => !w.mapsRow y.1))))

/-- The course of a handler instruction on a selected warp: outside a handler run it is illegal (R368); it waits for the warp's
writes (R377); an index beyond its range, or a warp beyond the workgroup's, raises PERMISSION (R371). -/
def State.onTarget (s : State) (f : FmtA) (sel : Src) (ts : List Touch) (inRange : Word → Bool) (gone : State)
    (body : State → Warp → Word → State) : Host.Outcome State Fault Refusal :=
  s.issue s.cur.handler f.guard f.cf ts (fun run ex =>
    let v := s.selOf sel f.imm
    match s.target v with
    | .beyond => s.allFault run ex (s.faultHere 0x0C v)
    | t =>
      if !inRange v then s.allFault run ex (s.faultHere 0x0C v)
      else match t with
        | .warp w =>
          if s.settled w.loc then (body s w v).complete run ex f.cf [] else s.waitRun (.settle w.loc)
        | _ => gone.complete run ex f.cf [])

/-! ### TRD and TWR (R372) -/

/-- INDEX of a kind of TRD or TWR lies within its range. -/
def kindRange (fn : Nat) (sel : Word) : Bool :=
  match fn with
  | 0 | 1 => decide (selIndex sel < 128)
  | 4 => decide (selIndex sel < 192)
  | 6 => decide (selIndex sel < 16)
  | _ => true

/-- The map word of a row of a slice (Table 22.7). -/
def State.mapWord (s : State) (i : SliceId) (r : Option Nat) : Word :=
  match r.bind (fun r => (s.slice i).row? r) with
  | some y => word (y.charge * 2 ^ 28 + y.holders * 2 ^ 16 + y.no * 2 ^ 8 + 1)
  | none => 0

/-- The number of a thread's state. -/
def TState.code : TState → Nat
  | .running => 0 | .parked => 1 | .exited => 2

/-- The PC word of a thread (Table 22.7). -/
def Warp.pcWord (w : Warp) (t : Nat) : Word :=
  let x := w.thread t
  let b := fun (c : Bool) (k : Nat) => if c then 2 ^ k else 0
  word (b x.xfer 60 + b x.pass 59 + b w.serial 58 + x.st.code * 2 ^ 56 + (if x.st == .exited then 0 else fieldNat x.pc 0 56))

/-- The word that TRD writes for a kind other than .row. -/
def State.trdWord (s : State) (fn : Nat) (w : Warp) (sel : Word) : Word :=
  let i := sliceOfLoc w.loc
  match fn with
  | 1 => s.mapWord i (w.mapOf (selIndex sel))
  | 2 => w.pcWord (selThread sel)
  | 3 => word ((List.range 12).foldl (fun a k => a + (if bitAt (nth w.preds k 0) (selThread sel) then 2 ^ k else 0)) 0)
  | 4 => nth w.unif (selIndex sel) 0
  | 5 => (w.thread (selThread sel)).fflags.setWidth 64
  | 6 => s.mapWord i (s.mailbox i (selIndex sel))
  | _ => word ((List.range 12).foldl (fun a k => a + (if flagIsSet w.flags w.waits k then 2 ^ k else 0)) 0)

/-- Write a handler row of the issuing run's slice. -/
def State.setHrow (s : State) (h : Nat) (data : List Word) : State :=
  s.updSlice (sliceOfLoc s.cur.loc) (fun x => { x with hrows := putNth [] x.hrows h data })

/-- A handler row of the issuing run's slice. -/
def State.hrow (s : State) (h : Nat) : List Word := nth (s.slice (sliceOfLoc s.cur.loc)).hrows h []

/-- The elements of the row that a warp's name maps; zeros when it is unmapped. -/
def State.rowData (s : State) (w : Warp) (n : Nat) : List Word :=
  match w.mapOf n with
  | some r => (List.range 32).map (fun t => (s.slice (sliceOfLoc w.loc)).elem r t)
  | none => List.replicate 32 0

/-- TRD (R372). -/
def execTrd (f : FmtA) (s : State) : Host.Outcome State Fault Refusal :=
  let fn := f.fn.toNat
  let gone := if fn = 0 then s.setHrow f.dst.no (List.replicate 32 0)
    else s.setUni f.dst.no (if fn = 2 then word (2 * 2 ^ 56) else 0)
  s.onTarget f f.sb (f.sb.touch ++ f.dst.touch) (kindRange fn) gone (fun s w v =>
    if fn = 0 then s.setHrow f.dst.no (s.rowData w (selIndex v)) else s.setUni f.dst.no (s.trdWord fn w v))

/-- Write all elements of the row that a name of a warp maps, which is allocated when it is unmapped; none when no row is to be had
(R372, R129). -/
def State.writeRow (s : State) (w : Warp) (n : Nat) (data : List Word) : Option State :=
  (s.allocNames w.loc [n]).bind (fun s =>
    ((s.warp? w.loc).bind (fun w => w.mapOf n)).map (fun r =>
      s.updSlice (sliceOfLoc w.loc) (fun x => x.editData r (fun _ => data))))

/-- TWR.map (R372): none when it changes nothing. -/
def State.writeMap (s : State) (w : Warp) (n : Nat) (v : Word) : Option State :=
  let i := sliceOfLoc w.loc
  if !bitAt v 0 then some (s.unmapName w.loc n)
  else
    let r := fieldNat v 8 8
    if ((s.slice i).row? r).all (fun y => y.holders == 0) then none
    else some (((s.holdRow i r).setMap w.loc n (some r)).releaseOpt w.loc (w.mapOf n))

/-- TWR of a kind (R372): none when it changes nothing. -/
def State.twr (s : State) (fn : Nat) (w : Warp) (sel v : Word) (row : List Word) : Option State :=
  match fn with
  | 0 => s.writeRow w (selIndex sel) row
  | 1 => s.writeMap w (selIndex sel) v
  | 3 => some (s.updWarp w.loc (fun w => { w with preds := (List.zip (List.range 12) w.preds).map (fun p =>
      let m := listMask [selThread sel]
      if bitAt v p.1 then p.2 ||| m else p.2 &&& ~~~m) }))
  | 4 => some (s.updWarp w.loc (fun w => { w with unif := putNth 0 w.unif (selIndex sel) v }))
  | 5 => some (s.putFlags w.loc (selThread sel) (BitVec.ofNat 8 (fieldNat v 0 7)))
  | _ => none

/-- The answer of TWR in its predicate. -/
def State.twrPred (s : State) (p : Nat) (ok : Bool) : State :=
  let m := listMask [s.myH.thread]
  s.setPred p m (if ok then m else 0)

/-- TWR (R372). -/
def execTwr (f : FmtA) (s : State) : Host.Outcome State Fault Refusal :=
  let fn := f.fn.toNat
  s.onTarget f f.sb (f.sa.touch ++ f.sb.touch) (kindRange fn) (s.twrPred f.dst.no false) (fun s w sel =>
    let v := if fn = 0 then 0 else s.selOf f.sa f.imm
    match s.twr fn w sel v (if fn = 0 then s.hrow f.sa.no else []) with
    | some s' => s'.twrPred f.dst.no true
    | none => s.twrPred f.dst.no false)

/-! ### TRESUME, TKILL, TEMU, TRET (R373 to R376) -/

/-- Resume threads of a warp; the thread of an active handler run of it is resumed at its TRET (R373, R376). -/
def State.handlerResume (s : State) (l : Loc) (m : Mask) (r : Resume) : State :=
  match s.hrun? l with
  | none => s.resumeAs l m r
  | some h =>
    let own := listMask [h.thread]
    let s := if m &&& own != 0 && (s.warp? l).any (fun w => (w.thread h.thread).st == .parked) then
        s.updHrun l (fun h => { h with resume := some r })
      else s
    s.resumeAs l (m &&& ~~~own) r

/-- TRESUME (R373). -/
def execTresume (f : FmtA) (s : State) : Host.Outcome State Fault Refusal :=
  let ts := f.sa.touch ++ f.sc.touch ++ (if f.fn == 1 then f.sb.touch else [])
  s.onTarget f f.sc ts (fun _ => true) s (fun s w _ =>
    let m : Mask := (s.selOf f.sa f.imm).setWidth 32
    s.handlerResume w.loc m (if f.fn == 1 then .target (s.selOf f.sb f.imm) else .here))

/-- Kill threads of a warp. A kill of every thread of it ends its handler run at once; otherwise the handler thread is killed at
TRET (R374). -/
def State.handlerKill (s : State) (l : Loc) (m : Mask) : State :=
  match s.warp? l with
  | none => s
  | some w =>
    let m := m &&& w.alive
    match s.hrun? l with
    | none => s.killThreads l m
    | some h =>
      let own := listMask [h.thread]
      if m == w.alive then (s.endHandler l).killThreads l m
      else
        let s := if m &&& own != 0 then s.updHrun l (fun h => { h with kill := true }) else s
        s.killThreads l (m &&& ~~~own)

/-- TKILL (R374). A kill of the workgroup acts after the writes of all its warps (R377). -/
def execTkill (f : FmtA) (s : State) : Host.Outcome State Fault Refusal :=
  match f.fn.toNat with
  | 2 => s.issue s.cur.handler f.guard f.cf [] (fun run ex =>
      let u := s.me.wg
      match s.warps.find? (fun w => w.wg == u && !s.settled w.loc) with
      | some w => s.waitRun (.settle w.loc)
      | none => ((s.countKilled u s.myH.trec.code).killWg u).complete run ex f.cf [])
  | fn => s.onTarget f f.sc ((if fn = 0 then f.sa.touch else []) ++ f.sc.touch) (fun _ => true) s (fun s w _ =>
      s.handlerKill w.loc (if fn = 0 then (s.selOf f.sa f.imm).setWidth 32 else -1))

/-- The threads of a record that are still parked at its parked PC. -/
def Warp.stillParked (w : Warp) (r : TrapRec) : Mask :=
  maskOf (fun t => bitAt r.mask t && (w.thread t).st == .parked && (w.thread t).pc == r.ppc)

/-- The destination of an emulated slot is written: none when no row is to be had (R375). -/
def State.emuWrite (s : State) (h : HRun) (P : Mask) (hA : Nat) : Option State :=
  let d := fieldNat h.trec.bits 16 8
  let row := s.hrow hA
  let l := s.cur.loc
  if bitAt h.trec.bits 24 then
    some (s.updWarp l (fun w => { w with unif := putNth 0 w.unif d (nth row h.thread 0) }))
  else
    (s.allocNames l [d % 128]).bind (fun s =>
      ((s.warp? l).bind (fun w => w.mapOf (d % 128))).map (fun r =>
        s.updSlice (sliceOfLoc l) (fun x => x.editData r (fun d =>
          (List.range 32).map (fun t => if bitAt P t then nth row t 0 else nth d t 0)))))

/-- TEMU (R375). -/
def execTemu (f : FmtA) (s : State) : Host.Outcome State Fault Refusal :=
  s.issue s.cur.handler f.guard f.cf f.sa.touch (fun run ex =>
    let h := s.myH
    let l := s.cur.loc
    let write := f.fn == 0
    if h.trec.code ≠ 0x02 || (write && bitAt h.trec.bits 24 && decide (192 ≤ fieldNat h.trec.bits 16 8)) then
      s.allFault run ex (illegalOp s)
    else if !s.settled l then s.waitRun (.settle l)
    else
      let P := s.me.stillParked h.trec
      let pc := h.trec.ppc
      match (if write then s.emuWrite h P f.sa.no else some s) with
      | some s => ((s.dropEmu l P pc).handlerResume l P .past).complete run ex f.cf []
      | none => ((s.dropEmu l P pc).handlerResume l P .here).complete run ex f.cf [])

/-- TRET (R376). Pre-emption stops the run at its TRET (R385). -/
def execTret (f : FmtA) (s : State) : Host.Outcome State Fault Refusal :=
  s.issue s.cur.handler f.guard f.cf [] (fun _ _ =>
    if s.ctxLive s.myCtx then s.returnFromHandler s.cur.loc else s.updHrun s.cur.loc (fun h => { h with stop := true }))

/-! ### The start and the end of a handler run (R366, R369) -/

/-- The record that a slice delivers next: that of the first warp with queued records after the slot served last (R366). The handler of a
cancelled instance that stops is not called (R330), and none while the context is being pre-empted (R385). -/
def State.nextDelivery (s : State) (i : SliceId) : Option (Loc × TrapRec) :=
  let x := s.slice i
  if x.handler.isSome then none
  else ((List.range 4).map (fun k => (x.lastServed + 1 + k) % 4)).findSome? (fun k =>
    (s.warp? ⟨i.die, i.core, i.slice, k⟩).bind (fun w =>
      if w.cancelDue || !s.ctxLive w.ctx then none else (nextRecord w.records).map (fun r => (w.loc, r))))

/-- HANDLER_RUN_START (R366, R367). -/
def execHandlerRunStart (i : SliceId) (s : State) : Host.Outcome State Fault Refusal :=
  match s.nextDelivery i with
  | none => .next s
  | some (l, r) => .next (s.startHandler l r)

/-- The clk within which a handler run issues TRET (R369). -/
def handlerLimit : Nat := 2 ^ 26

/-- HANDLER_TIMEOUT: the run ends, and its workgroup is killed with FCODE 0x1B (R369). -/
def execHandlerTimeout (i : SliceId) (s : State) : Host.Outcome State Fault Refusal :=
  match (s.slice i).handler with
  | none => .next s
  | some h =>
    let l : Loc := ⟨i.die, i.core, i.slice, h.slot⟩
    if s.clk < h.start + handlerLimit then .next s
    else match s.warp? l with
      | none => .next s
      | some w => .next ((s.endHandler l).killWgWith w.killTarget 0x1B)

/-! ### The watchdogs (R378 to R380) -/

/-- The stall count at which the watchdog trips. -/
def stallLimit : Nat := 2 ^ 24

/-- WATCHDOG: every running thread of the warp is parked at its PC (R379). The count passes its limit, so that it trips once. -/
def execWatchdog (l : Loc) (s : State) : Host.Outcome State Fault Refusal :=
  match s.warp? l with
  | none => .next s
  | some w =>
    if w.stall ≠ stallLimit then .next s
    else .next ((s.raiseAt l (w.inState .running) 0x14 0 0).updWarp l (fun w => { w with stall := stallLimit + 1 }))

/-- RUNTIME_LIMIT: every running thread of the unit's warps is parked at its PC, once (R380). -/
def execRuntimeLimit (u : Nat) (s : State) : Host.Outcome State Fault Refusal :=
  match s.wg? u with
  | none => .next s
  | some g =>
    if g.foot.limit = 0 || g.limitHit || decide (g.runtime < g.foot.limit) then .next s
    else
      let s := (s.warps.filter (fun w => w.wg == u)).foldl (fun s w =>
        s.raiseAt w.loc (w.inState .running) 0x15 (word g.foot.limit) 0) s
      .next (s.updWg u (fun g => { g with limitHit := true }))

/-! ### ICINV and FFLAGS (R384, R405) -/

/-- A line of 64 bytes at an address overlaps a range. -/
def lineOverlaps (va : Nat) (lo n : Nat) : Bool := decide (lo < va + 64) && decide (va < lo + n)

/-- ICINV (R384). -/
def execIcinv (f : FmtA) (s : State) : Host.Outcome State Fault Refusal :=
  let all := f.fn == 1
  s.issue true f.guard f.cf (if all then [] else f.sa.touch ++ f.sb.touch) (fun run ex =>
    let lo := (s.src f.sa 0 0).toNat
    let n := (s.src f.sb 0 (f.imm.setWidth 64)).toNat
    if !all && 2 ^ 40 < n then s.allFault run ex (illegalOp s)
    else
      let rs := s.rangesOf s.myCore s.myCtx lo n
      let hit := s.l1.filter (fun l => l.core == s.l1Owner s.myCore && l.ctx == s.myCtx && !l.dirty.isEmpty
        && (all || inRanges rs l.tile))
      if hit.any (fun l => s.lineStalls l) then s.waitFor f.cf .stalledWrite
      else
        let s := hit.foldl (fun s l => s.cleanLine l) s
        let s := { s with icache := s.icache.filter (fun l => !(l.ctx == s.myCtx && (all || lineOverlaps l.va lo n))) }
        s.complete run ex f.cf [])

/-- FFLAGS (R405). -/
def execFflags (f : FmtA) (s : State) : Host.Outcome State Fault Refusal :=
  s.issue (!s.cur.handler) f.guard f.cf f.dst.touch (fun run ex =>
    let v := fun (t : Nat) => (s.me.thread t).fflags.setWidth 64
    s.allocating f.dst.names (fun s' =>
      ((s'.setElems f.dst.no ((maskList ex).map (fun t => (t, v t)))).clearFlags ex (f.imm.setWidth 8)).complete run ex f.cf []))

end Sys2Proof.Machine
end

