-- ==== Sys2Proof/Machine/Place.lean ====
section
/-!
DEFINITION. Retirement (06 R118, 07 R138, R139, 25 R407, R408) and placement (04 R47 to R58): warps and workgroups retire,
batches are accepted, pending units are placed, and cores are gated and activated.
-/
namespace Sys2Proof.Machine
open Sys2Proof

/-! ### The retirement of a warp (R118, R138, R139) -/

/-- The warp of a slice that inherits a row: the lowest slot that maps it, or the lowest resident slot (R138). -/
def heirOf (others : List Warp) (r : Nat) : Option Nat :=
  match others.find? (fun w => w.map.contains (some r)) with
  | some w => some w.loc.slot
  | none => (others.head?).map (·.loc.slot)

/-- CHARGE_INHERIT: the rows still charged to a retiring warp pass to their heirs (R138). -/
def State.inherit (s : State) (l : Loc) : State :=
  let i := sliceOfLoc l
  let others := (s.warpsOn i).filter (fun w => w.loc != l)
  ((s.slice i).rows.filter (fun y => y.charge == l.slot)).foldl (fun s y =>
    match heirOf others y.no with
    | some k => s.moveCharge i y.no k
    | none => s) s

/-- The contents of a row. -/
def State.rowWords (s : State) (i : SliceId) (r : Nat) : List Word := (List.range 32).map (fun t => (s.slice i).elem r t)

/-- The given names of a pending wave: its references are captured in the spill area, and each row is released (R139, R400). -/
def State.captureWave (s : State) (i : SliceId) (p : Pending) : State :=
  match p.kind with
  | .wave a sl b c d e f g h given k =>
    if sl != i then s
    else
      let at_ := List.zip given (freeSlots (s.spilled p.ctx p.die) given.length)
      let s := at_.foldl (fun (s : State) x => match x.1 with
        | .ref r => s.spill p.ctx p.die x.2 (s.rowWords i r)
        | .copy _ => s) s
      let given' := at_.map (fun x => match x.1 with
        | .ref _ => Given.copy x.2
        | .copy j => .copy j)
      let s := { s with pending := s.pending.map (fun (q : Pending) =>
        if q.uid == p.uid then { q with kind := .wave a sl b c d e f g h given' k } else q) }
      given.foldl (fun (s : State) x => match x with
        | .ref r => s.releaseRow i r
        | .copy _ => s) s
  | _ => s

/-- The references that the pending waves of a slice hold become captured copies (R139). -/
def State.captureGiven (s : State) (i : SliceId) : State := s.pending.foldl (fun s p => s.captureWave i p) s

/-- SLICE_DRAIN: the given references first, then the mailboxes in ascending number (R139). -/
def State.drainSlice (s : State) (i : SliceId) : State :=
  let s := s.captureGiven i
  (List.range 16).foldl (fun s m => match s.mailbox i m with
    | some r => (s.setMailbox i m none).releaseRow i r
    | none => s) s

/-- A context is being destroyed. -/
def State.isDestroying (s : State) (ctx : Nat) : Bool := (s.ctx? ctx).any (fun c => c.status == .destroying)

/-- A warp can retire: every thread has exited, no handler run of it is active, every write that it issued has been made, and the
release of its pins is possible (R118, R328). A context that is being destroyed keeps what it holds for its scrub (R411, R412). -/
def State.retirable (s : State) (l : Loc) : Option Warp :=
  match s.warp? l with
  | none => none
  | some w =>
    if w.alive = 0 && (s.hrun? l).isNone && s.settled l && (w.pins.isEmpty || !s.releaseStalls (coreOfLoc l) .module)
        && !s.isDestroying w.ctx
    then some w else none

/-- The end of a warp's unit, for its parent or its subscriber (R313, R329). -/
def endOf (s : State) (w : Warp) : Option Ended :=
  let e : Ended := { uid := w.uid, ctx := w.ctx, core := coreOfLoc w.loc, endClass := w.endClass, bundle := w.bundle,
                     joinOf := w.joinOf, inst := none }
  match w.kind with
  | .spawned _ => some e
  | .refine cell sub => some { e with inst := some (cell, sub, (nth (s.cell w.ctx cell).subs sub {}).version) }
  | _ => none

/-- A retiring warp leaves its barriers: it counts no longer in a counted generation (R303). -/
def BarGen.leave (b : BarGen) (uid : Nat) : BarGen :=
  { b with arrived := if b.count.isSome then b.arrived.filter (· != uid) else b.arrived, owed := b.owed.filter (· != uid) }

/-- WARP_RETIRE: the warp releases its pins and names, its rows find heirs or its slice is drained, and its slot is free (R118). -/
def execWarpRetire (l : Loc) (s : State) : Host.Outcome State Fault Refusal :=
  match s.retirable l with
  | none => .next s
  | some w =>
    let i := sliceOfLoc l
    let s := if w.pins.isEmpty then s else s.release (coreOfLoc l) .module
    let s := s.dropHeld l
    let s := (List.range 128).foldl (fun s n => s.unmapName l n) s
    let last := (s.warpsOn i).length ≤ 1
    let s := if last then s else s.inherit l
    let s := { s with warps := s.warps.filter (fun x => x.loc != l) }
    let s := if last then s.drainSlice i else s
    let s := { s with wgs := s.wgs.map (fun (g : Wg) => if g.uid == w.wg then { g with bar := g.bar.leave w.uid } else g),
                      groups := s.groups.map (fun (g : ClGroup) => if g.wgs.contains w.wg then { g with cbar := g.cbar.leave w.uid } else g) }
    let s := s.updCore (coreOfLoc l) (fun c => { c with idleSince := s.clk })
    .next (match endOf s w with
      | none => s
      | some e =>
        if w.kind == .spawned false then s.updWg w.wg (fun g => { g with ending := some e })
        else { s with ended := s.ended ++ [e] })

/-! ### The retirement of a workgroup (R407, R408, R55) -/

/-- A workgroup can retire: no warp of it is resident, no entry is left on its matrix and copy queues, and its release is possible
now. -/
def State.wgRetirable (s : State) (u : Nat) : Option Wg :=
  match s.wg? u with
  | none => none
  | some g =>
    if !g.retired && s.warps.all (fun w => w.wg != u) && (g.queues.take 5).all (·.isEmpty) && !s.releaseStalls g.core .module
        && !s.isDestroying g.ctx
    then some g else none

/-- The fused L1 of a cluster is written back and invalidated, and the four L1s are separate again (R55). -/
def State.unfuse (s : State) (c : CoreId) : State :=
  (s.flushL1 c).updCore c (fun k => { k with fused := false })

/-- When the last workgroup of a bundle has retired, its epilogue chain starts, as an acquire of the retirements; it is skipped when a
workgroup was killed (R34, R408). -/
def State.startEpilogue (s : State) (b : Nat) : State :=
  match s.bundle? b with
  | none => s
  | some x =>
    if x.phase != .run || x.alive != 0 then s
    else
      let skip := !x.epi.isEmpty && !x.killed.isEmpty
      let s := s.updBundle b (fun x => { x with phase := .epilogue, episkip := skip })
      if skip || x.epi.isEmpty then s else s.startChain b 1 x.ctx ((s.diesOf x.ctx).headD 0) x.epi

/-- What is left of a unit whose resources have returned: its entries of xq (R407). -/
def Wg.leftover (g : Wg) : Wg :=
  { g with slices := [], foot := { g.foot with loc := 0, acckib := 0, tags := 0, guards := 0 }, locMem := [], accMem := [], cks := [],
           group := none, fuse := false, ending := none, retired := true }

/-- The units that leave with a unit that retires: the workgroups of its cluster group, of which it is the last, or itself; none while others of
the group are resident (R17). -/
def State.leaving (s : State) (g : Wg) : List Nat :=
  match g.group with
  | none => [g.uid]
  | some k =>
    let us := (s.wgs.filter (fun x => x.group == some k)).map (·.uid)
    if s.wgs.all (fun x => x.group != some k || x.uid == g.uid || x.retired) then us else []

/-- The resources of a unit return (R407); a fused L1 is written back, and its cluster is separate again (R55). -/
def State.returnUnit (s : State) (u : Nat) : State :=
  match s.wg? u with
  | none => s
  | some g =>
    let s := if g.fuse then s.unfuse ⟨g.core.die, g.core.core / 4 * 4⟩ else s
    (s.updWg u Wg.leftover).forgetGone

/-- WORKGROUP_RETIRE: a release at module scope (R408). The unit's resources return, with those of its cluster group when it is the group's
last (R407, R17). -/
def execWorkgroupRetire (u : Nat) (s : State) : Host.Outcome State Fault Refusal :=
  match s.wgRetirable u with
  | none => .next s
  | some g =>
    let s := (s.release g.core .module).updWg u (fun x => { x with retired := true })
    let us := s.leaving g
    let s := us.foldl (fun s u => s.returnUnit u) s
    let s := { s with groups := s.groups.filter (fun x => !us.any (fun u => x.wgs.contains u)) }
    let s := s.waveLeft u
    let s := match g.bundle with
      | some b => if g.wave then s else (s.updBundle b (fun x => { x with alive := x.alive - 1 })).startEpilogue b
      | none => s
    .next (match g.ending with
      | some e => { s with ended := s.ended ++ [e] }
      | none => s)

/-! ### Batches (R41, R58) -/

/-- BATCH_ACCEPT: a batch reaches its die's placement unit, which records it and accepts its units (R58). -/
def execBatchAccept (id : Nat) (s : State) : Host.Outcome State Fault Refusal :=
  match s.batches.find? (fun b => b.id == id) with
  | none => .next s
  | some b =>
    let r : BatchRec := { id := id, bundle := b.bundle, units := b.units.map (·.uid) }
    .next ({ s with batches := s.batches.filter (fun x => x.id != id), pending := s.pending ++ b.units }.updDie b.die (fun d =>
      { d with batches := d.batches ++ [r] }))

/-- A placement unit's answer to a query: it has accepted the unit (R44, R58). -/
def DieSt.hasAccepted (d : DieSt) (u : Nat) : Bool := d.batches.any (fun r => r.units.contains u)

/-- A placement unit records that it has placed a unit (R58). -/
def DieSt.recordPlaced (d : DieSt) (u : Nat) : DieSt :=
  { d with batches := d.batches.map (fun r => if r.units.contains u then { r with placed := r.placed ++ [u] } else r) }

/-- The batches of a bundle that has ended leave the records. -/
def State.forgetBatches (s : State) (p : BatchRec → Bool) : State :=
  { s with dies := s.dies.map (fun d => { d with batches := d.batches.filter (fun r => !p r) }) }

/-! ### The order of pending units (R53, R312) -/

/-- The class of a unit within a priority: waves, then instances, then workgroups. -/
def PendKind.cls : PendKind → Nat
  | .wave .. | .stage .. => 0
  | .refine .. => 1
  | .launch .. => 2

/-- The depth of a pending wave. -/
def PendKind.depth : PendKind → Nat
  | .wave _ _ _ d _ _ _ _ _ _ _ => d
  | _ => 0

/-- The priority at which a unit is tried: its queue's now (R42, R311). -/
def State.prioNow (s : State) (p : Pending) : Nat := s.prioOf p.queue p.prio

/-- A pending unit is one of those that a die's placement unit tries: it was dealt to the die, or it is a stage wave, which any die of its
partition may take (R320). -/
def State.triedOn (s : State) (d : Nat) (p : Pending) : Bool :=
  match p.kind with
  | .stage _ _ _ => (s.diesOf p.ctx).contains d
  | _ => p.die == d

/-- The pending units of a die that are tried, in order. A context that does not run has none placed (R387). -/
def State.tryOrder (s : State) (d : Nat) : List Pending :=
  let l := (List.zip (List.range s.pending.length) s.pending).filter (fun p => s.triedOn d p.2 && s.ctxLive p.2.ctx)
  let key := fun (p : Nat × Pending) => (8 - s.prioNow p.2, p.2.kind.cls, 9 - p.2.kind.depth, p.1)
  let le := fun (a b : Nat × Pending) =>
    let (a1, a2, a3, a4) := key a
    let (b1, b2, b3, b4) := key b
    decide (a1 < b1) || (a1 == b1 && (decide (a2 < b2) || (a2 == b2 && (decide (a3 < b3) || (a3 == b3 && decide (a4 ≤ b4))))))
  (sortBy le l).map (fun p => { p.2 with die := d })

/-! ### Placing a unit -/

/-- The arguments of a launch record (Table 3.6). -/
def launchArgs (slot : List Byte) : List Word := (List.range 16).map (fun k => recWord slot (128 + 8 * k) 8)

/-- L1_FUSE: the four L1s of a cluster are written back, invalidated and fused (R55). -/
def State.fuse (s : State) (d k : Nat) : State :=
  ((List.range 4).foldl (fun s i => s.flushL1 ⟨d, 4 * k + i⟩) s).updCore ⟨d, 4 * k⟩ (fun c => { c with fused := true })

/-- Place a cluster group of a launch (R54). A group of one workgroup without FUSEL1 is placed as a workgroup (R52). -/
def State.placeGroup (s : State) (p : Pending) (b first count : Nat) (fuse : Bool) : Option State :=
  let spots := if count = 1 && !fuse then (s.bestSpot p.ctx p.die p.foot 0).map (fun x => [x]) else s.bestCluster p.ctx p.die p.foot count fuse
  spots.map (fun sps =>
    let (g, s) := s.fresh
    let args := ((s.bundle? b).map (fun x => launchArgs x.slot)).getD []
    let before := s.wgs.map (·.uid)
    let s := if fuse then (match sps with | sp :: _ => s.fuse p.die (sp.core.core / 4) | [] => s) else s
    let s := (List.zip (List.range count) sps).foldl (fun s x =>
      (s.placeWg p x.2 (first + x.1) b g fuse args).acquire x.2.core .sys) s
    { s with groups := s.groups ++ [{ id := g, wgs := (s.wgs.map (·.uid)).filter (fun u => !before.contains u) }] })

/-- A child receives a captured copy from the spill area in a fresh row (R310, R400). -/
def State.grantCopy (s : State) (p : Pending) (l : Loc) (n slot : Nat) : State :=
  let s := if s.isPoisoned (s.spillAt p.ctx p.die slot) 256 then s.setChk p.ctx chkPoison else s
  s.grantRow l n (s.unspill p.ctx p.die slot)

/-- The rows that a joining child receives: references, with the charge rule of TAKE, or copies (R310, R137). -/
def State.joinRows (s : State) (p : Pending) (l : Loc) (given : List Given) : State :=
  let i := sliceOfLoc l
  (List.zip (List.range given.length) given).foldl (fun s x => match x.2 with
    | .copy k => s.grantCopy p l x.1 k
    | .ref r =>
      let held : Bool := match (s.slice i).row? r with
        | some y => (s.warp? ⟨i.die, i.core, i.slice, y.charge⟩).any (fun c => c.map.contains (some r))
        | none => true
      (if held then s else s.moveCharge i r l.slot).setMap l x.1 (some r)) s

/-- The rows that a child placed elsewhere receives: copies; each reference is released (R310). -/
def State.copyRows (s : State) (p : Pending) (from_ : SliceId) (l : Loc) (given : List Given) : State :=
  (List.zip (List.range given.length) given).foldl (fun s x => match x.2 with
    | .copy k => s.grantCopy p l x.1 k
    | .ref r => (s.grantRow l x.1 (s.rowWords from_ r)).releaseRow from_ r) s

/-- The rows of a pending wave's references have no write in flight: their contents can be copied (R310, R140). -/
def State.givenSettled (s : State) (i : SliceId) (given : List Given) : Bool :=
  given.all (fun g => match g with
    | .ref r => !s.rowPending i r
    | .copy _ => true)

/-- Place a spawned wave: in its parent's crew, or as its workgroup-equivalent (R54, R310, R311). -/
def State.placeWave (s : State) (p : Pending) : Option State :=
  match p.kind with
  | .wave parent sl u depth j ts args gid give given prog =>
    let dress := fun (w : Warp) => { w with depth := depth, gid := gid, joinOf := some (parent, j), bundle := prog }
    let k := if give && given.all (fun (g : Given) => match g with | .ref _ => true | .copy _ => false) then 0 else given.length
    match s.joinSlot p k with
    | some l =>
      let w := { dress (startWarp p l p.uid u (.spawned true) ts args) with placed := s.clk }
      some (({ s with warps := s.warps ++ [w] }.joinRows p l given).acquire (coreOfLoc l) .die)
    | none =>
      if !s.givenSettled sl given then none
      else (s.bestSpot p.ctx p.die p.foot given.length).map (fun sp =>
        let (l, s) := s.placeOwn p sp (.spawned false) none ts args
        ((s.updWarp l dress).copyRows p sl l given).acquire sp.core .die)
  | _ => none

/-- Place a stage wave (R40, R54). -/
def State.placeStage (s : State) (p : Pending) (pipe k : Nat) (args : List Word) : Option State :=
  (s.bestSpot p.ctx p.die p.foot 0).map (fun sp =>
    ((s.placeOwn p sp (.stage pipe k) none (-1) args).2).acquire sp.core .sys)

/-- Place an instance: it becomes resident at its subscriber, with its pin (R329). -/
def State.placeInstance (s : State) (p : Pending) (cell sub version buf : Nat) (args : List Word) : Option State :=
  (s.bestSpot p.ctx p.die p.foot 0).map (fun sp =>
    let (l, s) := s.placeOwn p sp (.refine cell sub) none (-1) args
    let s := s.updWarp l (fun w => { w with pins := [{ cell := cell, buf := buf, version := version }] })
    (s.updSub p.ctx cell sub (fun q => { q with pending := none, resident := some p.uid, version := version })).acquire
      sp.core .module)

/-- Place a unit where everything that it declares fits; none when nothing fits (R47). -/
def State.tryPlace (s : State) (p : Pending) : Option State :=
  let p := { p with prio := s.prioNow p }
  let s := { s with pending := s.pending.filter (fun x => x.uid != p.uid) }
  let noted := fun (d : DieSt) => { d.recordPlaced p.uid with stopFor := d.stopFor.filter (· != p.uid) }
  (match p.kind with
   | .launch b first count fuse => s.placeGroup p b first count fuse
   | .wave .. => s.placeWave p
   | .stage pipe k args => s.placeStage p pipe k args
   | .refine cell sub version buf args => s.placeInstance p cell sub version buf args).map (fun (s : State) => s.updDie p.die noted)

/-- The bundle of a unit of a launch. -/
def Pending.launchOf (p : Pending) : Option Nat :=
  match p.kind with
  | .launch b _ _ _ => some b
  | _ => none

/-- A stop of the die holds back a unit of a priority, another than the one that it waits for, when that one's is not lower (R53). -/
def State.stopsAt (s : State) (d uid prio : Nat) : Bool :=
  s.pending.any (fun q => (s.die d).stopFor.contains q.uid && uid != q.uid && decide (prio ≤ s.prioNow q))

/-- A stop of the die holds back a pending unit. -/
def State.stopped (s : State) (d : Nat) (p : Pending) : Bool := s.stopsAt d p.uid (s.prioNow p)

/-- Try units in order: the state after the first that is placed, and the units found to be the first unfitted of their launches. A
workgroup that does not fit blocks the later ones of its launch (R53). -/
def State.scan (s : State) (d : Nat) : List Pending → List Nat → List Nat → Option State × List Nat
  | [], _, first => (none, first)
  | p :: rest, shut, first =>
    let b := p.launchOf
    if b.any (fun b => shut.contains b) || s.stopped d p then s.scan d rest shut first
    else match s.tryPlace p with
      | some s' => (some s', first)
      | none => match b with
        | some b => s.scan d rest (b :: shut) (p.uid :: first)
        | none => s.scan d rest shut first

/-- Mark since when the units are the first unfitted of their launches. -/
def State.markFirst (s : State) (us : List Nat) : State :=
  { s with pending := s.pending.map (fun (p : Pending) =>
      if us.contains p.uid && p.blocked.isNone then { p with blocked := some s.clk } else p) }

/-- What the placement unit of a die does now: a unit is placed, or a unit is found not to fit. -/
def State.placeNext (s : State) (d : Nat) : Option State :=
  let (r, first) := s.scan d (s.tryOrder d) [] []
  match r with
  | some s' => some (s'.markFirst first)
  | none => if s.pending.any (fun p => first.contains p.uid && p.blocked.isNone) then some (s.markFirst first) else none

/-- PLACEMENT (R47, R52 to R57). -/
def execPlacement (d : Nat) (s : State) : Host.Outcome State Fault Refusal := .next ((s.placeNext d).getD s)

/-- The clk after which an unfitted workgroup stops the die (R53). -/
def stopLimit : Nat := 2 ^ 20

/-- A unit for which a die stops placing now. -/
def State.stopDue (s : State) (d : Nat) : Option Nat :=
  (s.pending.find? (fun p => p.die == d && p.blocked.any (fun t => decide (t + stopLimit ≤ s.clk))
    && !(s.die d).stopFor.contains p.uid)).map (·.uid)

/-- PLACEMENT_STOP: the die stops placing units of equal or lower priority until the unit is placed (R53). -/
def execPlacementStop (d : Nat) (s : State) : Host.Outcome State Fault Refusal :=
  match s.stopDue d with
  | some u => .next (s.updDie d (fun x => { x with stopFor := x.stopFor ++ [u] }))
  | none => .next s

/-! ### Gating and activation (R56) -/

/-- 10 µs in clk of the nominal clock. -/
def gateLimit : Nat := 15000

/-- A core that can be gated: active, without a resident warp for 10 µs. -/
def State.gateDue (s : State) (c : CoreId) : Bool :=
  let k := s.core c
  k.active && s.residents c == 0 && decide (k.idleSince + gateLimit ≤ s.clk) && !s.l1.any (fun l => l.core == c && s.lineStalls l)

/-- CORE_GATE: the core's L1 is written back, and the core is gated. -/
def execCoreGate (c : CoreId) (s : State) : Host.Outcome State Fault Refusal :=
  if s.gateDue c then .next ((s.flushL1 c).updCore c (fun k => { k with active := false })) else .next s

/-- The activations of a die in the last 1,500 clk. -/
def State.recentOf (s : State) (d : Nat) : List Nat := (s.die d).recent.filter (fun t => decide (s.clk < t + 1500))

/-- A gated core that holds a unit can be activated: fewer than 12 cores of its die in the window. -/
def State.activateDue (s : State) (c : CoreId) : Bool :=
  !(s.core c).active && s.residents c != 0 && decide ((s.recentOf c.die).length < 12)

/-- CORE_ACTIVATE (R56). -/
def execCoreActivate (c : CoreId) (s : State) : Host.Outcome State Fault Refusal :=
  if s.activateDue c then
    .next ((s.updDie c.die (fun d => { d with recent := s.recentOf c.die ++ [s.clk] })).updCore c (fun k => { k with active := true }))
  else .next s

end Sys2Proof.Machine
end

