-- ==== Sys2Proof/Machine/Command.lean ====
section
/-!
DEFINITION. Queues and commands (03 R20 to R40): the queue registers, the fetch of a slot, the checks in the order of R25, and the
records that a command names.
-/
namespace Sys2Proof.Machine
open Sys2Proof

/-! ### Queues (R20 to R24, R28) -/

/-- Change a queue. -/
def State.updQ (s : State) (r : QueueRef) (g : Queue → Queue) : State :=
  { s with queues := s.queues.map (fun q => if q.ref == r then g q else q) }

/-- Store a queue. -/
def State.setQ (s : State) (q : Queue) : State :=
  if s.queues.any (fun x => x.ref == q.ref) then s.updQ q.ref (fun _ => q) else { s with queues := s.queues ++ [q] }

/-- A queue, at its reset values when nothing has described it. -/
def State.q (s : State) (r : QueueRef) : Queue := (s.queue? r).getD { ref := r }

/-- The queue of a number is a user queue of the module, or the management queue of a partition of the mode. -/
def State.queueExists (s : State) : QueueRef → Bool
  | .user q => decide (q < 4096)
  | .mgmt p => !(partDies s.mode p).isEmpty

/-- The scheduler that serves a die: its own, while it is up, or its adopter's (R28, R43). -/
def State.schedulerFrom (s : State) : Nat → Nat → Option Nat
  | 0, _ => none
  | n + 1, d =>
    let x := s.die d
    match x.adopter with
    | some a => s.schedulerFrom n a
    | none => if x.boot == .up && !x.dead && !x.fenced then some d else none

/-- The die whose queue table or registers hold a queue. -/
def State.homeOf (s : State) (q : Queue) : Nat :=
  match q.ref with
  | .user _ => q.home
  | .mgmt p => (partDies s.mode p).headD 0

/-- The scheduler that serves a queue. -/
def State.scheduler (s : State) (q : Queue) : Option Nat := s.schedulerFrom 7 (s.homeOf q)

/-- A queue moves to ERROR (R25). -/
def Queue.error (q : Queue) (e : Nat) : Queue := { q with state := .error, err := e }

/-- The slots written and not yet accepted. -/
def Queue.todo (q : Queue) : Nat := (q.wptr - q.rptr).toNat

/-- What a write of WPTR does to a queue in a state: an overrun, or a retry of a held fetch (R22, Table 3.3). DESIGN CHOICE (log 46): an
overrun written to a queue in ERROR leaves its ERR, and a write to a DISABLED or DESTROYED queue stores WPTR only. -/
def Queue.write (q : Queue) (w : BitVec 32) : Queue :=
  let beyond := decide (2 ^ q.logN < (w - q.rptr).toNat)
  let q := { q with wptr := w }
  match q.state with
  | .active => if beyond then q.error 5 else q
  | .fetchFault => if beyond then q.error 5 else { q with state := .active }
  | .held => if beyond && (q.before == .active || q.before == .fetchFault) then { q with before := .error, err := 5 }
    else if q.before == .fetchFault then { q with before := .active } else q
  | _ => q

/-- The commands of a queue that are held after a failed access are tried again (R37, R446). -/
def State.unhold (s : State) (r : QueueRef) : State :=
  { s with cmds := s.cmds.map (fun (c : Cmd) => if c.queue == r then { c with held := false } else c) }

/-- The dies whose PCI Express ports present a partition of a mode (Table 25.4). -/
def portDies (mode p : Nat) : List Nat :=
  match mode with
  | 1 => [0, 3]
  | 6 => if p = 0 || p = 1 || p = 5 then [0] else [3]
  | _ => if p = 0 then [0] else [3]

/-- The partition to which a queue belongs: that of its home die, or the one that it manages. -/
def State.partOf (s : State) : QueueRef → Option Nat
  | .user q => (List.range 6).find? (fun p => (partDies s.mode p).contains (s.q (.user q)).home)
  | .mgmt p => some p

/-- A host command can arrive for a queue: a PCI Express port of its partition is up (R13, R415). -/
def State.hostReaches (s : State) (r : QueueRef) : Bool := (s.partOf r).any (fun p => (portDies s.mode p).any (fun d => (s.die d).pcie))

/-- A write of a queue's WPTR. -/
def State.doorbell (s : State) (r : QueueRef) (w : BitVec 32) : State :=
  if s.queueExists r && s.hostReaches r then (s.setQ ((s.q r).write w)).unhold r else s

/-- DBWP (R22). -/
def execDbwp (q : Nat) (w : BitVec 32) (s : State) : Host.Outcome State Fault Refusal := .next (s.doorbell (.user q) w)

/-- MQ_WPTR (R28). -/
def execMqWptr (p : Nat) (w : BitVec 32) (s : State) : Host.Outcome State Fault Refusal := .next (s.doorbell (.mgmt p) w)

/-- EN is set on a queue that is DISABLED: ACTIVE with both indices 0, or still DISABLED with ERR 9 (Table 3.3). -/
def Queue.enable (q : Queue) (good : Bool) : Queue :=
  if good then { q with en := true, state := .active, wptr := 0, rptr := 0 } else { q with en := true, state := .disabled, err := 9 }

/-- EN is cleared: the queue is DISABLED, and nothing more is fetched from it. -/
def Queue.disable (q : Queue) : Queue :=
  match q.state with
  | .destroyed => q
  | .held => { q with en := false, before := .disabled }
  | _ => { q with en := false, state := .disabled }

/-- A well-formed queue table entry (Table 3.1). -/
def entryOk (e : QueueEntry) : Bool :=
  let n := e.logSlots.toNat
  decide (4 ≤ n ∧ n ≤ 16 ∧ e.home.toNat < 6 ∧ e.ringBase.toNat % 256 = 0 ∧ 256 * 2 ^ n ≤ e.ringLen.toNat
    ∧ e.ringBase.toNat + 256 * 2 ^ n ≤ 2 ^ 56)

/-- QUEUE_ENABLE: the driver describes a queue that is DISABLED and sets EN (R20). -/
def execQueueEnable (q : Nat) (e : QueueEntry) (s : State) : Host.Outcome State Fault Refusal :=
  if decide (q < 4096) && (s.q (.user q)).state == .disabled then
    .next (s.setQ (({ s.q (.user q) with
      ring := e.ringBase, len := e.ringLen, logN := e.logSlots.toNat, ctx := e.ctx.toNat, prio := e.prio.toNat,
      home := e.home.toNat }).enable (entryOk e)))
  else .next s

/-- QUEUE_DISABLE: the driver clears EN (Table 3.3). DESIGN CHOICE (log 46): the commands that were accepted before run on, and one that is
held is tried again at any write of WPTR. -/
def execQueueDisable (q : Nat) (s : State) : Host.Outcome State Fault Refusal :=
  .next (s.updQ (.user q) Queue.disable)

/-- PRIO_WRITE (R42). -/
def execPrioWrite (q : Nat) (prio : BitVec 3) (s : State) : Host.Outcome State Fault Refusal :=
  .next (s.updQ (.user q) (fun x => { x with prio := prio.toNat }))

/-- MQCTL: a write of a management queue's register of EN and LOGSLOTS; the read-only fields are ignored (R28, R4). -/
def execMqctl (p : Nat) (v : Word) (s : State) : Host.Outcome State Fault Refusal :=
  if s.queueExists (.mgmt p) then
    let n := fieldNat v 0 4
    let q := { s.q (.mgmt p) with logN := n, len := BitVec.ofNat 64 (256 * 2 ^ n) }
    .next (s.setQ (if !bitAt v 4 then q.disable
      else if q.state == .disabled then q.enable (decide (4 ≤ n ∧ n ≤ 12)) else { q with en := true }))
  else .next s

/-! ### What the parsing of a slot or record answers -/

/-- A parse: its result, a failed translation, or an error code of Table 3.4. -/
inductive Parsed (α : Type) where
  | ok (a : α)
  | bad (b : Bad)
  | err (n : Nat)
  deriving DecidableEq, Repr

/-- Go on after a parse. -/
def Parsed.andThen (x : Parsed α) (g : α → Parsed β) : Parsed β :=
  match x with
  | .ok a => g a
  | .bad b => .bad b
  | .err n => .err n

/-- The first check of a list that fails gives the error code (R25). -/
def firstErr : List (Bool × Nat) → Parsed Unit
  | [] => .ok ()
  | (ok, n) :: rest => if ok then firstErr rest else .err n

/-- An address field lies within the context's bounds (R25, R419). -/
def addrOk (a : Word) : Bool := decide (a.toNat < 2 ^ 56)

/-- Bytes of a slot or record that the scheduler of a die reads, at their homes. -/
def State.readRecord (s : State) (d ctx : Nat) (va : Word) (n : Nat) : Parsed (List Byte) × State :=
  match s.segments (schedCore d) ctx va n false with
  | .bad b => (.bad b, s)
  | .ok l =>
    let (b, s) := s.readSegs (schedCore d) ctx l
    (.ok b, s)

/-! ### Copy records (R33, Table 3.7a) -/

/-- The record of 64 bytes. -/
def copyRecOf (b : List Byte) : CopyRec :=
  { kind := recNat b 0 1, next := recWord b 8 8, src := recWord b 16 8, dst := recWord b 24 8, len := recWord b 32 8,
    origin := recWord b 40 8, extent := recWord b 48 8 }

/-- The reserved fields of a record are zero. -/
def copyReserved (b : List Byte) : Bool :=
  recZero b 56 8 && recZero b 1 7 && (recNat b 0 1 != 2 || recZero b 52 4)

/-- The address fields of a record. -/
def copyAddrs (b : List Byte) : Bool :=
  let r := copyRecOf b
  addrOk r.next && (r.kind != 1 || (addrOk r.src && addrOk r.dst))

/-- The limits of a record's other fields. -/
def copyLimits (b : List Byte) : Bool :=
  let r := copyRecOf b
  decide (r.next.toNat % 64 = 0) &&
    ((r.kind == 1 && decide (1 ≤ r.len.toNat ∧ r.len.toNat ≤ 2 ^ 40))
      || (r.kind == 2 && decide (1 ≤ fieldNat r.extent 0 16 ∧ 1 ≤ fieldNat r.extent 16 16)))

/-- A record with its checks in order (R25). -/
def parseCopy (b : List Byte) : Parsed CopyRec :=
  (firstErr [(copyReserved b, 2), (copyAddrs b, 4), (copyLimits b, 3)]).andThen (fun _ => .ok (copyRecOf b))

/-- The records of a chain from an address, at most n of them (R33). -/
def State.readChain (s : State) (d ctx : Nat) (va : Word) : Nat → Parsed (List CopyRec) × State
  | 0 => (if va = 0 then .ok [] else .err 3, s)
  | n + 1 =>
    if va = 0 then (.ok [], s)
    else
      match s.readRecord d ctx va 64 with
      | (.bad b, s) => (.bad b, s)
      | (.err e, s) => (.err e, s)
      | (.ok b, s) =>
        match parseCopy b with
        | .bad b => (.bad b, s)
        | .err e => (.err e, s)
        | .ok r =>
          let (x, s) := s.readChain d ctx r.next n
          (x.andThen (fun l => .ok (r :: l)), s)

/-! ### Launch records (R29, R30, Table 3.6) -/

/-- The footprint of a launch's workgroups. -/
def footOfLaunch (b : List Byte) : Footprint :=
  { entry := recWord b 8 8, warps := recNat b 36 1, crew := recNat b 37 1, rows := recNat b 40 1, tags := recNat b 41 1,
    guards := recNat b 42 1, loc := recNat b 44 4, acckib := recNat b 48 2, fairq := fairqOf (recNat b 52 4), limit := recNat b 56 8 }

/-- The number of workgroups of a launch. -/
def gridOf (b : List Byte) : Nat := recNat b 24 4 * recNat b 28 4 * recNat b 32 4

/-- CGS. -/
def cgsOf (b : List Byte) : Nat := recNat b 38 1

/-- FUSEL1. -/
def fuseOf (b : List Byte) : Bool := (recNat b 39 1).testBit 0

/-- ROLLBACK. -/
def rollbackOf (b : List Byte) : Bool := (recNat b 39 1).testBit 1

/-- The reserved fields of a launch record, without its header. -/
def launchReserved (b : List Byte) : Bool :=
  recZero b 16 8 && decide (recNat b 39 1 < 4) && recZero b 43 1 && recZero b 50 2 && recZero b 96 32

/-- The address fields of a launch record. -/
def launchAddrs (b : List Byte) : Bool := [8, 64, 80, 88].all (fun o => addrOk (recWord b o 8))

/-- The limits of a launch record (R29, R30). -/
def State.launchLimits (s : State) (ctx : Nat) (b : List Byte) : Bool :=
  (footOfLaunch b).ok && fairqOk (recNat b 52 4) && decide (1 ≤ cgsOf b ∧ cgsOf b ≤ 4 ∧ 1 ≤ gridOf b ∧ gridOf b ≤ 2 ^ 32 ∧ gridOf b % cgsOf b = 0
    ∧ recNat b 64 8 % 16 = 0 ∧ recNat b 80 8 % 64 = 0 ∧ recNat b 88 8 % 64 = 0)
    && (!fuseOf b || (s.diesOf ctx).any (fun d => (s.die d).boot != .absent))

/-- The checks of a launch record, in order. -/
def State.launchChecks (s : State) (ctx : Nat) (b : List Byte) : List (Bool × Nat) :=
  [(launchReserved b, 2), (launchAddrs b, 4), (s.launchLimits ctx b, 3)]

/-- The prologue and epilogue chains of a launch record. -/
def State.launchChains (s : State) (d ctx : Nat) (b : List Byte) : Parsed (List CopyRec × List CopyRec) × State :=
  match s.readChain d ctx (recWord b 80 8) 16 with
  | (.bad e, s) => (.bad e, s)
  | (.err n, s) => (.err n, s)
  | (.ok p, s) =>
    let (x, s) := s.readChain d ctx (recWord b 88 8) 16
    (x.andThen (fun e => .ok (p, e)), s)

/-! ### Graph records (R36 to R38) -/

/-- The predecessors that a node entry uses. -/
def predsOf (b : List Byte) : List Nat := (List.range (recNat b 3 1)).map (fun i => recNat b (8 + 2 * i) 2)

/-- A list holds no number twice. -/
def distinct : List Nat → Bool
  | [] => true
  | x :: l => !l.contains x && distinct l

/-- A node entry without defect. -/
def nodeOk (j : Nat) (b : List Byte) : Bool :=
  decide (recNat b 0 1 ≤ 3 ∧ recNat b 3 1 ≤ 8) && recZero b 1 2 && (predsOf b).all (fun p => decide (p < j)) && distinct (predsOf b)
    && addrOk (recWord b 24 8) && (recNat b 0 1 != 0 || recZero b 24 8)

/-- The remaining paths of the nodes from j on, by number (R38). -/
def remFrom (nodes : List Node) : Nat → List (Nat × Nat)
  | 0 => []
  | n + 1 =>
    let j := nodes.length - (n + 1)
    let later := remFrom nodes n
    let x := nth nodes j { kind := 0, preds := [], cost := 0, rem := 0, ptr := 0 }
    let succ := later.filter (fun p => (nth nodes p.1 x).preds.contains j)
    (j, x.cost + succ.foldl (fun m p => max m p.2) 0) :: later

/-- The nodes with their remaining paths. -/
def withRem (nodes : List Node) : List Node :=
  let l := remFrom nodes nodes.length
  (List.zip (List.range nodes.length) nodes).map (fun p => { p.2 with rem := (lookupKey l p.1).getD 0 })

/-- The nodes of a graph record; a defect has code 6. -/
def State.readGraph (s : State) (d ctx : Nat) (va : Word) : Parsed (List Node) × State :=
  match s.readRecord d ctx va 16 with
  | (.bad e, s) => (.bad e, s)
  | (.err n, s) => (.err n, s)
  | (.ok h, s) =>
    let n := recNat h 0 2
    if n < 1 || 1024 < n || !recZero h 2 14 then (.err 6, s)
    else
      let (x, s) := s.readRecord d ctx (va + 16) (32 * n)
      (x.andThen (fun b =>
        let es := (List.range n).map (fun j => (j, (b.drop (32 * j)).take 32))
        if es.all (fun p => nodeOk p.1 p.2) then
          .ok (withRem (es.map (fun p => { kind := recNat p.2 0 1, preds := predsOf p.2, cost := recNat p.2 4 4, rem := 0,
                                           ptr := recWord p.2 24 8 })))
        else .err 6), s)

/-! ### Pipe records (R40, Table 3.9) -/

/-- The stage of an entry. -/
def stageOf (b : List Byte) : Stage :=
  { foot := { entry := recWord b 0 8, rows := recNat b 20 1, acckib := recNat b 28 2, loc := recNat b 24 4 }
    ring := recWord b 8 8, wmin := recNat b 21 1, wmax := recNat b 22 2 }

/-- A stage entry without defect. -/
def stageOk (b : List Byte) : Bool :=
  let x := stageOf b
  recZero b 16 4 && recZero b 30 2 && addrOk x.foot.entry && addrOk x.ring && x.ring != 0 && decide (x.wmin ≤ x.wmax) && x.wmax != 0
    && x.foot.ok

/-- The stages of a pipe record; a defect has code 7. -/
def State.readPipe (s : State) (d ctx : Nat) (va : Word) : Parsed (List Stage) × State :=
  match s.readRecord d ctx va 8 with
  | (.bad e, s) => (.bad e, s)
  | (.err n, s) => (.err n, s)
  | (.ok h, s) =>
    let n := recNat h 0 1
    if n < 1 || 8 < n || !recZero h 1 7 then (.err 7, s)
    else
      let (x, s) := s.readRecord d ctx (va + 8) (32 * n)
      (x.andThen (fun b =>
        let es := (List.range n).map (fun j => (b.drop (32 * j)).take 32)
        if es.all stageOk then .ok (es.map stageOf) else .err 7), s)

/-! ### Command slots (R25, R26, Table 3.7) -/

/-- The header of a slot (Table 3.5). -/
def hdrOf (b : List Byte) : CmdHdr :=
  let w := recWord b 0 8
  { cmd := field w 0 8, fence := bitAt w 8, evt := bitAt w 9, cookie := field w 32 32 }

/-- The reserved bits of a header are zero. -/
def hdrReserved (b : List Byte) : Bool := decide (recNat b 1 3 < 4)

/-- The code and class of a command on a kind of queue (checks 1 and 2 of R25; R28). -/
def classOk (mgmt : Bool) (cmd : Nat) : List (Bool × Nat) :=
  let user := decide (1 ≤ cmd ∧ cmd ≤ 8)
  let man := decide (0x40 ≤ cmd ∧ cmd ≤ 0x43)
  if mgmt then [(man || cmd == 8, 1)] else [(user || man, 1), (user, 8)]

/-- The reserved fields of a slot. -/
def slotReserved (cmd : Nat) (b : List Byte) : Bool :=
  hdrReserved b && (match cmd with
    | 1 => launchReserved b
    | 2 | 3 => recZero b 16 240
    | 4 => copyReserved ((b.drop 8).take 64) && recZero b 72 184
    | 5 | 6 => recZero b 25 231
    | 7 => recZero b 15 241
    | 8 => recZero b 8 248
    | 0x40 | 0x41 => recZero b 10 6 && recZero b 32 224
    | 0x42 => decide (recNat b 10 1 < 2) && recZero b 11 245
    | _ => recZero b 9 247)

/-- The address fields of a slot. -/
def slotAddrs (cmd : Nat) (b : List Byte) : Bool :=
  match cmd with
  | 1 => launchAddrs b
  | 2 | 3 | 5 | 6 => addrOk (recWord b 8 8)
  | 4 => copyAddrs ((b.drop 8).take 64)
  | _ => true

/-- The limits of a user command's slot. -/
def State.slotLimits (s : State) (ctx cmd : Nat) (b : List Byte) : Bool :=
  match cmd with
  | 1 => s.launchLimits ctx b
  | 4 => copyLimits ((b.drop 8).take 64)
  | 5 => decide (recNat b 24 1 ≤ 2 ∧ recNat b 8 8 % 8 = 0)
  | 6 => decide (recNat b 24 1 ≤ 1 ∧ recNat b 8 8 % 8 = 0)
  | 7 => decide (recNat b 14 1 ≤ 1) && (s.cellDesc? ctx (recNat b 8 2)).isSome
  | _ => true

/-- What acceptance reads from the records that a command names. -/
structure Named where
  pro    : List CopyRec := []
  epi    : List CopyRec := []
  nodes  : List Node := []
  stages : List Stage := []
  deriving DecidableEq, Repr

/-- The records of a user command (check 6 of R25). -/
def State.readNamed (s : State) (d ctx cmd : Nat) (b : List Byte) : Parsed Named × State :=
  match cmd with
  | 1 =>
    let (x, s) := s.launchChains d ctx b
    (x.andThen (fun p => .ok { pro := p.1, epi := p.2 }), s)
  | 2 =>
    let (x, s) := s.readGraph d ctx (recWord b 8 8)
    (x.andThen (fun l => .ok { nodes := l }), s)
  | 3 =>
    let (x, s) := s.readPipe d ctx (recWord b 8 8)
    (x.andThen (fun l => .ok { stages := l }), s)
  | 4 =>
    let r := copyRecOf ((b.drop 8).take 64)
    let (x, s) := s.readChain d ctx r.next 15
    (x.andThen (fun l => .ok { pro := r :: l }), s)
  | _ => (.ok {}, s)

/-! ### PREEMPT, RESUME, DESTROY and PARTITION at acceptance (R386, R393, R409, R415) -/

/-- The context of a management slot. -/
def slotCtx (b : List Byte) : Nat := recNat b 8 2

/-- A core holds work of a context. -/
def State.coresOfCtx (s : State) (ctx : Nat) : List CoreId :=
  (s.wgs.filter (fun g => g.ctx == ctx)).foldl (fun l g => if l.contains g.core then l else l ++ [g.core]) []

/-- The bound of a context's image (R393). -/
def State.imageBound (s : State) (ctx : Nat) : Nat :=
  2048 * 1024 * (s.coresOfCtx ctx).length + 4 * 1024 * 1024 * (s.diesOf ctx).length

/-- The saved image of a context. -/
def State.imageOf (s : State) (ctx : Nat) : Option Image := s.images.find? (fun i => i.ctx == ctx)

/-- The save reserve holds an image. -/
def State.reserveFull (s : State) : Bool := s.images.any (fun i => i.reserve)

/-- A context is saved. -/
def State.isSaved (s : State) (ctx : Nat) : Bool := (s.ctx? ctx).any (fun c => c.status == .saved)

/-- A context has resident or queued work (R386). -/
def State.hasWork (s : State) (ctx : Nat) : Bool :=
  s.wgs.any (fun g => g.ctx == ctx) || s.pending.any (fun p => p.ctx == ctx) || s.cmds.any (fun c => c.ctx == ctx && !(match c.queue with | .mgmt _ => true | .user _ => false))
    || s.batches.any (fun b => b.units.any (fun p => p.ctx == ctx)) || s.chains.any (fun k => k.ctx == ctx)
    || s.queues.any (fun q => q.ctx == ctx && (q.state == .active || q.state == .fetchFault) && q.todo != 0)

/-- The header of an image in memory is whole: FORMAT is 1, and SIZE fits the area (R386, Table 23.3). -/
def State.imageFits (s : State) (pa len : Nat) : Bool := recNat (s.bytesAt pa 8) 0 8 == 1 && decide (recNat (s.bytesAt (pa + 16) 8) 0 8 ≤ len)

/-- The ORIGIN of an image in memory. -/
def State.originAt (s : State) (pa : Nat) : Word := wordOfBytes (s.bytesAt (pa + 8) 8)

/-- A context may be resumed from an area: it was saved here, into the reserve, which the command then names, or into an area; or it runs, has
no work, and the area holds an image of another module (R386, R391, R393; log 35). -/
def State.resumable (s : State) (ctx pa len : Nat) : Bool :=
  let named := pa != 0 || len != 0
  if s.isSaved ctx then
    if (s.imageOf ctx).any (·.reserve) then !named else named && s.imageFits pa len
  else named && s.imageFits pa len && s.originAt pa != s.ident.origin && s.ctxLive ctx && !s.hasWork ctx

/-- The limits of a management command's slot, in a partition. -/
def State.mgmtLimits (s : State) (p cmd : Nat) (b : List Byte) : Bool :=
  let ctx := slotCtx b
  let known := (s.ctx? ctx).isSome
  let mine := (s.ctx? ctx).all (fun c => c.desc.ownerPart == p)
  let pa := recNat b 16 8
  let len := recNat b 24 8
  match cmd with
  | 0x40 => mine && decide (pa % 65536 = 0) && !(s.hasWork ctx && !s.isSaved ctx && decide (len < s.imageBound ctx) && s.reserveFull)
  | 0x41 => mine && decide (pa % 65536 = 0) && s.resumable ctx pa len
  | 0x42 => known && mine
  | 0x43 => [1, 2, 3, 6].contains (recNat b 8 1)
  | _ => true

/-- The checks of a slot in the order of R25, without its records. -/
def State.slotChecks (s : State) (r : QueueRef) (ctx : Nat) (b : List Byte) : List (Bool × Nat) :=
  let cmd := recNat b 0 1
  match r with
  | .user _ => classOk false cmd ++ [(slotReserved cmd b, 2), (slotAddrs cmd b, 4), (s.slotLimits ctx cmd b, 3)]
  | .mgmt p => classOk true cmd ++ [(slotReserved cmd b, 2), (s.mgmtLimits p cmd b, 3)]

/-! ### COMMAND_FETCH -/

/-- The commands of a queue that have been accepted and have not completed. -/
def State.cmdsOf (s : State) (r : QueueRef) : List Cmd := s.cmds.filter (fun c => c.queue == r)

/-- A command blocks the start of the later ones of its queue until it completes (R27). -/
def Cmd.blocks (c : Cmd) : Bool := c.hdr.cmd == 5 || c.hdr.cmd == 7

/-- The scheduler fetches the queue's next slot now: the queue is ACTIVE with a slot to fetch, its context is not stopped, every
accepted command of it has started and none blocks it; a management queue has no command outstanding (R27, R28, R387). -/
def State.fetchable (s : State) (q : Queue) : Bool :=
  q.state == .active && q.todo != 0 && (s.scheduler q).isSome && (match q.ref with
    | .user _ => (s.ctx? q.ctx).all (fun c => c.status == .live) && (s.cmdsOf q.ref).all (fun c => c.started && !c.blocks)
    | .mgmt _ => (s.cmdsOf q.ref).isEmpty)

/-- The index of the slot that is fetched next (R22). -/
def Queue.slotAt (q : Queue) : Nat := 256 * (q.rptr.toNat % 2 ^ q.logN)

/-- Read the next slot. -/
def State.readSlot (s : State) (q : Queue) (d : Nat) : Parsed (List Byte) × State :=
  match q.ref with
  | .user _ => s.readRecord d q.ctx (q.ring + word q.slotAt) 256
  | .mgmt _ => (.ok (s.bytesAt (hostBase + q.ring.toNat + q.slotAt) 256), s)

/-- A queue moves to FETCH_FAULT, with its host event (R24, R446). A queue that is DISABLED or in ERROR stays so, for it leaves these states
only by EN (Table 3.3; log 46). -/
def State.fetchFault (s : State) (r : QueueRef) (cookie : BitVec 32) (b : Bad) : State :=
  (s.updQ r (fun q => if q.state == .active then { q with state := .fetchFault } else q)).post (.fetchFault cookie r b.2 b.1)

/-- The command is accepted: it is in the scheduler, and RPTR passes its slot. A PARTITION is accepted only when its condition holds
(R416). -/
def State.accept (s : State) (q : Queue) (b : List Byte) (n : Named) : State :=
  let (u, s) := s.fresh
  let h := hdrOf b
  let ctx := match q.ref with
    | .user _ => q.ctx
    | .mgmt _ => slotCtx b
  let c : Cmd := { uid := u, queue := q.ref, ctx := ctx, seq := q.rptr.toNat, hdr := h, slot := b, pro := n.pro, epi := n.epi,
                   nodes := n.nodes, stages := n.stages, since := s.clk }
  let s := { s with cmds := s.cmds ++ [c] }
  if h.cmd == 0x43 then s else s.updQ q.ref (fun q => { q with rptr := q.rptr + 1 })

/-- COMMAND_FETCH: the slot is read, as an acquire at system scope, and its command is accepted, or refused, or held by a fetch fault
(R23 to R25). -/
def execCommandFetch (r : QueueRef) (s : State) : Host.Outcome State Fault Refusal :=
  match s.queue? r with
  | none => .next s
  | some q =>
    if !s.fetchable q then .next s
    else
      let d := (s.scheduler q).getD 0
      .next (match s.readSlot q d with
        | (.bad b, s) => s.fetchFault r 0 b
        | (.err n, s) => s.updQ r (fun q => q.error n)
        | (.ok b, s) =>
          match firstErr (s.slotChecks r q.ctx b) with
          | .bad e => s.fetchFault r 0 e
          | .err n => s.updQ r (fun q => q.error n)
          | .ok _ =>
            match r with
            | .mgmt _ => s.accept q b {}
            | .user _ =>
              match s.readNamed d q.ctx (recNat b 0 1) b with
              | (.bad e, s) => s.fetchFault r (hdrOf b).cookie e
              | (.err n, s) => s.updQ r (fun q => q.error n)
              | (.ok n, s) => s.accept q b n)

end Sys2Proof.Machine
end

