-- ==== Sys2Proof/Machine/Float.lean ====
section
/-!
DEFINITION. The floating-point instructions and their interval forms (10 R197 to R211).
-/
namespace Sys2Proof.Machine
open Sys2Proof

/-! ### Elements -/

/-- OR of the flags of a list of results. -/
def flagsOf (l : List FRes) : BitVec 8 := l.foldl (fun acc r => acc ||| r.flags) 0

/-- A word of results of one element width, with the flags of all of them (R153). -/
def packRes (w : Nat) (l : List FRes) : ThreadOut := .done (packElems w (l.map (·.bits))) 0 (flagsOf l)

/-- An operation on each element of one word. -/
def point1 (ty : Ty) (g : FFmt → Nat → FRes) (a : Word) : ThreadOut :=
  let (F, w, n) := pointFmt ty
  packRes w ((List.range n).map (fun k => g F (elemOf w a k)))

/-- An operation on each element of two words. -/
def point2 (ty : Ty) (g : FFmt → Nat → Nat → FRes) (a b : Word) : ThreadOut :=
  let (F, w, n) := pointFmt ty
  packRes w ((List.range n).map (fun k => g F (elemOf w a k) (elemOf w b k)))

/-- An operation on each element of three words. -/
def point3 (ty : Ty) (g : FFmt → Nat → Nat → Nat → FRes) (a b c : Word) : ThreadOut :=
  let (F, w, n) := pointFmt ty
  packRes w ((List.range n).map (fun k => g F (elemOf w a k) (elemOf w b k) (elemOf w c k)))

/-- The first malformed interval of a list of operands, by position (R199). -/
def firstMalformed (F : FFmt) (l : List Iv) : Option Nat :=
  ((List.zip (List.range l.length) l).find? (fun p => !F.ivWf p.2)).map (·.1)

/-- The end of an interval instruction (R199): a malformed operand, an empty result, or the interval with its flags. Under .e an
empty result is canonical empty, with EM. -/
def State.ivOut (s : State) (f : FmtA) (ops : List Iv) (r : IvOut) : ThreadOut :=
  let F := boundFmt f.ty
  match firstMalformed F ops with
  | some k => .fault (s.faultHere 0x10 (word k))
  | none =>
    match r with
    | some (x, fl) => .done (ivWords f.ty x).1 (ivWords f.ty x).2 fl
    | none =>
      if bitAt f.fn 3 then .done (ivWords f.ty F.emptyIv).1 (ivWords f.ty F.emptyIv).2 flEM
      else .fault (s.faultHere 0x0F)

/-- A floating-point instruction of one source: on points by element, on intervals whole. -/
def State.float1 (s : State) (f : FmtA) (p : FFmt → Nat → FRes) (v : FFmt → Iv → IvOut) :
    Host.Outcome State Fault Refusal :=
  s.execA f (f.sa.touch (f.ty == .iv64)) (f.ty == .iv64) (fun t =>
    if f.ty.isIv then
      let x := s.ivSrc f f.sa t
      s.ivOut f [x] (v (boundFmt f.ty) x)
    else point1 f.ty p (s.srcA f f.sa t))

/-- A floating-point instruction of two sources. -/
def State.float2 (s : State) (f : FmtA) (p : FFmt → Nat → Nat → FRes) (v : FFmt → Iv → Iv → IvOut) :
    Host.Outcome State Fault Refusal :=
  let wide := f.ty == .iv64
  s.execA f (f.sa.touch wide ++ f.sb.touch wide) wide (fun t =>
    if f.ty.isIv then
      let x := s.ivSrc f f.sa t
      let y := s.ivSrc f f.sb t
      s.ivOut f [x, y] (v (boundFmt f.ty) x y)
    else point2 f.ty p (s.srcA f f.sa t) (s.srcA f f.sb t))

/-! ### Arithmetic (R200 to R202) -/

/-- FADD. -/
def execFadd (f : FmtA) (s : State) : Host.Outcome State Fault Refusal := s.float2 f (fun F => F.add f.rm) FFmt.ivAdd

/-- FSUB. -/
def execFsub (f : FmtA) (s : State) : Host.Outcome State Fault Refusal := s.float2 f (fun F => F.sub f.rm) FFmt.ivSub

/-- FMUL. -/
def execFmul (f : FmtA) (s : State) : Host.Outcome State Fault Refusal := s.float2 f (fun F => F.mul f.rm) FFmt.ivMul

/-- FDIV. -/
def execFdiv (f : FmtA) (s : State) : Host.Outcome State Fault Refusal := s.float2 f (fun F => F.div f.rm) FFmt.ivDiv

/-- FFMA: one rounding of a × b + c. -/
def execFfma (f : FmtA) (s : State) : Host.Outcome State Fault Refusal :=
  let wide := f.ty == .iv64
  s.execA f (f.sa.touch wide ++ f.sb.touch wide ++ f.sc.touch wide) wide (fun t =>
    if f.ty.isIv then
      let x := s.ivSrc f f.sa t
      let y := s.ivSrc f f.sb t
      let z := s.ivSrc f f.sc t
      s.ivOut f [x, y, z] ((boundFmt f.ty).ivFma x y z)
    else point3 f.ty (fun F => F.fma f.rm) (s.srcA f f.sa t) (s.srcA f f.sb t) (s.srcA f f.sc t))

/-- FSQRT. -/
def execFsqrt (f : FmtA) (s : State) : Host.Outcome State Fault Refusal := s.float1 f (fun F => F.sqrt f.rm) FFmt.ivSqrt

/-- FRCP: 1/x. -/
def execFrcp (f : FmtA) (s : State) : Host.Outcome State Fault Refusal :=
  s.float1 f (fun F => F.trans .rcp f.rm) (fun F => F.ivTrans .rcp)

/-- FRSQ: 1/√x. -/
def execFrsq (f : FmtA) (s : State) : Host.Outcome State Fault Refusal :=
  s.float1 f (fun F => F.trans .rsq f.rm) (fun F => F.ivTrans .rsq)

/-- FEXP2: 2^x. -/
def execFexp2 (f : FmtA) (s : State) : Host.Outcome State Fault Refusal :=
  s.float1 f (fun F => F.trans .exp2 f.rm) (fun F => F.ivTrans .exp2)

/-- FLOG2: log2 x. -/
def execFlog2 (f : FmtA) (s : State) : Host.Outcome State Fault Refusal :=
  s.float1 f (fun F => F.trans .log2 f.rm) (fun F => F.ivTrans .log2)

/-- FSIN: sin x. -/
def execFsin (f : FmtA) (s : State) : Host.Outcome State Fault Refusal :=
  s.float1 f (fun F => F.trans .sin f.rm) (fun F => F.ivTrans .sin)

/-- FCOS: cos x. -/
def execFcos (f : FmtA) (s : State) : Host.Outcome State Fault Refusal :=
  s.float1 f (fun F => F.trans .cos f.rm) (fun F => F.ivTrans .cos)

/-! ### Minimum, maximum, sign (R203, R204) -/

/-- FMIN. -/
def execFmin (f : FmtA) (s : State) : Host.Outcome State Fault Refusal :=
  s.float2 f (fun F => F.minmax false (bitAt f.fn 0)) (fun F => F.ivMinMax false)

/-- FMAX. -/
def execFmax (f : FmtA) (s : State) : Host.Outcome State Fault Refusal :=
  s.float2 f (fun F => F.minmax true (bitAt f.fn 0)) (fun F => F.ivMinMax true)

/-- FABS: the sign bit is cleared. -/
def execFabs (f : FmtA) (s : State) : Host.Outcome State Fault Refusal :=
  s.float1 f (fun F b => { bits := b % 2 ^ (F.mw + F.ew) }) FFmt.ivAbs

/-- FNEG: the sign bit is inverted. -/
def execFneg (f : FmtA) (s : State) : Host.Outcome State Fault Refusal :=
  s.float1 f (fun F b => { bits := F.neg b }) FFmt.ivNeg

/-! ### Comparison and class (R205, R206) -/

/-- The verdict of a packed type from those of its elements (R205). -/
def packVerdict (l : List Verdict) : Verdict :=
  if l.all (· == some true) then some true else if l.all (· == some false) then some false else none

/-- FCMP. -/
def execFcmp (f : FmtA) (s : State) : Host.Outcome State Fault Refusal :=
  let wide := f.ty == .iv64
  let rel := f.fn.toNat % 8
  s.execVerdict f (f.sa.touch wide ++ f.sb.touch wide) (fun t =>
    if f.ty.isIv then
      let F := boundFmt f.ty
      let x := s.ivSrc f f.sa t
      let y := s.ivSrc f f.sb t
      match firstMalformed F [x, y] with
      | some k => .fault (s.faultHere 0x10 (word k))
      | none =>
        if F.isEmpty x || F.isEmpty y then
          (if bitAt f.fn 3 then .done none flEM else .fault (s.faultHere 0x0F))
        else .done (F.relIv rel x y) 0
    else
      let (F, w, n) := pointFmt f.ty
      let a := s.srcA f f.sa t
      let b := s.srcA f f.sb t
      let ks := List.range n
      let snan := ks.any (fun k => F.isSnan (elemOf w a k) || F.isSnan (elemOf w b k))
      .done (packVerdict (ks.map (fun k => F.relPoint rel (elemOf w a k) (elemOf w b k)))) (if snan then flIV else 0))

/-- FCLASS: it raises no interval fault (R206). -/
def execFclass (f : FmtA) (s : State) : Host.Outcome State Fault Refusal :=
  let wide := f.ty == .iv64
  s.execA f (f.sa.touch wide) false (fun t =>
    if f.ty.isIv then .done (word ((boundFmt f.ty).classIv (s.ivSrc f f.sa t))) 0 0
    else point1 f.ty (fun F b => { bits := 2 ^ F.classPoint b }) (s.srcA f f.sa t))

/-! ### Conversions (R207, R208) -/

/-- The point format of a FCVT code (Table 10.5). -/
def cvtFmt (c : Nat) : FFmt :=
  match c with
  | 0 => fp64 | 1 => fp32 | 2 => fp16 | 3 => bf16 | 4 => fe4m3 | _ => fe5m2

/-- Elements from k on replaced in a word (R207). -/
def putElems (w : Nat) (old : Word) (k : Nat) (l : List Nat) : Word :=
  packElems w ((List.range (64 / w)).map (fun i => if k ≤ i ∧ i < k + l.length then nth l (i - k) 0 else elemOf w old i))

/-- A point conversion of one word (R207): the group, the source word and the destination's old word. -/
def cvtPoint (sc dc g : Nat) (rm : Rm) (sat : Bool) (a old : Word) : ThreadOut :=
  let ws := cvtWidth sc
  let wd := cvtWidth dc
  let n := 64 / max ws wd
  if ws < wd then
    packRes wd ((List.range n).map (fun k => cvtFloat (cvtFmt sc) (cvtFmt dc) .rn false (elemOf ws a (g * n + k))))
  else
    let rs := (List.range n).map (fun k => cvtFloat (cvtFmt sc) (cvtFmt dc) rm sat (elemOf ws a k))
    .done (putElems wd old (g * n) (rs.map (·.bits))) 0 (flagsOf rs)

/-- iv64 to iv32, each bound outward, or iv32 to iv64, exactly; canonical empty stays so (R207). -/
def State.cvtIv (s : State) (toWide : Bool) (x : Iv) : ThreadOut :=
  let F := if toWide then fp32 else fp64
  let G := if toWide then fp64 else fp32
  if !F.ivWf x then .fault (s.faultHere 0x10 0)
  else
    let y := if F.isEmpty x then G.emptyIv else G.hull (F.decode x.1) (F.decode x.2)
    let r := ivWords (if toWide then .iv64 else .iv32) y
    .done r.1 r.2 0

/-- What a destination holds in thread t before it is written; an unmapped name is first allocated zero-filled (R129). -/
def State.oldDst (s : State) (d : Dst) (t : Nat) : Word :=
  match d with
  | .name n => s.elem n.val t
  | .uni k => s.uni k.val

/-- FCVT (R207). -/
def execFcvt (f : FmtA) (s : State) : Host.Outcome State Fault Refusal :=
  let sc := f.fn.toNat % 8
  let dc := f.imm.toNat % 8
  s.execA f (f.sa.touch (sc == 7)) (dc == 7) (fun t =>
    if 6 ≤ sc then
      let lo := s.src f.sa t 0
      let x : Iv := if sc = 7 then (lo.toNat, (s.srcHi f.sa t 0).toNat) else (fieldNat lo 0 32, fieldNat lo 32 32)
      s.cvtIv (dc == 7) x
    else cvtPoint sc dc (f.imm.toNat / 16) f.rm (bitAt f.fn 3) (s.src f.sa t 0) (s.oldDst f.dst t))

/-- The source of F2I: format, width and the immediate read as that format (Table 10.1, R79). -/
def f2iSource (c : Nat) (imm : BitVec 32) : FFmt × Nat × Word :=
  match c with
  | 0 => (fp32, 32, imm.setWidth 64)
  | 1 => (fp64, 64, immF64 imm)
  | 2 => (fp16, 16, imm.setWidth 64)
  | _ => (bf16, 16, imm.setWidth 64)

/-- F2I (R208). -/
def execF2i (f : FmtA) (s : State) : Host.Outcome State Fault Refusal :=
  let (F, w, imm) := f2iSource f.fn.toNat f.imm
  let W := (intShape f.ty).1
  s.execA f f.sa.touch false (fun t =>
    let (v, fl) := floatToInt F f.rm W f.ty.isI (fieldNat (s.src f.sa t imm) 0 w)
    .done (word (wrapInt W v)) 0 fl)

/-- The source of I2F: the integer value of the operand. -/
def i2fSource (c : Nat) (v : Word) : Int :=
  match c with
  | 0 => intVal true 32 (fieldNat v 0 32)
  | 1 => fieldNat v 0 32
  | 2 => v.toInt
  | _ => v.toNat

/-- The immediate of I2F, read as the source type (R79). -/
def i2fImm (c : Nat) (imm : BitVec 32) : Word := if c = 2 then imm.signExtend 64 else imm.setWidth 64

/-- I2F: the value goes to element 0, the other elements are +0 (R208). -/
def execI2f (f : FmtA) (s : State) : Host.Outcome State Fault Refusal :=
  let F := (pointFmt f.ty).1
  s.execA f f.sa.touch false (fun t =>
    let r := intToFloat F f.rm (i2fSource f.fn.toNat (s.src f.sa t (i2fImm f.fn.toNat f.imm)))
    .done (word r.bits) 0 r.flags)

/-! ### Rounding to integers and scaling (R209, R210) -/

/-- FRND. -/
def execFrnd (f : FmtA) (s : State) : Host.Outcome State Fault Refusal :=
  s.float1 f (fun F => F.roundIntegral f.rm) FFmt.ivRound

/-- FSCALE: n is the signed value of bits [31:0] of b. -/
def execFscale (f : FmtA) (s : State) : Host.Outcome State Fault Refusal :=
  let wide := f.ty == .iv64
  s.execA f (f.sa.touch wide ++ f.sb.touch) wide (fun t =>
    let n := intVal true 32 (fieldNat (s.src f.sb t (f.imm.setWidth 64)) 0 32)
    if f.ty.isIv then
      let x := s.ivSrc f f.sa t
      s.ivOut f [x] ((boundFmt f.ty).ivScale x n)
    else point1 f.ty (fun F a => F.scale f.rm a n) (s.srcA f f.sa t))

/-! ### FDOT (R211) -/

/-- The source format of FDOT. -/
def dotFmt (c : Nat) : FFmt :=
  match c with
  | 0 => fp16 | 1 => bf16 | 2 => fe4m3 | _ => fe5m2

/-- One term of a dot product whose a is not zero; the exact product, a NaN, or ±∞. -/
def dotTerm (F : FFmt) (a b : Nat) : FVal :=
  match F.decode a, F.decode b with
  | .nan n k, _ => .nan n k
  | _, .nan n k => .nan n k
  | .inf n1, .inf n2 => .inf (n1 != n2)
  | .inf n1, .fin n2 s _ => if s = 0 then .nan false 0 else .inf (n1 != n2)
  | .fin n1 _ _, .inf n2 => .inf (n1 != n2)
  | .fin n1 s1 e1, .fin n2 s2 e2 => .fin (n1 != n2) (s1 * s2) (e1 + e2)

/-- The exact sum of a list of finite values. -/
def sumFin (l : List FVal) : Int × Int :=
  l.foldl (fun acc v => match v with
    | .fin n s e => addDyadic acc.1 acc.2 (sigInt n s) e
    | _ => acc) (0, 0)

/-- The sign of an exact zero sum of several terms: that of the terms when all are zeros of one sign, otherwise R158's. -/
def zeroSign (rm : Rm) (l : List FVal) : Bool :=
  let neg := fun (v : FVal) => match v with | .fin n _ _ => n | _ => false
  if l.all FVal.isZeroV && l.all neg then !l.isEmpty
  else if l.all FVal.isZeroV && l.all (fun v => !neg v) then false
  else rm == .rd

/-- The short dot product: c plus the products whose a is not zero, rounded once to FP32 (R211). -/
def shortDot (F : FFmt) (rm : Rm) (as bs : List Nat) (c : Nat) : FRes :=
  let present := (List.zip as bs).filter (fun p => !(F.decode p.1).isZeroV)
  let cv := fp32.decode c
  let terms := cv :: present.map (fun p => dotTerm F p.1 p.2)
  let nanOperand := fp32.isNan c || present.any (fun p => F.isNan p.1 || F.isNan p.2)
  let snan := fp32.isSnan c || (!F.e4m3 && F.mw ≠ 2 && (List.zip as bs).any (fun p => F.isSnan p.1 || F.isSnan p.2))
  let bothInf := terms.any (FVal.isInfV false) && terms.any (FVal.isInfV true)
  let isNan := terms.any FVal.isNanV || bothInf
  if isNan then { bits := fp32.canon, flags := if snan || !nanOperand then flIV else 0 }
  else
    let r : FRes :=
      if terms.any (FVal.isInfV false) then { bits := fp32.infBits false }
      else if terms.any (FVal.isInfV true) then { bits := fp32.infBits true }
      else
        let (m, e) := sumFin terms
        fp32.resultInt rm (zeroSign rm terms) m e
    if snan then { r with flags := r.flags ||| flIV } else r

/-- FDOT (R211). -/
def execFdot (f : FmtA) (s : State) : Host.Outcome State Fault Refusal :=
  let F := dotFmt f.fn.toNat
  let w := F.width
  s.execA f (f.sa.touch ++ f.sb.touch ++ f.sc.touch) false (fun t =>
    let a := s.srcA f f.sa t
    let b := s.srcA f f.sb t
    let ks := List.range (64 / w)
    let r := shortDot F f.rm (ks.map (elemOf w a)) (ks.map (elemOf w b)) (fieldNat (s.srcA f f.sc t) 0 32)
    .done (word r.bits) 0 r.flags)

end Sys2Proof.Machine
end

