-- ==== Sys2Proof/Machine/Interval.lean ====
section
/-!
DEFINITION. The instructions that build, read and split intervals (10 R212 to R217).
-/
namespace Sys2Proof.Machine
open Sys2Proof

/-- A scalar of the bound format as a result. -/
def boundOut (b : Nat) (fl : BitVec 8 := 0) : ThreadOut := .done (word b) 0 fl

/-- IVMK: the interval of two scalars; a NaN is malformed, and no real point is empty (R212). -/
def execIvmk (f : FmtA) (s : State) : Host.Outcome State Fault Refusal :=
  let wide := f.ty == .iv64
  let F := boundFmt f.ty
  let rd := fun (o : Src) (t : Nat) =>
    let v := s.src o t (if wide then immF64 f.imm else f.imm.setWidth 64)
    if wide then v.toNat else fieldNat v 0 32
  s.execA f (f.sa.touch ++ f.sb.touch) wide (fun t =>
    let lo := rd f.sa t
    let hi := rd f.sb t
    if F.isNan lo then .fault (s.faultHere 0x10 0)
    else if F.isNan hi then .fault (s.faultHere 0x10 1)
    else s.ivOut f [] (F.ivMake lo hi))

/-- A reading of one interval that gives a scalar of the bound format; a malformed operand faults (R199). -/
def State.ivScalar (s : State) (f : FmtA) (g : FFmt → Iv → ThreadOut) : Host.Outcome State Fault Refusal :=
  let wide := f.ty == .iv64
  s.execA f (f.sa.touch wide) false (fun t =>
    let F := boundFmt f.ty
    let x := s.ivSrc f f.sa t
    if F.ivWf x then g F x else .fault (s.faultHere 0x10 0))

/-- IVLO: X.lo; +∞ of an empty X (R213). -/
def execIvlo (f : FmtA) (s : State) : Host.Outcome State Fault Refusal := s.ivScalar f (fun _ x => boundOut x.1)

/-- IVHI: X.hi; −∞ of an empty X (R213). -/
def execIvhi (f : FmtA) (s : State) : Host.Outcome State Fault Refusal := s.ivScalar f (fun _ x => boundOut x.2)

/-- An empty operand faults; under .e the canonical NaN is written and EM is raised (R215). -/
def State.notEmpty (s : State) (f : FmtA) (g : FFmt → Iv → Nat) (F : FFmt) (x : Iv) : ThreadOut :=
  if F.isEmpty x then (if bitAt f.fn 3 then boundOut F.canon flEM else .fault (s.faultHere 0x0F)) else boundOut (g F x)

/-- IVMID: the midpoint of Table 8.7 (R215). -/
def execIvmid (f : FmtA) (s : State) : Host.Outcome State Fault Refusal := s.ivScalar f (s.notEmpty f FFmt.mid)

/-- IVWID: the width, rounded up (R215). -/
def execIvwid (f : FmtA) (s : State) : Host.Outcome State Fault Refusal := s.ivScalar f (s.notEmpty f FFmt.wid)

/-- An interval of two intervals. -/
def State.iv2 (s : State) (f : FmtA) (g : FFmt → Iv → Iv → IvOut) : Host.Outcome State Fault Refusal :=
  let wide := f.ty == .iv64
  s.execA f (f.sa.touch wide ++ f.sb.touch wide) wide (fun t =>
    let x := s.ivSrc f f.sa t
    let y := s.ivSrc f f.sb t
    s.ivOut f [x, y] (g (boundFmt f.ty) x y))

/-- IVHULL (R214). -/
def execIvhull (f : FmtA) (s : State) : Host.Outcome State Fault Refusal := s.iv2 f FFmt.ivHull

/-- IVMEET (R214). -/
def execIvmeet (f : FmtA) (s : State) : Host.Outcome State Fault Refusal := s.iv2 f FFmt.ivMeet

/-- IVIN: whether A lies within B (R216). -/
def execIvin (f : FmtA) (s : State) : Host.Outcome State Fault Refusal :=
  let wide := f.ty == .iv64
  s.execVerdict f (f.sa.touch wide ++ f.sb.touch wide) (fun t =>
    let F := boundFmt f.ty
    let x := s.ivSrc f f.sa t
    let y := s.ivSrc f f.sb t
    match firstMalformed F [x, y] with
    | some k => .fault (s.faultHere 0x10 (word k))
    | none =>
      if F.isEmpty x || F.isEmpty y then (if bitAt f.fn 3 then .done none flEM else .fault (s.faultHere 0x0F))
      else .done (F.inside x y) 0)

/-- The two halves of an interval (R172), with EM for an empty one under .e. -/
def State.halves (s : State) (f : FmtA) (x : Iv) : ThreadOut × Iv × Iv :=
  let F := boundFmt f.ty
  if !F.ivWf x then (.fault (s.faultHere 0x10 0), x, x)
  else if F.isEmpty x then ((if bitAt f.fn 3 then .done 0 0 flEM else .fault (s.faultHere 0x0F)), x, x)
  else
    let m := F.mid x
    (.done 0 0 0, (F.plusZero x.1, m), (m, F.plusZero x.2))

/-- A second destination in field SB (R217). -/
def secondDst (f : FmtA) : Dst :=
  match f.sb with
  | .name n => .name n
  | .uni k => .uni k
  | .imm => f.dst

/-- BISECT: X is read before either half is written, and D is allocated before E (R217). -/
def execBisect (f : FmtA) (s : State) : Host.Outcome State Fault Refusal :=
  let wide := f.ty == .iv64
  let d := f.dst
  let e := secondDst f
  s.issue true f.guard f.cf (f.sa.touch wide ++ d.touch wide ++ e.touch wide) (fun run ex =>
    s.reading run ex (f.sa.touch wide)
      (let res := outcomes d.isUni ex (fun t => (s.halves f (s.ivSrc f f.sa t)).1)
       let oks := donesOf res
       if oks.isEmpty then s.complete run ex f.cf (faultsOf res)
       else
         let half := fun (second : Bool) => oks.map (fun p =>
           let h := (s.halves f (s.ivSrc f f.sa p.1)).2
           let w := ivWords f.ty (if second then h.2 else h.1)
           (p.1, w.1, w.2, (0 : BitVec 8)))
         s.allocating (d.names wide ++ e.names wide) (fun s' =>
           let s' := (s'.writeDst d wide (half false)).writeDst e wide (half true)
           (s'.orFlags f.nf (oks.map (fun p => (p.1, p.2.2.2)))).complete run ex f.cf (faultsOf res))))

end Sys2Proof.Machine
end

