-- ==== Sys2Proof/Machine/Launch.lean ====
section
/-!
DEFINITION. The commands of the user queues (03 R26, R27, R33 to R41, R446): their start in turn, the bundles with their checkpoint
intervals (23 R396 to R398), the graphs, the pipes, the copies, the signals and the waits.
-/
namespace Sys2Proof.Machine
open Sys2Proof

/-! ### The start of a command (R27, R41, R396) -/

/-- An accepted command. -/
def State.cmd? (s : State) (u : Nat) : Option Cmd := s.cmds.find? (fun c => c.uid == u)

/-- Change a command. -/
def State.updCmd (s : State) (u : Nat) (g : Cmd → Cmd) : State :=
  { s with cmds := s.cmds.map (fun c => if c.uid == u then g c else c) }

/-- A command of a user queue. -/
def Cmd.isUser (c : Cmd) : Bool :=
  match c.queue with
  | .user _ => true
  | .mgmt _ => false

/-- A bundle that has ROLLBACK set and has not completed. -/
def Bundle.isRollback (b : Bundle) : Bool := rollbackOf b.slot && b.phase != .finish

/-- No other command of the context runs that forbids this one: a ROLLBACK bundle excludes every other command, and starts only when
nothing else of the context runs (R396). -/
def State.exclusive (s : State) (ctx me : Nat) (rollback : Bool) : Bool :=
  !s.bundles.any (fun b => b.ctx == ctx && b.isRollback)
    && (!rollback || (!s.cmds.any (fun c => c.isUser && c.ctx == ctx && c.started && c.uid != me)
          && !s.bundles.any (fun b => b.ctx == ctx && b.phase != .finish)
          && !s.chains.any (fun k => k.ctx == ctx)))

/-- An accepted command may start now: its context runs, the earlier ones of its queue have started and none blocks it, under FENCE or
for SIGNAL none remains, and it is not held after a failed access (R27, R387). -/
def State.startableCmd (s : State) (c : Cmd) : Bool :=
  let before := (s.cmdsOf c.queue).filter (fun x => decide (x.uid < c.uid))
  !c.started && !c.held && c.isUser && s.ctxLive c.ctx && (s.scheduler (s.q c.queue)).isSome
    && before.all (fun x => x.started && !x.blocks)
    && ((!c.hdr.fence && c.hdr.cmd != 6) || before.isEmpty)
    && s.exclusive c.ctx c.uid (c.hdr.cmd == 1 && rollbackOf c.slot)

/-- The die whose engines and placement a context's commands use first. -/
def State.firstDie (s : State) (ctx : Nat) : Nat := (s.diesOf ctx).headD 0

/-- The graph of a command. -/
def State.graph? (s : State) (u : Nat) : Option Graph := s.graphs.find? (fun g => g.cmd == u)

/-- The ready nodes of a graph: waiting, with every predecessor done. -/
def Graph.ready (g : Graph) : List Nat :=
  (List.range g.nodes.length).filter (fun j => match g.nodes[j]? with
    | some x => x.st == .waiting && x.preds.all (fun p => (g.nodes[p]?).any (fun y => y.st == .done))
    | none => false)

/-- The node that is dispatched next: one whose record could not be read (R37); else of the ready nodes the one with the greatest remaining
path, then the lowest number; none after a failure (R38, R39). -/
def Graph.next (g : Graph) : Option Nat :=
  if g.nodes.any (fun x => x.st == .failed) then none
  else if g.retry.isSome then g.retry
  else g.ready.foldl (fun acc j => match acc with
    | none => some j
    | some i => if (g.nodes[i]?.map (·.rem)).getD 0 < (g.nodes[j]?.map (·.rem)).getD 0 then some j else some i) none

/-- A write to a signal's address would be held by a migration (R240). -/
def State.signalHeld (s : State) (ctx : Nat) (va : Word) : Bool :=
  match s.segments (schedCore (s.firstDie ctx)) ctx va 8 true with
  | .ok l => s.segsHeld l
  | .bad _ => false

/-- A launch node with ROLLBACK is dispatched only while nothing else of its context runs (R396). -/
def State.nodeFree (s : State) (c : Cmd) (x : Node) : Bool :=
  x.kind != 1 || (match s.readRecord (s.firstDie c.ctx) c.ctx x.ptr 256 with
    | (.ok b, _) => !rollbackOf b || s.exclusive c.ctx c.uid true
    | _ => true)

/-- The write of a signal node would be held by a migration. -/
def State.nodeHeld (s : State) (c : Cmd) (x : Node) : Bool :=
  x.kind == 3 && (match s.readRecord (s.firstDie c.ctx) c.ctx x.ptr 256 with
    | (.ok b, _) => s.signalHeld c.ctx (recWord b 8 8)
    | _ => false)

/-- A running graph dispatches a node now: its next node, when nothing bars that one. -/
def State.dispatchable (s : State) (c : Cmd) : Option Nat :=
  if c.started && !c.held && s.ctxLive c.ctx && (s.scheduler (s.q c.queue)).isSome && s.exclusive c.ctx c.uid false then
    ((s.graph? c.uid).bind (fun g => g.next.bind (fun j => (g.nodes[j]?).map (fun x => (j, x))))).bind (fun p =>
      if s.nodeFree c p.2 && !s.nodeHeld c p.2 then some p.1 else none)
  else none

/-- A user queue has a command ready to start, or a node ready to dispatch. -/
def State.queueReady (s : State) (r : QueueRef) : Bool :=
  (s.cmdsOf r).any (fun c => s.startableCmd c || (s.dispatchable c).isSome)

/-- The number of a queue. -/
def queueNo : QueueRef → Nat
  | .user q => q
  | .mgmt p => p

/-- The queue that the scheduler of a die serves next: the highest priority, then round-robin by number (R41). -/
def State.turnOf (s : State) (d : Nat) : Option QueueRef :=
  let key := fun (q : Queue) => (7 - q.prio) * 4096 + (queueNo q.ref + 4096 - (s.die d).turn) % 4096
  let l := s.queues.filter (fun q => (match q.ref with | .user _ => true | .mgmt _ => false) && s.scheduler q == some d && s.queueReady q.ref)
  (sortBy (fun a b => decide (key a ≤ key b)) l).head?.map (·.ref)

/-- It is a queue's turn; the scheduler then goes on to the next. -/
def State.myTurn (s : State) (r : QueueRef) : Bool :=
  match s.scheduler (s.q r) with
  | some d => s.turnOf d == some r
  | none => false

/-- The scheduler has served a queue. -/
def State.tookTurn (s : State) (r : QueueRef) : State :=
  match s.scheduler (s.q r) with
  | some d => s.updDie d (fun x => { x with turn := (queueNo r + 1) % 4096 })
  | none => s

/-- A command of a code that starts now. -/
def State.toStart (s : State) (u code : Nat) : Option Cmd :=
  match s.cmd? u with
  | some c => if c.hdr.cmd.toNat == code && s.startableCmd c && s.myTurn c.queue then some c else none
  | none => none

/-- A command has started. -/
def State.begin (s : State) (c : Cmd) : State := (s.tookTurn c.queue).updCmd c.uid (fun x => { x with started := true })

/-- A command has completed: the host is sent an event when EVT asks for one (Table 3.5). -/
def State.finishCmd (s : State) (c : Cmd) (node : Option Nat) : State :=
  let s := { s with cmds := s.cmds.filter (fun x => x.uid != c.uid) }
  if c.hdr.evt then s.post (.complete c.hdr.cookie node) else s

/-! ### Bundles (R34, R41, R396) -/

/-- A checkpoint interval opens: CHK.POISON and CHK.LOGFULL are cleared; without a log it is already overflowed (R396). -/
def State.openInterval (s : State) (ctx b : Nat) : State :=
  s.updCtx ctx (fun c =>
    let none_ := c.desc.logSlice == 0
    { c with moved := false, chk := c.chk &&& ~~~(chkPoison ||| chkLogfull) ||| (if none_ then chkLogfull else 0),
             interval := some { bundle := b, overflow := none_, log := [] } })

/-- The units of a bundle, one for each cluster group in ascending number, dealt to the dies of the partition in rotation (R31, R41). -/
def State.unitsOf (s : State) (b : Bundle) : List Pending :=
  let n := cgsOf b.slot
  let ds := (s.diesOf b.ctx).filter (fun d => (s.die d).boot == .up)
  let ds := if ds.isEmpty then s.diesOf b.ctx else ds
  (List.range (gridOf b.slot / n)).map (fun c =>
    { uid := s.nextUid + c, ctx := b.ctx, die := nth ds (c % ds.length) 0, prio := s.prioOf (some b.queue) 0, arrival := s.clk,
      foot := footOfLaunch b.slot, kind := .launch b.id (c * n) n (fuseOf b.slot), queue := some b.queue,
      cookie := ((s.cmd? b.cmd).map (·.hdr.cookie)).getD 0 })

/-- The workgroups of a bundle are distributed: a batch for each die that receives units (R34, R41). -/
def State.distribute (s : State) (b : Bundle) : State :=
  let us := s.unitsOf b
  let s := { s with nextUid := s.nextUid + us.length }
  let s := s.updBundle b.id (fun x => { x with phase := .run, alive := gridOf b.slot })
  (List.range 6).foldl (fun s d =>
    let mine := us.filter (fun p => p.die == d)
    if mine.isEmpty then s
    else
      let (id, s) := s.fresh
      { s with batches := s.batches ++ [{ id := id, bundle := b.id, die := d, units := mine }] }) s

/-- A bundle runs its prologue chain, or, without one, distributes its workgroups (R34). -/
def State.runBundle (s : State) (id : Nat) : State :=
  match s.bundle? id with
  | none => s
  | some b => if b.pro.isEmpty then s.distribute b else s.startChain id 0 b.ctx (s.firstDie b.ctx) b.pro

/-- A bundle starts, for a command or a node of its graph. -/
def State.startBundle (s : State) (c : Cmd) (node : Option Nat) (slot : List Byte) (pro epi : List CopyRec) : State :=
  let (id, s) := s.fresh
  let b : Bundle := { id := id, cmd := c.uid, node := node, ctx := c.ctx, queue := c.queue, slot := slot, pro := pro, epi := epi }
  let s := { s with bundles := s.bundles ++ [b] }
  let s := if rollbackOf slot then s.openInterval c.ctx id else s
  s.runBundle id

/-- LAUNCH (R34). -/
def execLaunch (u : Nat) (s : State) : Host.Outcome State Fault Refusal :=
  match s.toStart u 1 with
  | some c => .next ((s.begin c).startBundle c none c.slot c.pro c.epi)
  | none => .next s

/-- PROLOGUE_COMPLETE: the prologue chain has ended, and the workgroups are distributed (R34). -/
def execPrologueComplete (id : Nat) (s : State) : Host.Outcome State Fault Refusal :=
  match s.bundle? id with
  | none => .next s
  | some b =>
    if b.phase == .prologue && (s.chainOf id 0).all Chain.ended && s.ctxLive b.ctx then .next ((s.dropChain id 0).distribute b) else .next s

/-- A bundle has ended: its workgroups have retired, its waves have ended, and its epilogue chain has ended (R34, R315). -/
def State.bundleDue (s : State) (id : Nat) : Option Bundle :=
  match s.bundle? id with
  | none => none
  | some b =>
    if b.phase == .epilogue && b.alive == 0 && b.waves == 0 && (s.chainOf id 1).all Chain.ended && s.ctxLive b.ctx then some b else none

/-- The bundle's status word (Table 3.7b). -/
def State.statusWord (s : State) (b : Bundle) : Word :=
  let low := b.killed.foldl (fun (m : Option (Nat × Nat)) (k : Nat × Nat) => match m with
    | none => some k
    | some x => if k.1 < x.1 then some k else some x) none
  let full := rollbackOf b.slot && (s.ctx? b.ctx).any (fun c => c.chk &&& chkLogfull != 0)
  word (b.killed.length % 2 ^ 32 + ((low.map (·.2)).getD 0) * 2 ^ 32 + (if b.episkip then 2 ^ 40 else 0)
    + (if b.rolled then 2 ^ 41 else 0) + (if full then 2 ^ 42 else 0))

/-- The bundle is rolled back: poison was consumed, its interval is open since its start and not overflowed, no workgroup was killed,
and it has been re-run less than twice (R398, R396). -/
def State.rollsBack (s : State) (b : Bundle) : Bool :=
  b.killed.isEmpty && decide (b.reruns < 2) && (s.ctx? b.ctx).any (fun c =>
    c.chk &&& chkPoison != 0 && c.chk &&& chkLogfull == 0 && c.interval.any (fun i => i.bundle == b.id && i.fresh && !i.overflow))

/-- Every dirty L1 and L2 byte of a context is written back (R398). -/
def State.writeBackCtx (s : State) (ctx : Nat) : State :=
  let s := (s.l1.filter (fun l => l.ctx == ctx && !l.dirty.isEmpty)).foldl (fun s l => s.cleanLine l) s
  (s.l2.filter (fun l => l.ctx == ctx && !l.dirty.isEmpty)).foldl (fun s l => s.cleanL2 l) s

/-- Every cached tile of a context is invalidated. -/
def State.dropCtxTiles (s : State) (ctx : Nat) : State :=
  { s with l1 := s.l1.filter (fun l => l.ctx != ctx), l2 := s.l2.filter (fun l => l.ctx != ctx) }

/-- Put a logged tile back with its poison. -/
def State.restoreTile (s : State) (ctx at_ : Nat) : State :=
  let e := s.bytesAt at_ 288
  let tile := recNat e 0 8 / 256
  let mask := recNat e 8 1
  (s.homeWrite ctx (tile * 256) (e.drop 32)).poisonBlocks (((List.range 4).filter (fun i => mask.testBit i)).map (fun i => tile * 4 + i))

/-- ROLLBACK_REPLAY: the log is replayed by controller, last entry first, and the cached tiles of the context are invalidated (R398). -/
def State.replay (s : State) (ctx : Nat) (log : List (Nat × Nat × Nat)) : State :=
  let s := s.updCtx ctx (fun c => { c with interval := none })
  ((List.range 72).foldl (fun s ctl =>
    ((log.filter (fun e => e.2.1 == ctl)).reverse).foldl (fun s e => s.restoreTile ctx e.2.2) s) s).dropCtxTiles ctx

/-- The bundle runs again from its prologue, as a new start (R398). -/
def State.rerun (s : State) (b : Bundle) : State :=
  let s := ((s.dropChain b.id 1).openInterval b.ctx b.id).forgetBatches (fun r => r.bundle == b.id)
  (s.updBundle b.id (fun x => { x with phase := .prologue, alive := 0, killed := [], episkip := false, rolled := true,
                                        reruns := x.reruns + 1 })).runBundle b.id

/-- The completion writes of a bundle: the status word, then SIGVAL, in one release (R35); they are dropped, with an event, when they
fail (R446). -/
def State.bundleSignal (s : State) (b : Bundle) (st : Word) : State :=
  let va := recWord b.slot 64 8
  if va = 0 then s
  else
    let c := schedCore (s.firstDie b.ctx)
    match s.segments c b.ctx va 16 true with
    | .bad e => s.post (.signalFault (((s.cmd? b.cmd).map (·.hdr.cookie)).getD 0) b.ctx va e.1)
    | .ok _ =>
      match s.segments c b.ctx (va + 8) 8 true, s.segments c b.ctx va 8 true with
      | .ok hi, .ok lo => (s.writeSegs c b.ctx hi (bytesOfWord 8 st)).writeSegs c b.ctx lo (bytesOfWord 8 (recWord b.slot 72 8))
      | _, _ => s

/-- BUNDLE_COMPLETE: the interval closes, the signal is written, and the command completes, or its graph's node is ready to complete
(R35, R398). -/
def State.completeBundle (s : State) (b : Bundle) : State :=
  let st := s.statusWord b
  let s := (s.dropChain b.id 1).updCtx b.ctx (fun c => if c.interval.any (fun i => i.bundle == b.id) then { c with interval := none } else c)
  let s := (s.bundleSignal b st).forgetBatches (fun r => r.bundle == b.id)
  match b.node with
  | some _ => s.updBundle b.id (fun x => { x with phase := .finish })
  | none =>
    let s := { s with bundles := s.bundles.filter (fun x => x.id != b.id) }
    match s.cmd? b.cmd with
    | some c => s.finishCmd c none
    | none => s

/-- BUNDLE_END: the bundle is rolled back and runs again, or completes (R398). -/
def execBundleEnd (id : Nat) (s : State) : Host.Outcome State Fault Refusal :=
  match s.bundleDue id with
  | none => .next s
  | some b =>
    if recWord b.slot 64 8 != 0 && s.signalHeld b.ctx (recWord b.slot 64 8) then .next s
    else if s.rollsBack b then
      let s := s.writeBackCtx b.ctx
      match (s.ctx? b.ctx).bind (·.interval) with
      | some i => if i.overflow then .next (s.completeBundle b) else .next ((s.replay b.ctx i.log).rerun b)
      | none => .next (s.completeBundle b)
    else .next (s.completeBundle b)

/-! ### COPY (R33) -/

/-- COPY: the command starts its chain, and completes when the chain has ended. -/
def execCopy (u : Nat) (s : State) : Host.Outcome State Fault Refusal :=
  match s.toStart u 4 with
  | some c => .next ((s.begin c).startChain u 0 c.ctx (s.firstDie c.ctx) c.pro)
  | none =>
    match s.cmd? u, s.chainOf u 0 with
    | some c, some k => if c.hdr.cmd == 4 && k.ended && s.ctxLive c.ctx then .next ((s.dropChain u 0).finishCmd c none) else .next s
    | _, _ => .next s

/-! ### NOP, SIGNAL, WAITSIG and CELLWAIT (R26, R27, R446) -/

/-- The NOP command completes when it starts. -/
def execCmdNop (u : Nat) (s : State) : Host.Outcome State Fault Refusal :=
  match s.cmd? u with
  | none => .next s
  | some c =>
    if c.hdr.cmd == 8 && !c.isUser then .next (s.finishCmd c none)
    else match s.toStart u 8 with
      | some c => .next ((s.begin c).finishCmd c none)
      | none => .next s

/-- The 64-bit word that a slot's address names, with its location. -/
def State.slotWord (s : State) (c : Cmd) (b : List Byte) (write : Bool) : Checked (Nat × Word) :=
  let va := recWord b 8 8
  (s.walk (schedCore (s.firstDie c.ctx)) c.ctx va write).andThen (fun t =>
    .ok (t.loc va.toNat, wordOfBytes (s.homeRead (t.loc va.toNat) 8)))

/-- The access of a command fails: its queue is held, and any write of WPTR tries the access again (R446). -/
def State.holdCmd (s : State) (c : Cmd) (b : Bad) : State :=
  (s.fetchFault c.queue c.hdr.cookie b).updCmd c.uid (fun x => { x with held := true })

/-- The write of a SIGNAL slot: a store, or an atomic add (Table 3.7). -/
def State.signalSlot (s : State) (c : Cmd) (b : List Byte) (a : Nat) (old : Word) : State :=
  let v := recWord b 16 8
  s.engineWrite (schedCore (s.firstDie c.ctx)) c.ctx a (bytesOfWord 8 (if recNat b 24 1 = 1 then old + v else v))

/-- CMD_SIGNAL: the word is stored or added to, as a release at system scope of the earlier commands (R27). -/
def execCmdSignal (u : Nat) (s : State) : Host.Outcome State Fault Refusal :=
  match s.toStart u 6 with
  | none => .next s
  | some c =>
    match s.slotWord c c.slot true with
    | .bad b => .next ((s.tookTurn c.queue).holdCmd c b)
    | .ok (a, old) => if s.stalls a then .next s else .next (((s.begin c).signalSlot c c.slot a old).finishCmd c none)

/-- A word satisfies the mode of a WAITSIG (Table 3.7). -/
def waitMet (b : List Byte) (w : Word) : Bool :=
  let v := recWord b 16 8
  match recNat b 24 1 with
  | 0 => decide (v.toNat ≤ w.toNat)
  | 1 => w == v
  | _ => w != v

/-- WAITSIG: the word is read; the command completes, or it waits. -/
def execWaitsig (u : Nat) (s : State) : Host.Outcome State Fault Refusal :=
  match s.toStart u 5 with
  | none => .next s
  | some c =>
    match s.slotWord c c.slot false with
    | .bad b => .next ((s.tookTurn c.queue).holdCmd c b)
    | .ok (_, w) => if waitMet c.slot w then .next ((s.begin c).finishCmd c none) else .next (s.begin c)

/-- A waiting WAITSIG that completes now, or whose access fails now. -/
def State.waitsigDue (s : State) (u : Nat) : Option (Cmd × Checked (Nat × Word)) :=
  match s.cmd? u with
  | none => none
  | some c =>
    if c.hdr.cmd == 5 && c.started && !c.held && s.ctxLive c.ctx && (s.scheduler (s.q c.queue)).isSome then
      let x := s.slotWord c c.slot false
      match x with
      | .ok (_, w) => if waitMet c.slot w then some (c, x) else none
      | .bad _ => some (c, x)
    else none

/-- WAITSIG_SATISFIED: the word satisfies the mode, observed as an acquire at system scope (R27, R446). -/
def execWaitsigSatisfied (u : Nat) (s : State) : Host.Outcome State Fault Refusal :=
  match s.waitsigDue u with
  | none => .next s
  | some (c, .ok _) => .next (s.finishCmd c none)
  | some (c, .bad b) => .next (s.holdCmd c b)

/-- A cell satisfies the mode of a CELLWAIT (Table 3.7). -/
def State.cellMet (s : State) (c : Cmd) : Bool :=
  let x := s.cell c.ctx (recNat c.slot 8 2)
  if recNat c.slot 14 1 = 0 then decide (recNat c.slot 10 4 ≤ x.version) else x.final

/-- CELLWAIT: it starts, and completes once the cell satisfies its mode, as an acquire at module scope (R27). -/
def execCellwait (u : Nat) (s : State) : Host.Outcome State Fault Refusal :=
  match s.toStart u 7 with
  | some c => if s.cellMet c then .next ((s.begin c).finishCmd c none) else .next (s.begin c)
  | none =>
    match s.cmd? u with
    | some c => if c.hdr.cmd == 7 && c.started && s.ctxLive c.ctx && s.cellMet c then .next (s.finishCmd c none) else .next s
    | none => .next s

/-! ### Graphs (R37 to R39) -/

/-- Change a node of a graph. A node that had to wait for its record waits no longer (R37). -/
def State.setNode (s : State) (u j : Nat) (st : NodeState) : State :=
  { s with graphs := s.graphs.map (fun (g : Graph) =>
      if g.cmd == u then
        { g with nodes := updNth g.nodes j (fun x => { x with st := st }), retry := if g.retry == some j then none else g.retry }
      else g) }

/-- A record that a node names cannot be read: the queue is held as by a fetch fault, and the graph resumes at this node (R37). -/
def State.holdNode (s : State) (c : Cmd) (j : Nat) (b : Bad) : State :=
  { s.holdCmd c b with graphs := s.graphs.map (fun (g : Graph) => if g.cmd == c.uid then { g with retry := some j } else g) }

/-- A graph has completed: every node is done, or one has failed and none runs (R39). -/
def Graph.over (g : Graph) : Bool :=
  g.nodes.all (fun x => x.st == .done) || (g.nodes.any (fun x => x.st == .failed) && g.nodes.all (fun x => x.st != .running))

/-- The lowest failed node of a graph. -/
def Graph.failedNode (g : Graph) : Option Nat :=
  (List.range g.nodes.length).find? (fun j => (g.nodes[j]?).any (fun x => x.st == .failed))

/-- A graph that has completed completes its command. -/
def State.closeGraph (s : State) (c : Cmd) : State :=
  match s.graph? c.uid with
  | none => s
  | some g => if g.over then { s with graphs := s.graphs.filter (fun x => x.cmd != c.uid) }.finishCmd c g.failedNode else s

/-- Dispatch a launch node: its record is read and checked; a defect fails the node (R37, R39). -/
def State.dispatchLaunch (s : State) (c : Cmd) (j : Nat) (ptr : Word) : State :=
  let d := s.firstDie c.ctx
  match s.readRecord d c.ctx ptr 256 with
  | (.bad b, s) => s.holdNode c j b
  | (.err _, s) => s.setNode c.uid j .failed
  | (.ok b, s) =>
    match firstErr (s.launchChecks c.ctx b) with
    | .ok _ =>
      match s.launchChains d c.ctx b with
      | (.bad e, s) => s.holdNode c j e
      | (.err _, s) => s.setNode c.uid j .failed
      | (.ok (p, e), s) => (s.setNode c.uid j .running).startBundle c (some j) b p e
    | _ => s.setNode c.uid j .failed

/-- Dispatch a copy node. -/
def State.dispatchCopy (s : State) (c : Cmd) (j : Nat) (ptr : Word) : State :=
  let d := s.firstDie c.ctx
  match s.readChain d c.ctx ptr 16 with
  | (.bad b, s) => s.holdNode c j b
  | (.err _, s) => s.setNode c.uid j .failed
  | (.ok l, s) => if ptr.toNat % 64 ≠ 0 then s.setNode c.uid j .failed else (s.setNode c.uid j .running).startChain c.uid j c.ctx d l

/-- Dispatch a signal node: its slot image is read, and its write is made. -/
def State.dispatchSignal (s : State) (c : Cmd) (j : Nat) (ptr : Word) : State :=
  match s.readRecord (s.firstDie c.ctx) c.ctx ptr 256 with
  | (.bad b, s) => s.holdNode c j b
  | (.err _, s) => s.setNode c.uid j .failed
  | (.ok b, s) =>
    match firstErr [(recNat b 0 1 == 6, 1), (slotReserved 6 b, 2), (slotAddrs 6 b, 4), (s.slotLimits c.ctx 6 b, 3)] with
    | .ok _ =>
      match s.slotWord c b true with
      | .bad e => s.holdNode c j e
      | .ok (a, old) => (s.signalSlot c b a old).setNode c.uid j .done
    | _ => s.setNode c.uid j .failed

/-- Dispatch node j; an empty node completes on dispatch (R38). -/
def State.dispatch (s : State) (c : Cmd) (j : Nat) : State :=
  match (s.graph? c.uid).bind (fun g => g.nodes[j]?) with
  | none => s
  | some x =>
    let s := s.tookTurn c.queue
    match x.kind with
    | 0 => s.setNode c.uid j .done
    | 1 => s.dispatchLaunch c j x.ptr
    | 2 => s.dispatchCopy c j x.ptr
    | _ => s.dispatchSignal c j x.ptr

/-- GRAPH: the command starts, and each turn of its queue dispatches one node (R38, R41). -/
def execGraph (u : Nat) (s : State) : Host.Outcome State Fault Refusal :=
  match s.toStart u 2 with
  | some c => .next { s.begin c with graphs := s.graphs ++ [{ cmd := u, ctx := c.ctx, nodes := c.nodes }] }
  | none =>
    match s.cmd? u with
    | none => .next s
    | some c =>
      match s.dispatchable c with
      | some j => if s.myTurn c.queue then .next ((s.dispatch c j).closeGraph c) else .next s
      | none => .next s

/-- How a running node has ended: done, or failed (R39). -/
def State.nodeEnd (s : State) (c : Cmd) (j : Nat) : Option NodeState :=
  match s.bundles.find? (fun b => b.cmd == c.uid && b.node == some j) with
  | some b => if b.phase == .finish then some (if b.killed.isEmpty then .done else .failed) else none
  | none => (s.chainOf c.uid j).bind (fun k => if k.ended then some (if k.failed.isSome then .failed else .done) else none)

/-- A running node that completes now. -/
def State.nodeDue (s : State) (u j : Nat) : Option (Cmd × NodeState) :=
  match s.cmd? u with
  | none => none
  | some c =>
    if c.hdr.cmd == 2 && s.ctxLive c.ctx && ((s.graph? u).bind (fun g => g.nodes[j]?)).any (fun x => x.st == .running) then
      (s.nodeEnd c j).map (fun st => (c, st))
    else none

/-- GRAPH_NODE_COMPLETE: the node's successors may become ready; a failure stops dispatch (R38, R39). -/
def execGraphNodeComplete (u j : Nat) (s : State) : Host.Outcome State Fault Refusal :=
  match s.nodeDue u j with
  | none => .next s
  | some (c, st) =>
    let s := { s with bundles := s.bundles.filter (fun b => !(b.cmd == u && b.node == some j)) }.dropChain u j
    .next ((s.setNode u j st).closeGraph c)

/-! ### Pipes (R40, R320) -/

/-- A pipe has ended: every stage ring is closed and empty, and no wave of it is pending or resident (Table 3.7). -/
def State.pipeOver (s : State) (p : Pipe) : Bool :=
  (List.range p.stages.length).all (fun k => s.stageOver p k && s.stageCount p.cmd k == 0)

/-- PIPE: WMIN waves of each stage become pending, and the governor evaluates; the command completes at the pipe's end. -/
def execPipe (u : Nat) (s : State) : Host.Outcome State Fault Refusal :=
  match s.toStart u 3 with
  | some c =>
    let p : Pipe := { cmd := u, ctx := c.ctx, stages := c.stages }
    let s := { s.begin c with pipes := s.pipes ++ [p] }
    let s := (List.range p.stages.length).foldl (fun s k =>
      (List.range (p.stage k).wmin).foldl (fun s _ => s.addStage p k) s) s
    .next (s.governPipe p)
  | none =>
    match s.cmd? u, s.pipes.find? (fun p => p.cmd == u) with
    | some c, some p =>
      if s.ctxLive c.ctx && s.pipeOver p then .next ({ s with pipes := s.pipes.filter (fun x => x.cmd != u) }.finishCmd c none)
      else .next s
    | _, _ => .next s

end Sys2Proof.Machine
end

