-- ==== Sys2Proof/Machine/Image.lean ====
section
/-!
DEFINITION. The image of a saved context (23 R390 to R394, Tables 22.1, 22.7, 23.3 to 23.5): what it holds, how it is laid out in bytes, and
how it is read back. The order of a payload is that of Table 23.5; where the table gives no width, an item is a word of 8 bytes, and the
fields that only the model has follow those of the table (log 35).
-/
namespace Sys2Proof.Machine
open Sys2Proof

/-! ### Words -/

/-- How a value is laid out as words of 8 bytes, and how it is read back. -/
structure Codec (α : Type) where
  enc : α → List Nat
  dec : List Nat → Option (α × List Nat)

/-- A number. -/
def cNat : Codec Nat where
  enc n := [n]
  dec l := match l with
    | n :: r => some (n, r)
    | [] => none

/-- A number that names a unit, command, bundle or entry: on another module these numbers begin above those in use there. -/
def cUid (off : Nat) : Codec Nat where
  enc n := [n]
  dec l := match l with
    | n :: r => some (n + off, r)
    | [] => none

/-- A codec through a change of form. -/
def Codec.imap (c : Codec α) (f : α → β) (g : β → α) : Codec β where
  enc b := c.enc (g b)
  dec l := (c.dec l).map (fun p => (f p.1, p.2))

/-- Two values, one after the other. -/
def Codec.both (c : Codec α) (d : Codec β) : Codec (α × β) where
  enc p := c.enc p.1 ++ d.enc p.2
  dec l := (c.dec l).bind (fun p => (d.dec p.2).map (fun q => ((p.1, q.1), q.2)))

/-- A number of values. -/
def Codec.decN (c : Codec α) : Nat → List Nat → Option (List α × List Nat)
  | 0, l => some ([], l)
  | n + 1, l => (c.dec l).bind (fun p => (c.decN n p.2).map (fun q => (p.1 :: q.1, q.2)))

/-- A fixed number of values. -/
def Codec.vec (c : Codec α) (n : Nat) : Codec (List α) where
  enc l := l.flatMap c.enc
  dec l := c.decN n l

/-- A list: its length, then its values. -/
def Codec.many (c : Codec α) : Codec (List α) where
  enc l := l.length :: l.flatMap c.enc
  dec l := match l with
    | n :: r => c.decN n r
    | [] => none

/-- A value that may be absent. -/
def Codec.opt (c : Codec α) : Codec (Option α) := c.many.imap (·.head?) Option.toList

/-- A bit vector of at most 64 bits. -/
def cBits (n : Nat) : Codec (BitVec n) := cNat.imap (BitVec.ofNat n) BitVec.toNat

/-- A truth value. -/
def cBool : Codec Bool := cNat.imap (· == 1) Bool.toNat

/-- One of a list of names, by its place. -/
def cName [BEq α] (l : List α) (d : α) : Codec α := cNat.imap (fun n => nth l n d) (fun a => l.findIdx (· == a))

/-- Bytes as words. -/
def packWords (n : Nat) (b : List Byte) : List Nat := (List.range n).map (fun i => recNat b (8 * i) 8)

/-- Words as bytes. -/
def bytesOfWords (l : List Nat) : List Byte := l.flatMap (bytesOfNat 8)

/-- Bytes: how many, then words. -/
def cBytes : Codec (List Byte) where
  enc b := b.length :: packWords (ceilDiv b.length 8) b
  dec l := match l with
    | n :: r => if ceilDiv n 8 ≤ r.length then some ((bytesOfWords (r.take (ceilDiv n 8))).take n, r.drop (ceilDiv n 8)) else none
    | [] => none

/-- The 96 bits of a slot, as two words. -/
def cSlot : Codec Slot :=
  (cNat.both cNat).imap (fun p => BitVec.ofNat 96 (p.1 + p.2 * 2 ^ 64)) (fun w => (fieldNat w 0 64, fieldNat w 64 32))

/-- An instruction of a slot as its 96 bits. -/
def cInstr : Codec Instr where
  enc i := cSlot.enc ((encode i).getD 0)
  dec l := (cSlot.dec l).bind (fun p => match decodeSlot p.1 with
    | .ok i => some (i, p.2)
    | .error _ => none)

/-- A header, as the 96 bits of its HDR. -/
def cHdr : Codec FmtH where
  enc f := cInstr.enc (.hdr f)
  dec l := (cInstr.dec l).bind (fun p => match p.1 with
    | .hdr f => some (f, p.2)
    | _ => none)

/-! ### Places and names -/

def cCore : Codec CoreId := (cNat.both cNat).imap (fun p => ⟨p.1, p.2⟩) (fun c => (c.die, c.core))

def cSliceId : Codec SliceId := (cCore.both cNat).imap (fun p => ⟨p.1.die, p.1.core, p.2⟩) (fun i => (⟨i.die, i.core⟩, i.slice))

def cLoc : Codec Loc := (cSliceId.both cNat).imap (fun p => ⟨p.1.die, p.1.core, p.1.slice, p.2⟩) (fun l => (sliceOfLoc l, l.slot))

def cQueueRef : Codec QueueRef :=
  (cBool.both cNat).imap (fun p => if p.1 then .mgmt p.2 else .user p.2) (fun q => match q with
    | .user n => (false, n)
    | .mgmt n => (true, n))

def cEnd : Codec EndClass := cName [.normal, .killed, .faulted] .normal

def cNode2 : Codec NodeState := cName [.waiting, .running, .done, .failed] .waiting

def cPhase : Codec BPhase := cName [.prologue, .run, .epilogue, .finish] .prologue

def cKeyState : Codec KeyState := cName [.requested, .assigned, .started, .completed, .cancelled] .requested

/-- The kind of a warp. -/
def cKind (off : Nat) : Codec WarpKind where
  enc k := match k with
    | .launched => [0, 0, 0]
    | .spawned j => [1, j.toNat, 0]
    | .stage p k => [2, p, k]
    | .refine c x => [3, c, x]
  dec l := match l with
    | 0 :: _ :: _ :: r => some (.launched, r)
    | 1 :: j :: _ :: r => some (.spawned (j == 1), r)
    | 2 :: p :: k :: r => some (.stage (p + off) k, r)
    | 3 :: c :: x :: r => some (.refine c x, r)
    | _ => none

/-! ### A warp (types 1, 3 and 5) -/

/-- A thread's PC word, clause position, last header and sr.fflags. -/
def cThread (serial : Bool) : Codec Thread :=
  (cNat.both (cNat.both (cHdr.opt.both (cBits 8)))).imap
    (fun p => { st := nth [TState.running, .parked, .exited] (p.1 / 2 ^ 56 % 4) .exited, pc := word (p.1 % 2 ^ 56), xfer := p.1.testBit 60,
                pass := p.1.testBit 59, pos := p.2.1, hdr := p.2.2.1, fflags := p.2.2.2 })
    (fun x => (x.pc.toNat % 2 ^ 56 * (if x.st == .exited then 0 else 1) + x.st.code * 2 ^ 56 + serial.toNat * 2 ^ 58 + x.pass.toNat * 2 ^ 59
                + x.xfer.toNat * 2 ^ 60, x.pos, x.hdr, x.fflags))

/-- What the model holds of a thread beside these. -/
def cThreadRest : Codec (Word × Bool × Bool) := (cBits 64).both (cBool.both cBool)

/-- A thread with the rest of it. -/
def Thread.withRest (x : Thread) (r : Word × Bool × Bool) : Thread := { x with pc := r.1, arriving := r.2.1, arrived := r.2.2 }

def cJoin : Codec JoinSlot :=
  (cNat.both (cNat.both (cNat.both cNat))).imap (fun p => ⟨p.1, p.2.1, p.2.2.1, p.2.2.2⟩) (fun j => (j.pending, j.normal, j.faulted, j.killed))

def cLatch : Codec Latch :=
  (cBytes.both (cNat.both (cNat.both cBool))).imap (fun p => ⟨p.1, p.2.1, p.2.2.1, p.2.2.2⟩) (fun x => (x.bytes, x.name, x.fmt, x.balt))

/-- An operation that pre-emption leaves in flight: the trap of an extension code (R387). -/
def cFlight (off : Nat) : Codec Flight :=
  ((cUid off).both ((cNat.opt).both (cBool.both ((cBits 32).both (cBits 64)).opt))).imap
    (fun p => { id := p.1, flag := p.2.1, load := p.2.2.1, writes := [], emu := p.2.2.2 })
    (fun f => (f.id, f.flag, f.load, f.emu))

def cPin : Codec Pin := (cNat.both (cNat.both cNat)).imap (fun p => ⟨p.1, p.2.1, p.2.2⟩) (fun x => (x.cell, x.buf, x.version))

/-- The predicates of a warp, as a word of 12 bits for each thread. -/
def cPreds : Codec (List Mask) :=
  (cNat.vec 32).imap
    (fun l => (List.range 12).map (fun p => maskOf (fun t => (nth l t 0).testBit p)))
    (fun ps => (List.range 32).map (fun t => (List.range 12).foldl (fun a p => a + (bitAt (nth ps p 0) t).toNat * 2 ^ p) 0))

/-- The items of Table 23.5 for a warp; `run` is the runtime count of its unit. -/
def cWarpHead (serial : Bool) : Codec (Nat × Nat × Nat × Nat × List Thread × List Mask × List Word × List Nat × Nat × Nat × Nat × List JoinSlot
    × Option Latch) :=
  cNat.both (cNat.both (cNat.both (cNat.both (((cThread serial).vec 32).both (cPreds.both (((cBits 64).vec 192).both ((cNat.vec 12).both
    (cNat.both (cNat.both (cNat.both ((cJoin.vec 16).both cLatch.opt)))))))))))

/-- What the model holds of a warp beside these: first its names and its place. -/
def cWarpId (off : Nat) : Codec (Nat × Nat × WarpKind × Loc × Word × Nat × Nat × Nat × Option (Nat × Nat) × Option Nat × Option QueueRef × BitVec 32) :=
  (cUid off).both ((cUid off).both ((cKind off).both (cLoc.both ((cBits 64).both (cNat.both (cNat.both (cNat.both
    (((cUid off).both cNat).opt.both ((cUid off).opt.both (cQueueRef.opt.both (cBits 32)))))))))))

/-- Then its modes and what it holds. -/
def cWarpMode (off : Nat) : Codec (List (Word × Bool × Bool) × Bool × Option (Mask × Bool) × Bool × List Flight × List Pin × List (Nat × Nat)
    × EndClass × Bool × Bool × Bool) :=
  (cThreadRest.vec 32).both (cBool.both (((cBits 32).both cBool).opt.both (cBool.both ((cFlight off).many.both (cPin.many.both
    ((cNat.both cNat).many.both (cEnd.both (cBool.both (cBool.both cBool)))))))))

/-- A warp, without its map and its trap records. -/
def cWarp (off : Nat) (serial : Bool) (run : Nat) : Codec Warp :=
  ((cWarpHead serial).both ((cWarpId off).both (cWarpMode off))).imap
    (fun ((wid, crew, rows, bal, ths, preds, unif, flags, fair, q, _, joins, latch),
          (uid, wg, kind, loc, gid, depth, prio, placed, joinOf, bundle, queue, cookie),
          (rest, prevLow, pick, ser, fl, pins, claims, cls, cancel, leave, popped)) =>
      { loc := loc, uid := uid, wg := wg, ctx := 0, kind := kind, wid := wid, crew := crew, gid := gid, depth := depth, prio := prio,
        rowsRes := rows, balance := bal, placed := placed, threads := (List.zip ths rest).map (fun x => x.1.withRest x.2), preds := preds,
        unif := unif, flags := flags, fair := fair, fairQ := q, prevLow := prevLow, fairPick := pick, serial := ser, joins := joins,
        latch := latch, inflight := fl, pins := pins, claims := claims, joinOf := joinOf, bundle := bundle, queue := queue, cookie := cookie,
        endClass := cls, cancel := cancel, leave := leave, popped := popped })
    (fun w =>
      ((w.wid, w.crew, w.rowsRes, w.balance, (List.range 32).map w.thread, w.preds, (w.unif ++ List.replicate 192 0).take 192, w.flags, w.fair, w.fairQ, run,
          w.joins, w.latch),
       (w.uid, w.wg, w.kind, w.loc, w.gid, w.depth, w.prio, w.placed, w.joinOf, w.bundle, w.queue, w.cookie),
       ((List.range 32).map (fun t => let x := w.thread t; (x.pc, x.arriving, x.arrived)), w.prevLow, w.fairPick, w.serial,
          w.inflight.filter (fun f => f.emu.isSome), w.pins, w.claims, w.endClass, w.cancel, w.leave, w.popped)))

/-- A trap record: the words of Table 22.1, then the INFO words of each of its threads. -/
def cTrap (wid : Nat) : Codec TrapRec :=
  ((cNat.vec 8).both ((cNat.both ((cBits 64).both (cBits 64))).many)).imap
    (fun p =>
      let k := fun i => nth p.1 i 0
      { mask := BitVec.ofNat 32 (k 0 / 2 ^ 32), code := k 0 % 256, fpc := word (k 1), ppc := word (k 2),
        bits := BitVec.ofNat 96 (k 3 + k 4 % 2 ^ 32 * 2 ^ 64), vals := p.2 })
    (fun r => ((r.words wid).map (·.toNat), r.vals))

/-! ### A workgroup (types 6 to 8) -/

def cTag : Codec Tag :=
  (cNat.both (cNat.both (cNat.both (cBool.both (cNat.both cBool))))).imap
    (fun p => ⟨p.1, p.2.1, p.2.2.1, p.2.2.2.1, p.2.2.2.2.1, p.2.2.2.2.2⟩)
    (fun t => (t.pending, t.status, t.fcode, t.trappend, t.code, t.pod))

def cCk : Codec CkRec :=
  ((cNat.both (cNat.both (cNat.both (cNat.both ((cBits 64).many.both (cBits 64).many))))).both
    ((cBits 64).both (cNat.both (cBool.both (cBool.both (cNat.both cNat)))))).imap
    (fun ((off, m, n, kind, rows, cols), (mu, skip, sat, dr, mis, un)) => ⟨off, m, n, kind, rows, cols, mu, skip, sat, dr, mis, un⟩)
    (fun k => ((k.off, k.m, k.n, k.kind, k.rows, k.cols), (k.mu, k.skip, k.sat, k.drained, k.mism, k.unchk)))

def cBar (off : Nat) : Codec BarGen :=
  (cNat.both ((cUid off).many.both (cNat.opt.both (cBool.both (cUid off).many)))).imap
    (fun (g, a, c, o, w) => ⟨g, a, c, o, w⟩) (fun b => (b.gen, b.arrived, b.count, b.opened, b.owed))

def cFoot : Codec Footprint :=
  (((cBits 64).both (cNat.both (cNat.both (cNat.both cNat)))).both (cNat.both (cNat.both (cNat.both (cNat.both cNat))))).imap
    (fun ((e, w, c, r, t), (g, l, a, q, m)) => ⟨e, w, c, r, t, g, l, a, q, m⟩)
    (fun f => ((f.entry, f.warps, f.crew, f.rows, f.tags), (f.guards, f.loc, f.acckib, f.fairq, f.limit)))

def cEnded (off : Nat) : Codec Ended :=
  ((cUid off).both (cCore.both (cEnd.both ((cUid off).opt.both (((cUid off).both cNat).opt.both (cNat.both (cNat.both cNat)).opt))))).imap
    (fun (u, c, e, b, j, i) => { uid := u, ctx := 0, core := c, endClass := e, bundle := b, joinOf := j, inst := i })
    (fun e => (e.uid, e.core, e.endClass, e.bundle, e.joinOf, e.inst))

/-- A queue entry: its 96 bits, its operand values, its progress and its bound generation, then what the model holds beside. -/
def cEntry (off : Nat) : Codec QEntry :=
  ((cInstr.both ((cBits 64).both ((cBits 64).both ((cBits 64).both (cNat.both (cNat.both cNat).opt))))).both
    ((cUid off).both ((cUid off).both ((cLoc.both (cBool.both cNat)).opt.both (cBytes.both (cBool.both ((cUid off).many.both (cBool.both
      (cNat.both (cNat.both cBool)).opt)))))))).imap
    (fun ((i, a, b, c, p, g), (u, w, f, l, st, af, ac, o)) =>
      { uid := u, cmd := i, a := a, b := b, c := c, warp := w, flag := f, guardGen := g, latch := l, started := st, progress := p, after := af,
        accepted := ac, outcome := o })
    (fun e => ((e.cmd, e.a, e.b, e.c, e.progress, e.guardGen), (e.uid, e.warp, e.flag, e.latch, e.started, e.after, e.accepted, e.outcome)))

/-- Tags, guard-slot generations, queue entries and the BAR and CBAR generations; `cbar` is that of the workgroup's cluster group. -/
def cWgHead (off : Nat) : Codec (List Tag × List (List (Option Bool)) × List (List QEntry) × BarGen × Option BarGen) :=
  cTag.many.both (cBool.opt.many.many.both ((cEntry off).many.many.both ((cBar off).both (cBar off).opt)))

/-- What the model holds of a workgroup beside these. -/
def cWgRest (off : Nat) : Codec (Nat × Bool × Nat × Option Nat × Option Nat × CoreId × List Nat × Footprint × Nat × Nat × Bool × Bool × Option Ended
    × Bool × List Nat × BitVec 32 × Bool) :=
  (cUid off).both (cBool.both (cNat.both ((cUid off).opt.both ((cUid off).opt.both (cCore.both (cNat.many.both (cFoot.both (cNat.both (cNat.both
    (cBool.both (cBool.both ((cEnded off).opt.both (cBool.both (cNat.many.both ((cBits 32).both cBool)))))))))))))))

/-- A workgroup, without its memories and checksum records, with its cluster group's barrier. -/
def cWg (off : Nat) (cbar : Option BarGen) : Codec (Wg × Option BarGen) :=
  ((cWgHead off).both (cWgRest off)).imap
    (fun ((tags, gs, qs, bar, cb), (uid, wave, no, b, grp, core, sl, foot, prio, run, hit, fuse, en, cnt, objs, ck, ret)) =>
      ({ uid := uid, ctx := 0, wave := wave, number := no, bundle := b, group := grp, core := core, slices := sl, foot := foot, prio := prio,
         tags := tags, guards := gs, queues := qs, bar := bar, runtime := run, limitHit := hit, fuse := fuse, ending := en, counted := cnt,
         objects := objs, cookie := ck, retired := ret }, cb))
    (fun p =>
      let g := p.1
      ((g.tags, g.guards, g.queues, g.bar, cbar),
       (g.uid, g.wave, g.number, g.bundle, g.group, g.core, g.slices, g.foot, g.prio, g.runtime, g.limitHit, g.fuse, g.ending, g.counted, g.objects,
         g.cookie, g.retired)))

/-! ### Pending units and commands (types 9 and 10) -/

def cGiven : Codec Given :=
  (cBool.both cNat).imap (fun p => if p.1 then .copy p.2 else .ref p.2) (fun g => match g with
    | .ref r => (false, r)
    | .copy k => (true, k))

def cArgs : Codec (List Word) := (cBits 64).many

/-- What is pending. -/
def cPendKind (off : Nat) : Codec PendKind where
  enc k := match k with
    | .launch b f n fu => [0, b, f, n, fu.toNat]
    | .wave p sl u d j m a g gv gs pr =>
      1 :: ([d, m.toNat] ++ cArgs.enc a ++ cGiven.many.enc gs ++ [j, p] ++ cSliceId.enc sl ++ [u, g.toNat, gv.toNat] ++ (cUid off).opt.enc pr)
    | .stage p k a => [2, p, k] ++ cArgs.enc a
    | .refine c x v b a => [3, c, x, v, b] ++ cArgs.enc a
  dec l := match l with
    | 0 :: b :: f :: n :: fu :: r => some (.launch (b + off) f n (fu == 1), r)
    | 1 :: r =>
      ((cNat.both ((cBits 32).both (cArgs.both (cGiven.many.both (cNat.both ((cUid off).both (cSliceId.both ((cUid off).both ((cBits 64).both
        (cBool.both (cUid off).opt)))))))))).dec r).map
          (fun ((d, m, a, gs, j, p, sl, u, g, gv, pr), r) => (.wave p sl u d j m a g gv gs pr, r))
    | 2 :: p :: k :: r => (cArgs.dec r).map (fun x => (.stage (p + off) k x.1, x.2))
    | 3 :: c :: x :: v :: b :: r => (cArgs.dec r).map (fun y => (.refine c x v b y.1, y.2))
    | _ => none

/-- A pending unit. Its record begins with the VA of what it enters. -/
def cPending (off : Nat) : Codec Pending :=
  (cFoot.both ((cPendKind off).both ((cUid off).both (cNat.both (cNat.both (cNat.both (cQueueRef.opt.both (cBits 32)))))))).imap
    (fun (f, k, u, d, p, a, q, c) => { uid := u, ctx := 0, die := d, prio := p, arrival := a, foot := f, kind := k, queue := q, cookie := c })
    (fun p => (p.foot, p.kind, p.uid, p.die, p.prio, p.arrival, p.queue, p.cookie))

def cBatch (off : Nat) : Codec Batch :=
  ((cUid off).both ((cUid off).both (cNat.both (cPending off).many))).imap (fun (i, b, d, u) => ⟨i, b, d, u⟩)
    (fun b => (b.id, b.bundle, b.die, b.units))

def cCopy : Codec CopyRec :=
  (cNat.both ((cBits 64).both ((cBits 64).both ((cBits 64).both ((cBits 64).both ((cBits 64).both (cBits 64))))))).imap
    (fun (k, n, a, b, l, o, e) => ⟨k, n, a, b, l, o, e⟩) (fun r => (r.kind, r.next, r.src, r.dst, r.len, r.origin, r.extent))

def cChain (off : Nat) : Codec Chain :=
  ((cUid off).both (cNat.both (cCopy.many.both (cNat.both (cNat.opt.both ((cUid off).both cNat)))))).imap
    (fun (i, d, r, p, f, o, st) => { id := i, ctx := 0, die := d, recs := r, progress := p, failed := f, owner := o, stage := st })
    (fun k => (k.id, k.die, k.recs, k.progress, k.failed, k.owner, k.stage))

def cBundle (off : Nat) : Codec Bundle :=
  (((cUid off).both ((cUid off).both (cNat.opt.both (cQueueRef.both (cBytes.both (cCopy.many.both cCopy.many)))))).both
    (cPhase.both (cNat.both (cNat.both ((cNat.both cNat).many.both (cBool.both (cBool.both cNat))))))).imap
    (fun ((i, c, n, q, sl, p, e), (ph, al, wv, k, es, ro, re)) =>
      { id := i, cmd := c, node := n, ctx := 0, queue := q, slot := sl, pro := p, epi := e, phase := ph, alive := al, waves := wv, killed := k,
        episkip := es, rolled := ro, reruns := re })
    (fun b => ((b.id, b.cmd, b.node, b.queue, b.slot, b.pro, b.epi), (b.phase, b.alive, b.waves, b.killed, b.episkip, b.rolled, b.reruns)))

def cNode : Codec Node :=
  (cNat.both (cNat.many.both (cNat.both (cNat.both ((cBits 64).both cNode2))))).imap
    (fun (k, p, c, r, a, st) => ⟨k, p, c, r, a, st⟩) (fun n => (n.kind, n.preds, n.cost, n.rem, n.ptr, n.st))

def cGraph (off : Nat) : Codec Graph :=
  ((cUid off).both (cNode.many.both cNat.opt)).imap (fun (c, n, r) => { cmd := c, ctx := 0, nodes := n, retry := r })
    (fun g => (g.cmd, g.nodes, g.retry))

def cStage : Codec Stage :=
  (cFoot.both ((cBits 64).both (cNat.both cNat))).imap (fun (f, r, a, b) => ⟨f, r, a, b⟩) (fun x => (x.foot, x.ring, x.wmin, x.wmax))

def cPipe (off : Nat) : Codec Pipe :=
  ((cUid off).both (cStage.many.both ((cUid off).both cNat).opt)).imap (fun (c, st, l) => { cmd := c, ctx := 0, stages := st, leave := l })
    (fun p => (p.cmd, p.stages, p.leave))

def cCmd (off : Nat) : Codec Cmd :=
  (((cUid off).both (cQueueRef.both (cNat.both cBytes))).both
    (cCopy.many.both (cCopy.many.both (cNode.many.both (cStage.many.both (cBool.both cBool)))))).imap
    (fun ((u, q, n, sl), (p, e, ns, st, go, h)) =>
      { uid := u, queue := q, ctx := 0, seq := n, hdr := hdrOf sl, slot := sl, pro := p, epi := e, nodes := ns, stages := st, started := go,
        held := h })
    (fun c => ((c.uid, c.queue, c.seq, c.slot), (c.pro, c.epi, c.nodes, c.stages, c.started, c.held)))

/-- What the dispatch record of a die holds: the RPTR of each of its queues, the progress of its commands, graphs, pipes, bundles and
copy chains, and the launches and stage waves that it has still to place. -/
structure DispatchRec where
  rptrs   : List (QueueRef × BitVec 32)
  cmds    : List Cmd
  graphs  : List Graph
  pipes   : List Pipe
  bundles : List Bundle
  chains  : List Chain
  pending : List Pending
  batches : List Batch
  deriving DecidableEq, Repr

def cDispatch (off : Nat) : Codec DispatchRec :=
  ((cQueueRef.both (cBits 32)).many.both ((cCmd off).many.both ((cGraph off).many.both ((cPipe off).many.both ((cBundle off).many.both
    ((cChain off).many.both ((cPending off).many.both (cBatch off).many))))))).imap
    (fun (r, c, g, p, b, k, u, t) => ⟨r, c, g, p, b, k, u, t⟩)
    (fun d => (d.rptrs, d.cmds, d.graphs, d.pipes, d.bundles, d.chains, d.pending, d.batches))

/-! ### Collectives and refinement (types 11 and 12) -/

def cColl (off : Nat) : Codec CollEntry :=
  (((cBits 32).both ((cBits 32).opt.both ((cUid off).both ((cUid off).both ((cUid off).both cNat))))).both
    (cNat.opt.both (cNat.both (cNat.opt.both (cNat.opt.both (cNat.both cBool)))))).imap
    (fun ((key, sl, u, g, w, d), (t, o, a, b, r, rd)) =>
      { uid := u, wg := g, warp := w, die := d, ctx := 0, tag := t, key := key, op := o, src := a, dst := b, root := r, slate := sl, ready := rd })
    (fun e => ((e.key, e.slate, e.uid, e.wg, e.warp, e.die), (e.tag, e.op, e.src, e.dst, e.root, e.ready)))

def cCancel (off : Nat) : Codec CancelRec :=
  ((cUid off).both ((cUid off).both (cNat.both ((cBits 32).both cBool)))).imap
    (fun (u, g, d, k, o) => { uid := u, wg := g, die := d, key := k, own := o }) (fun c => (c.uid, c.wg, c.die, c.key, c.own))

def cKey : Codec KeyRec := ((cBits 32).both (cKeyState.both (cBits 32))).imap (fun (k, st, sl) => ⟨k, st, sl⟩) (fun r => (r.key, r.st, r.slate))

/-- What an image holds of a communicator (R354): NEXT, its entries, and the keys whose next use a skip has taken; beside these, its cancels
and what SLATEQ reports. -/
structure SavedComm where
  next    : Option (BitVec 32)
  entries : List CollEntry
  taken   : List (BitVec 32)
  cancels : List CancelRec
  keys    : List KeyRec
  high    : Option (BitVec 32)
  deriving DecidableEq, Repr

def cComm (off : Nat) : Codec SavedComm :=
  ((cBits 32).opt.both ((cColl off).many.both ((cBits 32).many.both ((cCancel off).many.both (cKey.many.both (cBits 32).opt))))).imap
    (fun (n, e, t, c, k, h) => ⟨n, e, t, c, k, h⟩) (fun x => (x.next, x.entries, x.taken, x.cancels, x.keys, x.high))

def cSub (off : Nat) : Codec SubSt :=
  ((cUid off).opt.both ((cUid off).opt.both (cNat.both ((cNat.both (cNat.both cNat)).opt.both cBool)))).imap
    (fun (p, r, v, m, f) => ⟨p, r, v, m, f⟩) (fun x => (x.pending, x.resident, x.version, x.remember, x.fired))

/-- What an image holds of a cell: its subscribers and the claims, which its table entry does not hold. -/
structure SavedCell where
  cell   : Nat
  subs   : List SubSt
  claims : List (Nat × Nat)
  prio   : Nat
  cookie : BitVec 32
  deriving DecidableEq, Repr

def cCell (off : Nat) : Codec SavedCell :=
  (cNat.both ((cSub off).many.both (((cUid off).both cNat).many.both (cNat.both (cBits 32))))).imap
    (fun (c, l, k, p, q) => ⟨c, l, k, p, q⟩) (fun x => (x.cell, x.subs, x.claims, x.prio, x.cookie))

/-- The refinement record: pending instances, the cells, the settle groups whose signal has been written, and the first number that no unit of
the module had when it was written. -/
structure RefineRec where
  pending : List Pending
  cells   : List SavedCell
  settled : List Nat
  top     : Nat
  deriving DecidableEq, Repr

def cRefine (off : Nat) : Codec RefineRec :=
  ((cPending off).many.both ((cCell off).many.both (cNat.many.both (cUid off)))).imap
    (fun (p, c, g, t) => ⟨p, c, g, t⟩) (fun r => (r.pending, r.cells, r.settled, r.top))

/-! ### Records and sections (R392, R394) -/

/-- A record: its header of TYPE, LEN in units of 8 bytes and INDEX, and its payload, padded. -/
def recordBytes (ty ix : Nat) (b : List Byte) : List Byte :=
  let n := ceilDiv b.length 8
  bytesOfNat 8 (ty + n * 2 ^ 8 + ix * 2 ^ 32) ++ b ++ List.replicate (8 * n - b.length) 0

/-- A record of words. -/
def wordRecord (ty ix : Nat) (l : List Nat) : List Byte := recordBytes ty ix (bytesOfWords l)

/-- The records of a section, as TYPE, INDEX and payload; there are at most as many as words. -/
def recordsFrom : Nat → List Byte → List (Nat × Nat × List Byte)
  | 0, _ => []
  | n + 1, b =>
    if b.isEmpty then []
    else
      let h := recNat b 0 8
      let len := 8 * (h / 2 ^ 8 % 2 ^ 24)
      (h % 2 ^ 8, h / 2 ^ 32, (b.drop 8).take len) :: recordsFrom n (b.drop (8 + len))

/-- The records of a section. -/
def recordsOf (b : List Byte) : List (Nat × Nat × List Byte) := recordsFrom (b.length / 8) b

/-- The payloads of the records of a type and index, in order. -/
def payloads (l : List (Nat × Nat × List Byte)) (ty ix : Nat) : List (List Byte) :=
  (l.filter (fun r => r.1 == ty && r.2.1 == ix)).map (·.2.2)

/-- The value that a payload holds. -/
def Codec.read (c : Codec α) (b : List Byte) : Option α := (c.dec (packWords (b.length / 8) b)).map (·.1)

/-- Every element of a list, when each is there. -/
def allSome : List (Option α) → Option (List α)
  | [] => some []
  | none :: _ => none
  | some a :: l => (allSome l).map (a :: ·)

/-- The save-local number of a row: the place of its crew in the workgroup, and its number in the slice (R394). -/
def rowNumber (crew : Nat) (r : Option Nat) : Nat :=
  match r with
  | some r => 128 * crew + r
  | none => 0xFFFF

/-- The row that a save-local number names. -/
def numberRow (n : Nat) : Option Nat := if n = 0xFFFF then none else some (n % 128)

/-- The row numbers of a list, of two bytes each. -/
def numbersBytes (crew : Nat) (l : List (Option Nat)) : List Byte := l.flatMap (fun r => bytesOfNat 2 (rowNumber crew r))

/-- A list of n row numbers. -/
def numbersOf (n : Nat) (b : List Byte) : List (Option Nat) := (List.range n).map (fun i => numberRow (recNat b (2 * i) 2))

/-- The crews of a workgroup, each with its place and slice. -/
def Wg.crewSlices (g : Wg) : List (Nat × SliceId) :=
  List.zip (List.range g.slices.length) (g.slices.map (fun k => ⟨g.core.die, g.core.core, k⟩))

/-- The records of a crew: its rows and its mailboxes. -/
def State.crewRecords (s : State) (p : Nat × SliceId) : List Byte :=
  let x := s.slice p.2
  let wid := fun (k : Nat) => ((s.warp? ⟨p.2.die, p.2.core, p.2.slice, k⟩).map (·.wid)).getD 0
  x.rows.flatMap (fun r => recordBytes 2 (128 * p.1 + r.no)
    (bytesOfNat 8 (wid r.charge) ++ r.data.flatMap (fun w => bytesOfWord 8 w) ++ bytesOfNat 8 r.charge))
  ++ recordBytes 4 p.1 (numbersBytes p.1 x.mailboxes)

/-- The section of a workgroup. -/
def State.wgSection (s : State) (g : Wg) (ws : List Warp) : List Byte :=
  let cbar := g.group.bind (fun k => (s.groups.find? (fun x => x.id == k)).map (·.cbar))
  let at_ := fun (w : Warp) => g.slices.findIdx (· == w.loc.slice)
  (List.zip (List.range ws.length) ws).flatMap (fun p => wordRecord 1 p.1 ((cWarp 0 p.2.serial g.runtime).enc p.2))
  ++ g.crewSlices.flatMap (fun p => s.crewRecords p)
  ++ (List.zip (List.range ws.length) ws).flatMap (fun p => recordBytes 3 p.1 (numbersBytes (at_ p.2) p.2.map))
  ++ (List.zip (List.range ws.length) ws).flatMap (fun p => p.2.records.flatMap (fun r => wordRecord 5 p.1 ((cTrap p.2.wid).enc r)))
  ++ recordBytes 6 0 (sparseRead g.locMem 0 g.foot.loc)
  ++ recordBytes 7 0 (sparseRead g.accMem 0 (g.foot.acckib * 1024) ++ bytesOfWords (cCk.many.enc g.cks))
  ++ wordRecord 8 0 ((cWg 0 cbar).enc (g, cbar))

/-- What an image holds. -/
structure Saved where
  ctx      : Nat
  origin   : Word := 0
  chk      : BitVec 5 := 0
  flags    : Nat := 0
  warps    : List Warp := []
  wgs      : List Wg := []
  groups   : List ClGroup := []
  slices   : List Slice := []
  pending  : List Pending := []
  dispatch : List DispatchRec := []
  comms    : List (Nat × SavedComm) := []
  cells    : List SavedCell := []
  settled  : List Nat := []
  top      : Nat := 0
  deriving DecidableEq, Repr

/-- A die of a context's partition that stands for a die: itself, or, when it lies outside, one of the partition. -/
def State.dieIn (s : State) (ctx d : Nat) : Nat :=
  let ds := s.diesOf ctx
  if ds.contains d then d else nth ds (d % ds.length) 0

/-- A unit that is dispatched with its launch or pipe. -/
def PendKind.isDispatched : PendKind → Bool
  | .launch _ _ _ _ | .stage _ _ _ => true
  | _ => false

/-- A pending instance. -/
def PendKind.isInstance : PendKind → Bool
  | .refine _ _ _ _ _ => true
  | _ => false

/-- A pending wave that SPAWN made. -/
def PendKind.isWave : PendKind → Bool
  | .wave _ _ _ _ _ _ _ _ _ _ _ => true
  | _ => false

/-- A context's user queues whose commands the section of a die holds. -/
def State.queuesIn (s : State) (ctx d : Nat) : List Queue :=
  s.queues.filter (fun q => q.ctx == ctx && (match q.ref with
    | .user _ => s.dieIn ctx q.home == d
    | .mgmt _ => false))

/-- What the section of a die records of dispatch. -/
def State.dispatchRec (s : State) (ctx d : Nat) : DispatchRec :=
  let qs := s.queuesIn ctx d
  let mine := s.cmds.filter (fun c => c.isUser && c.ctx == ctx && qs.any (fun q => q.ref == c.queue))
  let of_ := fun (u : Nat) => mine.any (fun c => c.uid == u)
  { rptrs := qs.map (fun q => (q.ref, q.rptr)), cmds := mine, graphs := s.graphs.filter (fun g => of_ g.cmd),
    pipes := s.pipes.filter (fun p => of_ p.cmd), bundles := s.bundles.filter (fun b => of_ b.cmd),
    chains := s.chains.filter (fun k => k.ctx == ctx && s.dieIn ctx k.die == d),
    pending := s.pending.filter (fun p => p.ctx == ctx && p.kind.isDispatched && s.dieIn ctx p.die == d),
    batches := s.batches.filter (fun b => b.units.any (fun p => p.ctx == ctx) && s.dieIn ctx b.die == d) }

/-- The section of a die: its pending waves, in their order, and its dispatch. -/
def State.dieSection (s : State) (ctx d : Nat) : List Byte :=
  let ws := s.pending.filter (fun p => p.ctx == ctx && p.kind.isWave && s.dieIn ctx p.die == d)
  (List.zip (List.range ws.length) ws).flatMap (fun p => wordRecord 9 p.1 ((cPending 0).enc p.2))
    ++ wordRecord 10 d ((cDispatch 0).enc (s.dispatchRec ctx d))

/-- What is saved of a communicator. -/
def Comm.saved (c : Comm) : SavedComm :=
  { next := c.next, entries := c.entries, taken := c.taken, cancels := c.cancels, keys := c.keys, high := c.high }

/-- What is saved of refinement. -/
def State.refineRec (s : State) (x : Ctx) : RefineRec :=
  { pending := s.pending.filter (fun p => p.ctx == x.no && p.kind.isInstance),
    cells := (s.cells.filter (fun k => k.ctx == x.no)).map (fun k =>
      { cell := k.cell, subs := k.subs, claims := k.claims, prio := k.prio, cookie := k.cookie }),
    settled := x.settled, top := s.nextUid }

/-- The section of a context. -/
def State.ctxSection (s : State) (x : Ctx) : List Byte :=
  (s.comms.filter (fun c => c.desc.ctx == x.no)).flatMap (fun c => wordRecord 11 c.no ((cComm 0).enc c.saved))
    ++ wordRecord 12 0 ((cRefine 0).enc (s.refineRec x))

/-! ### The image (Tables 23.3 and 23.4) -/

/-- The sections of an image, each with its kind and unit. -/
def State.sections (s : State) (x : Ctx) (ws : List Warp) : List (Nat × Nat × List Byte) :=
  (1, 0, s.ctxSection x) :: (s.diesOf x.no).map (fun d => (2, d, s.dieSection x.no d))
    ++ (s.wgs.filter (fun g => g.ctx == x.no)).map (fun g => (3, g.number, s.wgSection g (ws.filter (fun w => w.wg == g.uid))))

/-- A directory entry (Table 23.4). -/
def dirEntry (kind unit len off : Nat) : List Byte := bytesOfNat 1 kind ++ [0] ++ bytesOfNat 2 unit ++ bytesOfNat 4 len ++ bytesOfNat 8 off

/-- The directory of sections from an offset. -/
def directory : Nat → List (Nat × Nat × List Byte) → List Byte
  | _, [] => []
  | off, (k, u, b) :: rest => dirEntry k u b.length off ++ directory (off + b.length) rest

/-- The header (Table 23.3). -/
def headerBytes (origin : Word) (size nsect : Nat) (c : Ctx) : List Byte :=
  bytesOfNat 8 1 ++ bytesOfWord 8 origin ++ bytesOfNat 8 size ++ bytesOfNat 4 0 ++ bytesOfNat 4 nsect ++ bytesOfNat 8 c.chk.toNat
    ++ bytesOfNat 4 ((if c.interval.any (fun i => !i.overflow) then 1 else 0) + (if c.moved then 2 else 0)) ++ bytesOfNat 20 0

/-- The image of a context, with its warps as they are saved (R392). -/
def State.imageBytes (s : State) (x : Ctx) (ws : List Warp) : List Byte :=
  let l := s.sections x ws
  let body := l.flatMap (·.2.2)
  let off := 64 + 16 * l.length
  headerBytes s.ident.origin (off + body.length) l.length x ++ directory off l ++ body

/-! ### Reading an image -/

/-- A saved workgroup with its warps, slices and its cluster group's barrier. -/
structure SavedUnit where
  wg     : Wg
  warps  : List Warp
  slices : List Slice
  cbar   : Option BarGen
  deriving DecidableEq, Repr

/-- The warp of index i of a section. -/
def warpOf (off ctx : Nat) (l : List (Nat × Nat × List Byte)) (i : Nat) (b : List Byte) : Option Warp :=
  ((cWarp off false 0).read b).bind (fun w =>
    (allSome ((payloads l 5 i).map (cTrap w.wid).read)).map (fun rs =>
      { w with ctx := ctx, map := numbersOf 128 ((payloads l 3 i).headD []), records := rs, stall := 0 }))

/-- The slice of crew i of a section; the holders of its rows are counted later (R394). -/
def sliceOf (l : List (Nat × Nat × List Byte)) (p : Nat × SliceId) : Slice :=
  { id := p.2, mailboxes := numbersOf 16 ((payloads l 4 p.1).headD []),
    rows := (l.filter (fun r => r.1 == 2 && r.2.1 / 128 == p.1)).map (fun r =>
      { no := r.2.1 % 128, holders := 0, charge := recNat r.2.2 264 8, data := (List.range 32).map (fun t => recWord r.2.2 (8 + 8 * t) 8) }) }

/-- A workgroup's section. -/
def unitOf (off ctx : Nat) (b : List Byte) : Option SavedUnit :=
  let l := recordsOf b
  ((cWg off none).read ((payloads l 8 0).headD [])).bind (fun (g, cbar) =>
    let n := g.foot.acckib * 1024
    let acc := (payloads l 7 0).headD []
    (cCk.many.read (acc.drop n)).bind (fun cks =>
      (allSome ((l.filter (fun r => r.1 == 1)).map (fun r => warpOf off ctx l r.2.1 r.2.2))).map (fun ws =>
        { wg := { g with ctx := ctx, cks := cks, locMem := sparseWrite [] 0 ((payloads l 6 0).headD []), accMem := sparseWrite [] 0 (acc.take n),
                         ending := g.ending.map (fun e => { e with ctx := ctx }) },
          warps := ws, slices := g.crewSlices.map (sliceOf l), cbar := cbar })))

/-- The cluster groups of saved workgroups. -/
def groupsOf (l : List SavedUnit) : List ClGroup :=
  (l.filterMap (fun u => u.cbar.bind (fun b => u.wg.group.map (fun k => (k, b))))).foldl (fun acc p =>
    if acc.any (fun (x : ClGroup) => x.id == p.1) then acc
    else acc ++ [{ id := p.1, wgs := (l.filter (fun u => u.wg.group == some p.1)).map (·.wg.uid), cbar := p.2 }]) []

/-- The bytes of the sections of a kind. -/
def sectionsOf (img : List Byte) (kind : Nat) : List (List Byte) :=
  ((List.range (recNat img 28 4)).map (fun i => (img.drop (64 + 16 * i)).take 16)).filterMap (fun e =>
    if recNat e 0 1 == kind then some ((img.drop (recNat e 8 8)).take (recNat e 4 4)) else none)

/-- The dispatch record of a section of kind 2. -/
def dispatchOf (off : Nat) (l : List (Nat × Nat × List Byte)) : Option DispatchRec :=
  ((l.filter (fun r => r.1 == 10)).head?).bind (fun r => (cDispatch off).read r.2.2)

/-- Read an image; the numbers that name its units begin at `off`. None when it is no image. -/
def readImage (off ctx : Nat) (img : List Byte) : Option Saved :=
  let top := (sectionsOf img 1).flatMap recordsOf
  let dies := (sectionsOf img 2).map recordsOf
  (allSome ((sectionsOf img 3).map (unitOf off ctx))).bind (fun units =>
  (allSome (dies.map (dispatchOf off))).bind (fun ds =>
  (allSome ((dies.flatMap (fun l => l.filter (fun r => r.1 == 9))).map (fun r => (cPending off).read r.2.2))).bind (fun waves =>
  (allSome ((top.filter (fun r => r.1 == 11)).map (fun r => ((cComm off).read r.2.2).map (fun c => (r.2.1, c))))).bind (fun comms =>
  ((payloads top 12 0).head?.bind (cRefine off).read).map (fun rf =>
    { ctx := ctx, origin := recWord img 8 8, chk := BitVec.ofNat 5 (recNat img 32 8), flags := recNat img 40 4,
      warps := units.flatMap (·.warps), wgs := units.map (·.wg), groups := groupsOf units, slices := units.flatMap (·.slices),
      pending := waves ++ ds.flatMap (·.pending) ++ rf.pending, dispatch := ds, comms := comms, cells := rf.cells, settled := rf.settled,
      top := rf.top })))))

/-- The image that lies at a place: as many bytes as its SIZE says. -/
def State.imageAt (s : State) (place : Nat) : List Byte := s.homeRead place (recNat (s.homeRead (place + 16) 8) 0 8)

end Sys2Proof.Machine
end

