-- ==== Sys2Proof/Machine/Preempt.lean ====
section
/-!
DEFINITION. The management commands (23 R386 to R394, R403, 25 R409 to R416): pre-emption with its image, resumption, the destruction
of a context with its scrub, and the partitions.
-/
namespace Sys2Proof.Machine
open Sys2Proof

/-- A management command of a code that starts now: each starts only after the one before it has completed (R28). -/
def State.mgmtStart (s : State) (u code : Nat) : Option Cmd :=
  match s.cmd? u with
  | some c =>
    if c.hdr.cmd.toNat == code && !c.started && !c.isUser && (s.cmdsOf c.queue).all (fun x => decide (c.uid ≤ x.uid)) then some c else none
  | none => none

/-- A management command that has started. -/
def State.mgmtRunning (s : State) (u code : Nat) : Option Cmd :=
  match s.cmd? u with
  | some c => if c.hdr.cmd.toNat == code && c.started && !c.isUser then some c else none
  | none => none

/-- Change the status of a context. -/
def State.setStatus (s : State) (ctx : Nat) (st : CtxStatus) : State := s.updCtx ctx (fun c => { c with status := st })

/-! ### Quiescing (R387, R278, R354, R385) -/

/-- A run stands at an HDR that its fetch and its arrival pass: it stops there before the header's wait (R387). -/
def State.atHeader (s : State) (c : CoreId) (ctx : Nat) (pc : Word) : Bool :=
  isSlotAddr pc.toNat && (match s.icLine c ctx (pc.toNat / 64 * 64) with
    | some l => parFails l.bytes == 0 && decide (lineWord l.bytes / 4096 = 0)
        && (match decodeSlot (lineSlot l.bytes (pc.toNat % 64 / 12)) with
          | .ok (.hdr _) => true
          | _ => false)
    | none => false)

/-- The arrival of a run is still to be checked, or a comparator stops it (Table 5.3). -/
def State.runPasses (s : State) (w : Warp) (m : Mask) (pc : Word) : Bool :=
  let c := coreOfLoc w.loc
  (maskList m).all (fun t => (w.thread t).pass || (s.breakAt c w.ctx pc t).isNone)
    && (!(maskList m).any (fun t => (w.thread t).arriving) || (match s.icLine c w.ctx (pc.toNat / 64 * 64) with
      | some l => lineTgt l.bytes (pc.toNat % 64 / 12)
      | none => false))

/-- A run issues no further under pre-emption: it is in an instruction that waits, or at an HDR (R387). -/
def State.runStopped (s : State) (w : Warp) (pc : Word) : Bool :=
  let m := w.runAt pc
  (match s.waitAt w.loc false pc with
    | some x => x.mask == m
    | none => false)
  || (s.atHeader (coreOfLoc w.loc) w.ctx pc && s.runPasses w m pc)

/-- The operations that a warp has in flight and that pre-emption awaits: all but the traps of extension codes, whose threads are
parked. -/
def awaited (l : List Flight) : Bool := l.any (fun f => f.emu.isNone || !f.writes.isEmpty)

/-- A handler run has stopped: at its TRET, or at an HDR (R385). -/
def State.handlerStopped (s : State) (l : Loc) (ctx : Nat) (h : HRun) : Bool :=
  !awaited h.inflight && (h.stop || (h.waits.any (fun x => x.pc == h.pc && (match x.kind with | .header _ => true | _ => false)))
    || s.atHeader (coreOfLoc l) ctx h.pc)

/-- A warp is quiet. -/
def State.warpQuiet (s : State) (w : Warp) : Bool :=
  !awaited w.inflight && (w.runPcs.all (fun pc => s.runStopped w pc))
    && (match s.hrun? w.loc with
      | some h => s.handlerStopped w.loc w.ctx h
      | none => true)

/-- The queues of a workgroup are quiet: nothing performed is left to complete, and no matrix entry can still start (R278). -/
def State.enginesQuiet (s : State) (g : Wg) : Bool :=
  g.queues.all (fun q => match q with
    | e :: _ => e.outcome.isNone
    | [] => true)
  && (match g.head .mq with
    | none => true
    | some e => if e.cmd.isFence then !(e.guardGen.isNone && g.fenceMet e) else e.guardGen.isSome && (s.guardDue g.uid .mq).isNone)

/-- A context is quiet: its warps, its engines and its collectives whose ready message has been sent (R354), with no end of a unit left
to count and no request of it still to be delivered. -/
def State.quiet (s : State) (ctx : Nat) : Bool :=
  (s.warps.filter (fun w => w.ctx == ctx)).all (fun w => s.warpQuiet w)
    && (s.wgs.filter (fun g => g.ctx == ctx)).all (fun g => s.enginesQuiet g)
    && s.comms.all (fun c => c.desc.ctx != ctx || c.entries.all (fun e => !e.ready))
    && s.ended.all (fun e => e.ctx != ctx) && s.undeliv.all (fun u => u.ctx != ctx)
    && !s.l1.any (fun l => l.ctx == ctx && !l.dirty.isEmpty && s.stalls (l.tile * 256))
    && !s.l2.any (fun l => l.ctx == ctx && !l.dirty.isEmpty && s.targetStalls l.tile)

/-! ### PREEMPT (R386, R387) -/

/-- Every queue of a context that is enabled moves to a state, and keeps the one it held. -/
def State.holdQueues (s : State) (ctx : Nat) : State :=
  { s with queues := s.queues.map (fun (q : Queue) => match q.ref, q.state with
      | .user _, .active | .user _, .fetchFault | .user _, .error => if q.ctx == ctx then { q with state := .held, before := q.state } else q
      | _, _ => q) }

/-- PREEMPT: the context's queues are held and it starts to quiesce; a context that is saved, or that has no work, completes at once
(R386, R387). -/
def execPreempt (u : Nat) (s : State) : Host.Outcome State Fault Refusal :=
  match s.mgmtStart u 0x40 with
  | none => .next s
  | some c =>
    if !(s.ctx? c.ctx).any (fun x => x.status == .live) || !s.hasWork c.ctx then .next (s.finishCmd c none)
    else .next (((s.holdQueues c.ctx).setStatus c.ctx .preempting).updCmd u (fun x => { x with started := true }))

/-! ### PREEMPT_SAVE (R387, R390 to R394, Tables 18.2 and 23.3 to 23.5) -/

/-- The refinement unit writes the state of each cell into its table entry; what it owns there is its own (R391, Table 18.2). -/
def State.saveCell (s : State) (c : Ctx) (x : CellSt) : State :=
  let st := x.version % 2 ^ 31 + (if x.final then 2 ^ 31 else 0) + (if x.stopped then 2 ^ 32 else 0) + (x.cur.getD 0) * 2 ^ 33
    + (if x.cur.isSome then 2 ^ 35 else 0)
  let own := (List.range 8).flatMap (fun i => bytesOfWord 8 (Config.freeWord (s.free + i)))
  let s := { s with free := s.free + 8 }
  s.homeWrite noCtx (c.desc.ctBase.toNat + 256 * x.cell + 32)
    (bytesOfNat 8 st ++ x.pins.flatMap (fun p => bytesOfNat 2 p) ++ x.basis.flatMap (fun b => bytesOfNat 4 b.toNat) ++ own)

/-- The record of a handler run that pre-emption has stopped, as it is delivered again: for the threads that are still parked by it (R385). -/
def State.stoppedRecord (s : State) (w : Warp) : List TrapRec :=
  match s.hrun? w.loc with
  | none => []
  | some h =>
    let m := w.stillParked h.trec &&& ~~~(w.records.foldl (fun a r => a ||| r.mask) 0)
    if m = 0 then [] else [{ h.trec with mask := m }]

/-- A warp as it is saved: its waits are forgotten, for its instructions issue again, and the record of its handler run is queued
again (R385, R390). -/
def State.savedWarp (s : State) (w : Warp) : Warp :=
  { w with waits := [], records := s.stoppedRecord w ++ w.records, yieldTo := false, readyAt := none, stall := 0 }

/-- A workgroup as it is saved: the flags of handler runs have ended. -/
def savedWg (g : Wg) : Wg :=
  { g with queues := g.queues.map (fun q => q.map (fun (e : QEntry) => match e.flag with
      | some (_, true, _) => { e with flag := none }
      | _ => e)) }

/-- The slices of a context's units. -/
def Wg.sliceIds (g : Wg) : List SliceId := g.slices.map (fun k => ⟨g.core.die, g.core.core, k⟩)

/-- The units of a list are awaited by no stop of a die (R53). -/
def State.dropStops (s : State) (us : List Nat) : State :=
  { s with dies := s.dies.map (fun d => { d with stopFor := d.stopFor.filter (fun u => !us.contains u) }) }

/-- Everything of a context that is pending or runs in the schedulers leaves them. -/
def State.dropWork (s : State) (ctx : Nat) : State :=
  let bs := (s.bundles.filter (fun b => b.ctx == ctx)).map (·.id)
  let us := (s.pending.filter (fun p => p.ctx == ctx)).map (·.uid)
  { (s.forgetBatches (fun r => bs.contains r.bundle)).dropStops us with
    pending := s.pending.filter (fun p => p.ctx != ctx), batches := s.batches.filter (fun b => b.units.all (fun p => p.ctx != ctx)),
    cmds := s.cmds.filter (fun c => !(c.isUser && c.ctx == ctx)), chains := s.chains.filter (fun k => k.ctx != ctx),
    bundles := s.bundles.filter (fun b => b.ctx != ctx), graphs := s.graphs.filter (fun g => g.ctx != ctx),
    pipes := s.pipes.filter (fun p => p.ctx != ctx) }

/-- A unit holds the place of an error: a row of one of its slices, or a part of one of its allotments. -/
def Wg.holdsError (g : Wg) : ErrPlace → Bool
  | .memory _ => false
  | .row i _ | .hrow i _ => g.core == ⟨i.die, i.core⟩ && g.slices.contains i.slice
  | .loc c k => g.core == c && decide (g.locBase ≤ 8 * k ∧ 8 * k < g.locBase + g.foot.loc)
  | .acc c k => g.core == c && decide (g.accBase ≤ 8 * k ∧ 8 * k < g.accBase + g.foot.acckib * 1024)

/-- The context's units leave their cores, and its commands the schedulers (R47). -/
def State.evict (s : State) (ctx : Nat) : State :=
  let mine := s.wgs.filter (fun g => g.ctx == ctx)
  let ids := mine.flatMap Wg.sliceIds
  let bases : List CoreId := (mine.filter (fun g => g.fuse)).map (fun g => ⟨g.core.die, g.core.core / 4 * 4⟩)
  let s := bases.foldl (fun s b => s.updCore b (fun k => { k with fused := false })) (s.dropWork ctx)
  let s := mine.foldl (fun s g => s.updCore g.core (fun k => { k with idleSince := s.clk })) s
  { s with
    warps := s.warps.filter (fun w => w.ctx != ctx), wgs := s.wgs.filter (fun g => g.ctx != ctx),
    groups := s.groups.filter (fun x => x.wgs.all (fun u => !mine.any (fun g => g.uid == u))),
    slices := s.slices.map (fun (x : Slice) =>
      if ids.contains x.id then { id := x.id, hrows := x.hrows, lastServed := x.lastServed, lastIssued := x.lastIssued } else x),
    errors := s.errors.filter (fun e => !mine.any (fun g => g.holdsError e)),
    undeliv := s.undeliv.filter (fun u => u.ctx != ctx || u.who.isBytes) }

/-- What the saved context's members and cells hold is in the image, and they hold it no longer (R354, R391). -/
def State.evictUnits (s : State) (ctx : Nat) : State :=
  { s with comms := s.comms.map (fun (c : Comm) => if c.desc.ctx == ctx then { c with entries := [], cancels := [], watch := none } else c),
           cells := s.cells.filter (fun k => k.ctx != ctx) }

/-- An error in a row or memory of a unit of the context is read when the unit is saved (R401). -/
def State.saveErrors (s : State) (ctx : Nat) : State :=
  if s.errors.any (fun e => (s.wgs.filter (fun g => g.ctx == ctx)).any (fun g => g.holdsError e)) then s.setChk ctx chkPoison else s

/-- Write the image of a quiet context at a place, save its cells, and release what it held; the context is then saved (R387, R391). -/
def State.saveAt (s : State) (x : Ctx) (img : List Byte) (place : Nat) (reserve : Bool) : State :=
  let s := s.homeWrite noCtx place img
  let s := (s.cells.filter (fun k => k.ctx == x.no)).foldl (fun s k => s.saveCell x k) s
  let s := (s.evict x.no).evictUnits x.no
  let i : Image := { ctx := x.no, place := place, reserve := reserve, size := img.length }
  { s with images := s.images ++ [i] }.setStatus x.no .saved

/-- PREEMPT_SAVE: the context is quiet; its dirty bytes are written back, the image is written, to the reserve when the area is too small and
the reserve free, its resources are released, and the PREEMPT completes as a release at system scope, with the size in its host event (R387,
R393). -/
def execPreemptSave (u : Nat) (s : State) : Host.Outcome State Fault Refusal :=
  match s.mgmtRunning u 0x40 with
  | none => .next s
  | some c =>
    if !s.quiet c.ctx then .next s
    else
      let s := (s.writeBackCtx c.ctx).saveErrors c.ctx
      if s.undeliv.any (fun u => u.ctx == c.ctx) then .next s
      else
        let s := s.dropCtxTiles c.ctx
        match s.ctx? c.ctx with
        | none => .next s
        | some x =>
          let img := s.imageBytes x ((s.warps.filter (fun w => w.ctx == c.ctx)).map (fun w => s.savedWarp w))
          let reserve := decide (recNat c.slot 24 8 < img.length)
          if reserve && s.reserveFull then .next s
          else
            let s := s.saveAt x img (if reserve then firstReserve * 65536 else recNat c.slot 16 8) reserve
            let s := { s with cmds := s.cmds.filter (fun k => k.uid != u) }
            .next (if c.hdr.evt then s.post (.saved c.hdr.cookie c.ctx img.length) else s)

/-! ### RESUME (R390, R391, R403) -/

/-- Where a saved slice goes. -/
def mapSlice (m : List (SliceId × SliceId)) (i : SliceId) : SliceId := (lookupKey m i).getD i

/-- Where a warp slot goes. -/
def mapLoc (m : List (SliceId × SliceId)) (l : Loc) : Loc :=
  let i := mapSlice m ⟨l.die, l.core, l.slice⟩
  ⟨i.die, i.core, i.slice, l.slot⟩

/-- A pending wave's parent slice goes with the parent's rows. -/
def mapPending (m : List (SliceId × SliceId)) (p : Pending) : Pending :=
  match p.kind with
  | .wave a sl b c d e f g h given k => { p with kind := .wave a (mapSlice m sl) b c d e f g h given k }
  | _ => p

/-- The priority that resumed work takes: its queue's now (R42). -/
def State.resumePrio (s : State) (w : Warp) : Nat := s.prioOf w.queue w.prio

/-- Restore one unit at a spot: its workgroup, its slices and its warps; the answer is the state and where its slices went. -/
def State.restoreWg (s : State) (img : Saved) (g : Wg) (sp : Spot) (m : List (SliceId × SliceId)) : State × List (SliceId × SliceId) :=
  let m := m ++ List.zip g.sliceIds (sp.slices.map (fun k => (⟨sp.core.die, sp.core.core, k⟩ : SliceId)))
  let flags := fun (e : QEntry) => match e.flag with
    | some (l, h, k) => { e with flag := some (mapLoc m l, h, k) }
    | none => e
  let ws := (img.warps.filter (fun w => w.wg == g.uid)).map (fun (w : Warp) => { w with loc := mapLoc m w.loc, prio := s.resumePrio w })
  let g' := { g with
    core := sp.core, slices := sp.slices, locBase := sp.loc, accBase := sp.acc, queues := g.queues.map (·.map flags),
    prio := ((ws.head?).map (·.prio)).getD g.prio, ending := g.ending.map (fun e => { e with core := sp.core }) }
  let s := { s with wgs := s.wgs ++ [g'] }
  let s := (img.slices.filter (fun x => g.sliceIds.contains x.id)).foldl (fun (s : State) (x : Slice) =>
    s.updSlice (mapSlice m x.id) (fun y => { y with rows := x.rows, mailboxes := x.mailboxes })) s
  ({ s with warps := s.warps ++ ws }.acquire sp.core .sys, m)

/-- Restore units at spots. -/
def State.restoreAll (s : State) (img : Saved) (m : List (SliceId × SliceId)) : List (Wg × Spot) → State × List (SliceId × SliceId)
  | [] => (s, m)
  | (g, sp) :: rest =>
    let (s, m) := s.restoreWg img g sp m
    s.restoreAll img m rest

/-- The dies of a context's partition on which a unit of a priority may be placed now: no stop of the die holds it back (R53). -/
def State.diesFor (s : State) (ctx prio : Nat) : List Nat := (s.diesOf ctx).filter (fun d => !s.stopsAt d 0 prio)

/-- Place a saved cluster group, or a saved unit of its own, as R47 to R57 place a new one: on the first die that takes it, where R52 and R54
choose; the workgroups of a group keep their order. A unit whose resources had returned takes none (R407). -/
def State.restoreUnit (s : State) (img : Saved) (gs : List Wg) (m : List (SliceId × SliceId)) : Option (State × List (SliceId × SliceId)) :=
  match gs with
  | [] => some (s, m)
  | g :: rest =>
    let fuse := gs.any (fun g => g.fuse)
    let prio := (((img.warps.filter (fun w => w.wg == g.uid)).head?).map (fun w => s.resumePrio w)).getD g.prio
    let ds := s.diesFor img.ctx prio
    if g.gone then some ({ s with wgs := s.wgs ++ gs }, m)
    else if rest.isEmpty && !fuse then
      (ds.findSome? (fun d => s.bestSpot img.ctx d g.foot 0)).map (fun sp => s.restoreWg img g sp m)
    else
      (ds.findSome? (fun d => (s.bestCluster img.ctx d g.foot gs.length fuse).map (fun sps => (d, sps)))).map (fun p =>
        let s := if fuse then (match p.2 with | sp :: _ => s.fuse p.1 (sp.core.core / 4) | [] => s) else s
        s.restoreAll img m (List.zip (sortBy (fun a b => decide (a.number ≤ b.number)) gs) p.2))

/-- Place every saved unit; none when one does not fit now. -/
def State.restoreUnits (s : State) (img : Saved) (m : List (SliceId × SliceId)) : List (List Wg) → Option (State × List (SliceId × SliceId))
  | [] => some (s, m)
  | gs :: rest =>
    match s.restoreUnit img gs m with
    | none => none
    | some (s, m) => s.restoreUnits img m rest

/-- The units of an image: the cluster groups, then the units of their own. -/
def Saved.units (i : Saved) : List (List Wg) :=
  i.groups.map (fun k => i.wgs.filter (fun g => k.wgs.contains g.uid))
    ++ (i.wgs.filter (fun g => !i.groups.any (fun k => k.wgs.contains g.uid))).map (fun g => [g])

/-- The queues of a context return to the states they held (R390). -/
def State.unholdQueues (s : State) (ctx : Nat) : State :=
  { s with queues := s.queues.map (fun (q : Queue) => match q.ref with
      | .user _ => if q.ctx == ctx && q.state == .held then { q with state := q.before } else q
      | .mgmt _ => q) }

/-- A queue resumes at a saved RPTR. On another module nothing is written to it yet (log 35). -/
def State.restoreRptr (s : State) (p : QueueRef × BitVec 32) : State :=
  s.updQ p.1 (fun q => if q.rptr == p.2 then q else { q with rptr := p.2, wptr := p.2 })

/-- The schedulers take up what a dispatch record holds. -/
def State.restoreDispatch (s : State) (ctx : Nat) (d : DispatchRec) : State :=
  let s := d.rptrs.foldl (fun s p => s.restoreRptr p) s
  { s with
    cmds := s.cmds ++ d.cmds.map (fun c => { c with ctx := ctx, since := s.clk }), graphs := s.graphs ++ d.graphs.map (fun g => { g with ctx := ctx }),
    pipes := s.pipes ++ d.pipes.map (fun p => { p with ctx := ctx }), bundles := s.bundles ++ d.bundles.map (fun b => { b with ctx := ctx }),
    chains := s.chains ++ d.chains.map (fun k => { k with ctx := ctx, die := s.dieIn ctx k.die }),
    batches := s.batches ++ d.batches.map (fun b =>
      { b with die := s.dieIn ctx b.die, units := b.units.map (fun p => { p with ctx := ctx, die := s.dieIn ctx b.die }) }) }

/-- The pending units of an image arrive behind those that arrived meanwhile (DESIGN CHOICE, log 46); the placement units of their dies record
the launches' (R58). -/
def State.restorePending (s : State) (ctx : Nat) (m : List (SliceId × SliceId)) (l : List Pending) : State :=
  let l := l.map (fun (p : Pending) => { mapPending m p with ctx := ctx, die := s.dieIn ctx p.die, blocked := none })
  (l.foldl (fun (s : State) (p : Pending) => match p.kind with
    | .launch b _ _ _ => s.updDie p.die (fun d => { d with batches := d.batches ++ [{ id := p.uid, bundle := b, units := [p.uid] }] })
    | _ => s) { s with pending := s.pending ++ l })

/-- The holders of the rows of a slice are counted from the references: the names, the mailboxes, and the given references of pending waves
(R394, R128). -/
def State.recount (s : State) (i : SliceId) : State :=
  let x := s.slice i
  let refs := (s.warpsOn i).flatMap (·.map) ++ x.mailboxes ++ s.pending.flatMap (fun p => match p.kind with
    | .wave _ sl _ _ _ _ _ _ _ given _ => if sl == i then given.map (fun g => match g with
        | .ref r => some r
        | .copy _ => none) else []
    | _ => [])
  s.updSlice i (fun x => { x with rows := x.rows.map (fun y => { y with holders := (refs.filter (· == some y.no)).length }) })

/-- A member takes up what the image holds of it, sends its requests and cancels again, and asks for every assignment and skip from its NEXT
onward (R354). -/
def State.restoreComm (s : State) (ctx : Nat) (p : Nat × SavedComm) : State :=
  let r := p.2
  let s := s.updComm p.1 (fun c => { c with
    next := r.next, high := r.high, taken := r.taken, keys := r.keys, known := [], skips := [],
    cancels := r.cancels.map (fun x => { x with die := s.dieIn ctx x.die, since := s.clk })
    entries := r.entries.map (fun e => { e with ctx := ctx, die := s.dieIn ctx e.die, since := s.clk }) })
  match s.comm? p.1 with
  | none => s
  | some c => ((s.resend p.1).toServer c (.slateRequest p.1 (.since r.next) c.desc.rank c.gen)).rewatch p.1

/-- The refinement unit takes up a cell: its state is read from its table entry (R391, Table 18.2). -/
def State.restoreCell (s : State) (c : Ctx) (x : SavedCell) : State :=
  let b := s.homeRead (c.desc.ctBase.toNat + 256 * x.cell + 32) 32
  let st := recNat b 0 8
  let k : CellSt := {
    ctx := c.no, cell := x.cell, version := st % 2 ^ 31, final := st.testBit 31, stopped := st.testBit 32,
    cur := if st.testBit 35 then some (st / 2 ^ 33 % 4) else none, pins := (List.range 4).map (fun i => recNat b (8 + 2 * i) 2),
    basis := (List.range 4).map (fun i => BitVec.ofNat 32 (recNat b (16 + 4 * i) 4)), claims := x.claims, prio := x.prio, cookie := x.cookie,
    subs := x.subs }
  { s with cells := s.cells.filter (fun y => !(y.ctx == c.no && y.cell == x.cell)) ++ [k] }

/-- An image of another module closes any open interval, sets CHK.LOGFULL, and disables rollback for the rest of the bundle; CHK is the
image's (R403, Table 23.3). -/
def State.checkOrigin (s : State) (img : Saved) : State :=
  if img.origin == s.ident.origin then s
  else s.updCtx img.ctx (fun c =>
    { c with interval := none, moved := img.flags % 4 != 0, chk := img.chk ||| chkLogfull, settled := img.settled })

/-- The state after a context's image is restored; none while some unit of it does not fit. -/
def State.restored (s : State) (img : Saved) : Option State :=
  ({ s with nextUid := max s.nextUid img.top }.restoreUnits img [] img.units).map (fun (p : State × List (SliceId × SliceId)) =>
    let s := p.1
    let m := p.2
    let s : State := { s with groups := s.groups ++ img.groups, images := s.images.filter (fun x => x.ctx != img.ctx) }
    let s := (img.dispatch.foldl (fun (s : State) d => s.restoreDispatch img.ctx d) s).restorePending img.ctx m img.pending
    let s := m.foldl (fun (s : State) (p : SliceId × SliceId) => s.recount p.2) s
    let s := match s.ctx? img.ctx with
      | some c => img.cells.foldl (fun (s : State) x => s.restoreCell c x) s
      | none => s
    let s := (s.setStatus img.ctx .live).unholdQueues img.ctx
    (img.comms.foldl (fun (s : State) p => s.restoreComm img.ctx p) s).checkOrigin img)

/-- Where the image of a RESUME lies (R386, R393). -/
def State.resumePlace (s : State) (c : Cmd) : Nat :=
  if (s.imageOf c.ctx).any (·.reserve) then firstReserve * 65536 else recNat c.slot 16 8

/-- The image that a RESUME reads. The numbers of another module's units are taken behind those in use here. -/
def State.imageFor (s : State) (c : Cmd) : Option Saved :=
  let place := s.resumePlace c
  readImage (if s.originAt place == s.ident.origin then 0 else s.nextUid) c.ctx (s.imageAt place)

/-- RESUME: the image is read, its units are placed and its queues return to their states, as an acquire at system scope (R390). What is no
image is refused as a limit of the slot (log 35). -/
def execResume (u : Nat) (s : State) : Host.Outcome State Fault Refusal :=
  match s.mgmtStart u 0x41 with
  | none => .next s
  | some c =>
    match s.imageFor c with
    | none => .next ({ s with cmds := s.cmds.filter (fun x => x.uid != u) }.updQ c.queue (fun q => q.error 3))
    | some img =>
      match s.restored img with
      | none => .next s
      | some s => .next (s.finishCmd c none)

/-! ### DESTROY (R409 to R414) -/

/-- The entries of a matrix queue that remain: those entered complete; the first that is held on a guard, and all after it, are
discarded (R410). -/
def mqLeft (g : Wg) : List QEntry → List QEntry
  | [] => []
  | e :: rest => if (e.guardGen.bind (fun b => g.genOf b)).isNone && e.guardGen.isSome then [] else e :: mqLeft g rest

/-- The driver has described a queue. -/
def Queue.described (q : Queue) : Bool := q.en || q.state != .disabled || q.len != 0

/-- Steps 1 to 5 of R410: the context's queues are DESTROYED; its threads are killed and its handler runs end; its queued engine
entries and its collectives that are not ready are dropped, as is everything that is pending or runs in the schedulers. -/
def State.destroyWork (s : State) (ctx : Nat) : State :=
  let s : State := { s with queues := s.queues.map (fun (q : Queue) => match q.ref with
      | .user _ => if q.ctx == ctx && q.described then { q with state := .destroyed } else q
      | .mgmt _ => q) }
  let s := s.setStatus ctx .destroying
  let s := (s.warps.filter (fun w => w.ctx == ctx)).foldl (fun s w =>
    ((s.endHandler w.loc).killThreads w.loc (-1)).updWarp w.loc (fun w => { w with records := [] })) s
  let s := { s with wgs := s.wgs.map (fun (g : Wg) =>
      if g.ctx == ctx then
        { g with queues := mqLeft g (g.queue .mq) :: List.replicate 4 [] ++ [(g.queue .xq).filter (fun (e : QEntry) => e.accepted)] }
      else g) }
  let s := { s with comms := s.comms.map (fun (c : Comm) =>
      if c.desc.ctx == ctx then { c with entries := c.entries.filter (·.ready), cancels := [] } else c) }
  { s with ended := s.ended.filter (fun e => e.ctx != ctx) }.dropWork ctx

/-- The entered matrix entries and the collectives of a context that R410 awaits have ended. -/
def State.destroyQuiet (s : State) (ctx : Nat) : Bool :=
  (s.wgs.filter (fun g => g.ctx == ctx)).all (fun g => (g.queue .mq).isEmpty)
    && s.comms.all (fun c => c.desc.ctx != ctx || c.entries.isEmpty)

/-- The frames of LOC 0 that a table maps, at its level and below, as runs of frames (R229). -/
def framesFrom (mem : List Host.Cell) (tbl : Nat) : List (Nat × Option Nat) → List (Nat × Nat)
  | [] => []
  | (sh, sz) :: rest =>
    (List.range 1024).flatMap (fun i =>
      let at_ := tbl + 8 * i
      let e := BitVec.ofNat 64 (natOfBytes (sparseRead mem at_ 8))
      if !frameExists (at_ / 65536) || !pteV e || decide (pteLoc e ≠ 0) then []
      else if pteSize e == 3 then framesFrom mem (pteFrame e * 8192) rest
      else if some (pteSize e) == sz && leafOk e then [(pteFrame e, 2 ^ (sh - 16))] else [])

/-- The frames that a context maps with LOC 0, by leaf entries and ranges (R411). -/
def State.mappedFrames (s : State) (c : Ctx) : List (Nat × Nat) :=
  framesFrom s.mem c.desc.ptRoot.toNat walkLevels ++ (List.range c.desc.rtCount).filterMap (fun i =>
    let r := s.bytesAt (c.desc.rtBase.toNat + 32 * i) 32
    let attr := recWord r 16 8
    if leafOk attr && pteLoc attr == 0 then some (pteFrame attr, (recNat r 8 8 - recNat r 0 8) / 65536) else none)

/-- The number of frames of a run that lie on a die. -/
def framesOn (d : Nat) (p : Nat × Nat) : Nat := ((List.range p.2).filter (fun i => dieOfLoc ((p.1 + i) * 65536) == d)).length

/-! ### The scrub (R411 to R414) -/

/-- Where a die keeps the record of its scrub: at the start of the bytes at the top of its GDDR7 that hold no frame (R414, R230). -/
def scrubAt (d : Nat) : Nat := 5859372 * 65536 + 32768 * d

/-- Where a die's firmware keeps the frame list of its scrub, in device memory that only the firmware reaches (log 39). -/
def frameListAt (d : Nat) : Nat := 2 ^ 59 + d * 2 ^ 40

/-- The record of a scrub: that it is present, the context, the PAGES bit, the frame list pointer and the list's length (log 39). -/
def State.writeScrub (s : State) (d ctx : Nat) (pages : Bool) (l : List (Nat × Nat)) : State :=
  (s.rawWrite (frameListAt d) (l.flatMap (fun p => bytesOfNat 8 p.1 ++ bytesOfNat 8 p.2))).rawWrite (scrubAt d)
    (bytesOfNat 8 (1 + ctx % 65536 * 2 ^ 16 + pages.toNat * 2 ^ 32) ++ bytesOfNat 8 (frameListAt d) ++ bytesOfNat 8 l.length)

/-- The record is cleared (R414). -/
def State.clearScrub (s : State) (d : Nat) : State := s.rawWrite (scrubAt d) (List.replicate 24 0)

/-- The context and the PAGES bit of the record of a die, when it is present. -/
def State.scrubRecord (s : State) (d : Nat) : Option (Nat × Bool) :=
  let w := recNat (s.bytesAt (scrubAt d) 8) 0 8
  if w.testBit 0 then some (w / 2 ^ 16 % 65536, w.testBit 32) else none

/-- The runs of frames of the list that the record of a die names. -/
def State.scrubFrames (s : State) (d : Nat) : List (Nat × Nat) :=
  let b := s.bytesAt (scrubAt d) 24
  (List.range (recNat b 16 8)).map (fun i =>
    let e := s.bytesAt (recNat b 8 8 + 16 * i) 16
    (recNat e 0 8, recNat e 8 8))

/-- Every die of a context's partition begins its scrub: its record is written, with the frames of the die that the context maps (R411, R414).
A saved context holds no slice, and its scrub begins with the caches (R409). -/
def State.beginScrub (s : State) (ctx : Nat) (pages saved : Bool) : State :=
  let ids := (s.wgs.filter (fun g => g.ctx == ctx)).flatMap Wg.sliceIds
  let fs := if pages then ((s.ctx? ctx).map (fun c => s.mappedFrames c)).getD [] else []
  let ds := s.diesOf ctx
  let s := s.evict ctx
  ds.foldl (fun s d => (s.writeScrub d ctx pages (fs.filter (fun p => framesOn d p != 0))).updDie d (fun x =>
    { x with active := true, phase := if saved then 3 else 1, ctx := ctx, done := 0, held := ids.filter (fun i => i.die == d) })) s

/-- 8 n bytes take values that the module does not define (R2). -/
def State.writeFree (s : State) (a n : Nat) : State :=
  let (b, s) := s.freeBytes n
  s.rawWrite a b

/-- A run's frames on a die are zeroed, and their poison cleared. What another context maps there has no defined value then, for the driver
has broken R411 (R2). -/
def State.zeroRun (s : State) (d ctx : Nat) (p : Nat × Nat) : State :=
  let hit := fun (a : Nat) => isLocal a && dieOfLoc a == d && decide (p.1 ≤ a / 65536 ∧ a / 65536 < p.1 + p.2)
  let s := { s with mem := s.mem.filter (fun c => !hit c.1), poison := s.poison.filter (fun b => !hit (b * 64)) }
  let shared := (List.range p.2).filter (fun i => dieOfLoc ((p.1 + i) * 65536) == d
    && s.ctxs.any (fun c => c.no != ctx && c.status != .destroyed
      && (s.mappedFrames c).any (fun q => decide (q.1 ≤ p.1 + i ∧ p.1 + i < q.1 + q.2))))
  shared.foldl (fun (s : State) i => s.writeFree ((p.1 + i) * 65536) 8192) s

/-- The rows of a slice and its handler rows are zero, without an error. -/
def State.zeroSlice (s : State) (i : SliceId) : State :=
  { s with
    slices := s.slices.map (fun (k : Slice) => if k.id == i then { id := k.id, lastServed := k.lastServed, lastIssued := k.lastIssued } else k),
    errors := s.errors.filter (fun e => !e.onSlice i) }

/-- The local and accumulator memory of a core hold no error; what the model keeps of them is a unit's, and a unit's are zero at its placement
(R57). -/
def State.zeroCore (s : State) (c : CoreId) : State := { s with errors := s.errors.filter (fun e => !e.onCore c) }

/-- The tiles, instruction-cache lines and translations that the caches of a die hold for the contexts of a set, without write-back. -/
def State.dropCaches (s : State) (d : Nat) (p : Nat → Bool) : State :=
  { s with
    l1 := s.l1.filter (fun l => !(l.core.die == d && p l.ctx)), l2 := s.l2.filter (fun l => !(l.die == d && p l.ctx)),
    icache := s.icache.filter (fun l => !(l.core.die == d && p l.ctx)), tlb := s.tlb.filter (fun t => !(t.core.die == d && p t.ctx)),
    tlb2 := s.tlb2.filter (fun t => !(t.core.die == d && p t.ctx)) }

/-- The rows of a slice: 128 program rows and 8 handler rows. -/
def sliceRows : Nat := 136

/-- The KiB of a core's local and accumulator memories. -/
def coreKib : Nat := 768

/-- The cores that a scrub holds. -/
def DieSt.heldCores (x : DieSt) : List CoreId := (x.held.map (fun i => (⟨i.die, i.core⟩ : CoreId))).eraseDups

/-- The run of a list at which a number of zeroed frames stands: the first that they do not cover. -/
def runAt (d : Nat) : List (Nat × Nat) → Nat → Option (Nat × Nat)
  | [], _ => none
  | p :: l, n => if n < framesOn d p then some p else runAt d l (n - framesOn d p)

/-- The next unit of a scrub's phase, with the units that DONE counts for it: a slice, a core, or a run of frames (R411, Table 25.2); none when
the phase has no further one. -/
def State.scrubUnit (s : State) (d : Nat) (x : DieSt) : Option (Nat × State) :=
  match x.phase with
  | 1 => (x.held[x.done / sliceRows]?).map (fun i => (sliceRows, s.zeroSlice i))
  | 2 => (x.heldCores[x.done / coreKib]?).map (fun c => (coreKib, s.zeroCore c))
  | 4 => (runAt d (s.scrubFrames d) x.done).map (fun p => (framesOn d p, s.zeroRun d x.ctx p))
  | _ => none

/-- The phase after a phase, with or without PAGES. -/
def nextPhase (p : Nat) (pages : Bool) : Nat := if p < 3 then p + 1 else if p = 3 && pages then 4 else 0

/-- A die's scrub engine is at work on a context's scrub: its PAGES bit. -/
def State.scrubbing (s : State) (d : Nat) : Option (DieSt × Bool) :=
  let x := s.die d
  if x.boot == .up && x.phase != 0 then (s.scrubRecord d).map (fun r => (x, r.2)) else none

/-- A phase of a die's scrub ends. The caches of the die drop what is tagged with the context at the end of phase 3; at phase 0 the record is
cleared and the die's cores are free (R411 to R414). -/
def State.endPhase (s : State) (d : Nat) (x : DieSt) (pages : Bool) : State :=
  let n := nextPhase x.phase pages
  let s := if x.phase = 3 then s.dropCaches d (· == x.ctx) else s
  if n = 0 then (s.clearScrub d).updDie d (fun y => { y with active := false, phase := 0, done := 0, held := [] })
  else s.updDie d (fun y => { y with phase := n, done := 0 })

/-- SCRUB_PHASE: a die's scrub zeroes the next unit of its phase, or ends the phase (R411 to R413). -/
def execScrubPhase (d : Nat) (s : State) : Host.Outcome State Fault Refusal :=
  match s.scrubbing d with
  | none => .next s
  | some (x, pages) =>
    .next (match s.scrubUnit d x with
      | some (n, s) => s.updDie d (fun y => { y with done := y.done + n })
      | none => s.endPhase d x pages)

/-- SCRUB_PROGRESS of a die, the word at management offset 0x3000 + 8d (Table 25.2). -/
def DieSt.scrubProgress (x : DieSt) : Word :=
  word (x.active.toNat * 2 ^ 63 + x.phase % 8 * 2 ^ 60 + x.ctx % 65536 * 2 ^ 32 + x.done % 2 ^ 32)

/-- The scrub of every die of a context's partition has reached phase 0. -/
def State.scrubbed (s : State) (ctx : Nat) : Bool := (s.diesOf ctx).all (fun d => (s.die d).phase == 0)

/-- The context is gone (R410). -/
def State.endContext (s : State) (ctx : Nat) : State :=
  { s with cells := s.cells.filter (fun c => c.ctx != ctx), rings := s.rings.filter (fun r => r.1.1 != ctx),
           images := s.images.filter (fun i => i.ctx != ctx) }.updCtx ctx (fun c =>
    { c with status := .destroyed, interval := none, settled := [], moved := false, chk := 0 })

/-- The PAGES bit of a DESTROY. -/
def Cmd.pages (c : Cmd) : Bool := (recNat c.slot 10 1).testBit 0

/-- The next step of a DESTROY that has started: its scrub begins, or it completes, with a host event (R410). -/
def State.destroyNext (s : State) (c : Cmd) : State :=
  if c.scrub then
    if s.scrubbed c.ctx then
      { s.endContext c.ctx with cmds := s.cmds.filter (fun x => x.uid != c.uid) }.post (.destroyed c.hdr.cookie c.ctx)
    else s
  else if s.destroyQuiet c.ctx && s.scrubbed c.ctx then
    (s.beginScrub c.ctx c.pages c.saved).updCmd c.uid (fun x => { x with scrub := true })
  else s

/-- DESTROY: the context's work ends and it is scrubbed; the command completes at the end of the scrub (R410, R411). -/
def execDestroy (u : Nat) (s : State) : Host.Outcome State Fault Refusal :=
  match s.mgmtStart u 0x42 with
  | some c =>
    let saved := s.isSaved c.ctx
    if (s.ctx? c.ctx).all (fun x => x.status == .destroyed) then
      .next ({ s with cmds := s.cmds.filter (fun x => x.uid != u) }.post (.destroyed c.hdr.cookie c.ctx))
    else
      .next ((s.destroyWork c.ctx).updCmd u (fun x => { x with started := true, saved := saved }))
  | none =>
    match s.mgmtRunning u 0x42 with
    | some c => .next (s.destroyNext c)
    | none => .next s

/-! ### PARTITION (R415, R416) -/

/-- The module holds no context that is neither destroyed nor scrubbed, and no scrub runs. -/
def State.partitionFree (s : State) : Bool := s.ctxs.all (fun c => c.status == .destroyed) && s.dies.all (fun d => d.phase == 0)

/-- PARTITION: once no context remains, the dies are divided into the partitions of the mode (Table 25.4). -/
def execPartition (u : Nat) (s : State) : Host.Outcome State Fault Refusal :=
  match s.mgmtStart u 0x43 with
  | none => .next s
  | some c =>
    if s.partitionFree then
      .next (({ s with mode := recNat c.slot 8 1 }.updQ c.queue (fun q => { q with rptr := q.rptr + 1 })).finishCmd c none)
    else .next s

/-- 10 ms in clk of the nominal clock. -/
def partitionLimit : Nat := 15000000

/-- PARTITION_WAIT_EXPIRY: a PARTITION that has waited 10 ms is refused with error 3 (R416). -/
def execPartitionWaitExpiry (u : Nat) (s : State) : Host.Outcome State Fault Refusal :=
  match s.mgmtStart u 0x43 with
  | none => .next s
  | some c =>
    if !s.partitionFree && decide (c.since + partitionLimit ≤ s.clk) then
      .next ({ s with cmds := s.cmds.filter (fun x => x.uid != u) }.updQ c.queue (fun q => q.error 3))
    else .next s

end Sys2Proof.Machine
end

