-- ==== Sys2Proof/Machine/Manage.lean ====
section
/-!
DEFINITION. The management of the module: shootdowns and migration (11 R235, R239 to R241), the dailies (11 R236 to R238), the
debugger's comparators (22 R382), the schedulers' heartbeats and adoption (03 R43, R44), the monitors (25 R423), ATS, TDISP, boot and
attestation (25 R414, R417 to R422), the firmware's requests and the host's accesses.
-/
namespace Sys2Proof.Machine
open Sys2Proof

/-! ### Shootdowns (R235) -/

/-- A shootdown is requested for pages of a context. -/
def State.askShootdown (s : State) (ctx first pages : Nat) (mig : Option Nat) : State :=
  let (id, s) := s.fresh
  { s with shootdowns := s.shootdowns ++ [{ id := id, ctx := ctx, first := first, pages := pages, mig := mig }] }

/-- SHOOTDOWN: no core uses a changed entry's old contents any longer (R235). -/
def execShootdown (id : Nat) (s : State) : Host.Outcome State Fault Refusal :=
  match s.shootdowns.find? (fun x => x.id == id) with
  | none => .next s
  | some x =>
    let hit := fun (t : TlbEntry) => t.ctx == x.ctx && decide (t.page < x.first + x.pages) && decide (x.first ≤ t.page)
    .next ({ s with shootdowns := s.shootdowns.filter (fun y => y.id != id) }.dropTlb hit)

/-! ### Migration (R239 to R241) -/

/-- The leaf entry of a page of 64 KiB on this module, with its place: no range covers the page, and its frame is local. -/
def State.pageEntry (s : State) (ctx : Nat) (va : Word) : Option (Word × Nat) :=
  (s.ctx? ctx).bind (fun c =>
    if va.toNat < 2 ^ 56 && (rangeFor s.mem c.desc.rtBase.toNat va.toNat (List.range c.desc.rtCount)).isNone then
      match walkFrom s.mem va.toNat c.desc.ptRoot.toNat walkLevels with
      | some (e, at_, 1) => if pteLoc e = 0 && framesNamed (pteFrame e) 1 then some (e, at_) else none
      | _ => none
    else none)

/-- Write a leaf entry. -/
def State.writeEntry (s : State) (at_ : Nat) (e : Word) : State := s.homeWrite noCtx at_ (bytesOfWord 8 e)

/-- A migration. -/
def State.migration? (s : State) (id : Nat) : Option Migration := s.migrations.find? (fun m => m.id == id)

/-- No shootdown of a migration is outstanding. -/
def State.shotDown (s : State) (id : Nat) : Bool := !s.shootdowns.any (fun x => x.mig == some id)

/-- MIGRATION_START: the home agent sets MIG in the leaf entry, and a shootdown follows (R239 step 1). -/
def execMigrationStart (ctx : Nat) (va : Word) (frame : Nat) (s : State) : Host.Outcome State Fault Refusal :=
  match s.pageEntry ctx va with
  | none => .next s
  | some (e, at_) =>
    if pteMig e || !framesNamed frame 1 || frame = pteFrame e || s.migrations.any (fun m => m.entryAt == at_ || m.old == pteFrame e || m.new == frame)
    then .next s
    else
      let (id, s) := s.fresh
      let s := s.writeEntry at_ (e ||| (0x2000 : Word))
      let m : Migration := { id := id, ctx := ctx, va := va, entryAt := at_, old := pteFrame e, new := frame, dirty := -1, phase := .marked,
                             stalled := [] }
      let s := { s with migrations := s.migrations ++ [m] }
      .next (s.askShootdown ctx (va.toNat / 65536) 1 (some id))

/-- Copy the dirty blocks of a page to its new frame, each with its poison, and clear their bits (R239, R241). Each tile is one access at its
old and one at its new controller (R236). -/
def State.copyBlocks (s : State) (m : Migration) : State :=
  let s := ((List.range 16).filter (fun i => bitAt m.dirty i)).foldl (fun s i =>
    let a := m.old * 65536 + 4096 * i
    let b := m.new * 65536 + 4096 * i
    let bad := ((List.range 64).filter (fun j => s.poison.contains (a / 64 + j))).map (fun j => b / 64 + j)
    let s := (s.countTiles a 4096).countTiles b 4096
    ({ s with poison := s.poison.filter (fun x => !(decide (b / 64 ≤ x) && decide (x < b / 64 + 64))) }.rawWrite b
      (s.bytesAt a 4096)).poisonBlocks bad) s
  { s with migrations := s.migrations.map (fun (x : Migration) => if x.id == m.id then { x with dirty := 0 } else x) }

/-- MIGRATION_COPY_PASS (R239 step 2). -/
def execMigrationCopyPass (id : Nat) (s : State) : Host.Outcome State Fault Refusal :=
  match s.migration? id with
  | none => .next s
  | some m =>
    if m.phase == .switching || !s.shotDown id then .next s
    else
      let s := s.copyBlocks m
      .next { s with migrations := s.migrations.map (fun (x : Migration) => if x.id == id then { x with phase := .copying } else x) }

/-- MIGRATION_FINAL_PASS: writes to the page are stalled, the blocks still dirty are copied, the entry names the new frame with MIG
clear, and a shootdown is requested (R239 step 3, R240). -/
def execMigrationFinalPass (id : Nat) (s : State) : Host.Outcome State Fault Refusal :=
  match s.migration? id with
  | none => .next s
  | some m =>
    if m.phase != .copying || !s.shotDown id then .next s
    else
      let s := s.copyBlocks m
      let s := { s with migrations := s.migrations.map (fun (x : Migration) => if x.id == id then { x with phase := .switching } else x) }
      let e := wordOfBytes (s.bytesAt m.entryAt 8)
      let s := s.writeEntry m.entryAt ((e &&& ~~~(0xFFFFFFFF00002000 : Word)) ||| word (m.new * 2 ^ 32))
      .next (s.askShootdown m.ctx (m.va.toNat / 65536) 1 (some id))

/-- The lines that the caches hold of a page's old frame are lines of its new frame: their bytes are those of the page, whose accesses find the
new frame from now on (R241, R249). -/
def State.moveLines (s : State) (m : Migration) : State :=
  let moved := fun (t : Nat) => if t / 256 = m.old then m.new * 256 + t % 256 else t
  { s with l1 := s.l1.map (fun l => { l with tile := moved l.tile }), l2 := s.l2.map (fun l => { l with tile := moved l.tile }) }

/-- MIGRATION_RELEASE: the stalled writes land in the new frame in the order of their arrival; later accesses find it, those by an export
of the page too, and no TLB keeps the old one (R239 step 4). -/
def execMigrationRelease (id : Nat) (s : State) : Host.Outcome State Fault Refusal :=
  match s.migration? id with
  | none => .next s
  | some m =>
    if m.phase != .switching || !s.shotDown id then .next s
    else
      let s := { s with migrations := s.migrations.filter (fun x => x.id != id),
                        exports := s.exports.map (fun (p : BitVec 22 × ExportEntry) =>
                          if p.2.frame.toNat == m.old then (p.1, { p.2 with frame := BitVec.ofNat 26 m.new }) else p) }
      let s := m.stalled.foldl (fun s x => s.arriveWrite x.1 (m.new * 65536 + x.2.1 % 65536) x.2.2) s
      .next (((s.moveLines m).dropTlb (fun t => t.ctx == m.ctx && t.page == m.va.toNat / 65536)).wakeStalled)

/-! ### The dailies (R236 to R238) -/

/-- DLYCTL: a write of a controller's register; EN = 1 clears the counters and starts the first interval (Table 11.7). -/
def execDlyctl (c : Nat) (v : Word) (s : State) : Host.Outcome State Fault Refusal :=
  if 72 ≤ c then .next s
  else
    let d := s.dailiesOf c
    let ivl := min 10 (fieldNat v 1 4)
    let d := { d with buf := field v 9 55, ivl := BitVec.ofNat 4 ivl, en := bitAt v 0 }
    .next (s.setDailies (if d.en then { d with counts := [], frames := [], start := s.clk, seq := 0 } else d))

/-- The estimate of a frame: the least of its four counters (R236). -/
def Dailies.estimate (d : Dailies) (f : Nat) : Nat :=
  (List.range 4).foldl (fun m r => min m ((lookupKey d.counts (r, Config.sketchHash r f % 4096)).getD 0)) 65535

/-- The hottest frames of an interval with their estimates. -/
def Dailies.hottest (d : Dailies) : List (Nat × Nat) :=
  let l := d.frames.map (fun f => (f, d.estimate f))
  (sortBy (fun a b => decide (b.2 < a.2) || (a.2 == b.2 && decide (a.1 ≤ b.1))) l).take 32

/-- The end of an interval of a controller is due. -/
def State.dailiesDue (s : State) (c : Nat) : Bool :=
  let d := s.dailiesOf c
  d.en && decide (d.start + 2 ^ (20 + d.ivl.toNat) ≤ s.clk)

/-- DAILIES_INTERVAL_END: the entries, then the header, are written as a release at system scope, and the counters are cleared
(R238). -/
def execDailiesIntervalEnd (c : Nat) (s : State) : Host.Outcome State Fault Refusal :=
  if !s.dailiesDue c then .next s
  else
    let d := s.dailiesOf c
    let l := d.hottest
    let base := d.buf.toNat * 512
    let seq := d.seq + 1
    let s := (List.zip (List.range l.length) l).foldl (fun s p =>
      s.homeWrite noCtx (base + 64 + 8 * p.1) (bytesOfNat 8 (p.2.1 % 2 ^ 32 + p.2.2 * 2 ^ 32))) s
    let s := s.homeWrite noCtx base (bytesOfNat 8 (seq % 2 ^ 32 + c * 2 ^ 32 + l.length * 2 ^ 40))
    .next (s.setDailies { d with counts := [], frames := [], start := d.start + 2 ^ (20 + d.ivl.toNat), seq := seq })

/-! ### The comparators (R382) -/

/-- Change comparator k of a core. -/
def State.updCmp (s : State) (c : CoreId) (k : Nat) (g : Comparator → Comparator) : State :=
  if c.die < 6 && c.core < 48 && k < 8 then s.updCore c (fun x => { x with cmps := tweakNth {} x.cmps k g }) else s

/-- BPADDR (Table 22.11). -/
def execBpaddr (c : CoreId) (k : Nat) (v : Word) (s : State) : Host.Outcome State Fault Refusal :=
  .next (s.updCmp c k (fun x => { x with en := bitAt v 63, addr := field v 0 56 }))

/-- BPMASK (Table 22.12). -/
def execBpmask (c : CoreId) (k : Nat) (v : Word) (s : State) : Host.Outcome State Fault Refusal :=
  .next (s.updCmp c k (fun x => { x with ctx := field v 32 16, mask := field v 0 32 }))

/-! ### The schedulers (R43, R44) -/

/-- The scheduler core of a die runs. -/
def State.schedulerLive (s : State) (d : Nat) : Bool :=
  let x := s.die d
  x.boot == .up && !x.dead && !x.fenced

/-- 100 µs in clk of the nominal clock. -/
def schedBeatPeriod : Nat := 150000

/-- A heartbeat of a die is due. -/
def State.schedBeatDue (s : State) (d : Nat) : Bool := s.schedulerLive d && decide ((s.die d).beat + schedBeatPeriod ≤ s.clk)

/-- SCHED_HEARTBEAT: the three linked dies hear the die's scheduler (R43). -/
def execSchedHeartbeat (d : Nat) (s : State) : Host.Outcome State Fault Refusal :=
  if s.schedBeatDue d then .next (s.updDie d (fun x => { x with beat := s.clk })) else .next s

/-- The watchers of a die in order: the lower-numbered ring neighbour, the other one, the opposite die (R43). -/
def watchers (d : Nat) : List Nat :=
  let a := (d + 5) % 6
  let b := (d + 1) % 6
  [min a b, max a b, (d + 3) % 6]

/-- The dies of the partition of a die. -/
def State.partitionOf (s : State) (d : Nat) : List Nat :=
  ((List.range 6).map (fun p => partDies s.mode p)).foldl (fun acc ds => if ds.contains d then ds else acc) []

/-- Who adopts a silent die now: the first live watcher of its partition, each later one after a further 300 µs (R43, R416). The answer
`some none` is that there is none. -/
def State.adoptionDue (s : State) (d : Nat) : Option (Option Nat) :=
  let x := s.die d
  let ws := (watchers d).filter (fun w => (s.partitionOf d).contains w)
  if x.boot != .up || x.fenced || x.adopter.isSome || x.told then none
  else
    let live := (List.zip (List.range ws.length) ws).find? (fun p => s.schedulerLive p.2)
    match live with
    | some (i, w) => if x.beat + 3 * schedBeatPeriod * (i + 1) ≤ s.clk then some (some w) else none
    | none => if x.beat + 3 * schedBeatPeriod ≤ s.clk then some none else none

/-- The adopter asks every die's placement unit which units it has accepted, and distributes the others of the batches that the silent die's
scheduler had dealt (R44, R58). -/
def State.redistribute (s : State) (d : Nat) : State :=
  let home := fun (b : Batch) => (s.bundle? b.bundle).any (fun x => s.homeOf (s.q x.queue) == d)
  { s with batches := (s.batches.map (fun (b : Batch) =>
      if home b then { b with units := b.units.filter (fun p => !s.dies.any (fun x => x.hasAccepted p.uid)) } else b)).filter (fun b => !b.units.isEmpty) }

/-- SCHEDULER_ADOPTION: the adopter fences the die's scheduler core, serves its queues and goes on with its distribution, with a host event;
without a live watcher the host is told (R43, R44). -/
def execSchedulerAdoption (d : Nat) (s : State) : Host.Outcome State Fault Refusal :=
  match s.adoptionDue d with
  | none => .next s
  | some (some w) => .next (((s.updDie d (fun x => { x with fenced := true, adopter := some w })).redistribute d).post (.adopted d w))
  | some none => .next ((s.updDie d (fun x => { x with told := true })).post (.noAdopter d))

/-! ### Monitors (R423) -/

/-- A monitor. -/
def State.monitor (s : State) (d k : Nat) : Monitor := (s.monitors.find? (fun m => m.die == d && m.k == k)).getD { die := d, k := k }

/-- Store a monitor. -/
def State.setMonitor (s : State) (m : Monitor) : State :=
  { s with monitors := s.monitors.filter (fun x => !(x.die == m.die && x.k == m.k)) ++ [m] }

/-- The monitors of a die: 32 temperature sensors, 16 droop monitors, 8 process monitors. -/
def monitorExists (d k : Nat) : Bool := decide (d < 6 ∧ k < 56)

/-- MONITOR_CLEAR: PEAK and EVENTS are cleared (R423). -/
def execMonitorClear (d k : Nat) (s : State) : Host.Outcome State Fault Refusal :=
  if monitorExists d k then .next (s.setMonitor { s.monitor d k with events := 0, peak := 0 }) else .next s

/-- A temperature in 1/16 °C lies above a bound in °C. -/
def hotter (v : BitVec 16) (c : Int) : Bool := decide (16 * c < v.toInt)

/-- A monitor reads a value: VALUE, and PEAK when it is the highest since the last clear; temperatures are signed (Table 25.6). -/
def Monitor.reads (m : Monitor) (v : BitVec 16) : Monitor :=
  let above := if m.k < 32 then decide (m.peak.toInt < v.toInt) else decide (m.peak.toNat < v.toNat)
  { m with value := v, peak := if above then v else m.peak }

/-- A droop monitor reads a voltage in mV below 92 % of the set voltage. -/
def droops (v : BitVec 16) (set : Nat) : Bool := decide (v.toNat * 100 < 92 * set)

/-- THERMAL_STEP: a monitor reads a value. Above 100 °C the die's clock is stepped down, and the sensor counts the step; a droop monitor counts
an excursion of the voltage (R423). -/
def execThermalStep (d k : Nat) (v : BitVec 16) (s : State) : Host.Outcome State Fault Refusal :=
  if !monitorExists d k then .next s
  else
    let m := (s.monitor d k).reads v
    if k < 32 && hotter v 100 then
      .next ((s.setMonitor { m with events := m.events + 1 }).updDie d (fun x => { x with clkSteps := x.clkSteps + 1 }))
    else if decide (32 ≤ k ∧ k < 48) && droops v (s.die d).volts then .next (s.setMonitor { m with events := m.events + 1 })
    else .next (s.setMonitor m)

/-- The module after a power-down, as after a reset: what fuses and flash hold, and what the host has been told, remain; the indices that
were reserved and not used are discarded (R421, R423). DRAM is lost. -/
def State.powerCycle (s : State) : State :=
  { State.reset with
    clk := s.clk, free := s.free, nextUid := s.nextUid, ident := s.ident, hostEvents := s.hostEvents,
    spdm := { s.spdm with next := s.spdm.limit },
    dies := State.reset.dies.map (fun (d : DieSt) => { d with fw := (s.die d.no).fw, resetAt := s.clk }) }

/-- The module after a reset that keeps its power: DRAM keeps its bytes and its poison, among them the records of the scrubs (R414). -/
def State.moduleReset (s : State) : State := { s.powerCycle with mem := s.mem, poison := s.poison }

/-- THERMAL_SHUTDOWN: above 115 °C the host is sent an event and the module is powered down, as a reset (R423). -/
def execThermalShutdown (d k : Nat) (v : BitVec 16) (s : State) : Host.Outcome State Fault Refusal :=
  if decide (d < 6 ∧ k < 32) && hotter v 115 then .next (s.post (.thermal d)).powerCycle else .next s

/-! ### Registers without a behaviour of their own (R4, R21, R28) -/

/-- REGISTER_WRITE: RING of a management queue takes its value, without its reserved bits; a read-only register, a reserved offset and an
offset that no register has ignore the write. -/
def execRegisterWrite (addr : Nat) (v : Word) (s : State) : Host.Outcome State Fault Refusal :=
  match (List.range 6).find? (fun p => addr == 0x1000 + 0x40 * p && s.queueExists (.mgmt p)) with
  | some p => .next (s.setQ { s.q (.mgmt p) with ring := v &&& ~~~(0xFF : Word) })
  | none => .next s

/-! ### ATS (R417) -/

/-- The reads in flight of a warp and of its handler run. -/
def State.readsOf (s : State) (w : Warp) : List Nat :=
  ((w.inflight ++ ((s.hrun? w.loc).map (·.inflight)).getD []).filter (fun f => f.load && !f.writes.isEmpty)).map (·.id)

/-- The reads in flight that may have used a translation of a range: those of the contexts whose functions hold one (R417). -/
def State.readsUsing (s : State) (x : AtsInv) : List Nat :=
  (s.warps.filter (fun w => (s.ctx? w.ctx).any (fun c => s.atc.any (fun k => k.1 == fnOf c.desc && x.covers k.2)))).flatMap s.readsOf

/-- A read is in flight. -/
def State.readFlies (s : State) (id : Nat) : Bool := s.warps.any (fun w => (s.readsOf w).contains id)

/-- ATS_INVALIDATION: the invalidation is received, and the translations of its range are dropped; it completes once every read that may have
used one has returned, and writes and atomics are made at once (R417). -/
def execAtsInvalidation (id first pages : Nat) (s : State) : Host.Outcome State Fault Refusal :=
  match s.ats.find? (fun x => x.id == id) with
  | some x =>
    if x.waits.any s.readFlies then .next s else .next ({ s with ats := s.ats.filter (fun x => x.id != id) }.post (.atsDone id))
  | none =>
    let x : AtsInv := { id := id, first := first, pages := pages }
    .next { s with ats := s.ats ++ [{ x with waits := s.readsUsing x }], atc := s.atc.filter (fun k => !x.covers k.2) }

/-! ### TDISP (R418) -/

/-- The TDISP interface of a function. -/
def State.interface (s : State) (fn : Nat) : Tdisp := (s.tdisp.find? (fun x => x.fn == fn)).getD { fn := fn }

/-- Store an interface. -/
def State.setInterface (s : State) (x : Tdisp) : State :=
  { s with tdisp := s.tdisp.filter (fun y => y.fn != x.fn) ++ [x] }

/-- LOCK_INTERFACE: the first requester locks the interface; another receives a TDISP error response, and no state changes (R418). -/
def execLockInterface (fn requester : Nat) (s : State) : Host.Outcome State Fault Refusal :=
  let x := s.interface fn
  if x.st == .unlocked then .next (s.setInterface { x with st := .locked, by_ := some requester }) else .next (s.post (.tdispRefused fn requester))

/-- STOP_INTERFACE: the interface returns to CONFIG_UNLOCKED (R418). -/
def execStopInterface (fn : Nat) (s : State) : Host.Outcome State Fault Refusal :=
  .next (s.setInterface { s.interface fn with st := .unlocked, by_ := none })

/-- The slot of the DESTROY, without PAGES, that an interface in ERROR causes for a context (R418). -/
def destroySlot (ctx : Nat) : List Byte := bytesOfNat 8 0x42 ++ bytesOfNat 2 ctx ++ List.replicate 246 0

/-- A context is destroyed under R410 without the host's command. -/
def State.forceDestroy (s : State) (c : Ctx) : State :=
  if c.status == .destroyed || c.status == .destroying then s
  else
    let (u, s) := s.fresh
    let b := destroySlot c.no
    let k : Cmd := { uid := u, queue := .mgmt c.desc.ownerPart, ctx := c.no, seq := 0, hdr := hdrOf b, slot := b, since := s.clk }
    { s with cmds := s.cmds ++ [k] }

/-- TDISP_ERROR: an untrusted write moves a locked or running interface to ERROR, and its contexts are destroyed (R418). -/
def execTdispError (fn : Nat) (s : State) : Host.Outcome State Fault Refusal :=
  let x := s.interface fn
  if x.st == .locked || x.st == .run then
    .next ((s.ctxs.filter (fun c => fnOf c.desc == fn)).foldl (fun s c => s.forceDestroy c)
      ((s.setInterface { x with st := .error }).post (.tdispError fn)))
  else .next s

/-- START_INTERFACE_REQUEST of TDISP (log 20). -/
def startInterface : BitVec 8 := 0x86

/-- TDISP_MESSAGE: START_INTERFACE moves a locked interface to RUN; no other message changes a state (R418). -/
def execTdispMessage (fn : Nat) (code : BitVec 8) (s : State) : Host.Outcome State Fault Refusal :=
  let x := s.interface fn
  if code == startInterface && x.st == .locked then .next (s.setInterface { x with st := .run }) else .next s

/-! ### Boot (R414, R420, R422) -/

/-- The firmware image verifies: its signature, under a key that hashes to the fused value, and its version against the fused anti-rollback count
(R420). -/
def Firmware.passes (f : Firmware) : Bool := f.signed && f.keyHash == f.fuseHash && decide (f.rollback ≤ f.version)

/-- RESET: a die that waits for its boot verifies its firmware; its other cores are released, its memory is trained and its reset scrub
starts, or the die stays absent (R420, R422). On a die that does not wait for it, it is a reset of the module, which keeps its power (R414). -/
def execReset (d : Nat) (s : State) : Host.Outcome State Fault Refusal :=
  if 6 ≤ d then .next s
  else if (s.die d).boot == .held then
    if (s.die d).fw.passes then .next (s.updDie d (fun x => { x with boot := .scrub, active := true, phase := 1, ctx := 0xFFFF, done := 0 }))
    else .next (s.updDie d (fun x => { x with boot := .absent }))
  else .next s.moduleReset

/-- The slices of a core. -/
def slicesOfCore (c : CoreId) : List SliceId := (List.range 32).map (fun k => ⟨c.die, c.core, k⟩)

/-- The next unit of a phase of a die's reset scrub, with the units that DONE counts for it: all the slices of a core, or its memories (R414). -/
def State.resetUnit (s : State) (d : Nat) (x : DieSt) : Option (Nat × State) :=
  match x.phase with
  | 1 => ((coresOf d)[x.done / (32 * sliceRows)]?).map (fun c => (32 * sliceRows, (slicesOfCore c).foldl (fun s i => s.zeroSlice i) s))
  | 2 => ((coresOf d)[x.done / coreKib]?).map (fun c => (coreKib, s.zeroCore c))
  | _ => none

/-- 50 µs in clk of the nominal clock. -/
def portPeriod : Nat := 75000

/-- A die is up after its reset scrub, and its ports begin to come up (R422). A scrub that its record names starts again from phase 1, and holds
every slice of the die (R414). -/
def State.dieUp (s : State) (d : Nat) : State :=
  let r := s.scrubRecord d
  s.updDie d (fun x =>
    let x := { x with boot := .up, beat := s.clk, done := 0, ports := 0, rising := some (s.clk + portPeriod) }
    match r with
    | some (ctx, _) => { x with active := true, phase := 1, ctx := ctx, held := (coresOf d).flatMap slicesOfCore }
    | none => { x with active := false, phase := 0 })

/-- RESET_SCRUB: a die's reset scrub zeroes the next unit of its phase, or ends the phase; after the last, at which its caches are empty, the die
is up (R414, R422). -/
def execResetScrub (d : Nat) (s : State) : Host.Outcome State Fault Refusal :=
  let x := s.die d
  if x.boot != .scrub then .next s
  else
    .next (match s.resetUnit d x with
      | some (n, s) => s.updDie d (fun y => { y with done := y.done + n })
      | none =>
        if x.phase < 3 then s.updDie d (fun x => { x with phase := x.phase + 1, done := 0 })
        else (s.dropCaches d (fun _ => true)).dieUp d)

/-- A Dwevex port comes up. -/
def State.portUp (s : State) (p : Nat) : State :=
  { s with links := s.links.filter (fun k => k.port != p) ++ [{ port := p, up := true }] }

/-- The next port of a die comes up when it is time: a Dwevex port every 50 µs, in ascending number; after the eighth, the Ethernet port, and the
PCI Express port on dies 0 and 3 (R422, Table 2.3). -/
def State.raisePort (s : State) (d : Nat) : State :=
  let x := s.die d
  if !x.rising.any (fun t => decide (t ≤ s.clk)) then s
  else if x.ports < 8 then
    (s.portUp (8 * d + x.ports)).updDie d (fun x => { x with ports := x.ports + 1, rising := some (s.clk + portPeriod) })
  else s.updDie d (fun x => { x with rising := none, eth := true, pcie := d == 0 || d == 3 })

/-! ### Attestation (R421) -/

/-- The one-time indices of a tree of height 20. -/
def spdmIndices : Nat := 2 ^ 20

/-- SPDM_SIGN: a signature over the measurements of every die's firmware image and fuses uses the next index; 64 more are reserved, and the
reservation written, before the first use; when none is left the request is refused (R421). -/
def execSpdmSign (s : State) : Host.Outcome State Fault Refusal :=
  let x := s.spdm
  if spdmIndices ≤ x.next then .next (s.post .spdmRefused)
  else
    let limit := if x.next < x.limit then x.limit else x.next + 64
    .next { s with spdm := { next := x.next + 1, limit := limit, signed := x.signed ++ [{ index := x.next, measures := s.dies.map (·.fw) }] } }

/-! ### The host's accesses and requests (R23, R225, R341, R357, R383, R402) -/

/-- A location that holds storage. -/
def hasStorage (a : Nat) : Bool := !isLocal a || frameExists (a / 65536)

/-- HOST_MEMORY_ACCESS: a write lands at its home agents; a read is served there (R23). -/
def execHostMemoryAccess (addr : Nat) (write : Option (List Byte)) (len : Nat) (s : State) : Host.Outcome State Fault Refusal :=
  match write with
  | some b =>
    .next ((pieces addr b.length).foldl (fun (acc : State × List Byte) p =>
      (if hasStorage p.1 then acc.1.homeWrite noCtx p.1 (acc.2.take p.2) else acc.1, acc.2.drop p.2)) (s, b)).1
  | none => .next ((touchedTiles addr len).foldl (fun s t => s.countTile (t * 256)) s)

/-- The state of a communicator whose entry is enabled for the first time: its sequencer starts at generation 1 with slate 0, and the member has
seen no generation (R360, Table 20.1). -/
def newComm (n : Nat) (d : CommDesc) (me clk : Nat) : Comm :=
  { no := n, desc := d, began := d.en, server := d.primary, seq := { serving := d.en && d.primary == me, lastBeat := clk } }

/-- A communicator entry is written again: what the member and the sequencer hold stays. A sequencer that the host names anew is the one to
which the member sends (R350). -/
def Comm.rewrite (c : Comm) (d : CommDesc) (me : Nat) : Comm :=
  if d.primary == c.desc.primary then { c with desc := d }
  else { c with desc := d, server := d.primary, seq := { c.seq with serving := d.primary == me } }

/-- A serving sequencer replicates every assignment that it holds to a backup that the host has newly named (R350). -/
def State.fillBackup (s : State) (n : Nat) (old : Option Nat) : State :=
  match s.comm? n with
  | none => s
  | some c =>
    if c.seq.serving && c.desc.backup != old then c.seq.assigns.foldl (fun s a => s.replicate n a.slate []) s else s

/-- Write a communicator entry (R341, R350, R354, R360). -/
def State.writeCommunicator (s : State) (n : Nat) (d : CommDesc) : State :=
  let me := s.ident.moduleNum
  if 4096 ≤ n then s
  else match s.comm? n with
    | some c =>
      if c.began || !d.en then (s.updComm n (fun c => c.rewrite d me)).fillBackup n c.desc.backup
      else { s with comms := s.comms.filter (fun c => c.no != n) ++ [newComm n d me s.clk] }
    | none => { s with comms := s.comms ++ [newComm n d me s.clk] }

/-- Write a context descriptor for the driver of a function, to which the context must belong, the one that is there as well (R225). A context
that has been destroyed begins anew. -/
def State.writeContext (s : State) (fn n : Nat) (d : CtxDesc) : State :=
  if 4096 ≤ n || fnOf d != fn then s
  else match s.ctx? n with
    | some c =>
      if c.status == .destroyed then s.updCtx n (fun _ => { no := n, desc := d })
      else if fnOf c.desc == fn then s.updCtx n (fun c => { c with desc := d })
      else s
    | none => { s with ctxs := s.ctxs ++ [{ no := n, desc := d }] }

/-- The firmware's code-invalidation request acts as ICINV.all on every core of the context (R383). -/
def State.invalidateCode (s : State) (ctx : Nat) : State :=
  let s := (s.l1.filter (fun l => l.ctx == ctx && !l.dirty.isEmpty)).foldl (fun s l => s.cleanLine l) s
  { s with icache := s.icache.filter (fun l => l.ctx != ctx) }

/-- MANAGEMENT_FIRMWARE_REQUEST. -/
def execManagementFirmwareRequest (r : FwRequest) (s : State) : Host.Outcome State Fault Refusal :=
  .next (match r with
    | .writeContext fn n d => s.writeContext fn n d
    | .enableAts fn on => { s with atsOn := if on then s.atsOn.filter (· != fn) ++ [fn] else s.atsOn.filter (· != fn),
                                   atc := if on then s.atc else s.atc.filter (fun k => k.1 != fn) }
    | .writeCommunicator n d => s.writeCommunicator n d
    | .writeExport e x => { s with exports := setKey s.exports e x }
    | .remoteExport m e x =>
      let k := (m, e.toNat)
      if x.v then { s with remote := setKey s.remote k (x.w, x.part) } else { s with remote := dropKey s.remote k }
    | .reuseQueue q => s.updQ (.user q) (fun x => if x.state == .destroyed then { x with state := .disabled, en := false } else x)
    | .requestShootdown ctx va len => s.askShootdown ctx (va.toNat / 65536) (ceilDiv (va.toNat % 65536 + len.toNat) 65536) none
    | .invalidateCode ctx => if s.l1.any (fun l => l.ctx == ctx && !l.dirty.isEmpty && s.stalls (l.tile * 256)) then s else s.invalidateCode ctx
    | .readChk ctx => match s.ctx? ctx with
      | some c => s.post (.chk ctx c.chk)
      | none => s)

/-- UNCORRECTABLE_ERROR: the 64-byte block of a location of memory is poisoned; an error in a row, or in local or accumulator memory, stays there
until it is read or the place is written whole (R401). -/
def execUncorrectableError (e : ErrPlace) (s : State) : Host.Outcome State Fault Refusal :=
  match e with
  | .memory a => if isLocal a && frameExists (a / 65536) then .next (s.poisonBlocks [a / 64]) else .next s
  | _ => .next (if s.errors.contains e then s else { s with errors := s.errors ++ [e] })

end Sys2Proof.Machine
end

