-- ==== Sys2Proof/Machine/Dispatch.lean ====
section
/-!
DEFINITION. `exec`: one arm for each constructor of `Instr`, each a direct call of its meaning.
-/
namespace Sys2Proof.Machine
open Sys2Proof

/-- The meaning of an operation or event. -/
def exec (i : Instr) (s : State) : Host.Outcome State Fault Refusal :=
  match i with
  | .hdr f => Sys2Proof.Machine.execHdr f s
  | .clauseStart r => Sys2Proof.Machine.execClauseStart r s
  | .fairnessYield w => Sys2Proof.Machine.execFairnessYield w s
  | .instructionFetch r => Sys2Proof.Machine.execInstructionFetch r s
  | .ext f => Sys2Proof.Machine.execExt f s
  | .nop f => Sys2Proof.Machine.execNop f s
  | .bra f => Sys2Proof.Machine.execBra f s
  | .brm f => Sys2Proof.Machine.execBrm f s
  | .call f => Sys2Proof.Machine.execCall f s
  | .ret f => Sys2Proof.Machine.execRet f s
  | .jmpi f => Sys2Proof.Machine.execJmpi f s
  | .exit f => Sys2Proof.Machine.execExit f s
  | .exitProceed w pc => Sys2Proof.Machine.execExitProceed w pc s
  | .warpRetire w => Sys2Proof.Machine.execWarpRetire w s
  | .yield f => Sys2Proof.Machine.execYield f s
  | .wsync f => Sys2Proof.Machine.execWsync f s
  | .wsyncComplete w pc => Sys2Proof.Machine.execWsyncComplete w pc s
  | .elect f => Sys2Proof.Machine.execElect f s
  | .vote f => Sys2Proof.Machine.execVote f s
  | .icmp f => Sys2Proof.Machine.execIcmp f s
  | .plop f => Sys2Proof.Machine.execPlop f s
  | .p2s f => Sys2Proof.Machine.execP2s f s
  | .s2p f => Sys2Proof.Machine.execS2p f s
  | .brk f => Sys2Proof.Machine.execBrk f s
  | .trap f => Sys2Proof.Machine.execTrap f s
  | .move f => Sys2Proof.Machine.execMove f s
  | .mapEditWaitEnd w pc => Sys2Proof.Machine.execMapEditWaitEnd w pc s
  | .cpy f => Sys2Proof.Machine.execCpy f s
  | .give f => Sys2Proof.Machine.execGive f s
  | .take f => Sys2Proof.Machine.execTake f s
  | .mailboxWaitServed w pc => Sys2Proof.Machine.execMailboxWaitServed w pc s
  | .aliasName f => Sys2Proof.Machine.execAliasName f s
  | .unmap f => Sys2Proof.Machine.execUnmap f s
  | .perm f => Sys2Proof.Machine.execPerm f s
  | .swapn f => Sys2Proof.Machine.execSwapn f s
  | .mapq f => Sys2Proof.Machine.execMapq f s
  | .mbxq f => Sys2Proof.Machine.execMbxq f s
  | .allocationResume w pc => Sys2Proof.Machine.execAllocationResume w pc s
  | .rowStarvation sl => Sys2Proof.Machine.execRowStarvation sl s
  | .iadd f => Sys2Proof.Machine.execIadd f s
  | .iaddc f => Sys2Proof.Machine.execIaddc f s
  | .isub f => Sys2Proof.Machine.execIsub f s
  | .imul f => Sys2Proof.Machine.execImul f s
  | .imulh f => Sys2Proof.Machine.execImulh f s
  | .imad f => Sys2Proof.Machine.execImad f s
  | .idiv f => Sys2Proof.Machine.execIdiv f s
  | .irem f => Sys2Proof.Machine.execIrem f s
  | .imin f => Sys2Proof.Machine.execImin f s
  | .imax f => Sys2Proof.Machine.execImax f s
  | .iabs f => Sys2Proof.Machine.execIabs f s
  | .bfn f => Sys2Proof.Machine.execBfn f s
  | .shl f => Sys2Proof.Machine.execShl f s
  | .shr f => Sys2Proof.Machine.execShr f s
  | .sar f => Sys2Proof.Machine.execSar f s
  | .rotl f => Sys2Proof.Machine.execRotl f s
  | .bfe f => Sys2Proof.Machine.execBfe f s
  | .bfi f => Sys2Proof.Machine.execBfi f s
  | .popc f => Sys2Proof.Machine.execPopc f s
  | .clz f => Sys2Proof.Machine.execClz f s
  | .brev f => Sys2Proof.Machine.execBrev f s
  | .sel f => Sys2Proof.Machine.execSel f s
  | .lea f => Sys2Proof.Machine.execLea f s
  | .movi f => Sys2Proof.Machine.execMovi f s
  | .vread f => Sys2Proof.Machine.execVread f s
  | .redux f => Sys2Proof.Machine.execRedux f s
  | .shfl f => Sys2Proof.Machine.execShfl f s
  | .srd f => Sys2Proof.Machine.execSrd f s
  | .swr f => Sys2Proof.Machine.execSwr f s
  | .fadd f => Sys2Proof.Machine.execFadd f s
  | .fsub f => Sys2Proof.Machine.execFsub f s
  | .fmul f => Sys2Proof.Machine.execFmul f s
  | .ffma f => Sys2Proof.Machine.execFfma f s
  | .fdiv f => Sys2Proof.Machine.execFdiv f s
  | .fsqrt f => Sys2Proof.Machine.execFsqrt f s
  | .frcp f => Sys2Proof.Machine.execFrcp f s
  | .frsq f => Sys2Proof.Machine.execFrsq f s
  | .fexp2 f => Sys2Proof.Machine.execFexp2 f s
  | .flog2 f => Sys2Proof.Machine.execFlog2 f s
  | .fsin f => Sys2Proof.Machine.execFsin f s
  | .fcos f => Sys2Proof.Machine.execFcos f s
  | .fmin f => Sys2Proof.Machine.execFmin f s
  | .fmax f => Sys2Proof.Machine.execFmax f s
  | .fabs f => Sys2Proof.Machine.execFabs f s
  | .fneg f => Sys2Proof.Machine.execFneg f s
  | .fcmp f => Sys2Proof.Machine.execFcmp f s
  | .fclass f => Sys2Proof.Machine.execFclass f s
  | .fcvt f => Sys2Proof.Machine.execFcvt f s
  | .f2i f => Sys2Proof.Machine.execF2i f s
  | .i2f f => Sys2Proof.Machine.execI2f f s
  | .frnd f => Sys2Proof.Machine.execFrnd f s
  | .fscale f => Sys2Proof.Machine.execFscale f s
  | .fdot f => Sys2Proof.Machine.execFdot f s
  | .ivmk f => Sys2Proof.Machine.execIvmk f s
  | .ivlo f => Sys2Proof.Machine.execIvlo f s
  | .ivhi f => Sys2Proof.Machine.execIvhi f s
  | .ivhull f => Sys2Proof.Machine.execIvhull f s
  | .ivmeet f => Sys2Proof.Machine.execIvmeet f s
  | .ivmid f => Sys2Proof.Machine.execIvmid f s
  | .ivwid f => Sys2Proof.Machine.execIvwid f s
  | .ivin f => Sys2Proof.Machine.execIvin f s
  | .bisect f => Sys2Proof.Machine.execBisect f s
  | .ld f => Sys2Proof.Machine.execLd f s
  | .st f => Sys2Proof.Machine.execSt f s
  | .ldl f => Sys2Proof.Machine.execLdl f s
  | .stl f => Sys2Proof.Machine.execStl f s
  | .ldt f => Sys2Proof.Machine.execLdt f s
  | .stt f => Sys2Proof.Machine.execStt f s
  | .ldu f => Sys2Proof.Machine.execLdu f s
  | .atom f => Sys2Proof.Machine.execAtom f s
  | .atomc f => Sys2Proof.Machine.execAtomc f s
  | .red f => Sys2Proof.Machine.execRed f s
  | .pref f => Sys2Proof.Machine.execPref f s
  | .cctl f => Sys2Proof.Machine.execCctl f s
  | .fence f => Sys2Proof.Machine.execFence f s
  | .chkerr f => Sys2Proof.Machine.execChkerr f s
  | .flagOperationComplete w op => Sys2Proof.Machine.execFlagOperationComplete w op s
  | .loadReturn w op => Sys2Proof.Machine.execLoadReturn w op s
  | .fabricRequest r => Sys2Proof.Machine.execFabricRequest r s
  | .requestUndeliverable id => Sys2Proof.Machine.execRequestUndeliverable id s
  | .linkRetry port corrected => Sys2Proof.Machine.execLinkRetry port corrected s
  | .cpya f => Sys2Proof.Machine.execCpya f s
  | .cpyt f => Sys2Proof.Machine.execCpyt f s
  | .cpyg f => Sys2Proof.Machine.execCpyg f s
  | .queueEntryAdmit w pc => Sys2Proof.Machine.execQueueEntryAdmit w pc s
  | .engineEntryStart e => Sys2Proof.Machine.execEngineEntryStart e s
  | .guardHoldResolved e => Sys2Proof.Machine.execGuardHoldResolved e s
  | .copyChunk e => Sys2Proof.Machine.execCopyChunk e s
  | .engineEntryComplete e => Sys2Proof.Machine.execEngineEntryComplete e s
  | .tagwa f => Sys2Proof.Machine.execTagwa f s
  | .tagwy f => Sys2Proof.Machine.execTagwy f s
  | .tagWaitComplete r => Sys2Proof.Machine.execTagWaitComplete r s
  | .tagff f => Sys2Proof.Machine.execTagff f s
  | .tagst f => Sys2Proof.Machine.execTagst f s
  | .tagclr f => Sys2Proof.Machine.execTagclr f s
  | .gset f => Sys2Proof.Machine.execGset f s
  | .gclr f => Sys2Proof.Machine.execGclr f s
  | .qfence f => Sys2Proof.Machine.execQfence f s
  | .mma f => Sys2Proof.Machine.execMma f s
  | .mmar f => Sys2Proof.Machine.execMmar f s
  | .mzero f => Sys2Proof.Machine.execMzero f s
  | .mldacc f => Sys2Proof.Machine.execMldacc f s
  | .mdrain f => Sys2Proof.Machine.execMdrain f s
  | .mchk f => Sys2Proof.Machine.execMchk f s
  | .mtrn f => Sys2Proof.Machine.execMtrn f s
  | .bar f => Sys2Proof.Machine.execBar f s
  | .cbar f => Sys2Proof.Machine.execCbar f s
  | .barrierComplete cluster id => Sys2Proof.Machine.execBarrierComplete cluster id s
  | .arrive f => Sys2Proof.Machine.execArrive f s
  | .await f => Sys2Proof.Machine.execAwait f s
  | .awaitComplete w pc => Sys2Proof.Machine.execAwaitComplete w pc s
  | .spawn f => Sys2Proof.Machine.execSpawn f s
  | .join f => Sys2Proof.Machine.execJoin f s
  | .joinComplete w pc => Sys2Proof.Machine.execJoinComplete w pc s
  | .childEnd uid => Sys2Proof.Machine.execChildEnd uid s
  | .signal f => Sys2Proof.Machine.execSignal f s
  | .qpush f => Sys2Proof.Machine.execQpush f s
  | .qpop f => Sys2Proof.Machine.execQpop f s
  | .ringWaitServed w pc => Sys2Proof.Machine.execRingWaitServed w pc s
  | .vbuf f => Sys2Proof.Machine.execVbuf f s
  | .pubv f => Sys2Proof.Machine.execPubv f s
  | .vpin f => Sys2Proof.Machine.execVpin f s
  | .vunpin f => Sys2Proof.Machine.execVunpin f s
  | .rfstop f => Sys2Proof.Machine.execRfstop f s
  | .vqry f => Sys2Proof.Machine.execVqry f s
  | .instanceCancelStop w => Sys2Proof.Machine.execInstanceCancelStop w s
  | .instanceEnd uid => Sys2Proof.Machine.execInstanceEnd uid s
  | .coll f => Sys2Proof.Machine.execColl f s
  | .collx f => Sys2Proof.Machine.execCollx f s
  | .slateq f => Sys2Proof.Machine.execSlateq f s
  | .collAccept unit => Sys2Proof.Machine.execCollAccept unit s
  | .slateRequest comm ask rank gen => Sys2Proof.Machine.execSlateRequest comm ask rank gen s
  | .slateNotify comm slate key gen => Sys2Proof.Machine.execSlateNotify comm slate key gen s
  | .collReady comm => Sys2Proof.Machine.execCollReady comm s
  | .seqReady comm slate m gen => Sys2Proof.Machine.execSeqReady comm slate m gen s
  | .collGo comm slate o sources gen => Sys2Proof.Machine.execCollGo comm slate o sources gen s
  | .collCancel comm key rank own gen => Sys2Proof.Machine.execCollCancel comm key rank own gen s
  | .collSkip comm slate key gen => Sys2Proof.Machine.execCollSkip comm slate key gen s
  | .seqHeartbeat x => Sys2Proof.Machine.execSeqHeartbeat x s
  | .seqFailover comm => Sys2Proof.Machine.execSeqFailover comm s
  | .collResend comm gen => Sys2Proof.Machine.execCollResend comm gen s
  | .slateGap comm => Sys2Proof.Machine.execSlateGap comm s
  | .tret f => Sys2Proof.Machine.execTret f s
  | .trd f => Sys2Proof.Machine.execTrd f s
  | .twr f => Sys2Proof.Machine.execTwr f s
  | .tresume f => Sys2Proof.Machine.execTresume f s
  | .tkill f => Sys2Proof.Machine.execTkill f s
  | .temu f => Sys2Proof.Machine.execTemu f s
  | .icinv f => Sys2Proof.Machine.execIcinv f s
  | .fflags f => Sys2Proof.Machine.execFflags f s
  | .handlerRunStart sl => Sys2Proof.Machine.execHandlerRunStart sl s
  | .handlerTimeout sl => Sys2Proof.Machine.execHandlerTimeout sl s
  | .watchdog w => Sys2Proof.Machine.execWatchdog w s
  | .runtimeLimit unit => Sys2Proof.Machine.execRuntimeLimit unit s
  | .dbwp q wptr => Sys2Proof.Machine.execDbwp q wptr s
  | .commandFetch q => Sys2Proof.Machine.execCommandFetch q s
  | .queueEnable q e => Sys2Proof.Machine.execQueueEnable q e s
  | .queueDisable q => Sys2Proof.Machine.execQueueDisable q s
  | .prioWrite q prio => Sys2Proof.Machine.execPrioWrite q prio s
  | .mqWptr p wptr => Sys2Proof.Machine.execMqWptr p wptr s
  | .mqctl p v => Sys2Proof.Machine.execMqctl p v s
  | .launch cmd => Sys2Proof.Machine.execLaunch cmd s
  | .graph cmd => Sys2Proof.Machine.execGraph cmd s
  | .graphNodeComplete cmd node => Sys2Proof.Machine.execGraphNodeComplete cmd node s
  | .pipe cmd => Sys2Proof.Machine.execPipe cmd s
  | .copy cmd => Sys2Proof.Machine.execCopy cmd s
  | .waitsig cmd => Sys2Proof.Machine.execWaitsig cmd s
  | .waitsigSatisfied cmd => Sys2Proof.Machine.execWaitsigSatisfied cmd s
  | .cmdSignal cmd => Sys2Proof.Machine.execCmdSignal cmd s
  | .cellwait cmd => Sys2Proof.Machine.execCellwait cmd s
  | .cmdNop cmd => Sys2Proof.Machine.execCmdNop cmd s
  | .prologueComplete bundle => Sys2Proof.Machine.execPrologueComplete bundle s
  | .bundleEnd bundle => Sys2Proof.Machine.execBundleEnd bundle s
  | .batchAccept batch => Sys2Proof.Machine.execBatchAccept batch s
  | .placement die => Sys2Proof.Machine.execPlacement die s
  | .placementStop die => Sys2Proof.Machine.execPlacementStop die s
  | .coreGate c => Sys2Proof.Machine.execCoreGate c s
  | .coreActivate c => Sys2Proof.Machine.execCoreActivate c s
  | .workgroupRetire unit => Sys2Proof.Machine.execWorkgroupRetire unit s
  | .schedHeartbeat die => Sys2Proof.Machine.execSchedHeartbeat die s
  | .schedulerAdoption die => Sys2Proof.Machine.execSchedulerAdoption die s
  | .preempt cmd => Sys2Proof.Machine.execPreempt cmd s
  | .preemptSave cmd => Sys2Proof.Machine.execPreemptSave cmd s
  | .resume cmd => Sys2Proof.Machine.execResume cmd s
  | .destroy cmd => Sys2Proof.Machine.execDestroy cmd s
  | .scrubPhase die => Sys2Proof.Machine.execScrubPhase die s
  | .partition cmd => Sys2Proof.Machine.execPartition cmd s
  | .shootdown id => Sys2Proof.Machine.execShootdown id s
  | .migrationStart ctx va frame => Sys2Proof.Machine.execMigrationStart ctx va frame s
  | .migrationCopyPass id => Sys2Proof.Machine.execMigrationCopyPass id s
  | .migrationFinalPass id => Sys2Proof.Machine.execMigrationFinalPass id s
  | .migrationRelease id => Sys2Proof.Machine.execMigrationRelease id s
  | .dlyctl c v => Sys2Proof.Machine.execDlyctl c v s
  | .dailiesIntervalEnd c => Sys2Proof.Machine.execDailiesIntervalEnd c s
  | .bpaddr c k v => Sys2Proof.Machine.execBpaddr c k v s
  | .bpmask c k v => Sys2Proof.Machine.execBpmask c k v s
  | .monitorClear die k => Sys2Proof.Machine.execMonitorClear die k s
  | .thermalStep die k value => Sys2Proof.Machine.execThermalStep die k value s
  | .thermalShutdown die k value => Sys2Proof.Machine.execThermalShutdown die k value s
  | .registerWrite addr v => Sys2Proof.Machine.execRegisterWrite addr v s
  | .atsInvalidation id first pages => Sys2Proof.Machine.execAtsInvalidation id first pages s
  | .lockInterface fn requester => Sys2Proof.Machine.execLockInterface fn requester s
  | .stopInterface fn => Sys2Proof.Machine.execStopInterface fn s
  | .tdispError fn => Sys2Proof.Machine.execTdispError fn s
  | .reset die => Sys2Proof.Machine.execReset die s
  | .resetScrub die => Sys2Proof.Machine.execResetScrub die s
  | .spdmSign => Sys2Proof.Machine.execSpdmSign s
  | .hostMemoryAccess addr write len => Sys2Proof.Machine.execHostMemoryAccess addr write len s
  | .managementFirmwareRequest r => Sys2Proof.Machine.execManagementFirmwareRequest r s
  | .uncorrectableError place => Sys2Proof.Machine.execUncorrectableError place s
  | .partitionWaitExpiry cmd => Sys2Proof.Machine.execPartitionWaitExpiry cmd s
  | .tdispMessage fn code => Sys2Proof.Machine.execTdispMessage fn code s

end Sys2Proof.Machine
end

