-- ==== Sys2Proof/Machine/Pairs.lean ====
section
/-!
DEFINITION. Pairing (05 R72, R73): the class of an instruction, what it reads and writes, and whether the later member of a named pair
depends on the earlier one. A pair issues here as two instructions in slot order, as R73 allows; what is kept is the pair-split count.
-/
namespace Sys2Proof.Machine
open Sys2Proof

/-- The pairing classes (R72). -/
inductive PairClass where
  | v | u | c | m | e | n
  deriving DecidableEq, Repr

/-- The pairing class of an instruction (Table 5.14). -/
def pairClass (i : Instr) : PairClass :=
  match i.body with
  | some (op, .a f) =>
    if 0x03 ≤ op ∧ op ≤ 0x07 then .c
    else if op = 0x0D ∨ op = 0x0E ∨ (0x30 ≤ op ∧ op ≤ 0x47) ∨ op = 0x4B ∨ (0x50 ≤ op ∧ op ≤ 0x70) then
      (if f.dst.isUni then .u else .v)
    else .n
  | some (_, .b _) => .c
  | some (op, .m _) => if op ≤ 0x8B then .m else .n
  | some (_, .e _) => .e
  | _ => .n

/-- Two members, in slot order, are of classes that may pair (R72). -/
def mayPair (a b : PairClass) : Bool :=
  let other := fun (x : PairClass) => x == .u || x == .m || x == .e
  (a == .v && (other b || b == .c)) || (b == .v && other a)

/-- The earlier members of the pairs that a template names (Table 5.1). -/
def pairStarts (template : Nat) : List Nat :=
  match template with
  | 1 => [0] | 2 => [1] | 3 => [2] | 4 => [3] | 5 => [0, 2] | 6 => [1, 3] | 7 => [0, 3] | _ => []

/-- What an instruction reads or writes, as far as pairing asks. -/
inductive PairRes where
  | touch (x : Touch)
  | pred (p : Nat)
  deriving DecidableEq, Repr

/-- The predicate that a guard reads. -/
def guardReads : Guard → List PairRes
  | .always => []
  | .pred p _ => [.pred p.val]

/-- The predicate that a source of PLOP names (R111). -/
def predSrc : Src → List PairRes
  | .name n => if n.val < 12 then [.pred n.val] else []
  | _ => []

/-- A destination that is a predicate when its kind is 0. -/
def predDst (d : Dst) (pair : Bool) : List PairRes :=
  match d with
  | .name n => if pair then [.pred n.val, .pred (n.val + 1)] else [.pred n.val]
  | .uni k => [.touch (.uni k.val)]

/-- Touches as resources. -/
def touches (l : List Touch) : List PairRes := l.map .touch

/-- What an ALU instruction reads, and what it writes, without its guard. -/
def aluUse (i : Instr) : List PairRes × List PairRes :=
  match i with
  | .icmp f => (touches (f.sa.touch ++ f.sb.touch), predDst f.dst false)
  | .plop f => (predSrc f.sa ++ predSrc f.sb ++ predSrc f.sc, predDst f.dst false)
  | .iadd f | .isub f | .imul f | .imulh f | .idiv f | .irem f | .imin f | .imax f | .shl f | .shr f | .sar f | .rotl f
  | .bfe f | .lea f => (touches (f.sa.touch ++ f.sb.touch), touches f.dst.touch)
  | .iaddc f => (touches (f.sa.touch ++ f.sb.touch) ++ [.pred f.fn.toNat], touches f.dst.touch ++ [.pred f.fn.toNat])
  | .iabs f | .popc f | .clz f | .brev f => (touches f.sa.touch, touches f.dst.touch)
  | .imad f | .bfn f | .bfi f | .fdot f => (touches (f.sa.touch ++ f.sb.touch ++ f.sc.touch), touches f.dst.touch)
  | .sel f =>
    let w := f.ty == .iv64
    (touches (f.sa.touch w ++ f.sb.touch w) ++ [.pred f.fn.toNat], touches (f.dst.touch w))
  | .movi f => (touches (if f.fn == 1 then f.sa.touch else []), touches (f.dst.touch (f.ty == .iv64)))
  | .srd f => ([], touches f.dst.touch)
  | .fadd f | .fsub f | .fmul f | .fdiv f | .fmin f | .fmax f | .ivhull f | .ivmeet f =>
    let w := f.ty == .iv64
    (touches (f.sa.touch w ++ f.sb.touch w), touches (f.dst.touch w))
  | .ffma f =>
    let w := f.ty == .iv64
    (touches (f.sa.touch w ++ f.sb.touch w ++ f.sc.touch w), touches (f.dst.touch w))
  | .fsqrt f | .frcp f | .frsq f | .fexp2 f | .flog2 f | .fsin f | .fcos f | .fabs f | .fneg f | .frnd f =>
    let w := f.ty == .iv64
    (touches (f.sa.touch w), touches (f.dst.touch w))
  | .fscale f => (touches (f.sa.touch (f.ty == .iv64) ++ f.sb.touch), touches (f.dst.touch (f.ty == .iv64)))
  | .fcmp f | .ivin f =>
    let w := f.ty == .iv64
    (touches (f.sa.touch w ++ f.sb.touch w), predDst f.dst true)
  | .fclass f | .ivlo f | .ivhi f | .ivmid f | .ivwid f => (touches (f.sa.touch (f.ty == .iv64)), touches f.dst.touch)
  | .fcvt f => (touches (f.sa.touch (f.fn.toNat % 8 == 7)), touches (f.dst.touch (f.imm.toNat % 8 == 7)))
  | .f2i f | .i2f f => (touches f.sa.touch, touches f.dst.touch)
  | .ivmk f => (touches (f.sa.touch ++ f.sb.touch), touches (f.dst.touch (f.ty == .iv64)))
  | .bisect f =>
    let w := f.ty == .iv64
    (touches (f.sa.touch w), touches (f.dst.touch w ++ f.sb.touch w))
  | _ => ([], [])

/-- What a memory instruction of class M reads, and what it writes, without its guard. -/
def memUse (i : Instr) : List PairRes × List PairRes :=
  match i with
  | .ld f | .ldl f | .ldu f => (touches (f.base.touch ++ f.index.touch), touches (f.dst.touch (f.ty == .iv64)))
  | .st f | .stl f => (touches (f.base.touch ++ f.data.touch (f.ty == .iv64) ++ f.index.touch), [])
  | .ldt f => (touches (f.base.touch ++ f.data.touch ++ f.index.touch), touches (f.dst.touch (f.ty == .iv64)))
  | .stt f => (touches (f.base.touch ++ f.data.touch ++ f.index.touch ++ f.dst.touch (f.ty == .iv64)), [])
  | .atom f => (touches (f.base.touch ++ f.data.touch), touches f.dst.touch)
  | .atomc f => (touches (f.base.touch ++ f.data.touch ++ f.index.touch), touches f.dst.touch)
  | .red f => (touches (f.base.touch ++ f.data.touch), [])
  | .pref f => (touches (f.base.touch ++ f.index.touch), [])
  | .cctl f => (touches (f.base.touch ++ f.data.touch ++ (if f.dst.isUni then f.dst.touch else [])), [])
  | _ => ([], [])

/-- What an engine command reads. -/
def engineUse (i : Instr) : List PairRes :=
  match i with
  | .cpya f | .cpyt f | .cpyg f | .mma f | .mtrn f | .coll f => touches (f.sa.touch ++ f.sb.touch ++ f.sc.touch)
  | .mmar f => touches (f.sa.touch ++ f.sb.touch ++ (match f.sc with
      | .uni k => (List.range 4).map (fun j => Touch.name (k.val + j))
      | .imm => []))
  | .mzero f => touches f.sa.touch
  | .mldacc f => touches (f.sa.touch ++ f.sb.touch)
  | .mdrain f => touches (f.sa.touch ++ f.sb.touch ++ (if bitAt f.imm 3 then f.sc.touch else []))
  | .collx f => touches f.sc.touch
  | _ => []

/-- What a branch reads, and the link that CALL writes. -/
def branchUse (i : Instr) : List PairRes × List PairRes :=
  match i with
  | .call f => (touches (if f.fn == 1 then f.sa.touch else []), touches f.dst.touch)
  | .ret f | .jmpi f => (touches f.sa.touch, [])
  | .brm f => ((f.p0 :: f.more).flatMap (fun p => match p.test with
      | .pred q _ => [PairRes.pred q.val]
      | .always => []), [])
  | _ => ([], [])

/-- The guard and the flag attachment of an instruction. -/
def guardOf (i : Instr) : List PairRes × Attach :=
  match i.body with
  | some (_, .a f) => (guardReads f.guard, f.cf)
  | some (_, .m f) => (guardReads f.guard, f.cf)
  | some (_, .e f) => (guardReads f.guard, f.cf)
  | _ => ([], .none)

/-- Everything that an instruction reads or writes, and what it writes. -/
def pairUse (i : Instr) : List PairRes × List PairRes :=
  let (r, w) : List PairRes × List PairRes := match pairClass i with
    | .v | .u => aluUse i
    | .m => memUse i
    | .e => (engineUse i, [])
    | .c => branchUse i
    | .n => ([], [])
  ((guardOf i).1 ++ r ++ w, w)

/-- Two touches meet: one uniform register, or names of one physical row of the issuing bank (R73). -/
def State.meets (s : State) (x y : PairRes) : Bool :=
  match x, y with
  | .touch (.name n), .touch (.name m) =>
    if s.cur.handler then n == m else (s.me.mapOf n).isSome && s.me.mapOf n == s.me.mapOf m
  | .touch (.uni k), .touch (.uni j) => k == j
  | .pred p, .pred q => p == q
  | _, _ => false

/-- The later member depends on the earlier one (R73). `s` is the state after the earlier one has issued. -/
def State.dependsOn (s : State) (a b : Instr) : Bool :=
  (pairUse a).2.any (fun x => (pairUse b).1.any (s.meets x))
    || ((guardOf a).2 != .none && (guardOf a).2 == (guardOf b).2)

/-- The instruction that a slot of a line holds. -/
def slotInstr (line : List Byte) (k : Nat) : Option Instr :=
  match decodeSlot (lineSlot line k) with
  | .ok i => some i
  | .error _ => none

/-- The issue of slot k of a line splits a pair: the slot is the earlier member of a named pair, whose classes pair, and the later one
depends on it (R72, R73). -/
def State.splits (s : State) (line : List Byte) (k : Nat) : Bool :=
  (pairStarts (recNat line 60 4 / 512 % 8)).contains k
    && (match slotInstr line k, slotInstr line (k + 1) with
      | some a, some b => mayPair (pairClass a) (pairClass b) && s.dependsOn a b
      | _, _ => false)

end Sys2Proof.Machine
end

