-- ==== Sys2Proof/Machine/Errors.lean ====
section
/-!
DEFINITION. Uncorrectable errors in register rows, local memory and accumulator memory (23 R401): what a step reads of them, and when a place that
holds one is filled anew. An error in a row counts as read by a read of any element of the row (log 47).
-/
namespace Sys2Proof.Machine
open Sys2Proof

/-- The names that an instruction of a slot reads. -/
def namesRead (i : Instr) : List Touch :=
  let names := fun (l : List PairRes) => l.filterMap (fun x => match x with
    | .touch (.name n) => some (Touch.name n)
    | _ => none)
  match pairClass i with
  | .v | .u => names (aluUse i).1
  | .m => names (memUse i).1
  | .e => names (engineUse i)
  | .c => names (branchUse i).1
  | .n => match i with
    | .vread f | .redux f => f.sa.touch (f.ty == .iv64)
    | .shfl f => f.sa.touch (f.ty == .iv64) ++ f.sb.touch
    | .cpy f | .temu f => f.sa.touch
    | .twr f => if f.fn == 0 then f.sa.touch else []
    | _ => []

/-- The place of a name's row, in the bank of the issuing run. -/
def State.placeOf (s : State) (x : Touch) : List ErrPlace :=
  let i := sliceOfLoc s.cur.loc
  match x with
  | .name n => if s.cur.handler then [.hrow i n] else (s.me.mapOf n).toList.map (fun r => .row i r)
  | _ => []

/-- The places of a range of a unit's local memory, by units of 8 bytes. -/
def Wg.localPlaces (g : Wg) (a n : Nat) : List ErrPlace :=
  if n = 0 then [] else (List.range ((g.locBase + a + n - 1) / 8 - (g.locBase + a) / 8 + 1)).map (fun k => .loc g.core ((g.locBase + a) / 8 + k))

/-- The places of a range of a unit's accumulator memory. -/
def Wg.accPlaces (g : Wg) (a n : Nat) : List ErrPlace :=
  if n = 0 then [] else (List.range ((g.accBase + a + n - 1) / 8 - (g.accBase + a) / 8 + 1)).map (fun k => .acc g.core ((g.accBase + a) / 8 + k))

/-- The local item that a QPUSH takes. -/
def State.itemPlaces (s : State) (ring off : Word) : List ErrPlace :=
  match (s.openRing s.myCore s.myCtx ring).1 with
  | .ok (_, r) => s.myWg.localPlaces off.toNat r.item
  | .bad _ => []

/-- The guard of a format-M instruction passes in some thread. -/
def State.passes (s : State) (g : Guard) : Bool := s.executing g s.run != 0

/-- What an instruction of a slot reads of rows and local memory when the issuing run executes it. -/
def State.slotReads (s : State) (i : Instr) : List ErrPlace :=
  let names := match i with
    | .mmar f => if (latchHit s.me f).isSome then [] else namesRead i
    | _ => namesRead i
  let item := fun (g : Wg) (a n : Nat) => match localCheck g.foot.loc (word a) n with
    | .ok o => g.localPlaces o n
    | .bad _ => []
  let guard := match i.body with
    | some (_, .a f) => f.guard
    | some (_, .m f) => f.guard
    | some (_, .e f) => f.guard
    | _ => .always
  if !s.passes guard then []
  else names.flatMap s.placeOf ++ (match i with
    | .ldl f => (maskList (s.executing f.guard s.run)).flatMap (fun t => item s.myWg (s.eaOf f (mtySize f.ty) true t).toNat (mtySize f.ty))
    | .arrive f | .await f => item s.myWg (s.eaOf f 0 false 0).toNat 8
    | .qpush f => if f.ty == .i8 then [] else s.itemPlaces (s.srcM f.base 0) (s.ringOff f)
    | .trd f => if f.fn == 0 then (match s.target (s.selOf f.sb f.imm) with
        | .warp w => (w.mapOf (selIndex (s.selOf f.sb f.imm))).toList.map (fun r => .row (sliceOfLoc w.loc) r)
        | _ => []) else []
    | _ => [])

/-- What an entry of an engine queue has read of its unit's local and accumulator memory when it completes with a status. -/
def Wg.entryReads (g : Wg) (e : QEntry) (st : Nat) : List ErrPlace :=
  let f := e.fields
  let M := mRows f.sub
  let N := nCols f.sub
  let acc := fun (off : Word) (n : Nat) => g.accPlaces (off.toNat * 1024) n
  let pairs := fun (m : Nat) => if f.sub.toNat % 8 = 6 then
    (if m = 0 then [] else g.localPlaces (fieldNat f.imm 0 16 * 256) (8 * m)) ++ g.localPlaces (fieldNat f.imm 16 16 * 256) (8 * N) else []
  let tile := accBytes (accKind (f.sub.toNat % 8))
  match e.cmd with
  | .mma _ => g.localPlaces e.a.toNat (M * 64) ++ g.localPlaces e.b.toNat (N * 64) ++ acc e.c (M * N * tile) ++ pairs M
  | .mmar _ => g.localPlaces e.b.toNat (N * 64) ++ acc e.a (16 * N * tile) ++ pairs 16
  | .mldacc _ => g.localPlaces e.b.toNat (M * N * accBytes (f.imm.toNat % 4))
  | .mdrain _ => acc e.a (M * N * accBytes (f.imm.toNat % 4))
  | .mtrn _ => g.localPlaces e.b.toNat (fieldNat e.c 0 16 * fieldNat e.c 16 16 * 2 ^ (f.sub.toNat % 4))
  | .cpya _ =>
    if st ≠ 0 then [] else match f.sub.toNat % 4 with
    | 1 => g.localPlaces e.a.toNat e.c.toNat
    | 3 => g.localPlaces e.b.toNat e.c.toNat
    | _ => []
  | .cpyt _ =>
    if st = 0 && f.sub.toNat % 4 == 1 then g.localPlaces f.imm.toNat ((rowsCols e.c).1 * (rowsCols e.c).2 * 256) else []
  | .cpyg _ => if st ≠ 0 then [] else g.localPlaces (fieldNat e.a 32 32) (4 * fieldNat f.imm 12 16)
  | _ => []

/-- The local memory that a run waiting in a slot reads when its wait ends. -/
def State.waitReads (s : State) (l : Loc) (pc : Word) : List ErrPlace :=
  let t : State := { s with cur := { s.cur with loc := l, handler := false, pc := pc } }
  match s.waitAt l false pc with
  | some { kind := .await a _ _, .. } => t.myWg.localPlaces a 8
  | some { kind := .ringPush ring off _, .. } => t.itemPlaces ring off
  | _ => []

/-- The rows of given references that a step has copied: to the spill area, or to a wave placed on another slice (R139, R310). -/
def State.copiedRows (s t : State) : List (Nat × ErrPlace) :=
  s.pending.flatMap (fun p => match p.kind with
    | .wave _ sl _ _ _ _ _ _ _ given _ =>
      let kept := t.pending.any (fun q => q.uid == p.uid && q.kind == p.kind) || t.warps.any (fun w => w.uid == p.uid && sliceOfLoc w.loc == sl)
      if kept then [] else given.filterMap (fun x => match x with
        | .ref r => some (p.ctx, ErrPlace.row sl r)
        | .copy _ => none)
    | _ => [])

/-- What a step of another agent reads, each with the context that reads it. -/
def State.eventReads (s t : State) (i : Instr) : List (Nat × ErrPlace) :=
  let of := fun (l : Loc) (x : List ErrPlace) => x.map (fun p => (((s.warp? l).map (·.ctx)).getD noCtx, p))
  match i with
  | .engineEntryComplete (.queue u q) =>
    match s.wg? u, s.performed u q with
    | some g, some (e, st, _, _) => (g.entryReads e st).map (fun p => (g.ctx, p))
    | _, _ => []
  | .awaitComplete l pc | .ringWaitServed l pc => if t = s then [] else of l (s.waitReads l pc)
  | .placement _ | .workgroupRetire _ => s.copiedRows t
  | _ => []

/-- The errors that are still there after a step: a row that is allocated, the handler rows at the start of a run, and the memory that a unit
receives are filled anew. -/
def State.errorsLeft (s t : State) : List ErrPlace :=
  t.errors.filter (fun e => !s.errors.contains e || !(match e with
    | .row i r => ((s.slice i).row? r).isNone && ((t.slice i).row? r).isSome
    | .hrow i _ => (s.slice i).handler.isNone && (t.slice i).handler.isSome
    | _ => t.wgs.any (fun g => g.holdsError e && !s.wgs.any (fun h => h.uid == g.uid && h.holdsError e))))

/-- The state after a step that has read some places: an uncorrectable error in one of them sets CHK.POISON (R401). -/
def State.noteErrors (s t : State) (reads : List (Nat × ErrPlace)) : State :=
  if s.errors.isEmpty then t
  else
    let t := (reads.filter (fun p => s.errors.contains p.2)).foldl (fun t p => t.setChk p.1 chkPoison) t
    { t with errors := s.errorsLeft t }

end Sys2Proof.Machine
end

