-- ==== Sys2Proof/Machine/Issue.lean ====
section
/-!
DEFINITION. What one step of the module does (log 2): the arrival of a run at a slot with the checks of Table 5.3 (05 R75), the choice
of the run that issues (06 R98, R101, R106), the choice of the step of another agent, and the passing of one clk.
-/
namespace Sys2Proof.Machine
open Sys2Proof

/-! ### The run that a warp offers (R98, R104, R106, R366, R387) -/

/-- The threads of a run. -/
def State.runOf (s : State) (r : RunRef) : Mask :=
  if r.handler then (match s.hrun? r.loc with
    | some h => if h.pc == r.pc then listMask [h.thread] else 0
    | none => 0)
  else (match s.warp? r.loc with
    | some w => w.runAt r.pc
    | none => 0)

/-- A selected run has arrived at its next header, or no thread of it runs: the count becomes 0, and selection returns to R98 (R106). -/
def State.pickOver (s : State) (w : Warp) : Bool :=
  match w.fairPick with
  | none => false
  | some (_, issued) =>
    match w.pickedPc with
    | none => true
    | some pc => issued && (s.headerAt (coreOfLoc w.loc) w.ctx pc).isSome && !(w.waits.any (fun x => x.pc == pc && x.mask == w.runAt pc))

/-- The warp after the end of a selection. -/
def State.settlePick (s : State) (w : Warp) : Warp := if s.pickOver w then { w with fair := 0, fairPick := none } else w

/-- A context's warps issue while it runs, and while it is being pre-empted until they have stopped (R387). -/
def State.issues (s : State) (ctx : Nat) (stopped : Bool) : Bool :=
  match s.ctx? ctx with
  | some c => c.status == .live || (c.status == .preempting && !stopped)
  | none => false

/-- A handler run is ready. -/
def State.handlerReady (s : State) (w : Warp) (h : HRun) : Bool :=
  let opened := fun (x : Wait) => x.pc == h.pc && (match x.kind with
    | .settle t => !s.settled t
    | _ => true)
  !h.waits.any opened && s.issues w.ctx (h.stop || s.atHeader (coreOfLoc w.loc) w.ctx h.pc)

/-- The PC of the run that a warp offers: the run that the fairness timer has selected, or the lowest ready run. -/
def State.offeredPc (s : State) (w : Warp) : Option Word :=
  let ready := w.runPcs.filter (fun pc => !w.waitsAt pc && s.issues w.ctx (s.runStopped w pc))
  match w.pickedPc with
  | some p => if ready.contains p then some p else (sortBy (fun a b => decide (a.toNat ≤ b.toNat)) ready).head?
  | none => (sortBy (fun a b => decide (a.toNat ≤ b.toNat)) ready).head?

/-- The run that a warp offers: its handler run ahead of every other (R366). -/
def State.offered (s : State) (w : Warp) : Option RunRef :=
  if !(s.core (coreOfLoc w.loc)).active then none
  else match (s.hrun? w.loc).filter (fun h => s.handlerReady w h) with
    | some h => some { loc := w.loc, handler := true, pc := h.pc }
    | none => (s.offeredPc (s.settlePick w)).map (fun pc => { loc := w.loc, handler := false, pc := pc })

/-! ### The arrival at a slot (Table 5.3) -/

/-- What the arrival of a run leads to: the line is fetched first, some threads raise a fault with the slot's bits, each with its INFO0, or the
slot is issued: an instruction, or one that is illegal. -/
inductive Arrival where
  | fetch
  | fault (bits : Slot) (code : Nat) (vals : List (Nat × Word))
  | issue (bits : Slot) (i : Except Reject Instr)

/-- The threads of a run whose arrival is the target of a transfer, with check 1 too, or with check 5 alone (R71, R373). -/
def State.arriving (s : State) (r : RunRef) (m : Mask) (all : Bool) : Mask :=
  if r.handler then (if (s.hrun? r.loc).any (·.arriving) then m else 0)
  else (match s.warp? r.loc with
    | some w => maskOf (fun t => bitAt m t && ((w.thread t).arriving || (!all && (w.thread t).xfer)))
    | none => 0)

/-- The threads of a run that comparators stop, each with the lowest one that matches it (R382). A thread whose PASS bit is set is not stopped,
and one whose arrival began before, which waits in the slot's instruction, arrives no more. -/
def State.breaks (s : State) (r : RunRef) (w : Warp) (m : Mask) : List (Nat × Word) :=
  (maskList m).filterMap (fun t =>
    let begun := if r.handler then (s.hrun? r.loc).any (·.arrived) else (w.thread t).arrived
    if begun || (w.thread t).pass then none else (s.breakAt (coreOfLoc r.loc) w.ctx r.pc t).map (fun k => (t, word (0x100 + k))))

/-- The threads of a mask, with one INFO0. -/
def withInfo (m : Mask) (i0 : Word) : List (Nat × Word) := (maskList m).map (fun t => (t, i0))

/-- The threads of a run at clause position 20 (R66). -/
def State.overrun (s : State) (r : RunRef) (w : Warp) (m : Mask) : Mask :=
  if r.handler then (if (s.hrun? r.loc).any (fun h => decide (20 ≤ h.pos)) then m else 0)
  else maskOf (fun t => bitAt m t && decide (20 ≤ (w.thread t).pos))

/-- The checks of a run's arrival, in order (R75). A PC that is no slot address fails check 1 however it was reached. -/
def State.arrive (s : State) (r : RunRef) (w : Warp) (m : Mask) : Arrival :=
  let a := r.pc.toNat
  if !isSlotAddr a then .fault 0 0x03 (withInfo m r.pc)
  else
    match s.icLine (coreOfLoc r.loc) w.ctx (a / 64 * 64) with
    | none => .fetch
    | some l =>
      if 2 ^ 56 ≤ a || parFails l.bytes != 0 || lineWord l.bytes / 4096 != 0 then .fetch
      else
        let bits := lineSlot l.bytes (a % 64 / 12)
        let isHdr := fieldNat bits 0 8 == 0x01
        let marked := s.arriving r m false
        if marked != 0 && !(lineTgt l.bytes (a % 64 / 12) && isHdr) then .fault bits 0x04 (withInfo marked r.pc)
        else
          let stopped := s.breaks r w m
          let excess := s.overrun r w m
          if !stopped.isEmpty then .fault bits 0x16 stopped
          else if excess != 0 && !isHdr then .fault bits 0x05 (withInfo excess 0) else .issue bits (decodeSlot bits)

/-- The threads of a mask have arrived at the slot: the marks of the arrival end with it (R71, R373), and no comparator stops them at it any more
(R382). -/
def State.arrived (s : State) (r : RunRef) (m : Mask) : State :=
  if r.handler then s.updHrun r.loc (fun h => { h with arriving := false, arrived := true })
  else s.updWarp r.loc (fun w => w.updThreads m (fun _ x => { x with arriving := false, xfer := false, arrived := true }))

/-- Threads of a run are parked by their arrival, with one record (R362). -/
def State.arrivalFault (s : State) (r : RunRef) (m : Mask) (bits : Slot) (code : Nat) (vals : List (Nat × Word)) : State :=
  if r.handler then s.doubleFault r.loc
  else (s.arrived r m).parkAll r.loc (listMask (vals.map (·.1))) r.pc bits code r.pc (vals.map (fun p => (p.1, p.2, 0)))

/-- The run issues. -/
def State.select (s : State) (r : RunRef) (bits : Slot) : State :=
  { s with cur := { loc := r.loc, handler := r.handler, pc := r.pc, bits := bits } }

/-- The pair-split count after the issue of a run's slot: it rises when the run has passed the earlier member of a dependent pair
(R73). -/
def State.countSplit (s : State) (r : RunRef) (m : Mask) : State :=
  let c := coreOfLoc r.loc
  let passed := (s.runOf { r with pc := succPc r.pc } &&& m) != 0
  match (s.warp? r.loc).bind (fun w => s.icLine c w.ctx (r.pc.toNat / 64 * 64)) with
  | some l =>
    if passed && r.pc.toNat % 64 / 12 < 4 && { s with cur := { s.cur with pc := succPc r.pc } }.splits l.bytes (r.pc.toNat % 64 / 12) then
      s.updCore c (fun k => { k with pairSplit := k.pairSplit + 1 })
    else s
  | none => s

/-- Change the state of an answer. -/
def mapNext (g : State → State) : Host.Outcome State Fault Refusal → Host.Outcome State Fault Refusal
  | .next s => .next (g s)
  | .fault f => .fault f
  | .refused f => .refused f

/-- A slot issues for a run: the decoded instruction, or ILLEGAL_OP on every thread of the run (R93). What the instruction reads of rows and
local memory is looked at for uncorrectable errors (R401). A request that no port can send holds the run in the instruction (R355). -/
def State.issueSlot (s : State) (r : RunRef) (m : Mask) (bits : Slot) (i : Except Reject Instr) : Host.Outcome State Fault Refusal :=
  let s := ((s.arrived r m).select r bits).updSlice (sliceOfLoc r.loc) (fun x => { x with lastIssued := r.loc.slot })
  let s := s.updWarp r.loc (fun w => if r.handler then w else w.pickIssues r.pc)
  match i with
  | .ok i => mapNext (fun t => s.noteErrors (s.runStep t) ((s.slotReads i).map (fun p => (s.myCtx, p)))) (exec i s)
  | .error _ => .next (s.raiseAll m (illegalOp s))

/-- A slice has taken its step: a YIELD lets it prefer another warp for its next step alone (R119). -/
def State.yieldsOver (s : State) (i : SliceId) : State :=
  { s with warps := s.warps.map (fun w => if sliceOfLoc w.loc == i then { w with yieldTo := false } else w) }

/-- One step of a warp: the run that it offers arrives at its slot. -/
def State.issueWarp (s : State) (l : Loc) : Host.Outcome State Fault Refusal :=
  match s.warp? l with
  | none => .next s
  | some w0 =>
    match s.offered w0 with
    | none => .next s
    | some r =>
      let w := s.settlePick w0
      let s := (s.updWarp l (fun _ => { w with readyAt := none })).yieldsOver (sliceOfLoc l)
      let m := s.runOf r
      match s.arrive r w m with
      | .fetch => exec (.instructionFetch r) s
      | .fault bits code vals => .next (s.arrivalFault r m bits code vals)
      | .issue bits i => mapNext (fun s' => s'.countSplit r m) (s.issueSlot r m bits i)

/-! ### The choice of a warp (R101) -/

/-- A warp offers a run. -/
def State.warpReady (s : State) (w : Warp) : Bool := (s.offered w).isSome

/-- When the run that a warp offers became ready. -/
def State.readySince (s : State) (w : Warp) : Nat := (w.readyAt.map (·.2.2)).getD s.clk

/-- The key by which a slice chooses among its warps: the one whose offered run became ready earliest, then the first slot after the one that
issued last (R101). -/
def State.warpKey (s : State) (w : Warp) : Nat :=
  s.readySince w * 4 + (w.loc.slot + 3 - (s.slice (sliceOfLoc w.loc)).lastIssued) % 4

/-- The first warp of a list with the least key. -/
def leastWarp (key : Warp → Nat) (l : List Warp) : Option Warp :=
  l.foldl (fun (acc : Option Warp) w => match acc with
    | none => some w
    | some a => if key w < key a then some w else some a) none

/-- The warp that a slice chooses: a ready one that has not yielded, where there is one (R101, R119). -/
def State.sliceChoice (s : State) (i : SliceId) : Option Warp :=
  let ready := (s.warpsOn i).filter (fun w => s.warpReady w)
  (leastWarp s.warpKey (ready.filter (fun w => !w.yieldTo))).or (leastWarp s.warpKey ready)

/-- The slices that hold a warp. -/
def State.busySlices (s : State) : List SliceId :=
  s.warps.foldl (fun l w => if l.contains (sliceOfLoc w.loc) then l else l ++ [sliceOfLoc w.loc]) []

/-- The warp that issues: of the slices' choices the one that became ready earliest (log 2). -/
def State.nextWarp (s : State) : Option Loc := (leastWarp s.readySince (s.busySlices.filterMap (fun i => s.sliceChoice i))).map (·.loc)

/-! ### The steps of the other agents -/

/-- The step that ends a wait, when one does. -/
def waitStep (l : Loc) (handler : Bool) (x : Wait) : List Instr :=
  let r : RunRef := { loc := l, handler := handler, pc := x.pc }
  match x.kind with
  | .header _ => [.clauseStart r]
  | .wsync => [.wsyncComplete l x.pc]
  | .exit => [.exitProceed l x.pc]
  | .mapEdit => [.mapEditWaitEnd l x.pc]
  | .give _ _ | .take _ _ => [.mailboxWaitServed l x.pc]
  | .alloc _ => [.allocationResume l x.pc]
  | .queueFull _ => [.queueEntryAdmit l x.pc]
  | .tagAll _ _ | .tagAny _ _ _ => [.tagWaitComplete r]
  | .await _ _ _ => [.awaitComplete l x.pc]
  | .join _ _ _ _ => [.joinComplete l x.pc]
  | .ringPush _ _ _ | .ringPop _ _ _ _ => [.ringWaitServed l x.pc]
  | .granted _ | .written _ | .barrier _ _ | .gather | .chkerr | .mchk _ _ _ _ | .interlock _ | .stalledWrite | .settle _ => []

/-- The completion of an operation in flight. -/
def flightStep (l : Loc) (f : Flight) : Instr := if f.load then .loadReturn l f.id else .flagOperationComplete l f.id

/-- The least latency of Table 2.5: when no turn of the agenda says otherwise, an operation in flight completes no earlier. -/
def leastLatency : Nat := 20

/-- The completions of operations in flight. -/
def State.flightSteps (s : State) (l : Loc) (fs : List Flight) : List Instr :=
  (fs.filter (fun f => decide (f.since + leastLatency ≤ s.clk))).map (flightStep l)

/-- The steps of a warp that are not issues. -/
def State.warpSteps (s : State) (w : Warp) : List Instr :=
  s.flightSteps w.loc w.inflight ++ [.fairnessYield w.loc] ++ w.waits.flatMap (waitStep w.loc false)
    ++ (if w.cancel then [.instanceCancelStop w.loc] else []) ++ (if w.alive = 0 then [.warpRetire w.loc] else [])
    ++ (if w.stall = stallLimit then [.watchdog w.loc] else [])

/-- The steps of a slice's handler run and rows. -/
def State.sliceSteps (s : State) (x : Slice) : List Instr :=
  (match x.handler with
    | some h =>
      let l : Loc := ⟨x.id.die, x.id.core, x.id.slice, h.slot⟩
      s.flightSteps l h.inflight ++ h.waits.flatMap (waitStep l true) ++ [.handlerTimeout x.id]
    | none => [])

/-- The cores that hold a warp. -/
def State.busyCores (s : State) : List CoreId :=
  s.warps.foldl (fun l w => if l.contains (coreOfLoc w.loc) then l else l ++ [coreOfLoc w.loc]) []

/-- The steps of a workgroup's engines and of its end. -/
def wgSteps (g : Wg) : List Instr :=
  [QueueName.mq, .cq 0, .cq 1, .cq 2, .cq 3, .xq].flatMap (fun q =>
    if (g.queue q).isEmpty then []
    else [.engineEntryComplete (.queue g.uid q), .copyChunk (.queue g.uid q), .guardHoldResolved (.queue g.uid q),
          .engineEntryStart (.queue g.uid q)] ++ (if q == .xq then [.collAccept g.uid] else []))
    ++ [.barrierComplete false g.uid] ++ (if g.foot.limit = 0 then [] else [.runtimeLimit g.uid]) ++ [.workgroupRetire g.uid]

/-- The steps of an accepted command. -/
def State.cmdSteps (s : State) (c : Cmd) : List Instr :=
  match c.hdr.cmd.toNat with
  | 1 => [.launch c.uid]
  | 2 => ((s.graph? c.uid).map (fun g => (List.range g.nodes.length).map (fun j => Instr.graphNodeComplete c.uid j))).getD [] ++ [.graph c.uid]
  | 3 => [.pipe c.uid]
  | 4 => [.copy c.uid]
  | 5 => [.waitsigSatisfied c.uid, .waitsig c.uid]
  | 6 => [.cmdSignal c.uid]
  | 7 => [.cellwait c.uid]
  | 8 => [.cmdNop c.uid]
  | 0x40 => [.preemptSave c.uid, .preempt c.uid]
  | 0x41 => [.resume c.uid]
  | 0x42 => [.destroy c.uid]
  | 0x43 => [.partition c.uid]
  | _ => []

/-- The steps of a bundle. -/
def bundleSteps (b : Bundle) : List Instr :=
  match b.phase with
  | .prologue => [.prologueComplete b.id]
  | .epilogue => [.bundleEnd b.id]
  | _ => []

/-- The steps of a die. -/
def dieSteps (d : Nat) : List Instr :=
  [.scrubPhase d, .placement d, .placementStop d, .schedHeartbeat d, .schedulerAdoption d]

/-- The step of a migration: one copy pass, the final pass, the release (R239). -/
def migrationStep (m : Migration) : Instr :=
  match m.phase with
  | .marked => .migrationCopyPass m.id
  | .copying => .migrationFinalPass m.id
  | .switching => .migrationRelease m.id

/-- The steps of a communicator at this module. -/
def State.commSteps (s : State) (c : Comm) : List Instr :=
  [.collReady c.no, .slateGap c.no, .seqFailover c.no] ++ (if s.resendDue c then [.collResend c.no c.gen] else [])
    ++ (if (s.beatDue c).isSome then [.seqHeartbeat ⟨c.no, .due⟩] else [])

/-- The steps that the module's own agents could take now, in the order in which the model tries them (log 2). What a host, a debugger,
another module or a sensor does is none of them: such a step is taken when the agenda names it. -/
def State.candidates (s : State) : List Instr :=
  s.warps.flatMap (fun w => s.warpSteps w) ++ s.slices.flatMap (fun x => s.sliceSteps x)
    ++ (s.undeliv.filter (fun u => !u.refused)).map (fun u => .requestUndeliverable u.id)
    ++ s.busySlices.flatMap (fun i => [.handlerRunStart i, .rowStarvation i])
    ++ s.groups.map (fun g => .barrierComplete true g.id) ++ s.wgs.flatMap wgSteps
    ++ s.ended.map (fun e => if e.inst.isSome then .instanceEnd e.uid else .childEnd e.uid)
    ++ s.chains.map (fun k => .copyChunk (.chain k.id))
    ++ s.bundles.flatMap bundleSteps ++ s.cmds.flatMap (fun c => s.cmdSteps c)
    ++ s.batches.map (fun b => .batchAccept b.id)
    ++ s.busyCores.map (fun c => .coreActivate c)
    ++ s.dies.flatMap (fun d => dieSteps d.no)
    ++ s.queues.map (fun q => .commandFetch q.ref)
    ++ s.shootdowns.map (fun x => .shootdown x.id) ++ s.migrations.map migrationStep
    ++ s.dailies.map (fun d => .dailiesIntervalEnd d.ctl)
    ++ s.comms.flatMap (fun c => s.commSteps c)
    ++ s.ats.map (fun x => .atsInvalidation x.id x.first x.pages)
    ++ s.cores.map (fun k => .coreGate k.id)

/-- The state that an answer gives, when the step has changed something: a step that cannot be taken now leaves the state as it is. -/
def State.changed (s : State) (o : Host.Outcome State Fault Refusal) : Option State :=
  match o with
  | .next t => if t = s then none else some t
  | _ => none

/-- The two steps that `candidates` does not list: the end of a phase of a die's reset scrub, and the expiry of a PARTITION's wait. Their
constructors are among the last of `Instr`, whose values compiled code cannot build, so their meanings are called. -/
def State.lateSteps (s : State) : Option State :=
  (s.dies.findSome? (fun d => s.changed (execResetScrub d.no s))).or
    (s.cmds.findSome? (fun c => s.changed (execPartitionWaitExpiry c.uid s)))

/-- The stream of a message: its communicator, and whether a sequencer receives it. -/
def mailStream (i : Instr) : Option (Nat × Bool) :=
  match i with
  | .slateNotify n _ _ _ | .collSkip n _ _ _ | .collGo n _ _ _ _ | .collResend n _ => some (n, false)
  | .slateRequest n _ _ _ | .collCancel n _ _ _ _ | .seqReady n _ _ _ => some (n, true)
  | .seqHeartbeat x => some (x.comm, true)
  | _ => none

/-- A message can be delivered by the module itself: all but a go that needs the sources of other members, which it does not carry. -/
def State.carried (s : State) (i : Instr) : Bool :=
  match i with
  | .collGo n _ .run sources _ => (s.comm? n).all (fun c => decide (c.desc.n ≤ 1) || sources.length == c.desc.n)
  | _ => true

/-- The messages of this module to itself that may be delivered next: the first of each stream, so that a member and a sequencer receive what is
sent to them in its order (R359). -/
def State.firstMail (s : State) : List (Nat × Instr) :=
  let own := s.mail.filter (fun m => m.1 == s.ident.moduleNum)
  (own.foldl (fun (acc : List (Option (Nat × Bool)) × List (Nat × Instr)) m =>
    if acc.1.contains (mailStream m.2) then acc else (acc.1 ++ [mailStream m.2], acc.2 ++ [m])) ([], [])).2

/-- The state after the delivery of a message of this module to itself. -/
def State.deliverMail (s : State) : Option State :=
  (s.firstMail.filter (fun m => s.carried m.2)).findSome? (fun m =>
    match exec m.2 { s with mail := s.mail.erase m } with
    | .next t => some t
    | _ => none)

/-- The context for which an agent makes a step, and the uid under which it waits for the delivery of a request of it (R355). -/
def State.agentOf (s : State) (i : Instr) : Nat × Nat :=
  match i with
  | .commandFetch r => (((s.queue? r).map (·.ctx)).getD 0, 2 ^ 65 + 2 * queueNo r + (match r with | .user _ => 0 | .mgmt _ => 1))
  | .launch u | .graph u | .copy u | .cmdSignal u => (((s.cmd? u).map (·.ctx)).getD 0, u)
  | .bundleEnd b => (((s.bundle? b).map (·.ctx)).getD 0, b)
  | .instanceEnd u => (((s.ended.find? (fun e => e.uid == u)).map (·.ctx)).getD 0, u)
  | .handlerRunStart k => (match (s.nextDelivery k).bind (fun p => s.warp? p.1) with
    | some w => (w.ctx, w.uid)
    | none => (0, 2 ^ 66))
  | _ => (0, 2 ^ 66)

/-- The step of another agent, with what it reads of rows and local memory looked at for uncorrectable errors (R401). A request that no port can
send holds the step back (R355). -/
def State.event (s : State) (i : Instr) : Host.Outcome State Fault Refusal :=
  mapNext (fun t =>
    let t := s.agentStep (s.agentOf i).1 (s.agentOf i).2 t
    s.noteErrors t (s.eventReads t i)) (exec i s)

/-- The step that the module's own agents take now. -/
def State.nextEvent (s : State) : Option State :=
  ((s.candidates.findSome? (fun i => s.changed (s.event i))).or s.lateSteps).or s.deliverMail

/-! ### One clk -/

/-- A warp's stall count, serial bit and readiness after a clk (R378, R104, R101). -/
def State.tickWarp (s : State) (w : Warp) : Warp :=
  let stalls := w.alive != 0 && (s.hrun? w.loc).isNone && w.records.isEmpty && decide (w.stall < stallLimit)
  let n := w.allPcs.length
  { w with
    stall := if stalls then w.stall + 1 else w.stall
    serial := decide (9 ≤ n) || (w.serial && decide (6 < n))
    readyAt := (s.offered w).map (fun r => match w.readyAt with
      | some (h, pc, at_) => if h == r.handler && pc == r.pc then (h, pc, at_) else (r.handler, r.pc, s.clk)
      | none => (r.handler, r.pc, s.clk)) }

/-- A workgroup's runtime after a clk (R380). -/
def tickWg (g : Wg) : Wg := if g.foot.limit = 0 || g.limitHit || g.retired then g else { g with runtime := g.runtime + 1 }

/-- What a clk does outside the cores: ports come up (R422), the fabric delivers what waits for it (R355), and now and then the caches are
written back (R251, log 14). -/
def State.tickModule (s : State) : State :=
  let s := ((List.range 6).foldl (fun (s : State) d => s.raisePort d) s).pumpFabric
  if s.clk % cleanPeriod = 0 then s.cleanCaches else s

/-- One clk passes. -/
def State.tick (s : State) : State :=
  let s := ({ s with clk := s.clk + 1 } : State).tickModule
  let s := { s with warps := s.warps.map s.tickWarp }
  { s with wgs := s.wgs.map tickWg }

/-- What the step does before its clk passes: the turn that the agenda names, or the step of an agent, or the issue of a warp. -/
def State.act (s : State) : Host.Outcome State Fault Refusal :=
  match s.agenda with
  | .event i :: rest => { s with agenda := rest }.event i
  | .warp l :: rest => { s with agenda := rest, last := l }.issueWarp l
  | [] =>
    match s.nextEvent with
    | some t => .next t
    | none =>
      match s.nextWarp with
      | some l => { s with last := l }.issueWarp l
      | none => .next s

/-! ### The placing of one instruction, for a machine that is asked to run it first -/

/-- The bytes of a line that holds a slot in place 0, marked as a target, with its parity (R59, R62). -/
def placedLine (w : Nat) : List Byte :=
  let b := bytesOfNat 12 w ++ List.replicate 48 0
  b ++ bytesOfNat 4 (parOf b + 16)

/-- A workgroup of one warp whose line at address 0 holds an instruction, and the warp issues next (log 21). -/
def State.placeWord (s : State) (nbits w : Nat) : State :=
  let l : Loc := ⟨0, 0, 0, 0⟩
  let c : CoreId := ⟨0, 0⟩
  let ws := List.replicate 32 ({} : Thread)
  { s with
    agenda := [.warp l]
    ctxs := [{ no := 0, desc := { ptRoot := 0, ttBase := 0, ttCount := 0, rtCount := 0, rtBase := 0, ctBase := 0, ctCount := 0,
                                  gtBase := 0, vtBase := 0, logBase := 0, logSlice := 0, spillBase := 0, ownerPart := 0, ownerVf := 0 } }]
    cores := [{ id := c, active := true }]
    icache := [{ core := c, ctx := 0, va := 0, bytes := placedLine (w % 2 ^ nbits) }]
    wgs := [{ uid := 1, ctx := 0, core := c, slices := [0] }]
    warps := [{ loc := l, uid := 2, wg := 1, ctx := 0, threads := ws }]
    slices := [{ id := sliceOfLoc l }]
    nextUid := 3 }

end Sys2Proof.Machine
end

