-- ==== Sys2Proof/Machine/Step.lean ====
section
/-!
DEFINITION. One step of the module: its agenda's turn, or the step of an agent, or the issue of a warp, and one clk (log 2).
-/
namespace Sys2Proof.Machine
open Sys2Proof

/-- One step. -/
def step (s : State) : Host.Outcome State Fault Refusal := mapNext State.tick s.act

/-- A state whose next step fetches and runs the instruction whose bits are w (log 21). -/
def State.withFetchWord (s : State) (nbits w : Nat) : State := s.placeWord nbits w

end Sys2Proof.Machine
end

