-- ==== Sys2Proof/Safety.lean ====
section
/-!
DEFINITION. The words in which statements about the machine are made: when a run can issue an instruction, what an instruction that
passes its slot may change and what it leaves alone, and the invariants of the state.
-/
namespace Sys2Proof

/-- The uniform registers that a destination names. -/
def Dst.unis (d : Dst) (wide : Bool := false) : List Nat :=
  match d with
  | .name _ => []
  | .uni k => if wide then [k.val, k.val + 1] else [k.val]

end Sys2Proof
namespace Sys2Proof.Machine
open Sys2Proof

/-! ### When an instruction of a slot can execute -/

/-- The names of a list are mapped, so that reading them raises no UNMAPPED_NAME (R131). -/
def State.mapped (s : State) (ts : List Touch) : Bool :=
  ts.all (fun x => match x with
    | .name n => s.isMapped n
    | _ => true)

/-- A run is at the slot, the flag that CF names exists (R67), a handler run stays in its bank (R368), some thread passes the guard
(R76), and no write in flight, nor one of an instruction of another run that waits, falls on what the instruction touches (R103). -/
def State.ready (s : State) (g : Guard) (cf : Attach) (ts : List Touch) : Bool :=
  s.run != 0 && (s.flagOf cf).isSome && (!s.cur.handler || ts.all Touch.inBank) && s.executing g s.run != 0
    && (s.pendingOn ts).isEmpty && (s.toWrite g.touch).isEmpty && (s.toWrite ts).isEmpty

/-- The rows that a destination still needs can be allocated (R129). -/
def State.roomFor (s : State) (ns : List Nat) : Bool := s.cur.handler || (s.allocNames s.cur.loc ns).isSome

/-- The executing threads of an instruction under a guard. -/
def State.ex (s : State) (g : Guard) : Mask := s.executing g s.run

/-! ### What an instruction that passes its slot changes -/

/-- The names, uniform registers and predicates of the issuing bank that an instruction writes, and for each thread the sticky
flags that it raises. -/
structure Writes where
  names  : List Nat := []
  unis   : List Nat := []
  preds  : List Nat := []
  sticky : Nat → BitVec 8 := fun _ => 0

/-- What an instruction writes that computes one result, or a wide one, for each executing thread, with the sticky flags `fl`; NF = 1
raises none (R82), and a uniform destination executes the instruction once (R81). -/
def writesA (f : FmtA) (wide : Bool) (ex : Mask) (fl : Nat → BitVec 8) : Writes where
  names := f.dst.names wide
  unis := f.dst.unis wide
  sticky := fun th => if f.nf || !bitAt ex th then 0 else if f.dst.isUni then fl (lowest ex) else fl th

/-- The count of a flag of the issuing bank (R102). -/
def State.flagCount (s : State) (k : Nat) : Nat := nth (if s.cur.handler then s.myH.flags else s.me.flags) k 0

/-- The operations in flight of the issuing bank. -/
def State.ops (s : State) : List Flight := if s.cur.handler then s.myH.inflight else s.me.inflight

/-- The waits of the issuing bank. -/
def State.openWaits (s : State) : List Wait := if s.cur.handler then s.myH.waits else s.me.waits

/-- An instruction with a flag in CF holds that flag until its operation completes; with none it holds nothing (R67, R102). -/
def State.Attached (s t : State) (cf : Attach) : Prop :=
  match s.flagOf cf with
  | some (some k) =>
    t.flagCount k = s.flagCount k + 1 ∧ (∀ j, j ≠ k → t.flagCount j = s.flagCount j)
    ∧ t.ops = s.ops ++ [{ id := s.nextUid, flag := some k, load := false, writes := [], since := s.clk }]
    ∧ t.nextUid = s.nextUid + 1
  | _ => (∀ j, t.flagCount j = s.flagCount j) ∧ t.ops = s.ops ∧ t.nextUid = s.nextUid

/-- The state without the warps, the slices and the count of uids: what an instruction that computes cannot write. -/
def State.frozen (s : State) : State := { s with warps := [], slices := [], nextUid := 0 }

/-- A warp without its threads, map, registers, flags and waits. -/
def Warp.frozen (w : Warp) : Warp :=
  { w with threads := [], map := [], balance := 0, preds := [], unif := [], flags := [], waits := [], inflight := [] }

/-- A slice without its rows and its handler run. -/
def Slice.frozen (x : Slice) : Slice := { x with rows := [], hrows := [], handler := none }

/-- A handler run without its PC, registers, flags and waits. -/
def HRun.frozen (h : HRun) : HRun :=
  { h with pc := 0, pos := 0, arrived := false, unif := [], preds := 0, flags := [], waits := [], inflight := [] }

/-- Nothing outside the issuing warp, its handler run and its slice differs between two states, and in those only what an instruction
that computes may write: a run of the program leaves the handler rows and the handler run alone, a handler run the warp and the
program rows. -/
structure State.SameRest (s t : State) : Prop where
  rest    : t.frozen = s.frozen
  warps   : ∀ l, l ≠ s.cur.loc ∨ s.cur.handler = true → t.warp? l = s.warp? l
  slices  : ∀ i, i ≠ sliceOfLoc s.cur.loc → t.slice i = s.slice i
  warp    : t.me.frozen = s.me.frozen
  slice   : (t.slice (sliceOfLoc s.cur.loc)).frozen = (s.slice (sliceOfLoc s.cur.loc)).frozen
  program : s.cur.handler = false → (t.slice (sliceOfLoc s.cur.loc)).hrows = (s.slice (sliceOfLoc s.cur.loc)).hrows
              ∧ (t.slice (sliceOfLoc s.cur.loc)).handler = (s.slice (sliceOfLoc s.cur.loc)).handler
  rows    : s.cur.handler = true → (t.slice (sliceOfLoc s.cur.loc)).rows = (s.slice (sliceOfLoc s.cur.loc)).rows
  handler : t.myH.frozen = s.myH.frozen

/-- The registers, predicates, names and rows that an instruction does not write are as before. A name that it allocates maps a row
that no name mapped and that was not in use (R129). -/
structure State.SameBank (s t : State) (w : Writes) : Prop where
  unis  : ∀ k, k ∉ w.unis → t.uni k = s.uni k
  preds : ∀ p, p ∉ w.preds → ∀ th, t.pred p th = s.pred p th
  maps  : s.cur.handler = false → ∀ n, (n ∉ w.names ∨ s.isMapped n = true) → t.me.mapOf n = s.me.mapOf n
  fresh : s.cur.handler = false → ∀ n r, n ∈ w.names → s.me.mapOf n = none → t.me.mapOf n = some r →
            (s.slice (sliceOfLoc s.cur.loc)).row? r = none
  rows  : s.cur.handler = false → ∀ r, (∀ n, n ∈ w.names → t.me.mapOf n ≠ some r) →
            (t.slice (sliceOfLoc s.cur.loc)).row? r = (s.slice (sliceOfLoc s.cur.loc)).row? r
  kept  : ∀ r, ((s.slice (sliceOfLoc s.cur.loc)).row? r).isSome = true →
            ((t.slice (sliceOfLoc s.cur.loc)).row? r).isSome = true
  elems : s.cur.handler = true → ∀ n, n ∉ w.names → ∀ th, t.elem n th = s.elem n th

/-- What an instruction of a slot leaves when its run goes on: every thread of the run takes its next PC, having passed the slot (R66,
R98), the others stay, and nothing is written but what `w` lists, and flags and operations in flight. -/
structure State.Moves (s t : State) (w : Writes) (next : Nat → Word) : Prop where
  same     : s.SameRest t
  bank     : s.SameBank t w
  threads  : s.cur.handler = false → ∀ th, th < 32 → t.me.thread th =
               if bitAt s.run th then
                 { s.me.thread th with
                   pc := next th, pos := (s.me.thread th).pos + 1, pass := false, arrived := false,
                   fflags := (s.me.thread th).fflags ||| w.sticky th }
               else s.me.thread th
  waits    : s.cur.handler = false → t.me.waits = s.me.waits.filter (fun x => (t.me.runAt x.pc &&& x.mask) != 0)
  hpc      : s.cur.handler = true → t.myH.pc = next s.myH.thread ∧ t.myH.pos = s.myH.pos + 1 ∧ t.myH.arrived = false
               ∧ t.myH.waits = s.myH.waits.filter (fun x => x.pc != s.cur.pc)

/-- THE FRAME of an instruction that has had its effect when it passes: it holds the flag of its CF, and has no other operation in
flight. -/
structure State.PassedTo (s t : State) (cf : Attach) (w : Writes) (next : Nat → Word) : Prop extends State.Moves s t w next where
  attached : s.Attached t cf

/-- The frame of an instruction whose successor is the next slot. -/
abbrev State.Passed (s t : State) (cf : Attach) (w : Writes) : Prop := s.PassedTo t cf w (fun _ => succPc s.cur.pc)

/-- An address is a legal target of a transfer: a slot address of a line that the core holds, consistent and with no reserved bit, whose
slot is marked in TGT and holds HDR (R61, R62, R70). -/
def State.legalTarget (s : State) (a : Word) : Bool :=
  isSlotAddr a.toNat && decide (a.toNat < 2 ^ 56) && (match s.icLine s.myCore s.myCtx (a.toNat / 64 * 64) with
    | some l => parFails l.bytes == 0 && decide (lineWord l.bytes / 4096 = 0) && lineTgt l.bytes (a.toNat % 64 / 12)
        && fieldNat (lineSlot l.bytes (a.toNat % 64 / 12)) 0 8 == 1
    | none => false)

/-- An address is no legal target of a direct transfer, for the reason of a code (R61, R70, R71): it is no slot address, or the slot there, in a
line that the core holds, is no marked header. -/
def State.badTarget (s : State) (a : Word) (code : Nat) : Prop :=
  (code = 0x03 ∧ isSlotAddr a.toNat = false)
  ∨ (code = 0x04 ∧ isSlotAddr a.toNat = true ∧ a.toNat < 2 ^ 56 ∧ ∃ l, s.icLine s.myCore s.myCtx (a.toNat / 64 * 64) = some l
      ∧ parFails l.bytes = 0 ∧ lineWord l.bytes < 4096
      ∧ (lineTgt l.bytes (a.toNat % 64 / 12) = false ∨ fieldNat (lineSlot l.bytes (a.toNat % 64 / 12)) 0 8 ≠ 1))

/-- THE FRAME of a fault (R93, R107, R362): the threads of `m` are parked at `ppc`, one record of them is queued, the other threads of
the run pass the slot, and nothing else changes. -/
structure State.Parks (s t : State) (m : Mask) (code : Nat) (ppc i0 i1 : Word) : Prop where
  program : s.cur.handler = false
  rest    : t.frozen = s.frozen ∧ t.nextUid = s.nextUid ∧ t.slices = s.slices
  warps   : ∀ l, l ≠ s.cur.loc → t.warp? l = s.warp? l
  warp    : { t.me with threads := [], waits := [], records := [] } = { s.me with threads := [], waits := [], records := [] }
  threads : ∀ th, th < 32 → t.me.thread th =
              if bitAt m th then
                { s.me.thread th with
                  st := .parked, pc := ppc, pos := if ppc = s.cur.pc then (s.me.thread th).pos else (s.me.thread th).pos + 1
                  pass := if ppc = s.cur.pc then (s.me.thread th).pass else false
                  arrived := false }
              else if bitAt s.run th then
                { s.me.thread th with pc := succPc s.cur.pc, pos := (s.me.thread th).pos + 1, pass := false, arrived := false }
              else s.me.thread th
  records : t.me.records = s.me.records ++
              [{ mask := m, code := code, fpc := s.cur.pc, ppc := ppc, bits := s.cur.bits,
                 vals := (maskList m).map (fun th => (th, i0, i1)) }]

/-- A DOUBLE FAULT (R370): a fault of a handler run ends it and kills every thread of its warp, whose records are dropped and whose end
is faulted; the host is sent an event. -/
structure State.DoubleFaults (s t : State) : Prop where
  handler : t.hrun? s.cur.loc = none
  threads : ∀ th, th < 32 → (t.me.thread th).st = .exited
  records : t.me.records = []
  ended   : t.me.endClass = .faulted
  event   : ∃ c n, t.hostEvents = s.hostEvents ++ [.doubleFault c s.me.ctx n]
  warps   : ∀ l, l ≠ s.cur.loc → t.warp? l = s.warp? l

/-- A predicate is written in the executing threads alone (R109). -/
def State.Predicate (s t : State) (ex : Mask) (p : Nat) (v : Nat → Bool) : Prop :=
  (∀ th, bitAt ex th = true → t.pred p th = v th)
  ∧ (s.cur.handler = false → ∀ th, th < 32 → bitAt ex th = false → t.pred p th = s.pred p th)

/-- A run waits in its instruction, which has had no effect but to set its flag (R102): its warp, or its handler run, has that wait, and nothing
else differs. -/
structure State.WaitsIn (s t : State) (k : WaitKind) (flag : Option Nat := none) : Prop where
  rest   : t.frozen = s.frozen ∧ t.nextUid = s.nextUid
  warps  : ∀ l, l ≠ s.cur.loc ∨ s.cur.handler = true → t.warp? l = s.warp? l
  slices : ∀ i, i ≠ sliceOfLoc s.cur.loc ∨ s.cur.handler = false → t.slice i = s.slice i
  warp   : { t.me with waits := [] } = { s.me with waits := [] }
  hrun   : { t.myH with waits := [] } = { s.myH with waits := [] }
  waits  : ∃ since, t.openWaits = s.openWaits.filter (fun x => x.pc != s.cur.pc) ++
             [{ pc := s.cur.pc, mask := s.run, kind := k, since := since, flag := flag }]

/-- A map edit can execute (R134): a run of the program holds every running thread of its warp, and no thread is parked. -/
def State.editReady (s : State) : Prop :=
  s.cur.handler = false ∧ s.run ≠ 0 ∧ s.me.inState .running = s.run ∧ s.me.inState .parked = 0

/-- THE FRAME of a change of the map by the issuing warp (R135): its threads pass the slot, each name n maps `map n` afterwards, no row
data changes, and outside the warp's map, its balance and its predicates `preds`, the slice's rows and mailboxes, and the balances of the
warps charged for rows, nothing changes. -/
structure State.MapEdited (s t : State) (preds : List Nat) (map : Nat → Option Nat) : Prop where
  rest    : t.frozen = s.frozen ∧ t.nextUid = s.nextUid
  slices  : ∀ i, i ≠ sliceOfLoc s.cur.loc → t.slice i = s.slice i
  slice   : { t.slice (sliceOfLoc s.cur.loc) with rows := [], mailboxes := [] }
              = { s.slice (sliceOfLoc s.cur.loc) with rows := [], mailboxes := [] }
  warps   : ∀ l w, l ≠ s.cur.loc → s.warp? l = some w → ∃ v, t.warp? l = some v ∧ { v with balance := w.balance } = w
  warp    : { t.me with threads := [], map := [], balance := 0, waits := [], preds := [] }
              = { s.me with threads := [], map := [], balance := 0, waits := [], preds := [] }
  preds   : ∀ p, p ∉ preds → ∀ th, t.pred p th = s.pred p th
  threads : ∀ th, th < 32 → t.me.thread th =
              if bitAt s.run th then
                { s.me.thread th with pc := succPc s.cur.pc, pos := (s.me.thread th).pos + 1, pass := false, arrived := false }
              else s.me.thread th
  names   : ∀ n, n < 128 → t.me.mapOf n = map n
  data    : ∀ r y, (t.slice (sliceOfLoc s.cur.loc)).row? r = some y →
              ∃ x, (s.slice (sliceOfLoc s.cur.loc)).row? r = some x ∧ y.data = x.data

/-- The rows of a slice have numbers of their own, and each one is held. -/
def Slice.RowsHeld (x : Slice) : Prop := (x.rows.map (·.no)).Nodup ∧ ∀ y, y ∈ x.rows → 0 < y.holders

/-- Two names of the issuing bank hold the same row: writing one writes the other. -/
def State.sameRow (s : State) (n m : Nat) : Bool := !s.cur.handler && s.me.mapOf n == s.me.mapOf m

/-- A destination holds a result: in a vector name the element of each executing thread, and the others as before; in a uniform
register the result of the lowest executing thread (R81). A wide result takes two names or registers, the second written last. -/
def State.Holds (s t : State) (ex : Mask) (d : Dst) (wide : Bool) (lo hi : Nat → Word) : Prop :=
  match d with
  | .name n =>
    (∀ th, th < 32 → t.elem n.val th =
      if bitAt ex th then (if wide && t.sameRow n.val (n.val + 1) then hi th else lo th) else s.elem n.val th)
    ∧ (wide = true → ∀ th, th < 32 → t.elem (n.val + 1) th =
      if bitAt ex th then hi th else s.elem (n.val + 1) th)
  | .uni k => t.uni k.val = lo (lowest ex) ∧ (wide = true → t.uni (k.val + 1) = hi (lowest ex))

/-- THE COMPLETION OF A COMPUTATION: an instruction of format A that is ready, whose sources are mapped and whose destination has rows,
answers a next state; every thread of the run passes the slot, nothing else changes but the destination and the sticky flags `fl`, and
the destination of each executing thread th holds two words that satisfy `res` (the second one is written when the result is wide). -/
def Computes (i : Instr) (f : FmtA) (reads : List Touch) (wide : Bool) (ok : State → Nat → Prop) (fl : State → Nat → BitVec 8)
    (res : State → Nat → Word → Word → Prop) : Prop :=
  ∀ s : State, s.ready f.guard f.cf (reads ++ f.dst.touch wide) = true → s.mapped reads = true →
    s.roomFor (f.dst.names wide) = true → (∀ th, bitAt (s.ex f.guard) th = true → ok s th) →
    ∃ t lo hi, exec i s = .next t ∧ s.Passed t f.cf (writesA f wide (s.ex f.guard) (fl s))
      ∧ s.Holds t (s.ex f.guard) f.dst wide lo hi ∧ ∀ th, bitAt (s.ex f.guard) th = true → res s th (lo th) (hi th)

/-- Element k of a source of an integer instruction, as a number of its type (R176). -/
def State.intElem (s : State) (f : FmtA) (o : Src) (th k : Nat) : Int :=
  intVal f.ty.isI (intShape f.ty).1 (elemOf (intShape f.ty).1 (s.srcA f o th) k)

/-- Element k of a source, as its bits. -/
def State.bitsElem (s : State) (f : FmtA) (o : Src) (th k : Nat) : Nat := elemOf (intShape f.ty).1 (s.srcA f o th) k

/-- A word has the given elements of a type, and no bit beyond them. -/
def HasElems (ty : Ty) (r : Word) (g : Nat → Nat) : Prop :=
  r.toNat < 2 ^ ((intShape ty).1 * (intShape ty).2) ∧ ∀ k, k < (intShape ty).2 → elemOf (intShape ty).1 r k = g k

/-- The completion of a floating-point instruction on a point type: each element of the result is that of `g`, and the flags of all
elements are raised (R153, R198). -/
def PointCompletes (i : Instr) (f : FmtA) (reads : List Touch) (g : State → Nat → Nat → FRes) : Prop :=
  f.ty.isIv = false → Computes i f reads false (fun _ _ => True)
    (fun s th => ((List.range (pointFmt f.ty).2.2).map (g s th)).foldl (fun acc r => acc ||| r.flags) 0)
    (fun s th r _ => r.toNat < 2 ^ ((pointFmt f.ty).2.1 * (pointFmt f.ty).2.2)
      ∧ ∀ k, k < (pointFmt f.ty).2.2 → elemOf (pointFmt f.ty).2.1 r k = (g s th k).bits % 2 ^ (pointFmt f.ty).2.1)

/-- Element k of a source of a point type, as its code. -/
def State.fElem (s : State) (f : FmtA) (o : Src) (th k : Nat) : Nat := elemOf (pointFmt f.ty).2.1 (s.srcA f o th) k

/-- The completion of an instruction on intervals (R168, R170, R199): when no operand is malformed, the result is the interval that `g`
gives; an empty result completes under .e, which writes canonical empty and raises EM. -/
def IntervalCompletes (i : Instr) (f : FmtA) (reads : List Touch) (ops : State → Nat → List Iv) (g : State → Nat → IvOut) : Prop :=
  f.ty.isIv = true → Computes i f reads (f.ty == .iv64)
    (fun s th => (∀ x, x ∈ ops s th → (boundFmt f.ty).ivWf x = true) ∧ (bitAt f.fn 3 = true ∨ g s th ≠ none))
    (fun s th => match g s th with
      | some (_, fl) => fl
      | none => flEM)
    (fun s th r hi => (r, hi) = ivWords f.ty (match g s th with
      | some (x, _) => x
      | none => (boundFmt f.ty).emptyIv))

/-! ### Memory as an instruction meets it -/

/-- The byte that a thread of the issuing core reads at a location of this module's memory: a dirty byte of the core's L1, else what its
line was filled with, else the byte at home (R243). -/
def State.seenByte (s : State) (a : Nat) : Byte :=
  match s.lineOf (s.l1Owner s.myCore) (a / 256) with
  | some l => (lookupKey l.dirty (a % 256)).getD (match l.fill with
    | some f => nth f (a % 256) 0
    | none => s.byteAt a)
  | none => s.byteAt a

/-- The bytes that a thread reads. -/
def State.seenBytes (s : State) (a n : Nat) : List Byte := (List.range n).map (fun i => s.seenByte (a + i))

/-- An access of n bytes at a location, by a tag, lies in one tile of this module's memory, and no line of another context or tag holds it
(R242). -/
def State.near (s : State) (tag : LineTag) (a n : Nat) : Bool :=
  isLocal a && decide (a % 256 + n ≤ 256) && (match s.lineOf (s.l1Owner s.myCore) (a / 256) with
    | some l => l.ctx == s.myCtx && l.tag == tag
    | none => true)

/-- The location of a naturally aligned access that translates, with permission (R255), to this module's memory. -/
def State.located (s : State) (ea : Word) (n : Nat) (write : Bool) : Option Nat :=
  if ea.toNat % n = 0 then
    match s.translate s.myCore s.myCtx ea.toNat with
    | some p =>
      if (!write || pteW p.entry) && s.near (.linear (ea.toNat / 256)) (p.loc ea.toNat) n then some (p.loc ea.toNat) else none
    | none => none
  else none

/-- The accesses of the threads of one run lose no translation that the core has cached: its die caches every entry of the core (R233), and has
room for those that the run adds. -/
def State.tlbRoom (s : State) : Bool :=
  s.tlb.all (fun x => x.core != s.myCore || s.tlb2For x.core x.ctx (x.page * 65536) == some x)
    && decide ((s.tlb2.filter (fun x => x.core.die == s.myCore.die)).length ≤ 8128)

/-- The issuing core's L1, and the L2 of its die, have room for the lines that the threads of one run bring to them (R11). -/
def State.cacheRoom (s : State) : Bool :=
  decide ((s.l1.filter (fun l => l.core == s.l1Owner s.myCore)).length ≤ 896)
    && decide ((s.l2.filter (fun l => l.die == s.myCore.die)).length + 128 ≤ l2Lines)

/-- A release is performed at once (R240, R248, R356): no page's writes are stalled, nothing waits for the fabric, and what the caches hold for
other modules can be delivered. -/
def State.releasable (s : State) : Prop :=
  s.migrations = [] ∧ s.undeliv = []
  ∧ (s.fabricUp = true ∨ ((∀ l, l ∈ s.l1 → isFabric (l.tile * 256) = true → l.dirty = [])
      ∧ ∀ l, l ∈ s.l2 → isFabric (l.tile * 256) = true → l.dirty = []))

/-- The state with the memory system of another one: memory, caches, translations, sketches and check registers. -/
def State.withMemoryOf (s t : State) : State :=
  { s with mem := t.mem, l1 := t.l1, l2 := t.l2, tlb := t.tlb, tlb2 := t.tlb2, dailies := t.dailies, ctxs := t.ctxs, poison := t.poison,
           migrations := t.migrations, refusals := t.refusals, undeliv := t.undeliv, atc := t.atc }

/-- An operation that returns values goes into flight with the flag of its CF and its writes bound (R102, R130). -/
def State.Flies (s t : State) (cf : Attach) (writes : List (FlightDst × Word)) : Prop :=
  t.ops = s.ops ++ [{ id := s.nextUid, flag := (s.flagOf cf).join, load := true, writes := writes, since := s.clk }]
  ∧ t.nextUid = s.nextUid + 1
  ∧ ∀ k, t.flagCount k = s.flagCount k + (if (s.flagOf cf).join = some k then 1 else 0)

/-- No line of the issuing core's L1 is dirty. -/
def State.noDirty (s : State) : Prop := ∀ l, l ∈ s.l1 → l.core = s.l1Owner s.myCore → l.dirty = []

/-- The threads that make an access: the executing ones, or the lowest of them for a uniform destination (R260). -/
def State.accessors (s : State) (f : FmtM) : List Nat := memThreads f.dst.isUni (s.ex f.guard)

/-! ### Engine queues as an instruction meets them -/

/-- The allotments of the issuing workgroup admit the tag and the guard slot of a command (R87). -/
def Wg.Permits (g : Wg) (f : FmtE) : Prop :=
  (∀ x, f.tag = some x → x.val < g.tags.length) ∧ (∀ k, f.slot = some k → k.val < g.guards.length)

/-- A command can be entered at once: its queue has a place, and no run waits for one (R267). -/
def State.placeFor (s : State) (cmd : Instr) (f : FmtE) : Bool :=
  s.hasRoom s.me.wg { uid := 0, cmd := cmd, a := 0, b := 0, c := 0, warp := 0 } && (s.queueWaits s.me.wg f.queue).isEmpty

/-- THE ENTRY OF A COMMAND (R267, R270, R274, R102): its entry, with the operands read at the issue and bound to the current generation of
its guard slot, is the last of its queue; its tag counts one more; its flag is set until it completes; nothing else of the workgroup
changes, and no other workgroup does. -/
structure State.Entered (s t : State) (cmd : Instr) (f : FmtE) (e : QEntry) : Prop where
  entry : e.cmd = cmd ∧ e.a = s.usrc f.sa f.imm ∧ e.b = s.usrc f.sb f.imm ∧ e.c = s.usrc f.sc f.imm ∧ e.warp = s.me.uid
            ∧ e.started = false ∧ e.progress = 0 ∧ e.accepted = false ∧ e.outcome = none
  guard : ∀ g, s.wg? s.me.wg = some g → e.guardGen = f.slot.map (fun k => (k.val, g.currentGen k.val))
  wg    : ∀ g, s.wg? s.me.wg = some g → ∃ v, t.wg? s.me.wg = some v ∧ v.queue f.queue = g.queue f.queue ++ [e]
            ∧ (∀ q, q ≠ f.queue → v.queue q = g.queue q)
            ∧ (∀ k, nth v.tags k {} = if f.tag.map (·.val) = some k
                then { nth g.tags k {} with
                       pending := (nth g.tags k {}).pending + 1
                       status := if (nth g.tags k {}).pending = 0 then 0 else (nth g.tags k {}).status
                       fcode := if (nth g.tags k {}).pending = 0 then 0 else (nth g.tags k {}).fcode
                       trappend := if (nth g.tags k {}).pending = 0 then false else (nth g.tags k {}).trappend
                       code := if (nth g.tags k {}).pending = 0 then 0 else (nth g.tags k {}).code
                       pod := cmd.isColl || ((nth g.tags k {}).pending != 0 && (nth g.tags k {}).pod) }
                else nth g.tags k {})
            ∧ { v with queues := [], tags := [] } = { g with queues := [], tags := [] }
  wgs   : ∀ u, u ≠ s.me.wg → t.wg? u = s.wg? u
  flags : ∀ k, t.flagCount k = s.flagCount k + (if (s.flagOf f.cf).join = some k then 1 else 0)
  ops   : t.ops = s.ops

/-- An entry leaves its queue with a status, a fault code and perhaps a trap request (R270, R271, R276): its tag counts one less, keeps the
highest status and, of fault codes and trap codes, the lowest; nothing else of the workgroup changes, and no other workgroup does. -/
def State.EntryLeaves (s t : State) (u : Nat) (q : QueueName) (e : QEntry) (st code : Nat) (trap : Bool) : Prop :=
  (∀ g, s.wg? u = some g → ∃ v, t.wg? u = some v ∧ v.queue q = (g.queue q).filter (fun x => x.uid != e.uid)
    ∧ (∀ p, p ≠ q → v.queue p = g.queue p)
    ∧ (∀ k, nth v.tags k {} = if e.fields.tag.map (·.val) = some k ∧ k < g.tags.length then
        let o := nth g.tags k {}
        { o with
          pending := o.pending - 1
          status := max o.status st
          fcode := if st = 2 then (if o.fcode = 0 then code else min o.fcode code) else o.fcode
          trappend := o.trappend || trap
          code := if trap then (if o.trappend then min o.code code else code) else o.code }
        else nth g.tags k {})
    ∧ { v with queues := [], tags := [] } = { g with queues := [], tags := [] })
  ∧ (∀ p, p ≠ u → t.wg? p = s.wg? p) ∧ t.mem = s.mem

/-- An event that changes one workgroup alone. -/
def State.WgOnly (s t : State) (u : Nat) : Prop :=
  t = { s with wgs := t.wgs, cores := t.cores } ∧ ∀ p, p ≠ u → t.wg? p = s.wg? p

/-- A range of n bytes at an address lies in one page of 64 KiB that translates for a core and a context, with permission, to locations
of this module's memory, the first of which is a. -/
def State.onePage (s : State) (c : CoreId) (ctx : Nat) (va : Word) (n : Nat) (write : Bool) (a : Nat) : Prop :=
  va.toNat % 65536 + n ≤ 65536 ∧ a + n ≤ fabricBase
    ∧ ∃ p, s.translate c ctx va.toNat = some p ∧ (write = true → pteW p.entry = true) ∧ p.loc va.toNat = a

/-- No write is held, logged or dirty that an engine of a core would meet for a context. -/
def State.Quiet (s : State) (c : CoreId) (ctx : Nat) : Prop :=
  (∀ l, l ∈ s.l1 → l.core = s.l1Owner c → l.dirty = []) ∧ s.migrations = [] ∧ ∀ x, s.ctx? ctx = some x → x.interval = none

/-- The threads of a mask have passed a slot at which they waited, in a warp that was w; no run waits at the slot any longer. -/
def WaitPassed (w v : Warp) (pc : Word) (m : Mask) : Prop :=
  (∀ th, th < 32 → v.thread th = if bitAt m th then
    { w.thread th with pc := succPc pc, pos := (w.thread th).pos + 1, pass := false, arrived := false } else w.thread th)
  ∧ ∀ y, y ∈ v.waits → y.pc ≠ pc

/-- A run of a warp waits at a slot, whole as it issued. -/
def State.WaitsAt (s : State) (l : Loc) (w : Warp) (x : Wait) : Prop :=
  s.warp? l = some w ∧ w.waits.find? (fun y => y.pc == x.pc) = some x ∧ w.runAt x.pc = x.mask

/-! ### Invariants -/

/-- The memory has its canonical form. -/
def State.memWf (s : State) : Prop := Memory.wf s.mem = true

end Sys2Proof.Machine
end

