-- ==== Sys2Proof/Certificates/Slice0/Obligations.lean ====
section
/-!
DEFINITION. The statements about the machine that the provers are asked to prove. Each docstring names the rules of spec/ that the
statement formalises, or the log entry of the model's own choice on which it rests.
-/
open Sys2Proof Sys2Proof.Machine

/-! ### Integer instructions (09) -/

/-- R177, R179, R181: IADD, ISUB, IMUL, IMULH, IMAD, IMIN, IMAX and IABS complete, and each element of the result is the exact value of the
operation on the elements of the sources, wrapped to the type, or clamped under .sat. -/
def Obligations.IntegerArithmetic : Prop :=
  ∀ f : FmtA,
    let W := (intShape f.ty).1
    let narrow := fun (v : Int) => if f.fn = 1 then satInt f.ty.isI W v else wrapInt W v
    let binary := fun (i : Instr) (g : Int → Int → Nat) =>
      Computes i f (f.sa.touch ++ f.sb.touch) false (fun _ _ => True) (fun _ _ => 0) (fun s th r _ =>
        HasElems f.ty r (fun k => g (s.intElem f f.sa th k) (s.intElem f f.sb th k)))
    binary (.iadd f) (fun x y => narrow (x + y))
    ∧ binary (.isub f) (fun x y => narrow (x - y))
    ∧ (f.fn ≠ 2 → binary (.imul f) (fun x y => narrow (x * y)))
    ∧ binary (.imulh f) (fun x y => wrapInt W (x * y / 2 ^ W))
    ∧ binary (.imin f) (fun x y => wrapInt W (if x ≤ y then x else y))
    ∧ binary (.imax f) (fun x y => wrapInt W (if x ≤ y then y else x))
    ∧ Computes (.imad f) f (f.sa.touch ++ f.sb.touch ++ f.sc.touch) false (fun _ _ => True) (fun _ _ => 0) (fun s th r _ =>
        HasElems f.ty r (fun k => narrow (s.intElem f f.sa th k * s.intElem f f.sb th k + s.intElem f f.sc th k)))
    ∧ (f.ty.isI = true → Computes (.iabs f) f f.sa.touch false (fun _ _ => True) (fun _ _ => 0) (fun s th r _ =>
        HasElems f.ty r (fun k =>
          let x := s.intElem f f.sa th k
          if x = -(2 ^ (W - 1)) then (if f.fn = 1 then 2 ^ (W - 1) - 1 else 2 ^ (W - 1)) else x.natAbs)))

/-- R177, R178: IMUL.wide writes the exact 64-bit product of two 32-bit numbers. IADDC adds its operands and a carry predicate, which are
read before it writes the sum and the carry out. R180: IDIV truncates the quotient toward zero and IREM takes the dividend's sign; a zero
divisor and the one signed overflow give the listed values, and nothing faults. -/
def Obligations.CarryAndDivision : Prop :=
  ((∀ f : FmtA, f.fn = 2 → (f.ty = .i32 ∨ f.ty = .n32) →
    Computes (.imul f) f (f.sa.touch ++ f.sb.touch) false (fun _ _ => True) (fun _ _ => 0) (fun s th r _ =>
      (if f.ty = .i32 then r.toInt else (r.toNat : Int)) = s.intElem f f.sa th 0 * s.intElem f f.sb th 0))
  ∧ (∀ (f : FmtA) (n : Fin 128) (s : State), f.dst = .name n → f.fn.toNat < 12 → (f.ty = .n32 ∨ f.ty = .n64) →
    s.ready f.guard f.cf (f.sa.touch ++ f.sb.touch ++ f.dst.touch ++ [.pred f.fn.toNat]) = true →
    s.mapped (f.sa.touch ++ f.sb.touch) = true → s.roomFor [n.val] = true →
    let W := (intShape f.ty).1
    let sum := fun (th : Nat) =>
      s.bitsElem f f.sa th 0 + s.bitsElem f f.sb th 0 + (if s.pred f.fn.toNat th = true then 1 else 0)
    ∃ t, exec (.iaddc f) s = .next t ∧ s.Passed t f.cf { names := [n.val], preds := [f.fn.toNat] }
      ∧ (∀ th, bitAt (s.ex f.guard) th = true → (t.elem n.val th).toNat = sum th % 2 ^ W
          ∧ t.pred f.fn.toNat th = decide (2 ^ W ≤ sum th))
      ∧ (∀ th, th < 32 → bitAt (s.ex f.guard) th = false → t.elem n.val th = s.elem n.val th
          ∧ (s.cur.handler = false → t.pred f.fn.toNat th = s.pred f.fn.toNat th))))
  ∧ (∀ f : FmtA,
    let W := (intShape f.ty).1
    let divides := fun (i : Instr) (g : Int → Int → Int) =>
      Computes i f (f.sa.touch ++ f.sb.touch) false (fun _ _ => True) (fun _ _ => 0) (fun s th r _ =>
        HasElems f.ty r (fun k => wrapInt W (g (s.intElem f f.sa th k) (s.intElem f f.sb th k))))
    divides (.idiv f) (fun x y =>
      if y = 0 then (if f.ty.isI = true then -1 else 2 ^ W - 1)
      else if f.ty.isI = true ∧ x = -(2 ^ (W - 1)) ∧ y = -1 then x
      else x.tdiv y)
    ∧ divides (.irem f) (fun x y =>
      if y = 0 then x else if f.ty.isI = true ∧ x = -(2 ^ (W - 1)) ∧ y = -1 then 0 else x - x.tdiv y * y))

/-- R182, R183, R185: BFN applies its table to every bit; the shifts and the rotation, POPC, CLZ and BREV work on elements. R184: BFE
extracts the field that its descriptor names, cut at W and sign-extended for iN, and BFI replaces it. -/
def Obligations.BitInstructions : Prop :=
  (∀ f : FmtA,
    let W := (intShape f.ty).1
    let unary := fun (i : Instr) (p : Nat → Nat → Prop) =>
      Computes i f f.sa.touch false (fun _ _ => True) (fun _ _ => 0) (fun s th r _ =>
        ∀ k, k < (intShape f.ty).2 → p (s.bitsElem f f.sa th k) (elemOf W r k))
    let shift := fun (i : Instr) (g : Nat → Nat → Nat) =>
      Computes i f (f.sa.touch ++ f.sb.touch) false (fun _ _ => True) (fun _ _ => 0) (fun s th r _ =>
        HasElems f.ty r (fun k => g (s.bitsElem f f.sa th k) (s.bitsElem f f.sb th k)))
    (f.ty.isInt = true → Computes (.bfn f) f (f.sa.touch ++ f.sb.touch ++ f.sc.touch) false (fun _ _ => True) (fun _ _ => 0)
      (fun s th r _ => ∀ j, j < 64 → bitAt r j = (decide (j < W * (intShape f.ty).2) &&
        f.imm.getLsbD ((if bitAt (s.srcA f f.sa th) j then 1 else 0) + 2 * (if bitAt (s.srcA f f.sb th) j then 1 else 0)
          + 4 * (if bitAt (s.srcA f f.sc th) j then 1 else 0)))))
    ∧ shift (.shl f) (fun x n => if n < W then x * 2 ^ n % 2 ^ W else 0)
    ∧ shift (.shr f) (fun x n => if n < W then x / 2 ^ n else 0)
    ∧ Computes (.sar f) f (f.sa.touch ++ f.sb.touch) false (fun _ _ => True) (fun _ _ => 0) (fun s th r _ =>
        HasElems f.ty r (fun k =>
          let x := intVal true W (s.bitsElem f f.sa th k)
          let n := s.bitsElem f f.sb th k
          wrapInt W (if n < W then x / 2 ^ n else if x < 0 then -1 else 0)))
    ∧ Computes (.rotl f) f (f.sa.touch ++ f.sb.touch) false (fun _ _ => True) (fun _ _ => 0) (fun s th r _ =>
        ∀ k, k < (intShape f.ty).2 → ∀ i, i < W →
          (elemOf W r k).testBit ((i + s.bitsElem f f.sb th k) % W) = (s.bitsElem f f.sa th k).testBit i)
    ∧ unary (.popc f) (fun x r => r = ((List.range W).filter (fun i => x.testBit i)).length)
    ∧ unary (.clz f) (fun x r => (x = 0 → r = W) ∧ (x ≠ 0 → r < W ∧ 2 ^ (W - 1 - r) ≤ x ∧ x < 2 ^ (W - r)))
    ∧ unary (.brev f) (fun x r => r < 2 ^ W ∧ ∀ i, i < W → r.testBit (W - 1 - i) = x.testBit i))
  ∧ (∀ f : FmtA, f.ty.isWhole = true →
    let W := (intShape f.ty).1
    let pos := fun (d : Word) => fieldNat d 0 8
    let stop := fun (d : Word) => min (fieldNat d 0 8 + fieldNat d 8 8) W
    Computes (.bfe f) f (f.sa.touch ++ f.sb.touch) false (fun _ _ => True) (fun _ _ => 0) (fun s th r _ =>
      let a := s.srcA f f.sa th
      let d := s.srcA f f.sb th
      ∀ j, j < 64 → bitAt r j = (decide (j < W) &&
        (if W ≤ pos d ∨ fieldNat d 8 8 = 0 then false
         else if j < stop d - pos d then bitAt a (pos d + j)
         else f.ty.isI && bitAt a (stop d - 1))))
    ∧ Computes (.bfi f) f (f.sa.touch ++ f.sb.touch ++ f.sc.touch) false (fun _ _ => True) (fun _ _ => 0) (fun s th r _ =>
      let a := s.srcA f f.sa th
      let b := s.srcA f f.sb th
      let d := s.srcA f f.sc th
      ∀ j, j < 64 → bitAt r j = (decide (j < W) &&
        (if pos d ≤ j ∧ j < stop d then bitAt a (j - pos d) else bitAt b j))))

/-- R186 to R191 and R125: SEL, LEA, MOVI, P2S, VREAD, REDUX and SHFL complete and write what they select, form, read or combine. -/
def Obligations.DataMovement : Prop :=
  ∀ f : FmtA,
    let wide := f.ty == .iv64
    let both := fun (s : State) (o : Src) (th : Nat) => (typeBits f.ty (s.srcA f o th), s.srcHi o th (immOf f.ty f.imm))
    Computes (.sel f) f (f.sa.touch wide ++ f.sb.touch wide ++ [.pred f.fn.toNat]) wide (fun _ _ => True) (fun _ _ => 0) (fun s th r hi =>
      (r, hi) = (if s.pred f.fn.toNat th = true then both s f.sa th else both s f.sb th))
    ∧ Computes (.lea f) f (f.sa.touch ++ f.sb.touch) false (fun _ _ => True) (fun _ _ => 0) (fun s th r _ =>
      let idx : Word := match f.ty with
        | .i32 => ((s.srcA f f.sb th).setWidth 32).signExtend 64
        | .n32 => ((s.srcA f f.sb th).setWidth 32).setWidth 64
        | _ => s.srcA f f.sb th
      r = s.srcA f f.sa th + idx * BitVec.ofNat 64 (2 ^ f.fn.toNat) + f.imm.signExtend 64)
    ∧ (f.fn = 0 → Computes (.movi f) f [] wide (fun _ _ => True) (fun _ _ => 0) (fun _ _ r hi =>
      r = immOf f.ty f.imm ∧ hi = immOf f.ty f.imm))
    ∧ (f.fn = 1 → Computes (.movi f) f f.sa.touch false (fun _ _ => True) (fun _ _ => 0) (fun s th r _ =>
      r.toNat = f.imm.toNat * 2 ^ 32 + (s.src f.sa th 0).toNat % 2 ^ 32))
    ∧ Computes (.p2s f) f (selected f.imm) false (fun _ _ => True) (fun _ _ => 0) (fun s th r _ =>
      ∀ k, k < 64 → bitAt r k = (decide (k < 12) && f.imm.getLsbD k && s.pred k th))
    ∧ (∀ (n : Fin 128) (s : State), f.sa = .name n →
      s.ready f.guard f.cf (f.sa.touch wide ++ f.sb.touch ++ f.dst.touch wide) = true → s.mapped (f.sa.touch wide) = true →
      s.roomFor (f.dst.names wide) = true → ∀ k, f.dst = .uni k →
      ∃ t, exec (.vread f) s = .next t ∧ s.Passed t f.cf { unis := f.dst.unis wide }
        ∧ t.uni k.val = typeBits f.ty (s.elem n.val ((s.src f.sb (lowest (s.ex f.guard)) (f.imm.setWidth 64)).toNat % 32))
        ∧ (wide = true →
            t.uni (k.val + 1) = s.elem (n.val + 1) ((s.src f.sb (lowest (s.ex f.guard)) (f.imm.setWidth 64)).toNat % 32)))
    ∧ (∀ s : State, s.ready f.guard f.cf (f.sa.touch ++ f.dst.touch) = true → s.mapped f.sa.touch = true →
      f.ty.isInt = true → ∀ (n : Fin 128) (k : Fin 192), f.sa = .name n → f.dst = .uni k →
      let g : Int → Int → Int := match f.fn.toNat with
        | 0 => fun x y => x + y
        | 1 => fun x y => if x ≤ y then x else y
        | 2 => fun x y => if x ≤ y then y else x
        | 3 => fun x y => ((wrapInt (intShape f.ty).1 x &&& wrapInt (intShape f.ty).1 y : Nat) : Int)
        | 4 => fun x y => ((wrapInt (intShape f.ty).1 x ||| wrapInt (intShape f.ty).1 y : Nat) : Int)
        | _ => fun x y => ((wrapInt (intShape f.ty).1 x ^^^ wrapInt (intShape f.ty).1 y : Nat) : Int)
      let val := fun (th j : Nat) => intVal f.ty.isI (intShape f.ty).1 (elemOf (intShape f.ty).1 (s.elem n.val th) j)
      ∃ t, exec (.redux f) s = .next t ∧ s.Passed t f.cf { unis := [k.val] }
        ∧ ∀ j, j < (intShape f.ty).2 → elemOf (intShape f.ty).1 (t.uni k.val) j =
            wrapInt (intShape f.ty).1 (((maskList (s.ex f.guard)).drop 1).foldl (fun v th =>
              intVal f.ty.isI (intShape f.ty).1 (wrapInt (intShape f.ty).1 (g v (val th j)))) (val (lowest (s.ex f.guard)) j)))
    ∧ (∀ (n d : Fin 128) (s : State), f.sa = .name n → f.dst = .name d →
      s.ready f.guard f.cf (f.sa.touch wide ++ f.sb.touch ++ f.dst.touch wide) = true →
      s.mapped (f.sa.touch wide ++ f.sb.touch) = true → s.roomFor (f.dst.names wide) = true →
      let delta : Nat → Nat := fun th => (s.src f.sb th (f.imm.setWidth 64)).toNat % 2 ^ 32
      let source : Nat → Int := fun th => match f.fn.toNat with
        | 0 => (delta th : Int)
        | 1 => (th : Int) - delta th
        | 2 => (th : Int) + delta th
        | _ => ((th ^^^ (delta th % 32) : Nat) : Int)
      let from_ := fun (th : Nat) => if 0 ≤ source th ∧ bitAt (s.ex f.guard) (source th).toNat = true then (source th).toNat else th
      ∃ t lo hi, exec (.shfl f) s = .next t ∧ s.Passed t f.cf { names := f.dst.names wide }
        ∧ s.Holds t (s.ex f.guard) f.dst wide lo hi
        ∧ ∀ th, bitAt (s.ex f.guard) th = true →
            lo th = typeBits f.ty (s.elem n.val (from_ th)) ∧ hi th = s.elem (n.val + 1) (from_ th))

/-- R194, R196, R405: SRD writes the value of a special register, SWR of sr.fflags adds sticky flags, SWR of any other register raises
PERMISSION with its number, and FFLAGS writes sr.fflags and then clears the flags of IMM, in each executing thread. -/
def Obligations.SpecialRegisters : Prop :=
  (∀ f : FmtA, Computes (.srd f) f [] false (fun _ _ => True) (fun _ _ => 0) (fun s th r _ =>
    let w := s.me
    (f.imm = 0 → r.toNat = th) ∧ (f.imm = 1 → r = BitVec.ofNat 64 w.wid) ∧ (f.imm = 2 → r = w.gid)
    ∧ (f.imm = 3 → r = BitVec.ofNat 64 w.crew) ∧ (f.imm = 4 → r = BitVec.ofNat 64 w.loc.slice)
    ∧ (f.imm = 5 → r = BitVec.ofNat 64 w.loc.core) ∧ (f.imm = 6 → r = BitVec.ofNat 64 w.loc.die)
    ∧ (f.imm = 7 → r = BitVec.ofNat 64 s.ident.moduleNum)
    ∧ (f.imm = 8 → r = BitVec.ofNat 64 (s.clk - (s.die w.loc.die).resetAt))
    ∧ (f.imm = 9 → r = ((w.thread th).fflags).setWidth 64) ∧ (f.imm = 10 → r = BitVec.ofNat 64 w.depth)
    ∧ (f.imm = 11 → r = 0) ∧ (f.imm = 12 → r = 0) ∧ (f.imm = 13 → r = s.run.setWidth 64)
    ∧ (f.imm = 14 → ∀ h, (if s.cur.handler = true then s.myH.hdr else (w.thread th).hdr) = some h → r = h.live.setWidth 64)))
  ∧ (∀ (f : FmtA) (s : State), s.cur.handler = false → f.imm = 9 → s.ready f.guard f.cf f.sa.touch = true →
      s.mapped f.sa.touch = true →
      ∃ t, exec (.swr f) s = .next t ∧ s.Passed t f.cf
        { sticky := fun th => if bitAt (s.ex f.guard) th = true then (s.srcA f f.sa th).setWidth 8 &&& 0x7F else 0 })
  ∧ (∀ (f : FmtA) (s : State), s.cur.handler = false → f.imm ≠ 9 → s.ready f.guard f.cf f.sa.touch = true →
      s.mapped f.sa.touch = true →
      ∃ t, exec (.swr f) s = .next t ∧ s.Parks t (s.ex f.guard) 0x0C s.cur.pc (f.imm.setWidth 64) 0)
  ∧ (∀ (f : FmtA) (n : Fin 128) (s : State), s.cur.handler = false → f.dst = .name n →
      s.ready f.guard f.cf f.dst.touch = true → s.roomFor [n.val] = true →
      ∃ t, exec (.fflags f) s = .next t
        ∧ (∀ th, bitAt (s.ex f.guard) th = true → t.elem n.val th = ((s.me.thread th).fflags).setWidth 64
            ∧ (t.me.thread th).fflags = (s.me.thread th).fflags &&& ~~~(f.imm.setWidth 8))
        ∧ (∀ th, th < 32 → bitAt (s.ex f.guard) th = false → t.elem n.val th = s.elem n.val th
            ∧ (t.me.thread th).fflags = (s.me.thread th).fflags)
        ∧ (∀ th, bitAt s.run th = true → (t.me.thread th).pc = succPc s.cur.pc)
        ∧ s.SameRest t ∧ s.SameBank t { names := [n.val] })

/-! ### Floating-point and interval instructions (08, 10) -/

/-- R153, R158, R198, R200, R202, R203, R204: the floating-point instructions complete on every point type; each element is computed on its
own, and the flags of all of them are raised. -/
def Obligations.FloatingPointElements : Prop :=
  ∀ f : FmtA,
    let F := (pointFmt f.ty).1
    let one := fun (i : Instr) (g : Nat → FRes) =>
      PointCompletes i f f.sa.touch (fun s th k => g (s.fElem f f.sa th k))
    let two := fun (i : Instr) (g : Nat → Nat → FRes) =>
      PointCompletes i f (f.sa.touch ++ f.sb.touch) (fun s th k => g (s.fElem f f.sa th k) (s.fElem f f.sb th k))
    two (.fadd f) (F.add f.rm) ∧ two (.fsub f) (F.sub f.rm) ∧ two (.fmul f) (F.mul f.rm) ∧ two (.fdiv f) (F.div f.rm)
    ∧ PointCompletes (.ffma f) f (f.sa.touch ++ f.sb.touch ++ f.sc.touch)
        (fun s th k => F.fma f.rm (s.fElem f f.sa th k) (s.fElem f f.sb th k) (s.fElem f f.sc th k))
    ∧ one (.fsqrt f) (F.sqrt f.rm) ∧ one (.frcp f) (F.trans .rcp f.rm) ∧ one (.frsq f) (F.trans .rsq f.rm)
    ∧ one (.fexp2 f) (F.trans .exp2 f.rm) ∧ one (.flog2 f) (F.trans .log2 f.rm) ∧ one (.fsin f) (F.trans .sin f.rm)
    ∧ one (.fcos f) (F.trans .cos f.rm) ∧ two (.fmin f) (F.minmax false (bitAt f.fn 0)) ∧ two (.fmax f) (F.minmax true (bitAt f.fn 0))
    ∧ one (.fabs f) (fun b => { bits := b % 2 ^ (F.mw + F.ew), flags := 0 })
    ∧ one (.fneg f) (fun b => { bits := b ^^^ 2 ^ (F.mw + F.ew), flags := 0 })
    ∧ one (.frnd f) (F.roundIntegral f.rm)
    ∧ PointCompletes (.fscale f) f (f.sa.touch ++ f.sb.touch) (fun s th k => F.scale f.rm (s.fElem f f.sa th k)
        ((s.src f.sb th (f.imm.setWidth 64)).setWidth 32).toInt)
    ∧ PointCompletes (.fclass f) f f.sa.touch (fun s th k => { bits := 2 ^ F.classPoint (s.fElem f f.sa th k), flags := 0 })

/-- R169, R170, R171, R199, R201, R203, R204, R209, R210, R212, R214: the interval forms complete on operands that are well-formed, with the
outward-rounded result, or with canonical empty and EM under .e. R213, R215, R206: IVLO and IVHI read a bound, an empty interval included;
IVMID and IVWID need points, or write the canonical NaN with EM under .e; FCLASS of an interval raises nothing, malformed operands included,
and sets one bit alone for a malformed and for an empty one. -/
def Obligations.IntervalInstructions : Prop :=
  (∀ f : FmtA,
    let F := boundFmt f.ty
    let wide := f.ty == .iv64
    let one := fun (i : Instr) (g : Iv → IvOut) =>
      IntervalCompletes i f (f.sa.touch wide) (fun s th => [s.ivSrc f f.sa th]) (fun s th => g (s.ivSrc f f.sa th))
    let two := fun (i : Instr) (g : Iv → Iv → IvOut) =>
      IntervalCompletes i f (f.sa.touch wide ++ f.sb.touch wide) (fun s th => [s.ivSrc f f.sa th, s.ivSrc f f.sb th])
        (fun s th => g (s.ivSrc f f.sa th) (s.ivSrc f f.sb th))
    two (.fadd f) F.ivAdd ∧ two (.fsub f) F.ivSub ∧ two (.fmul f) F.ivMul ∧ two (.fdiv f) F.ivDiv
    ∧ IntervalCompletes (.ffma f) f (f.sa.touch wide ++ f.sb.touch wide ++ f.sc.touch wide)
        (fun s th => [s.ivSrc f f.sa th, s.ivSrc f f.sb th, s.ivSrc f f.sc th])
        (fun s th => F.ivFma (s.ivSrc f f.sa th) (s.ivSrc f f.sb th) (s.ivSrc f f.sc th))
    ∧ one (.fsqrt f) F.ivSqrt ∧ one (.frcp f) (F.ivTrans .rcp) ∧ one (.frsq f) (F.ivTrans .rsq) ∧ one (.fexp2 f) (F.ivTrans .exp2)
    ∧ one (.flog2 f) (F.ivTrans .log2) ∧ one (.fsin f) (F.ivTrans .sin) ∧ one (.fcos f) (F.ivTrans .cos)
    ∧ two (.fmin f) (F.ivMinMax false) ∧ two (.fmax f) (F.ivMinMax true) ∧ one (.fabs f) F.ivAbs ∧ one (.fneg f) F.ivNeg
    ∧ one (.frnd f) F.ivRound
    ∧ IntervalCompletes (.fscale f) f (f.sa.touch wide ++ f.sb.touch) (fun s th => [s.ivSrc f f.sa th])
        (fun s th => F.ivScale (s.ivSrc f f.sa th) ((s.src f.sb th (f.imm.setWidth 64)).setWidth 32).toInt)
    ∧ two (.ivhull f) F.ivHull ∧ two (.ivmeet f) F.ivMeet
    ∧ (f.ty.isIv = true →
        let num := fun (s : State) (o : Src) (th : Nat) =>
          if wide then (s.src o th (immF64 f.imm)).toNat else (s.src o th (f.imm.setWidth 64)).toNat % 2 ^ 32
        Computes (.ivmk f) f (f.sa.touch ++ f.sb.touch) wide
          (fun s th => F.isNan (num s f.sa th) = false ∧ F.isNan (num s f.sb th) = false ∧ (bitAt f.fn 3 = true ∨
            (F.le (num s f.sa th) (num s f.sb th) = true ∧ num s f.sa th ≠ F.infBits false ∧ num s f.sb th ≠ F.infBits true)))
          (fun s th => if F.le (num s f.sa th) (num s f.sb th) = true ∧ num s f.sa th ≠ F.infBits false
              ∧ num s f.sb th ≠ F.infBits true then 0 else flEM)
          (fun s th r hi => (r, hi) = ivWords f.ty (
            if F.le (num s f.sa th) (num s f.sb th) = true ∧ num s f.sa th ≠ F.infBits false ∧ num s f.sb th ≠ F.infBits true
            then (F.plusZero (num s f.sa th), F.plusZero (num s f.sb th)) else F.emptyIv))))
  ∧ (∀ f : FmtA, f.ty.isIv = true →
    let F := boundFmt f.ty
    let wide := f.ty == .iv64
    let arg := fun (s : State) (th : Nat) => s.ivSrc f f.sa th
    let bound := fun (i : Instr) (g : Iv → Nat) =>
      Computes i f (f.sa.touch wide) false (fun s th => F.ivWf (arg s th) = true) (fun _ _ => 0)
        (fun s th r _ => r.toNat = g (arg s th) % 2 ^ 64)
    let points := fun (i : Instr) (g : Iv → Nat) =>
      Computes i f (f.sa.touch wide) false
        (fun s th => F.ivWf (arg s th) = true ∧ (F.isEmpty (arg s th) = false ∨ bitAt f.fn 3 = true))
        (fun s th => if F.isEmpty (arg s th) = true then flEM else 0)
        (fun s th r _ => r.toNat = (if F.isEmpty (arg s th) = true then F.canon else g (arg s th)) % 2 ^ 64)
    bound (.ivlo f) (fun x => x.1) ∧ bound (.ivhi f) (fun x => x.2)
    ∧ points (.ivmid f) F.mid ∧ points (.ivwid f) F.wid
    ∧ Computes (.fclass f) f (f.sa.touch wide) false (fun _ _ => True) (fun _ _ => 0) (fun s th r _ =>
        let x := arg s th
        (F.ivWf x = false → r = 1) ∧ (F.ivWf x = true → F.isEmpty x = true → r = 2)
        ∧ (F.ivWf x = true → F.isEmpty x = false →
            bitAt r 0 = false ∧ bitAt r 1 = false ∧ bitAt r 2 = decide (x = F.entire) ∧ bitAt r 3 = F.eqv x.1 x.2
            ∧ bitAt r 4 = F.hasZero x ∧ bitAt r 5 = decide (x.1 = F.infBits true) ∧ bitAt r 6 = decide (x.2 = F.infBits false)
            ∧ bitAt r 7 = F.lt x.2 0 ∧ bitAt r 8 = F.lt 0 x.1 ∧ bitAt r 9 = (F.isSub x.1 || F.isSub x.2)
            ∧ r.toNat < 1024)))

/-- R207, R208, R211: FCVT converts the elements of its group and keeps the rest of a narrowed destination, F2I and I2F convert one number,
and FDOT rounds its exact sum once. -/
def Obligations.Conversions : Prop :=
  ∀ f : FmtA,
    let sc := f.fn.toNat % 8
    let dc := f.imm.toNat % 8
    let g := f.imm.toNat / 16
    let n := 64 / max (cvtWidth sc) (cvtWidth dc)
    (sc < 6 → dc < 6 → cvtWidth sc < cvtWidth dc →
      Computes (.fcvt f) f f.sa.touch false (fun _ _ => True)
        (fun s th => ((List.range n).map (fun k => cvtFloat (cvtFmt sc) (cvtFmt dc) .rn false
          (elemOf (cvtWidth sc) (s.src f.sa th 0) (g * n + k)))).foldl (fun acc r => acc ||| r.flags) 0)
        (fun s th r _ => ∀ k, k < n → elemOf (cvtWidth dc) r k =
          (cvtFloat (cvtFmt sc) (cvtFmt dc) .rn false (elemOf (cvtWidth sc) (s.src f.sa th 0) (g * n + k))).bits % 2 ^ cvtWidth dc))
    ∧ (sc < 6 → dc < 6 → cvtWidth dc ≤ cvtWidth sc → g * n + n ≤ 64 / cvtWidth dc →
      let new := fun (s : State) (th k : Nat) =>
        cvtFloat (cvtFmt sc) (cvtFmt dc) f.rm (bitAt f.fn 3) (elemOf (cvtWidth sc) (s.src f.sa th 0) k)
      Computes (.fcvt f) f f.sa.touch false (fun _ _ => True)
        (fun s th => ((List.range n).map (new s th)).foldl (fun acc r => acc ||| r.flags) 0)
        (fun s th r _ => ∀ j, j < 64 / cvtWidth dc → elemOf (cvtWidth dc) r j =
          (if g * n ≤ j ∧ j < g * n + n then (new s th (j - g * n)).bits % 2 ^ cvtWidth dc
           else elemOf (cvtWidth dc) (match f.dst with | .name m => s.elem m.val th | .uni k => s.uni k.val) j)))
    ∧ (sc = 7 → dc = 6 → Computes (.fcvt f) f (f.sa.touch true) false
        (fun s th => fp64.ivWf ((s.src f.sa th 0).toNat, (s.srcHi f.sa th 0).toNat) = true) (fun _ _ => 0)
        (fun s th r _ =>
          let x : Iv := ((s.src f.sa th 0).toNat, (s.srcHi f.sa th 0).toNat)
          r = (ivWords .iv32 (if x = fp64.emptyIv then fp32.emptyIv
            else (fp32.bound .rd (fp64.decode x.1), fp32.bound .ru (fp64.decode x.2)))).1))
    ∧ (sc = 6 → dc = 7 → Computes (.fcvt f) f f.sa.touch true
        (fun s th => fp32.ivWf (fieldNat (s.src f.sa th 0) 0 32, fieldNat (s.src f.sa th 0) 32 32) = true) (fun _ _ => 0)
        (fun s th r hi =>
          let x : Iv := (fieldNat (s.src f.sa th 0) 0 32, fieldNat (s.src f.sa th 0) 32 32)
          (r, hi) = ivWords .iv64 (if x = fp32.emptyIv then fp64.emptyIv
            else (fp64.bound .rd (fp32.decode x.1), fp64.bound .ru (fp32.decode x.2)))))
    ∧ Computes (.f2i f) f f.sa.touch false (fun _ _ => True)
        (fun s th =>
          let (F, w, imm) := f2iSource f.fn.toNat f.imm
          (floatToInt F f.rm (intShape f.ty).1 f.ty.isI (fieldNat (s.src f.sa th imm) 0 w)).2)
        (fun s th r _ =>
          let (F, w, imm) := f2iSource f.fn.toNat f.imm
          r.toNat = wrapInt (intShape f.ty).1 (floatToInt F f.rm (intShape f.ty).1 f.ty.isI (fieldNat (s.src f.sa th imm) 0 w)).1)
    ∧ Computes (.i2f f) f f.sa.touch false (fun _ _ => True)
        (fun s th => (intToFloat (pointFmt f.ty).1 f.rm (i2fSource f.fn.toNat (s.src f.sa th (i2fImm f.fn.toNat f.imm)))).flags)
        (fun s th r _ => r.toNat =
          (intToFloat (pointFmt f.ty).1 f.rm (i2fSource f.fn.toNat (s.src f.sa th (i2fImm f.fn.toNat f.imm)))).bits % 2 ^ 64)
    ∧ (let dot := fun (s : State) (th : Nat) => shortDot (dotFmt f.fn.toNat) f.rm
          ((List.range (64 / (dotFmt f.fn.toNat).width)).map (elemOf (dotFmt f.fn.toNat).width (s.srcA f f.sa th)))
          ((List.range (64 / (dotFmt f.fn.toNat).width)).map (elemOf (dotFmt f.fn.toNat).width (s.srcA f f.sb th)))
          ((s.srcA f f.sc th).toNat % 2 ^ 32)
      Computes (.fdot f) f (f.sa.touch ++ f.sb.touch ++ f.sc.touch) false (fun _ _ => True) (fun s th => (dot s th).flags)
        (fun s th r _ => r.toNat = (dot s th).bits % 2 ^ 64))

/-- R205, R216: FCMP and IVIN complete and write their verdict to both bits of a pair of predicates, or as 1, 2 or 0 to a uniform register;
an empty operand is undecided and raises EM under .e. R109, R121, R122, R123, R124, R125: ICMP, PLOP, S2P, VOTE and ELECT complete and write
predicates in the executing threads alone, or one uniform register. -/
def Obligations.VerdictsAndPredicates : Prop :=
  (∀ (f : FmtA) (s : State),
    let F := boundFmt f.ty
    let wide := f.ty == .iv64
    let x := fun (th : Nat) => s.ivSrc f f.sa th
    let y := fun (th : Nat) => s.ivSrc f f.sb th
    let reads := f.sa.touch wide ++ f.sb.touch wide
    let n := (pointFmt f.ty).2.2
    let P := (pointFmt f.ty).1
    let elem := fun (k th : Nat) => P.relPoint (f.fn.toNat % 8) (s.fElem f f.sa th k) (s.fElem f f.sb th k)
    let sound := fun (th : Nat) => F.ivWf (x th) = true ∧ F.ivWf (y th) = true
      ∧ (bitAt f.fn 3 = true ∨ (F.isEmpty (x th) = false ∧ F.isEmpty (y th) = false))
    let empty := fun (th : Nat) => F.isEmpty (x th) || F.isEmpty (y th)
    let writes := fun (i : Instr) (v : Nat → Verdict) (fl : Nat → BitVec 8) =>
      (∀ p : Fin 128, f.dst = .name p → p.val + 1 < 12 →
        ∃ t, exec i s = .next t
          ∧ s.Passed t f.cf { preds := [p.val, p.val + 1]
                              sticky := fun th => if f.nf || !bitAt (s.ex f.guard) th then 0 else fl th }
          ∧ (∀ th, bitAt (s.ex f.guard) th = true →
              t.pred p.val th = decide (v th = some true) ∧ t.pred (p.val + 1) th = decide (v th = some false))
          ∧ (∀ th, th < 32 → bitAt (s.ex f.guard) th = false → s.cur.handler = false →
              t.pred p.val th = s.pred p.val th ∧ t.pred (p.val + 1) th = s.pred (p.val + 1) th))
      ∧ (∀ k : Fin 192, f.dst = .uni k →
        ∃ t, exec i s = .next t
          ∧ s.Passed t f.cf { unis := [k.val]
                              sticky := fun th => if f.nf || !bitAt (s.ex f.guard) th then 0 else fl (lowest (s.ex f.guard)) }
          ∧ t.uni k.val = (match v (lowest (s.ex f.guard)) with
              | some true => 1
              | some false => 2
              | none => 0))
    s.ready f.guard f.cf (reads ++ f.dst.touchUni true) = true → s.mapped reads = true →
    (f.ty.isIv = false → writes (.fcmp f)
      (fun th => if ∀ k, k < n → elem k th = some true then some true
        else if ∀ k, k < n → elem k th = some false then some false else none)
      (fun th => if ∃ k, k < n ∧ (P.isSnan (s.fElem f f.sa th k) = true ∨ P.isSnan (s.fElem f f.sb th k) = true) then flIV else 0))
    ∧ (f.ty.isIv = true → (∀ th, bitAt (s.ex f.guard) th = true → sound th) →
        writes (.fcmp f) (fun th => if empty th then none else F.relIv (f.fn.toNat % 8) (x th) (y th))
          (fun th => if empty th then flEM else 0)
        ∧ writes (.ivin f) (fun th => if empty th then none else F.inside (x th) (y th)) (fun th => if empty th then flEM else 0)))
  ∧ (∀ (f : FmtA) (s : State),
    let ex := s.ex f.guard
    let bit := fun (b : Bool) => if b = true then 1 else 0
    let rel : Int → Int → Prop := match f.fn.toNat with
      | 0 => fun x y => x = y
      | 1 => fun x y => x ≠ y
      | 2 => fun x y => x < y
      | 3 => fun x y => x ≤ y
      | 4 => fun x y => y < x
      | _ => fun x y => y ≤ x
    let source := fun (o : Src) (th : Nat) => match o with
      | .name n => n.val = 15 ∨ s.pred n.val th = true
      | _ => True
    (s.ready f.guard f.cf (f.sa.touch ++ f.sb.touch ++ f.dst.touchUni) = true → s.mapped (f.sa.touch ++ f.sb.touch) = true →
      (∀ p : Fin 128, f.dst = .name p → p.val < 12 → ∃ t v, exec (.icmp f) s = .next t ∧ s.Passed t f.cf { preds := [p.val] }
        ∧ s.Predicate t ex p.val v ∧ ∀ th, bitAt ex th = true → (v th = true ↔ rel (s.intElem f f.sa th 0) (s.intElem f f.sb th 0)))
      ∧ (∀ k : Fin 192, f.dst = .uni k → ∃ t, exec (.icmp f) s = .next t ∧ s.Passed t f.cf { unis := [k.val] }
        ∧ (t.uni k.val = 1 ∨ t.uni k.val = 0)
        ∧ (t.uni k.val = 1 ↔ rel (s.intElem f f.sa (lowest ex) 0) (s.intElem f f.sb (lowest ex) 0))))
    ∧ (∀ p : Fin 128, f.dst = .name p → p.val < 12 →
      (s.ready f.guard f.cf (f.sa.touchPred ++ f.sb.touchPred ++ f.sc.touchPred ++ f.dst.touchUni) = true →
        ∃ t v, exec (.plop f) s = .next t ∧ s.Passed t f.cf { preds := [p.val] } ∧ s.Predicate t ex p.val v
        ∧ ∀ th, bitAt ex th = true → ∀ a b c, (a = true ↔ source f.sa th) → (b = true ↔ source f.sb th) → (c = true ↔ source f.sc th) →
            v th = f.imm.getLsbD (bit a + 2 * bit b + 4 * bit c))
      ∧ (s.ready f.guard f.cf f.dst.touchUni = true →
        ∃ t v, exec (.elect f) s = .next t ∧ s.Passed t f.cf { preds := [p.val] } ∧ s.Predicate t ex p.val v
          ∧ ∀ th, bitAt ex th = true → (v th = true ↔ ∀ u, bitAt ex u = true → th ≤ u)))
    ∧ (s.ready f.guard f.cf (f.sa.touch ++ selected f.imm) = true → s.mapped f.sa.touch = true →
      ∃ t, exec (.s2p f) s = .next t ∧ s.Passed t f.cf { preds := (List.range 12).filter (fun k => f.imm.getLsbD k) }
        ∧ ∀ k, k < 12 → f.imm.getLsbD k = true →
            s.Predicate t ex k (fun th => bitAt (s.src f.sa th (f.imm.setWidth 64)) k))
    ∧ (∀ q : Fin 128, f.sa = .name q → s.ready f.guard f.cf (f.sa.touchPred ++ f.dst.touchUni) = true →
      let yes := fun (th : Nat) => bitAt ex th = true ∧ s.pred q.val th = true
      let all := ∀ th, bitAt ex th = true → s.pred q.val th = true
      (∀ p : Fin 128, f.dst = .name p → p.val < 12 → ∃ t b, exec (.vote f) s = .next t
        ∧ s.Passed t f.cf { preds := [p.val] } ∧ s.Predicate t ex p.val (fun _ => b)
        ∧ (f.fn = 0 → (b = true ↔ all)) ∧ (f.fn = 1 → (b = true ↔ ∃ th, yes th))
        ∧ (f.fn = 2 → (b = true ↔ (all ∨ ∀ th, ¬ yes th))))
      ∧ (∀ k : Fin 192, f.dst = .uni k → ∃ t, exec (.vote f) s = .next t ∧ s.Passed t f.cf { unis := [k.val] }
        ∧ (f.fn = 3 → ∀ th, th < 64 → (bitAt (t.uni k.val) th = true ↔ yes th))
        ∧ (f.fn ≠ 3 → (t.uni k.val).toNat = ((List.range 32).filter (fun th => bitAt ex th && s.pred q.val th)).length))))

/-! ### Predicates, control flow and headers (06) -/

/-- R66, R98, R113, R119, R120: NOP and YIELD pass their slot, and YIELD sets the fairness count to Q; WSYNC passes when its run is the
whole warp, and waits otherwise; WSYNC_COMPLETE ends that wait. R112, R102, R68, R105, R378: HDR gives the threads of its run clause
position 0 and its header, restarts the warp's stall count and waits; CLAUSE_START, when the flags of WAIT are clear and the waiting threads
are the whole run, passes the header, and when the whole warp issues it with no thread parked, every name outside the live groups is
unmapped and every other name keeps its row. -/
def Obligations.ClausesAndSlots : Prop :=
  ((∀ (f : FmtA) (s : State), s.ready f.guard f.cf [] = true →
    (∃ t, exec (.nop f) s = .next t ∧ s.Passed t f.cf {})
    ∧ (s.cur.handler = false → ∃ t, exec (.yield f) s = .next t ∧ t.me.fair = s.me.fairQ
        ∧ (s.updWarp s.cur.loc (fun w => { w with fair := w.fairQ, yieldTo := true })).Passed t f.cf {})
    ∧ (s.cur.handler = false → s.run = s.me.alive → ∃ t, exec (.wsync f) s = .next t ∧ s.Passed t f.cf {})
    ∧ (s.cur.handler = false → s.run ≠ s.me.alive → ∃ t, exec (.wsync f) s = .next t ∧ s.WaitsIn t .wsync (s.flagOf f.cf).join))
  ∧ (∀ (s : State) (l : Loc) (pc : Word) (w : Warp) (x : Wait), s.warp? l = some w → s.waitAt l false pc = some x →
      x.kind = .wsync → w.runAt pc = w.alive → w.alive ≠ 0 → s.ctxLive w.ctx = true →
      ∃ t, exec (.wsyncComplete l pc) s = .next t ∧ t.cur.loc = l
        ∧ (∀ th, th < 32 → t.me.thread th =
            if bitAt w.alive th then { w.thread th with pc := succPc pc, pos := (w.thread th).pos + 1, pass := false, arrived := false }
            else w.thread th)
        ∧ (∀ k, k ≠ l → t.warp? k = s.warp? k) ∧ t.slices = s.slices ∧ t.mem = s.mem))
  ∧ ((∀ (f : FmtH) (s : State), s.run ≠ 0 → s.cur.handler = false → ∃ t, exec (.hdr f) s = .next t
    ∧ (∀ th, th < 32 → t.me.thread th =
        if bitAt s.run th then { s.me.thread th with hdr := some f, pos := 0 } else s.me.thread th)
    ∧ t.me.stall = 0 ∧ (∃ since, t.waitAt s.cur.loc false s.cur.pc
        = some { pc := s.cur.pc, mask := s.run, kind := .header f.wait, since := since })
    ∧ t.frozen = s.frozen ∧ t.slices = s.slices ∧ (∀ l, l ≠ s.cur.loc → t.warp? l = s.warp? l)
    ∧ t.me.map = s.me.map ∧ t.me.preds = s.me.preds ∧ t.me.unif = s.me.unif ∧ t.me.flags = s.me.flags)
  ∧ (∀ (f : FmtH) (s : State), s.run ≠ 0 → s.cur.handler = true → ∃ t, exec (.hdr f) s = .next t
    ∧ t.myH.hdr = some f ∧ t.myH.pos = 0 ∧ t.myH.pc = s.myH.pc
    ∧ t.warps = s.warps.map (fun w => if w.loc == s.cur.loc then { w with stall := 0 } else w)
    ∧ ∃ since, t.waitAt s.cur.loc true s.cur.pc = some { pc := s.cur.pc, mask := s.run, kind := .header f.wait, since := since })
  ∧ (∀ (r : RunRef) (s : State) (w : Warp) (h : FmtH), r.handler = false → s.clauseReady r = true → s.warp? r.loc = some w →
      (w.thread (lowest (w.runAt r.pc))).hdr = some h →
      ∃ t, exec (.clauseStart r) s = .next t
        ∧ (∀ th, th < 32 → t.me.thread th = if bitAt (w.runAt r.pc) th then
            { w.thread th with pc := succPc r.pc, pos := (w.thread th).pos + 1, pass := false, arrived := false } else w.thread th)
        ∧ (∀ n, n < 128 → t.me.mapOf n =
            if w.runAt r.pc = w.alive ∧ w.inState .parked = 0 ∧ bitAt h.live (n / 4) = false then none else w.mapOf n)
        ∧ t.me.fair = (if w.runPcs.length ≤ 1 then 0 else if w.fair = w.fairQ ∧ w.isLowest r.pc = true then w.fairQ
            else if w.prevLow then min (w.fair + 1) w.fairQ else 1)
        ∧ t.mem = s.mem ∧ t.hostEvents = s.hostEvents))

/-- R70, R71, R98, R114, R115, R116, R117: BRA, BRM, CALL, RET and JMPI move each thread whose guard or pair passes to its target when that
target is legal, and the other threads of the run to the successor; CALL writes the successor as the link. R61, R71: each of them to an address that
is no slot address, or to a slot that is not a marked header, has no effect, and CALL writes no link: the threads are parked at the
transferring instruction with MISALIGNED_TARGET or BAD_TARGET and the target in INFO0. -/
def Obligations.Transfers : Prop :=
  ((∀ (f : FmtA) (s : State),
    let ex := s.ex f.guard
    let direct := wordInt (addrOfIndex ((slotIndex s.cur.pc.toNat : Int) + f.imm.toInt))
    let next := fun (target : Nat → Word) (th : Nat) => if bitAt ex th then target th else succPc s.cur.pc
    (s.ready f.guard f.cf [] = true → s.legalTarget direct = true →
      ∃ t, exec (.bra f) s = .next t ∧ s.PassedTo t f.cf {} (next (fun _ => direct)))
    ∧ (s.ready f.guard f.cf f.sa.touch = true → s.mapped f.sa.touch = true →
        (∀ th, bitAt ex th = true → s.legalTarget (s.src f.sa th (f.imm.setWidth 64)) = true) →
        (∃ t, exec (.ret f) s = .next t ∧ s.PassedTo t f.cf {} (next (fun th => s.src f.sa th (f.imm.setWidth 64))))
        ∧ ∃ t, exec (.jmpi f) s = .next t ∧ s.PassedTo t f.cf {} (next (fun th => s.src f.sa th (f.imm.setWidth 64))))
    ∧ (let reads := if f.fn = 0 then [] else f.sa.touch
        let target := fun (th : Nat) => if f.fn = 0 then direct else s.src f.sa th 0
        s.ready f.guard f.cf (reads ++ f.dst.touch) = true → s.mapped reads = true → s.roomFor f.dst.names = true →
        (∀ th, bitAt ex th = true → s.legalTarget (target th) = true) →
        ∃ t, exec (.call f) s = .next t ∧ s.PassedTo t f.cf { names := f.dst.names, unis := f.dst.unis } (next target)
          ∧ s.Holds t ex f.dst false (fun _ => succPc s.cur.pc) (fun _ => 0)))
  ∧ (∀ (f : FmtB) (s : State), s.run ≠ 0 → s.toWrite ((f.p0 :: f.more).flatMap BPair.touch) = [] →
      let passes := fun (p : BPair) (th : Nat) => match p.test with
        | .always => true
        | .pred q neg => s.pred q.val th != neg
      let first := fun (th : Nat) => (f.p0 :: f.more).find? (fun p => passes p th)
      let target := fun (o : BitVec 16) => wordInt (addrOfIndex ((slotIndex s.cur.pc.toNat : Int) + o.toInt))
      (∀ th p, bitAt s.run th = true → first th = some p → s.legalTarget (target p.offset) = true) →
      ∃ t, exec (.brm f) s = .next t ∧ s.PassedTo t .none {} (fun th => match first th with
        | some p => target p.offset
        | none => succPc s.cur.pc)))
  ∧ (∀ (s : State) (a : Word) (code : Nat), s.cur.handler = false → s.badTarget a code →
    let parks := fun (i : Instr) (ex : Mask) => ∃ t, exec i s = .next t ∧ s.Parks t ex code s.cur.pc a 0
    let direct := fun (o : Int) => wordInt (addrOfIndex ((slotIndex s.cur.pc.toNat : Int) + o))
    (∀ f : FmtA,
      let all := fun (v : Nat → Word) => ∀ th, bitAt (s.ex f.guard) th = true → v th = a
      (s.ready f.guard f.cf f.sa.touch = true → s.mapped f.sa.touch = true → all (fun th => s.src f.sa th (f.imm.setWidth 64)) →
        parks (.jmpi f) (s.ex f.guard) ∧ parks (.ret f) (s.ex f.guard))
      ∧ (f.fn ≠ 0 → s.ready f.guard f.cf (f.sa.touch ++ f.dst.touch) = true → s.mapped f.sa.touch = true →
          all (fun th => s.src f.sa th 0) → parks (.call f) (s.ex f.guard))
      ∧ (f.fn = 0 → s.ready f.guard f.cf f.dst.touch = true → direct f.imm.toInt = a → parks (.call f) (s.ex f.guard))
      ∧ (s.ready f.guard f.cf [] = true → direct f.imm.toInt = a → parks (.bra f) (s.ex f.guard)))
    ∧ ∀ f : FmtB,
      let passes := fun (p : BPair) (th : Nat) => match p.test with
        | .always => true
        | .pred q neg => s.pred q.val th != neg
      let first := fun (th : Nat) => (f.p0 :: f.more).find? (fun p => passes p th)
      let ex := maskOf (fun th => bitAt s.run th && (first th).isSome)
      ex ≠ 0 → s.toWrite ((f.p0 :: f.more).flatMap BPair.touch) = [] →
      (∀ th p, bitAt s.run th = true → first th = some p → direct p.offset.toInt = a) → parks (.brm f) ex)

/-- R93, R94, R107, R126: BRK, TRAP and an extension code raise their faults in each thread whose guard passes: BREAKPOINT and EXT_EMU
parked at the slot, SOFTWARE_TRAP at the successor, with the code of BRK and TRAP in INFO0; the other threads pass the slot. In a handler
run they are a double fault (R370). R107, R118: each thread of an EXIT whose guard passes becomes exited, the others pass; when the EXIT
would leave parked threads and no running one, its run waits, and EXIT_PROCEED drops that wait once no thread is parked. -/
def Obligations.TrapsAndExits : Prop :=
  ((∀ (f : FmtA) (s : State), s.cur.handler = false → s.ready f.guard f.cf [] = true →
    (∃ t, exec (.brk f) s = .next t ∧ s.Parks t (s.ex f.guard) 0x16 s.cur.pc (f.imm.setWidth 64) 0)
    ∧ ∃ t, exec (.trap f) s = .next t ∧ s.Parks t (s.ex f.guard) 0x17 (succPc s.cur.pc) (f.imm.setWidth 64) 0)
  ∧ (∀ (f : FmtX) (s : State), s.cur.handler = false → s.ready f.guard f.cf [] = true → f.cf = .none →
      ∃ t, exec (.ext f) s = .next t ∧ s.Parks t (s.ex f.guard) 0x02 s.cur.pc 0 0)
  ∧ (∀ (f : FmtX) (k : Nat) (s : State), s.cur.handler = false → s.ready f.guard f.cf [] = true → s.flagOf f.cf = some (some k) →
      ∃ t, exec (.ext f) s = .next t ∧ (∀ th, bitAt (s.ex f.guard) th = true → (t.me.thread th).st = .parked
          ∧ (t.me.thread th).pc = s.cur.pc) ∧ 0 < nth t.me.flags k 0
        ∧ ∃ r, r ∈ t.me.records ∧ r.mask = s.ex f.guard ∧ r.code = 2 ∧ r.bits = s.cur.bits)
  ∧ (∀ (f : FmtA) (s : State), s.cur.handler = true → (s.warp? s.cur.loc).isSome = true → s.ready f.guard f.cf [] = true →
      (∃ t, exec (.brk f) s = .next t ∧ s.DoubleFaults t) ∧ ∃ t, exec (.trap f) s = .next t ∧ s.DoubleFaults t)
  ∧ (∀ (f : FmtX) (s : State), s.cur.handler = true → (s.warp? s.cur.loc).isSome = true → s.ready f.guard f.cf [] = true →
      ∃ t, exec (.ext f) s = .next t ∧ s.DoubleFaults t))
  ∧ ((∀ (f : FmtA) (s : State), s.cur.handler = false → s.ready f.guard f.cf [] = true →
    let leaves := s.me.inState .running = s.ex f.guard ∧ s.me.inState .parked ≠ 0
    (¬ leaves → ∃ t, exec (.exit f) s = .next t
      ∧ (∀ th, th < 32 → t.me.thread th =
          if bitAt (s.ex f.guard) th then { s.me.thread th with st := .exited, pc := 0 }
          else if bitAt s.run th then
            { s.me.thread th with pc := succPc s.cur.pc, pos := (s.me.thread th).pos + 1, pass := false, arrived := false }
          else s.me.thread th)
      ∧ t.frozen = s.frozen ∧ t.slices = s.slices ∧ (∀ l, l ≠ s.cur.loc → t.warp? l = s.warp? l)
      ∧ t.me.map = s.me.map ∧ t.me.preds = s.me.preds ∧ t.me.unif = s.me.unif ∧ t.me.records = s.me.records)
    ∧ (leaves → ∃ t, exec (.exit f) s = .next t ∧ s.WaitsIn t .exit (s.flagOf f.cf).join))
  ∧ (∀ (s : State) (l : Loc) (pc : Word) (w : Warp) (x : Wait), s.warp? l = some w → s.waitAt l false pc = some x → x.kind = .exit →
      w.inState .parked = 0 → s.ctxLive w.ctx = true → ∃ t, exec (.exitProceed l pc) s = .next t ∧ t.waitAt l false pc = none
        ∧ (∀ k, k ≠ l → t.warp? k = s.warp? k) ∧ ∃ v, t.warp? l = some v ∧ v.threads = w.threads))

/-! ### Names and rows (07) -/

/-- R134, R135, R143, R146, R147, R148: a map edit issued by the whole warp, with no thread parked, changes the map as its entry says and no
row data. MOVE and ALIAS of an unmapped name raise nothing. R134: a map edit whose run lacks a running thread of the warp parks the run with
DIVERGENT_MAP_EDIT, and the absent threads in INFO0; one whose run holds them all waits while a thread is parked, and MAP_EDIT_WAIT_END ends
that wait. -/
def Obligations.MapEdits : Prop :=
  (∀ (f : FmtA) (s : State), f.guard = .always → f.cf = .none → s.editReady →
    let m := s.me.mapOf
    (∀ d n : Fin 128, f.dst = .name d → f.sa = .name n →
      (∃ t, exec (.move f) s = .next t ∧ s.MapEdited t [] (fun k =>
        if d = n then m k else if k = d.val then m n.val else if k = n.val then none else m k))
      ∧ (∃ t, exec (.aliasName f) s = .next t ∧ s.MapEdited t [] (fun k => if k = d.val then m n.val else m k))
      ∧ (d ≠ n → ∃ t, exec (.swapn f) s = .next t ∧ s.MapEdited t [] (fun k =>
          if k = d.val then m n.val else if k = n.val then m d.val else m k))
      ∧ (∀ c e : Fin 128, f.sb = .name c → f.sc = .name e →
          (f.fn = 0 → d ≠ n → ∃ t, exec (.perm f) s = .next t ∧ s.MapEdited t [] (fun k =>
            if k = d.val then m n.val else if k = n.val then m d.val else m k))
          ∧ (f.fn = 1 → [d, n, c].Nodup → ∃ t, exec (.perm f) s = .next t ∧ s.MapEdited t [] (fun k =>
            if k = d.val then m c.val else if k = n.val then m d.val else if k = c.val then m n.val else m k))
          ∧ (f.fn = 2 → [d, n, c, e].Nodup → ∃ t, exec (.perm f) s = .next t ∧ s.MapEdited t [] (fun k =>
            if k = d.val then m e.val else if k = n.val then m d.val else if k = c.val then m n.val
            else if k = e.val then m c.val else m k))))
    ∧ (∀ d : Fin 128, f.dst = .name d → ∃ t, exec (.unmap f) s = .next t
      ∧ s.MapEdited t [] (fun k => if k = d.val then none else m k)
      ∧ ((s.slice (sliceOfLoc s.cur.loc)).RowsHeld → ∀ r, (t.slice (sliceOfLoc s.cur.loc)).row? r =
          match (s.slice (sliceOfLoc s.cur.loc)).row? r with
          | none => none
          | some y =>
            if m d.val = some r then
              (if y.holders = 1 ∧ s.rowPending (sliceOfLoc s.cur.loc) r = false then none else some { y with holders := y.holders - 1 })
            else some y)))
  ∧ ((∀ (f : FmtA) (s : State), f.guard = .always → f.cf = .none → s.cur.handler = false → s.run ≠ 0 →
    ∀ i, i ∈ [Instr.move f, .aliasName f, .unmap f, .perm f, .swapn f, .give f, .take f] →
      (s.me.inState .running ≠ s.run → ∃ t, exec i s = .next t
        ∧ s.Parks t s.run 0x09 s.cur.pc ((s.me.inState .running &&& ~~~s.run).setWidth 64) 0)
      ∧ (s.me.inState .running = s.run → s.me.inState .parked ≠ 0 → ∃ t, exec i s = .next t ∧ s.WaitsIn t .mapEdit))
  ∧ (∀ (s : State) (l : Loc) (pc : Word) (w : Warp) (x : Wait), s.warp? l = some w → s.waitAt l false pc = some x →
      x.kind = .mapEdit → w.inState .parked = 0 → s.ctxLive w.ctx = true → ∃ t v, exec (.mapEditWaitEnd l pc) s = .next t ∧ t.waitAt l false pc = none
        ∧ t.warp? l = some v ∧ v.threads = w.threads ∧ v.map = w.map ∧ ∀ k, k ≠ l → t.warp? k = s.warp? k))

/-- R136, R137, R145: GIVE moves a name's reference to an empty mailbox, and TAKE a mailbox's to a name; each waits otherwise, or writes its
predicate under .try. MAILBOX_WAIT_SERVED serves the wait that is first. R129, R144: CPY gives its destination a row that no name mapped,
with the source's elements in the executing threads and the destination's old elements in the others; without a row the run waits. -/
def Obligations.MailboxesAndCopies : Prop :=
  ((∀ (f : FmtA) (s : State), f.guard = .always → f.cf = .none → s.editReady →
    let i := sliceOfLoc s.cur.loc
    let b := f.imm.toNat % 16
    let m := s.me.mapOf
    let q := f.imm.toNat / 256
    let preds := if f.fn = 1 then [q] else []
    let answer := fun (t : State) (v : Bool) => f.fn = 1 → q < 12 → ∀ th, bitAt s.run th = true → t.pred q th = v
    (∀ n : Fin 128, f.sa = .name n →
      (m n.val = none → ∃ t, exec (.give f) s = .next t ∧ s.Parks t s.run 0x08 s.cur.pc (BitVec.ofNat 64 n.val) 0)
      ∧ (∀ r, m n.val = some r → s.mailbox i b = none → (∀ x, x ∈ s.waitsOn i (isGive b) → x.1 = s.cur.loc.slot) →
          ∃ t, exec (.give f) s = .next t ∧ s.MapEdited t preds (fun k => if k = n.val then none else m k)
            ∧ t.mailbox i b = some r ∧ (∀ c, c ≠ b → t.mailbox i c = s.mailbox i c)
            ∧ (t.slice i).rows = (s.slice i).rows ∧ answer t true)
      ∧ (∀ r c, m n.val = some r → s.mailbox i b = some c →
          (f.fn = 1 → ∃ t, exec (.give f) s = .next t ∧ s.MapEdited t preds m ∧ t.mailbox i b = some c ∧ answer t false)
          ∧ (f.fn ≠ 1 → ∃ t, exec (.give f) s = .next t ∧ s.WaitsIn t (.give b n.val))))
    ∧ (∀ d : Fin 128, f.dst = .name d →
      (∀ r, s.mailbox i b = some r → (∀ x, x ∈ s.waitsOn i (isTake b) → x.1 = s.cur.loc.slot) →
          ∃ t, exec (.take f) s = .next t ∧ s.MapEdited t preds (fun k => if k = d.val then some r else m k)
            ∧ t.mailbox i b = none ∧ (∀ c, c ≠ b → t.mailbox i c = s.mailbox i c) ∧ answer t true)
      ∧ (s.mailbox i b = none →
          (f.fn = 1 → ∃ t, exec (.take f) s = .next t ∧ s.MapEdited t preds m ∧ t.mailbox i b = none ∧ answer t false)
          ∧ (f.fn ≠ 1 → ∃ t, exec (.take f) s = .next t ∧ s.WaitsIn t (.take b d.val)))))
  ∧ (∀ (s : State) (l : Loc) (pc : Word) (w : Warp) (x : Wait) (b n : Nat), n < 128 → s.mailboxReady l pc = true →
      s.warp? l = some w → s.waitAt l false pc = some x →
      (x.kind = .give b n → ∃ t v, exec (.mailboxWaitServed l pc) s = .next t ∧ t.warp? l = some v
        ∧ t.mailbox (sliceOfLoc l) b = w.mapOf n ∧ v.mapOf n = none ∧ (∀ k, k ≠ n → v.mapOf k = w.mapOf k)
        ∧ ∀ th, bitAt (w.runAt pc) th = true → (v.thread th).pc = succPc pc)
      ∧ (x.kind = .take b n → ∃ t v, exec (.mailboxWaitServed l pc) s = .next t ∧ t.warp? l = some v
        ∧ v.mapOf n = s.mailbox (sliceOfLoc l) b ∧ t.mailbox (sliceOfLoc l) b = none ∧ (∀ k, k ≠ n → v.mapOf k = w.mapOf k)
        ∧ ∀ th, bitAt (w.runAt pc) th = true → (v.thread th).pc = succPc pc)))
  ∧ (∀ (f : FmtA) (s : State) (d n : Fin 128), f.dst = .name d → f.sa = .name n → s.cur.handler = false → f.cf = .none →
    s.ready f.guard f.cf (f.sa.touch ++ f.dst.touch) = true → s.mapped f.sa.touch = true →
    (∀ r u, s.allocRow s.cur.loc = some (r, u) → s.me.mapOf d.val ≠ some r → ∃ t, exec (.cpy f) s = .next t
      ∧ s.MapEdited { t with slices := s.slices } [] (fun k => if k = d.val then some r else s.me.mapOf k)
      ∧ (s.slice (sliceOfLoc s.cur.loc)).row? r = none
      ∧ (∀ th, th < 32 → t.elem d.val th = if bitAt (s.ex f.guard) th then s.elem n.val th else s.elem d.val th)
      ∧ (∀ q y, q ≠ r → (t.slice (sliceOfLoc s.cur.loc)).row? q = some y →
          ∃ x, (s.slice (sliceOfLoc s.cur.loc)).row? q = some x ∧ y.data = x.data)
      ∧ ∀ i, i ≠ sliceOfLoc s.cur.loc → t.slice i = s.slice i)
    ∧ (s.allocRow s.cur.loc = none → ∃ t, exec (.cpy f) s = .next t ∧ s.WaitsIn t (.alloc 1)))

/-- R149, R150: MAPQ and MBXQ complete and write the words of Tables 7.3 and 7.4 and the masks of names that map one row. R129, R131, R133:
a read of an unmapped name parks every executing thread with UNMAPPED_NAME and the name in INFO0; a write with no row to allocate waits with
no effect; ALLOCATION_RESUME lets it issue again; ROW_STARVATION parks the stalled run of the youngest warp of a starved slice. R67, R76,
R93, R168, R170, R199: a flag that CF cannot name raises ILLEGAL_OP in the whole run; an instruction whose guard passes for no thread passes
its slot with no effect; a malformed operand raises MALFORMED_INTERVAL with its position, and an empty result EMPTY_INTERVAL unless .e asks
for it. -/
def Obligations.MapQueriesAndFaults : Prop :=
  (∀ (f : FmtA) (s : State) (k : Fin 192), f.dst = .uni k → s.cur.handler = false → s.ready f.guard f.cf f.dst.touch = true →
    let x := s.slice (sliceOfLoc s.cur.loc)
    (∀ n : Fin 128, f.sa = .name n → ∃ t, exec (.mapq f) s = .next t ∧ s.Passed t f.cf { unis := [k.val] }
      ∧ (s.me.mapOf n.val = none → t.uni k.val = 0)
      ∧ (∀ r y, s.me.mapOf n.val = some r → x.row? r = some y →
          (f.fn = 0 → t.uni k.val = BitVec.ofNat 64 (256 * y.holders
            + 4 * (if some r ∈ x.mailboxes then 1 else 0) + 2 * (if y.charge = s.cur.loc.slot then 1 else 0) + 1))
          ∧ (f.fn = 1 → ∀ j, j < 64 → (bitAt (t.uni k.val) j = true ↔ s.me.mapOf j = some r))
          ∧ (f.fn = 2 → ∀ j, j < 64 → (bitAt (t.uni k.val) j = true ↔ s.me.mapOf (64 + j) = some r))))
    ∧ ∃ t, exec (.mbxq f) s = .next t ∧ s.Passed t f.cf { unis := [k.val] }
        ∧ (s.mailbox (sliceOfLoc s.cur.loc) (f.imm.toNat % 16) = none → t.uni k.val = 0)
        ∧ ∀ r y, s.mailbox (sliceOfLoc s.cur.loc) (f.imm.toNat % 16) = some r → x.row? r = some y →
            t.uni k.val = BitVec.ofNat 64 (256 * y.holders + 2 * (if y.charge = s.cur.loc.slot then 1 else 0) + 1))
  ∧ ((∀ (f : FmtA) (s : State) (n : Nat), s.cur.handler = false → s.ready f.guard f.cf (f.sa.touch ++ f.sb.touch ++ f.dst.touch) = true →
    s.firstUnmapped (f.sa.touch ++ f.sb.touch) = some n →
    ∀ i, i ∈ [Instr.iadd f, .isub f, .imin f, .imax f, .idiv f, .irem f, .shl f, .shr f, .sar f, .rotl f] →
      ∃ t, exec i s = .next t ∧ s.Parks t (s.ex f.guard) 0x08 s.cur.pc (BitVec.ofNat 64 n) 0)
  ∧ (∀ (f : FmtA) (s : State), s.cur.handler = false → s.ready f.guard f.cf f.dst.touch = true → s.roomFor f.dst.names = false →
      ∃ t need, exec (.srd f) s = .next t ∧ s.WaitsIn t (.alloc need))
  ∧ (∀ (s : State) (l : Loc) (pc : Word) (w : Warp) (x : Wait) (need : Nat), s.warp? l = some w → s.waitAt l false pc = some x →
      x.kind = .alloc need → s.allocDue w x = true → s.ctxLive w.ctx = true → ∃ t v, exec (.allocationResume l pc) s = .next t
        ∧ t.waitAt l false pc = some { x with kind := .granted need } ∧ t.warp? l = some v ∧ v.threads = w.threads ∧ v.map = w.map
        ∧ t.slices = s.slices ∧ ∀ k, k ≠ l → t.warp? k = s.warp? k)
  ∧ (∀ (s : State) (i : SliceId), s.starved i = true → ∃ t w v x, exec (.rowStarvation i) s = .next t ∧ w ∈ s.warpsOn i
      ∧ (∀ u, u ∈ s.warpsOn i → u.placed ≤ w.placed) ∧ x ∈ w.waits ∧ t.warp? w.loc = some v
      ∧ (∀ th, th < 32 → bitAt x.mask th = true → th < w.threads.length → (v.thread th).st = .parked ∧ (v.thread th).pc = x.pc)
      ∧ (∃ r, r ∈ v.records ∧ r.mask = x.mask ∧ r.code = 0x0A ∧ r.fpc = x.pc) ∧ t.slices = s.slices))
  ∧ (∀ (f : FmtA) (fm : FmtM) (fe : FmtE) (s : State) (i : Instr) (g : Guard) (cf : Attach), s.cur.handler = false → s.run ≠ 0 →
      let plain := (g = f.guard ∧ cf = f.cf
          ∧ i ∈ [Instr.nop f, .iadd f, .isub f, .imul f, .bfn f, .shl f, .sel f, .movi f, .fadd f, .fmul f, .bra f])
        ∨ (g = fm.guard ∧ cf = fm.cf ∧ i ∈ [Instr.ld fm, .st fm])
      (plain ∨ (g = fe.guard ∧ cf = fe.cf ∧ i ∈ [Instr.cpya fe, .mma fe]) → s.flagOf cf = none →
        ∃ t, exec i s = .next t ∧ s.Parks t s.run 0x01 s.cur.pc 0 0)
      ∧ (plain → (s.flagOf cf).isSome = true → s.ex g = 0 → ∃ t, exec i s = .next t ∧ s.Passed t .none {}))
  ∧ ∀ (f : FmtA) (s : State), f.ty.isIv = true → f.dst.isUni = false → s.cur.handler = false →
      let F := boundFmt f.ty
      let wide := f.ty == .iv64
      let ex := s.ex f.guard
      let a := fun (th : Nat) => s.ivSrc f f.sa th
      let b := fun (th : Nat) => s.ivSrc f f.sb th
      let all := fun (p : Nat → Prop) => ∀ th, bitAt ex th = true → p th
      let faults := fun (i : Instr) (code : Nat) (i0 : Word) => ∃ t, exec i s = .next t ∧ s.Parks t ex code s.cur.pc i0 0
      (s.ready f.guard f.cf (f.sa.touch wide ++ f.dst.touch wide) = true → s.mapped (f.sa.touch wide) = true →
        (all (fun th => F.ivWf (a th) = false) → ∀ i, i ∈ [Instr.fsqrt f, .fabs f, .fneg f] → faults i 0x10 0)
        ∧ (bitAt f.fn 3 = false → all (fun th => F.ivWf (a th) = true ∧ F.isEmpty (a th) = true) →
            ∀ i, i ∈ [Instr.fsqrt f, .fabs f, .fneg f] → faults i 0x0F 0))
      ∧ (s.ready f.guard f.cf (f.sa.touch wide ++ f.sb.touch wide ++ f.dst.touch wide) = true →
        s.mapped (f.sa.touch wide ++ f.sb.touch wide) = true →
        ∀ i, i ∈ [Instr.fadd f, .fsub f, .fmul f, .fdiv f, .ivmeet f] →
          (all (fun th => F.ivWf (a th) = false) → faults i 0x10 0)
          ∧ (all (fun th => F.ivWf (a th) = true ∧ F.ivWf (b th) = false) → faults i 0x10 1)
          ∧ (bitAt f.fn 3 = false → all (fun th => F.ivWf (a th) = true ∧ F.ivWf (b th) = true
              ∧ (F.isEmpty (a th) = true ∨ F.isEmpty (b th) = true)) → faults i 0x0F 0))

/-! ### Memory (11, 12) -/

/-- R243, R247, R248, R257, R260: LD and LDU complete when each access is aligned and translates to this module's memory: the run passes, an
operation goes into flight with the flag of CF, bound to write the value read at issue by each accessing thread (one for the run for a
uniform destination), after the acquire of its order, and what the core sees of memory does not change otherwise. -/
def Obligations.Loads : Prop :=
  ∀ (f : FmtM) (s : State),
    let n := mtySize f.ty
    let u := s.beforeLoad f
    let place := fun (th : Nat) => u.located (s.eaOf f n true th) n false
    let value := fun (a : Nat) => wordsOf f.ty (u.seenBytes a n)
    s.ready f.guard f.cf (f.reads ++ f.dst.touch f.wide) = true → s.mapped f.reads = true →
    s.roomFor (f.dst.names f.wide) = true → s.tlbRoom = true → u.cacheRoom = true → (f.ord = .sc → s.releasable) →
    (∀ th, th ∈ s.accessors f → ∃ a, place th = some a ∧ badInterval f.ty (value a).1 (value a).2 = false) →
    ∀ i, i ∈ [Instr.ld f, .ldu f] → ∃ t ws, exec i s = .next t
      ∧ (s.withMemoryOf t).Moves t { names := f.dst.names f.wide } (fun _ => succPc s.cur.pc) ∧ s.Flies t f.cf ws
      ∧ (∀ x, x ∈ ws ↔ ∃ th a, th ∈ s.accessors f ∧ place th = some a
          ∧ (x = (t.flightDst f.dst false th, (value a).1) ∨ (f.wide = true ∧ x = (t.flightDst f.dst true th, (value a).2))))
      ∧ t.mem = u.mem ∧ (f.ord ≠ .sc → t.mem = s.mem) ∧ (∀ a, t.seenByte a = u.seenByte a)
      ∧ ∀ m th, s.isMapped m = true → t.elem m th = s.elem m th

/-- R243, R247, R248, R257: ST completes when each access is aligned and translates, with write permission, to this module's memory, and meets
no header of a ring in use (R317): each stored byte reads as the byte of the highest thread that stores it, every other byte reads as before,
and no byte at home changes; with a release that moves lines, no line of the core is dirty afterwards. -/
def Obligations.Stores : Prop :=
  ∀ (f : FmtM) (s : State),
    let n := mtySize f.ty
    let ex := s.ex f.guard
    let reads := f.base.touch ++ f.data.touch f.wide ++ f.index.touch
    let ea := fun (th : Nat) => (s.eaOf f n true th).toNat
    let place := fun (th : Nat) => s.located (s.eaOf f n true th) n true
    let stores := fun (th a : Nat) => bitAt ex th = true ∧ ∃ x, place th = some x ∧ x ≤ a ∧ a < x + n
    s.ready f.guard f.cf reads = true → s.mapped reads = true → s.tlbRoom = true → s.cacheRoom = true →
    (∀ th, bitAt ex th = true → (place th).isSome = true
      ∧ (ea th % 256 < 64 → s.ringInUse s.myCtx (BitVec.ofNat 64 (ea th / 256 * 256)) = false)) →
    (∀ th v x y, bitAt ex th = true → bitAt ex v = true → place th = some x → place v = some y → x / 256 = y / 256 →
      ea th / 256 = ea v / 256) → (releases f.ord = true → s.releasable) →
    ∃ t, exec (.st f) s = .next t ∧ (s.withMemoryOf t).Passed t f.cf {}
      ∧ (releases f.ord = false → t.mem = s.mem
          ∧ (∀ a, (∀ th, ¬ stores th a) → t.seenByte a = s.seenByte a)
          ∧ ∀ th x a, place th = some x → stores th a → (∀ v, th < v → ¬ stores v a) →
              t.seenByte a = nth (bytesFor f.ty (s.src f.data th 0) (s.srcHi f.data th 0)) (a - x) 0)
      ∧ (releases f.ord = true → s.scopeMoves s.myCore f.scope = true →
          ∀ l, l ∈ t.l1 → l.core = s.l1Owner s.myCore → l.dirty = [])

/-- R220, R257: LDL and STL complete within the workgroup's allotment of local memory: LDL flies with the values of the bytes at its
offsets, STL writes its bytes there, the highest thread's standing, and every other byte of local memory is as before, where it meets no
barrier object in use (R305). -/
def Obligations.LocalMemory : Prop :=
  ∀ (f : FmtM) (s : State),
    let n := mtySize f.ty
    let ex := s.ex f.guard
    let off := fun (th : Nat) => (s.eaOf f n true th).toNat
    let inside := ∀ th, bitAt ex th = true → off th % n = 0 ∧ off th + n ≤ s.myWg.foot.loc
    let value := fun (a : Nat) => wordsOf f.ty ((List.range n).map (fun i => sparseGet s.myWg.locMem (a + i)))
    (∀ d : Fin 128, f.dst = .name d → s.ready f.guard f.cf (f.reads ++ f.dst.touch f.wide) = true → s.mapped f.reads = true →
      s.roomFor (f.dst.names f.wide) = true → inside →
      (∀ th, bitAt ex th = true → badInterval f.ty (value (off th)).1 (value (off th)).2 = false) →
      ∃ t ws, exec (.ldl f) s = .next t ∧ s.Moves t { names := f.dst.names f.wide } (fun _ => succPc s.cur.pc) ∧ s.Flies t f.cf ws
        ∧ (∀ x, x ∈ ws ↔ ∃ th, bitAt ex th = true ∧ (x = (t.flightDst f.dst false th, (value (off th)).1)
            ∨ (f.wide = true ∧ x = (t.flightDst f.dst true th, (value (off th)).2))))
        ∧ ∀ m th, s.isMapped m = true → t.elem m th = s.elem m th)
    ∧ (let reads := f.base.touch ++ f.data.touch f.wide ++ f.index.touch
      let stores := fun (th a : Nat) => bitAt ex th = true ∧ off th ≤ a ∧ a < off th + n
      s.ready f.guard f.cf reads = true → s.mapped reads = true → inside →
      (∀ th, bitAt ex th = true → s.objectsAt s.me.wg (off th) n = []) →
      ∃ t, exec (.stl f) s = .next t ∧ ({ s with wgs := t.wgs } : State).Passed t f.cf {}
        ∧ (∀ u, u ≠ s.me.wg → t.wg? u = s.wg? u)
        ∧ { t.myWg with locMem := [], objects := [] } = { s.myWg with locMem := [], objects := [] }
        ∧ (∀ a, (∀ th, ¬ stores th a) → sparseGet t.myWg.locMem a = sparseGet s.myWg.locMem a)
        ∧ ∀ th a, stores th a → (∀ v, th < v → ¬ stores v a) → sparseGet t.myWg.locMem a
            = nth (bytesFor f.ty (s.src f.data th 0) (s.srcHi f.data th 0)) (a - off th) 0)

/-- R258, R259, R404: LDT completes when each element is found and its page's format accepts TY, and flies with the decoded value (for F4S,
of the code and its companion pair); STT stores the encoded value under the tensor's bound policy, whose bound event sets CHK.BOUND, and
every byte outside the elements reads as before. -/
def Obligations.TensorElements : Prop :=
  ∀ (f : FmtM) (s : State),
    let ex := s.ex f.guard
    let c := s.myCore
    let at_ := fun (e : Element) => e.page.loc e.va.toNat
    let width := fun (e : Element) => (fmtShape (pteFmt e.base)).1
    (∀ d : Fin 128, f.dst = .name d → f.ord = .plain →
      let reads := f.base.touch ++ f.data.touch ++ f.index.touch
      let plain := fun (th : Nat) (v hi : Word) (fl : BitVec 8) => ∃ e, s.elementOf f th false = .ok e
        ∧ fmtAccepts (pteFmt e.base) f.ty = true ∧ pteFmt e.base ≠ 7 ∧ s.near e.tag (at_ e) (width e) = true
        ∧ elementLoad (pteFmt e.base) f.ty (s.seenBytes (at_ e) (width e)) = .done v hi fl
      let scaled := fun (th : Nat) (v hi : Word) (fl : BitVec 8) => ∃ e kp kva ktag, s.elementOf f th false = .ok e
        ∧ fmtAccepts 7 f.ty = true ∧ pteFmt e.base = 7 ∧ s.near e.tag (at_ e) 1 = true
        ∧ s.companionPair c s.myCtx e.T (blockOf (pteGeom e.base) (s.rowCol f th).1 (s.rowCol f th).2).1
            (blockOf (pteGeom e.base) (s.rowCol f th).1 (s.rowCol f th).2).2 (tensorWord (s.srcM f.base th)).2.1
            (tensorWord (s.srcM f.base th)).2.2 e.va false = .ok (kp, kva, ktag)
        ∧ s.near ktag (kp.loc kva.toNat) 2 = true
        ∧ f4sWord (decodeF4S ((s.seenByte (at_ e)).toNat / 16 ^ (f4sPos ((s.rowCol f th).2 % 32) % 2) % 16)
            (s.seenByte (kp.loc kva.toNat)).toNat (s.seenByte (kp.loc kva.toNat + 1)).toNat (pteSpe e.base)) = .done v hi fl
      ∀ (v hi : Nat → Word) (fl : Nat → BitVec 8),
      s.ready f.guard f.cf (reads ++ f.dst.touch f.wide) = true → s.mapped reads = true →
      s.roomFor (f.dst.names f.wide) = true → s.tlbRoom = true → s.cacheRoom = true →
      (∀ th, bitAt ex th = true → plain th (v th) (hi th) (fl th) ∨ scaled th (v th) (hi th) (fl th)) →
      ∃ t ws, exec (.ldt f) s = .next t ∧ s.Flies t f.cf ws
        ∧ (s.withMemoryOf t).Moves t { names := f.dst.names f.wide
                                       sticky := fun th => if bitAt ex th then fl th else 0 } (fun _ => succPc s.cur.pc)
        ∧ (∀ x, x ∈ ws ↔ ∃ th, bitAt ex th = true ∧ (x = (t.flightDst f.dst false th, v th)
            ∨ (f.wide = true ∧ x = (t.flightDst f.dst true th, hi th))))
        ∧ t.mem = s.mem ∧ ∀ a, t.seenByte a = s.seenByte a)
    ∧ (f.ord = .plain →
      let reads := f.base.touch ++ f.data.touch ++ f.index.touch ++ f.dst.touch f.wide
      ∀ (e : Nat → Element) (b : Nat → List Byte) (fl : Nat → BitVec 8) (bound : Nat → Bool),
      s.ready f.guard f.cf reads = true → s.mapped reads = true → s.tlbRoom = true → s.cacheRoom = true →
      (∀ th v, bitAt ex th = true → bitAt ex v = true → at_ (e th) / 256 = at_ (e v) / 256 → (e th).tag = (e v).tag) →
      (∀ th, bitAt ex th = true → s.elementOf f th true = .ok (e th) ∧ fmtAccepts (pteFmt (e th).base) f.ty = true
        ∧ pteFmt (e th).base ≠ 7 ∧ s.near (e th).tag (at_ (e th)) (b th).length = true
        ∧ sttValue (e th).T (pteFmt (e th).base) f.ty (s.dstSrc f.dst th false) (s.dstSrc f.dst th true) (e th).va
            = (.ok (b th, fl th), bound th)) →
      let stores := fun (th a : Nat) => bitAt ex th = true ∧ at_ (e th) ≤ a ∧ a < at_ (e th) + (b th).length
      ∃ t, exec (.stt f) s = .next t
        ∧ (s.withMemoryOf t).Passed t f.cf { sticky := fun th => if bitAt ex th then fl th else 0 } ∧ t.mem = s.mem
        ∧ (∀ a, (∀ th, ¬ stores th a) → t.seenByte a = s.seenByte a)
        ∧ (∀ th a, stores th a → (∀ v, th < v → ¬ stores v a) → t.seenByte a = nth (b th) (a - at_ (e th)) 0)
        ∧ ((∀ th, bitAt ex th = true → bound th = false) → t.ctxs = s.ctxs)
        ∧ ∀ th, bitAt ex th = true → bound th = true → (s.ctx? s.myCtx).isSome = true → t.chkOf s.myCtx = s.chkOf s.myCtx ||| 4)

/-- R261, R262: ATOM, ATOMC and RED read and replace, at home, the value at each thread's location; with locations apart, each location
holds its new value, every other byte at home is as before, and ATOM and ATOMC fly with the old values. -/
def Obligations.Atomics : Prop :=
  ∀ (f : FmtM) (s : State),
    let n := mtySize f.ty
    let ex := s.ex f.guard
    let ea := fun (th : Nat) => s.eaOf f n false th
    let W := 8 * n
    let compared := fun (th : Nat) (old : Word) =>
      if old.toNat % 2 ^ W = (s.src f.data th 0).toNat % 2 ^ W then s.src f.index th 0 else old
    let updated := fun (th : Nat) (old : Word) => atomOp f.index.no f.ty old (s.src f.data th 0)
    ∀ place : Nat → Nat,
      (∀ th, bitAt ex th = true → s.located (ea th) n true = some (place th) ∧ (s.tlbFor s.myCore s.myCtx (ea th).toNat).isSome = true) →
      (∀ th v, bitAt ex th = true → bitAt ex v = true → th ≠ v → place th + n ≤ place v ∨ place v + n ≤ place th) →
      s.noDirty → s.migrations = [] → (releases f.ord = true → s.undeliv = [] ∧ ∀ l, l ∈ s.l2 → l.dirty = []) →
      (∀ c, s.ctx? s.myCtx = some c → c.interval = none) → n ≤ 8 →
      let old := fun (th : Nat) => wordOfBytes ((List.range n).map (fun i => s.byteAt (place th + i)))
      let writes := fun (t : State) (new : Nat → Word → Word) =>
        (∀ th i, bitAt ex th = true → i < n → t.byteAt (place th + i) = nth (bytesOfWord n (new th (old th))) i 0)
        ∧ ∀ a, (∀ th, bitAt ex th = true → a < place th ∨ place th + n ≤ a) → t.byteAt a = s.byteAt a
      let returns := fun (i : Instr) (reads : List Touch) (new : Nat → Word → Word) =>
        ∀ d : Fin 128, f.dst = .name d → s.ready f.guard f.cf (reads ++ f.dst.touch) = true → s.mapped reads = true →
          s.roomFor f.dst.names = true →
          ∃ t ws, exec i s = .next t ∧ (s.withMemoryOf t).Moves t { names := f.dst.names } (fun _ => succPc s.cur.pc)
            ∧ s.Flies t f.cf ws ∧ writes t new
            ∧ ∀ x, x ∈ ws ↔ ∃ th, bitAt ex th = true ∧ x = (t.flightDst f.dst false th, mtyExtend f.ty (old th))
      returns (.atom f) (f.base.touch ++ f.data.touch) updated
      ∧ returns (.atomc f) (f.base.touch ++ f.data.touch ++ f.index.touch) compared
      ∧ (s.ready f.guard f.cf (f.base.touch ++ f.data.touch) = true → s.mapped (f.base.touch ++ f.data.touch) = true →
          ∃ t, exec (.red f) s = .next t ∧ (s.withMemoryOf t).Passed t f.cf {} ∧ writes t updated)

/-- R243, R248, R256, R263, R264, R265: PREF completes at issue whatever its address, and where each access fails its checks or lies in this
module's memory it changes no byte and no check bit, and a .l1 one leaves each tile in the core's L1; CCTL writes back, and with .inv drops,
the core's lines of its range; a releasing FENCE leaves no dirty line in a core whose scope moves lines, an acquiring one nothing that was
filled. -/
def Obligations.MemoryControl : Prop :=
  ∀ (f : FmtM) (s : State),
    (s.ready f.guard f.cf f.reads = true →
      let n := mtySize f.ty
      let ea := fun (th : Nat) => s.eaOf f n true th
      ∃ t, exec (.pref f) s = .next t
        ∧ (s.cur.handler = false → ∀ th, bitAt s.run th = true → (t.me.thread th).pc = succPc s.cur.pc)
        ∧ (s.tlbRoom = true → s.cacheRoom = true →
            (∀ th, bitAt (s.ex f.guard) th = true → (ea th).toNat % n ≠ 0 ∨ s.translate s.myCore s.myCtx (ea th).toNat = none
              ∨ (s.located (ea th) n false).isSome = true) →
            (s.withMemoryOf t).Passed t .none {} ∧ t.mem = s.mem ∧ t.ctxs = s.ctxs ∧ (∀ a, t.seenByte a = s.seenByte a)
            ∧ (s.mapped f.reads = true → f.dst.no % 2 = 0 → ∀ th a, bitAt (s.ex f.guard) th = true → s.located (ea th) n false = some a →
                ∃ l, t.lineOf (s.l1Owner s.myCore) (a / 256) = some l ∧ l.fill.isSome = true)))
    ∧ (let op := f.index.no
      let base := s.srcM f.base 0
      let len := s.srcM f.data 0
      s.ready f.guard f.cf (f.base.touch ++ f.data.touch ++ (if op / 8 = 1 then f.dst.touch else [])) = true → s.releasable →
      (op / 8 = 0 → len.toNat ≤ 2 ^ 40) →
      ∃ t, exec (.cctl f) s = .next t ∧ (s.withMemoryOf t).Passed t f.cf {}
        ∧ (op / 8 = 0 → ∀ l r, l ∈ t.l1 → l.core = s.l1Owner s.myCore → l.ctx = s.myCtx →
            r ∈ s.rangesOf s.myCore s.myCtx (base + f.offset.signExtend 64).toNat len.toNat →
            l.tile * 256 < r.2 → r.1 < l.tile * 256 + 256 → l.dirty = [] ∧ op % 4 ≠ 1))
    ∧ (s.ready f.guard f.cf [] = true → (releases f.ord = true → s.releasable) → ∃ t, exec (.fence f) s = .next t
        ∧ (s.withMemoryOf t).Passed t f.cf {}
        ∧ (s.scopeMoves s.myCore f.scope = true → ∀ l, l ∈ t.l1 → l.core = s.l1Owner s.myCore →
            (releases f.ord = true → l.dirty = []) ∧ (acquires f.ord = true → l.fill = none))
        ∧ (s.scopeMoves s.myCore f.scope = false → t.l1 = s.l1 ∧ t.mem = s.mem))

/-- R266: CHKERR waits for the accesses of its warp, then reads, tests or clears the context's check bits: the trapping form raises
CHECK_TRAP, parked at the successor with CHK in INFO0, when a selected bit is set. R107, R255: a load or store by one thread whose address
is not a multiple of its size parks the thread with ALIGN; one that does not translate, with TRANSLATION; a store to a page without W, with
PERMISSION; each has the address in INFO0 and no effect on memory. -/
def Obligations.AccessChecks : Prop :=
  (∀ (f : FmtA) (s : State),
    let m : BitVec 5 := f.imm.setWidth 5
    let v := s.chkOf s.myCtx
    s.ready f.guard f.cf f.dst.touchUni = true →
    (s.accessesDone s.cur.loc s.cur.handler = false → ∃ t, exec (.chkerr f) s = .next t ∧ s.WaitsIn t .chkerr (s.flagOf f.cf).join)
    ∧ (s.accessesDone s.cur.loc s.cur.handler = true →
      (f.fn = 1 → v &&& m = 0 → ∃ t, exec (.chkerr f) s = .next t ∧ s.Passed t f.cf {})
      ∧ (f.fn = 1 → v &&& m ≠ 0 → s.cur.handler = false → ∃ t, exec (.chkerr f) s = .next t
          ∧ s.Parks t (s.ex f.guard) 0x13 (succPc s.cur.pc) (v.setWidth 64) 0)
      ∧ (∀ k : Fin 192, f.dst = .uni k →
          (f.fn = 0 → ∃ t, exec (.chkerr f) s = .next t ∧ s.Passed t f.cf { unis := [k.val] } ∧ t.uni k.val = (v &&& m).setWidth 64)
          ∧ (f.fn = 2 → (s.ctx? s.myCtx).isSome = true → ∃ t, exec (.chkerr f) s = .next t
              ∧ ({ s with ctxs := t.ctxs } : State).Passed t f.cf { unis := [k.val] } ∧ t.uni k.val = (v &&& m).setWidth 64
              ∧ t.chkOf s.myCtx = v &&& ~~~m ∧ ∀ c, c ≠ s.myCtx → t.ctx? c = s.ctx? c))))
  ∧ (∀ (f : FmtM) (s : State) (th : Nat),
    let n := mtySize f.ty
    let ea := s.eaOf f n true th
    s.cur.handler = false → f.ord = .plain → s.ex f.guard = listMask [th] → th < 32 →
    let faults := fun (i : Instr) (code : Nat) => ∃ t, exec i s = .next t ∧ s.Parks t (listMask [th]) code s.cur.pc ea 0
    (s.ready f.guard f.cf (f.reads ++ f.dst.touch f.wide) = true → s.mapped f.reads = true →
      (ea.toNat % n ≠ 0 → faults (.ld f) 0x0D)
      ∧ (ea.toNat % n = 0 → s.translate s.myCore s.myCtx ea.toNat = none → faults (.ld f) 0x0B))
    ∧ (s.ready f.guard f.cf (f.base.touch ++ f.data.touch f.wide ++ f.index.touch) = true →
      s.mapped (f.base.touch ++ f.data.touch f.wide ++ f.index.touch) = true →
      (ea.toNat % n ≠ 0 → faults (.st f) 0x0D)
      ∧ (ea.toNat % n = 0 → s.translate s.myCore s.myCtx ea.toNat = none → faults (.st f) 0x0B)
      ∧ (∀ p, ea.toNat % n = 0 → s.translate s.myCore s.myCtx ea.toNat = some p → pteW p.entry = false → faults (.st f) 0x0C)))

/-- R102, R130, R132, R256: LOAD_RETURN writes the elements and registers that a load was bound to and ends its part in flight; a flag of it
stays set until FLAG_OPERATION_COMPLETE, which takes one from the flag's count and ends the operation. R355, R357: a remote request to an
exported page of this module's partition is performed at the page's home, and one that is not permitted changes nothing but the log of
refusals; a request that cannot be delivered sets CHK.REFUSED of its context and sends the host an event once its time is over; the eighth
consecutive failed retry takes a port down. -/
def Obligations.CompletionsAndFabric : Prop :=
  (∀ (s : State) (l : Loc) (w : Warp) (g : Flight), s.warp? l = some w → s.hrun? l = none → g ∈ w.inflight →
    (∀ h, h ∈ w.inflight → h.id = g.id → h = g) → s.undeliv = [] →
    (g.load = true → ∃ t v, exec (.loadReturn l g.id) s = .next t ∧ t.warp? l = some v
      ∧ (∀ r th x, (FlightDst.row r th, x) ∈ g.writes → (∀ y, (FlightDst.row r th, y) ∈ g.writes → y = x) →
          (∃ y, y ∈ (s.slice (sliceOfLoc l)).rows ∧ y.no = r) →
          (∀ y, y ∈ (s.slice (sliceOfLoc l)).rows → y.no = r → 0 < y.holders) → (t.slice (sliceOfLoc l)).elem r th = x)
      ∧ (∀ k x, (FlightDst.uni k, x) ∈ g.writes → (∀ y, (FlightDst.uni k, y) ∈ g.writes → y = x) → nth v.unif k 0 = x)
      ∧ (∀ k, (∀ y, (FlightDst.uni k, y) ∉ g.writes) → nth v.unif k 0 = nth w.unif k 0)
      ∧ v.threads = w.threads ∧ v.map = w.map ∧ v.flags = w.flags
      ∧ v.inflight = w.inflight.filterMap (fun h => if h.id = g.id then
          (if g.flag.isSome = true then some { g with writes := [], load := false } else none) else some h))
    ∧ (g.load = false → g.emu = none → ∃ t v, exec (.flagOperationComplete l g.id) s = .next t ∧ t.warp? l = some v
      ∧ (∀ k, nth v.flags k 0 = if g.flag = some k then nth w.flags k 0 - 1 else nth w.flags k 0)
      ∧ v.inflight = w.inflight.filter (fun h => h.id != g.id) ∧ v.threads = w.threads ∧ v.map = w.map
      ∧ v.unif = w.unif ∧ t.slices = s.slices ∧ t.mem = s.mem ∧ ∀ k, k ≠ l → t.warp? k = s.warp? k))
  ∧ ((∀ (s : State) (q : FabricReq) (x : ExportEntry), lookupKey s.exports q.eframe = some x → x.v = true → x.part = q.part →
    let a := x.frame.toNat * 65536 + q.offset.toNat
    (∀ n, q.op = .read n → ∃ t, exec (.fabricRequest q) s = .next t ∧ t.mem = s.mem ∧ t.refusals = s.refusals)
    ∧ (∀ b, q.op = .write b → x.w = true → isLocal a = true → s.migrations = [] → s.ctx? 65536 = none →
        ∃ t, exec (.fabricRequest q) s = .next t ∧ t.refusals = s.refusals
          ∧ (∀ i, i < b.length → t.byteAt (a + i) = nth b i 0) ∧ ∀ c, c < a ∨ a + b.length ≤ c → t.byteAt c = s.byteAt c)
    ∧ (∀ n y, q.op = .atomicAdd n y → x.w = true → isLocal a = true → s.migrations = [] → s.ctx? 65536 = none → n ≤ 8 →
        ∃ t, exec (.fabricRequest q) s = .next t
          ∧ (∀ i, i < n → t.byteAt (a + i)
              = nth (bytesOfWord n (wordOfBytes ((List.range n).map (fun j => s.byteAt (a + j))) + y)) i 0)
          ∧ ∀ c, c < a ∨ a + n ≤ c → t.byteAt c = s.byteAt c))
  ∧ (∀ (s : State) (q : FabricReq), (lookupKey s.exports q.eframe = none ∨ ∃ x, lookupKey s.exports q.eframe = some x
      ∧ (x.v = false ∨ x.part ≠ q.part ∨ (x.w = false ∧ ∀ n, q.op ≠ .read n))) →
      ∃ t r, exec (.fabricRequest q) s = .next t ∧ t = { s with refusals := s.refusals ++ [r] })
  ∧ (∀ (s : State) (u : Undelivered) (c : Ctx), s.undeliv.find? (fun v => v.id == u.id && !v.refused) = some u → u.since + 2 ^ 24 ≤ s.clk →
      s.ctx? u.ctx = some c → ∃ t, exec (.requestUndeliverable u.id) s = .next t ∧ t.chkOf u.ctx = c.chk ||| 8
        ∧ t.hostEvents = s.hostEvents ++ [.undeliverable u.ctx] ∧ (∀ v, v ∈ t.undeliv → v.id = u.id → v.refused = true) ∧ t.mem = s.mem)
  ∧ (∀ (s : State) (k : LinkSt), k ∈ s.links → k.up = true →
      ∃ t v, exec (.linkRetry k.port false) s = .next t ∧ v ∈ t.links ∧ v.port = k.port ∧ v.retries = k.retries + 1
        ∧ v.up = decide (k.fails + 1 < 8) ∧ t.mem = s.mem ∧ t.warps = s.warps))

/-! ### Engine queues, copies and matrices (13) -/

/-- R267, R270, R274, R280, R281, R284, R288, R343, R348, R396: a copy, a QFENCE and a collective whose operands are in range are entered in
their queue, and their run passes; when the queue has no place, the run waits and nothing else happens. The issue of a COLL is a release at
pod scope, and commits the open checkpoint interval; a COLL whose key is in use completes at once with status 2 (R342). R267, R270, R274, R290, R291, R292, R297, R298, R299: a matrix command whose operands
are aligned and in range is entered in its queue. MMAR reads four names unless the warp's latch holds them, and leaves the latch full or
empty as its form says. -/
def Obligations.QueuedCommands : Prop :=
  (∀ (f : FmtE) (s : State) (g : Wg), s.wg? s.me.wg = some g → g.Permits f →
    s.ready f.guard f.cf (f.sa.touch ++ f.sb.touch ++ f.sc.touch) = true →
    let a := s.usrc f.sa f.imm
    let b := s.usrc f.sb f.imm
    let c := s.usrc f.sc f.imm
    let fits := fun (off : Word) (n : Nat) => n = 0 ∨ off.toNat + n ≤ g.foot.loc
    let waits := fun (cmd : Instr) => s.placeFor cmd f = false →
      ∃ t e, exec cmd s = .next t ∧ s.WaitsIn t (.queueFull e) (s.flagOf f.cf).join ∧ e.cmd = cmd
    let enters := fun (cmd : Instr) (legal : Prop) => legal → waits cmd ∧ (s.placeFor cmd f = true →
      ∃ t e, exec cmd s = .next t ∧ ({ s with wgs := t.wgs } : State).Moves t {} (fun _ => succPc s.cur.pc) ∧ s.Entered t cmd f e)
    let usable := ∃ m, s.comm? (fieldNat c 0 12) = some m ∧ m.desc.en = true ∧ m.desc.ctx = s.myCtx
      ∧ fieldNat c 12 4 = 0 ∧ c.toNat / 2 ^ 26 = 0 ∧ fieldNat c 16 10 < m.desc.n
    enters (.cpya f) (c.toNat ≤ 2 ^ 24 ∧ (f.sub.toNat % 4 = 0 ∨ f.sub.toNat % 4 = 1 → fits a c.toNat)
      ∧ (f.sub.toNat % 4 = 3 → fits a c.toNat ∧ fits b c.toNat))
    ∧ enters (.cpyt f)
      (let off := f.imm.setWidth 64
      let tiles := fieldNat c 0 32 * fieldNat c 32 32
      (f.sub.toNat % 4 = 0 → off.toNat % 256 = 0 ∧ fits off (tiles * 256)) ∧ (f.sub.toNat % 4 = 1 → off.toNat % 256 = 0)
        ∧ (2 ≤ f.sub.toNat % 4 → off.toNat % 16 = 0 ∧ fits off (tiles * 2)))
    ∧ enters (.cpyg f)
      (let dst := word (fieldNat a 0 32)
      let list := word (fieldNat a 32 32)
      let n := fieldNat f.imm 12 16
      dst.toNat % 16 = 0 ∧ list.toNat % 4 = 0 ∧ fits dst (n * (fieldNat f.imm 0 12 * 16)) ∧ fits list (4 * n))
    ∧ enters (.qfence f) True
    ∧ (s.placeFor (.qfence f) f = true → ∃ t v e, exec (.qfence f) s = .next t ∧ t.wg? s.me.wg = some v
        ∧ v.queue f.queue = g.queue f.queue ++ [e] ∧ ∀ id, id ∈ e.after ↔ ∃ q x, (q ≠ f.queue → f.imm.getLsbD q.no = true)
          ∧ (q = f.queue → q = .xq) ∧ x ∈ g.queue q ∧ x.uid = id)
    ∧ (s.cur.handler = false → enters (.collx f) (usable ∧ fieldNat c 16 10 = 0))
    ∧ (s.cur.handler = false → usable → (f.sa ≠ .imm → a.toNat < 65536) → (f.sb ≠ .imm → b.toNat < 65536) →
      s.keyUsed s.me.wg { uid := 0, cmd := .coll f, a := a, b := b, c := c, warp := 0 } = false →
      waits (.coll f) ∧ (s.placeFor (.coll f) f = true →
        ∃ t e, exec (.coll f) s = .next t
          ∧ ({ s.withMemoryOf t with wgs := t.wgs } : State).Moves t {} (fun _ => succPc s.cur.pc) ∧ s.Entered t (.coll f) f e
          ∧ (∀ l, l ∈ t.l1 → l.core = s.l1Owner g.core → l.dirty = [])
          ∧ ∀ x v, t.ctx? g.ctx = some x → x.interval = some v → v.log = []))
    ∧ (s.cur.handler = false → usable → (f.sa ≠ .imm → a.toNat < 65536) → (f.sb ≠ .imm → b.toNat < 65536) →
      s.keyUsed s.me.wg { uid := 0, cmd := .coll f, a := a, b := b, c := c, warp := 0 } = true → s.releaseStalls g.core .pod = false →
      ∃ t v, exec (.coll f) s = .next t ∧ ({ s.withMemoryOf t with wgs := t.wgs } : State).Moves t {} (fun _ => succPc s.cur.pc)
        ∧ t.wg? s.me.wg = some v ∧ v.queues = g.queues ∧ { v with tags := [] } = { g with tags := [] }
        ∧ ∀ k, f.tag.map (·.val) = some k → (nth v.tags k {}).pending = (nth g.tags k {}).pending ∧ 2 ≤ (nth v.tags k {}).status
            ∧ ((nth g.tags k {}).pending = 0 → (nth v.tags k {}).status = 2 ∧ (nth v.tags k {}).fcode = 0x0C)))
  ∧ (∀ (f : FmtE) (s : State) (g : Wg), s.wg? s.me.wg = some g → g.Permits f →
    let a := s.usrc f.sa f.imm
    let b := s.usrc f.sb f.imm
    let c := s.usrc f.sc f.imm
    let fmt := f.sub.toNat % 8
    let kind := f.imm.toNat % 4
    let M := mRows f.sub
    let N := nCols f.sub
    let fits := fun (off : Word) (n : Nat) => n = 0 ∨ off.toNat + n ≤ g.foot.loc
    let tile := fun (off : Word) (n : Nat) => off.toNat % 256 = 0 ∧ fits off n
    let acc := fun (kib : Word) (n : Nat) => kib.toNat * 1024 + n ≤ g.foot.acckib * 1024
    let pairs := fun (m : Nat) => fmt = 6 →
      fits (word (fieldNat f.imm 0 16 * 256)) (8 * m) ∧ fits (word (fieldNat f.imm 16 16 * 256)) (8 * N)
    let enters := fun (cmd : Instr) (legal : Prop) =>
      s.ready f.guard f.cf (f.sa.touch ++ f.sb.touch ++ f.sc.touch) = true → legal → s.placeFor cmd f = true →
      ∃ t e, exec cmd s = .next t ∧ ({ s with wgs := t.wgs } : State).Moves t {} (fun _ => succPc s.cur.pc) ∧ s.Entered t cmd f e
    enters (.mma f) (tile a (M * 64) ∧ tile b (N * 64) ∧ acc c (M * N * (if fmt = 0 then 8 else 4)) ∧ pairs M)
    ∧ enters (.mzero f) (acc a (M * N * (if kind = 1 then 8 else 4)))
    ∧ enters (.mldacc f) (acc a (M * N * (if kind = 1 then 8 else 4)) ∧ tile b (M * N * (if kind = 1 then 8 else 4)))
    ∧ enters (.mdrain f) (acc a (M * N * (if kind = 1 then 8 else 4)) ∧ (bitAt f.imm 3 = false → tile b (M * N * outBytes fmt)))
    ∧ enters (.mtrn f)
      (let R := fieldNat c 0 16
      let C := fieldNat c 16 16
      let w := 2 ^ (f.sub.toNat % 4)
      R % 32 = 0 ∧ C % 32 = 0 ∧ 32 ≤ R ∧ 32 ≤ C ∧ R * C * w ≤ 65536 ∧ tile a (R * C * w) ∧ tile b (R * C * w))
    ∧ (∀ n : Fin 192, f.sc = .uni n → n.val + 3 < 128 → (∀ w, w ∈ s.warps → w.uid = s.me.uid → w.loc = s.cur.loc) →
      (s.warp? s.cur.loc).isSome = true → (s.cur.handler = true → n.val + 3 < 8) →
      let names := (List.range 4).map (fun i => n.val + i)
      let held := ∃ k, s.me.latch = some k ∧ k.name = n.val ∧ k.fmt = fmt ∧ k.balt = bitAt f.sub 3
      let reads := if latchHit s.me f = none then names.map Touch.name else []
      s.ready f.guard f.cf (f.sa.touch ++ f.sb.touch ++ reads) = true → s.mapped reads = true →
      tile b (N * 64) → acc a (16 * N * (if fmt = 0 then 8 else 4)) → pairs 16 → s.placeFor (.mmar f) f = true →
      ∃ t e, exec (.mmar f) s = .next t ∧ s.Entered t (.mmar f) f e
        ∧ ({ s.updWarp s.cur.loc (fun w => { w with latch := t.me.latch }) with wgs := t.wgs } : State).Moves t {}
            (fun _ => succPc s.cur.pc)
        ∧ (held → ∀ k, s.me.latch = some k → e.latch = k.bytes)
        ∧ (¬ held → e.latch = names.flatMap (fun m => (List.range 32).flatMap (fun th => bytesOfWord 8 (s.elem m th))))
        ∧ t.me.latch = if f.ru = true then some { bytes := e.latch, name := n.val, fmt := fmt, balt := bitAt f.sub 3 } else none))

/-- R267, R269, R270, R273, R276, R288: QUEUE_ENTRY_ADMIT enters the command of the first waiting run, which passes it; ENGINE_ENTRY_START
starts a head, and performs a QFENCE once every entry that it awaits has left; GUARD_HOLD_RESOLVED lets a head go on when its guard resolves
to true, and discards it with status 1 when it resolves to false; ENGINE_ENTRY_COMPLETE takes a performed head from its queue, and its flag
clears. -/
def Obligations.QueueEvents : Prop :=
  (∀ (s : State) (l : Loc) (w : Warp) (g : Wg) (x : Wait) (e : QEntry) (q : QueueName) (rest : List (RunRef × Wait)),
    s.warp? l = some w → s.wg? w.wg = some g → x.kind = .queueFull e → e.fields.queue = q → (s.hrun? l) = none →
    s.queueWaits w.wg q = ({ loc := l, handler := false, pc := x.pc }, x) :: rest → s.hasRoom w.wg e = true →
    s.ctxLive w.ctx = true → s.keyUsed w.wg e = false →
    (∀ p y r, p ≠ q → s.queueWaits w.wg p = y :: r → y.1.loc = l → y.1.pc ≠ x.pc) →
    ∃ t v id, exec (.queueEntryAdmit l x.pc) s = .next t ∧ t.wg? w.wg = some v
      ∧ v.queue q = g.queue q ++ [{ e with uid := id }] ∧ (∀ p, p ≠ q → v.queue p = g.queue p)
      ∧ (∀ y, t.warp? l = some y → (∀ th, th < 32 → bitAt (w.runAt x.pc) th = true →
            y.thread th = { w.thread th with pc := succPc x.pc, pos := (w.thread th).pos + 1, pass := false, arrived := false })
          ∧ (∀ th, th < 32 → bitAt (w.runAt x.pc) th = false → y.thread th = w.thread th) ∧ ∀ z, z ∈ y.waits → z.pc ≠ x.pc))
  ∧ (∀ (s : State) (u : Nat) (q : QueueName) (g : Wg) (e : QEntry), s.wg? u = some g → g.head q = some e →
    (∀ x, x ∈ g.queue q → x.uid = e.uid → x = e) → (∀ x, x ∈ s.wgs → x.gone = false) →
    let becomes := fun (t : State) (e' : QEntry) => ∃ v, t.wg? u = some v ∧ v.queue q = (g.queue q).map (fun x => if x = e then e' else x)
      ∧ ∀ p, p ≠ q → v.queue p = g.queue p
    (e.guardGen = none → e.started = false → e.cmd.isFence = true → (∀ p x, x ∈ g.queue p → x.uid ∉ e.after) → g.queues.length ≤ 6 →
      ∃ t, exec (.engineEntryStart (.queue u q)) s = .next t ∧ s.WgOnly t u
        ∧ becomes t { e with started := true, outcome := some (0, 0, false) })
    ∧ (∀ n : Fin 4, q = .cq n → e.guardGen = none → e.started = false → e.cmd.isFence = false → s.ctxLive g.ctx = true →
        s.engineBusy g.core false = false → s.nextServed g.core false = some (u, q) →
        ∃ t, exec (.engineEntryStart (.queue u q)) s = .next t ∧ s.WgOnly t u ∧ t.wg? u ≠ none
          ∧ becomes t { e with started := true, outcome := if e.total = 0 then some (0, 0, false) else none })
    ∧ (∀ b, e.guardGen = some b → g.genOf b = some true →
        ∃ t, exec (.guardHoldResolved (.queue u q)) s = .next t ∧ s.WgOnly t u ∧ becomes t { e with guardGen := none })
    ∧ (∀ b, e.guardGen = some b → g.genOf b = some false →
        ∃ t, exec (.guardHoldResolved (.queue u q)) s = .next t ∧ s.EntryLeaves t u q e 1 0 false)
    ∧ (∀ o, e.outcome = some o → (q = .xq → e.cmd.isFence = true) →
        ∃ t, exec (.engineEntryComplete (.queue u q)) s = .next t ∧ s.EntryLeaves t u q e o.1 o.2.1 o.2.2
          ∧ (∀ l k w, e.flag = some (l, false, k) → s.warp? l = some w → w.uid = e.warp → ∃ v, t.warp? l = some v
              ∧ ∀ j, nth v.flags j 0 = if j = k then nth w.flags j 0 - 1 else nth w.flags j 0)
          ∧ (e.flag = none → ∀ l w, s.warp? l = some w → ∃ v, t.warp? l = some v ∧ v.flags = w.flags)))

/-- R277, R280, R282, R284: while no barrier object is in use (R305), one progress step of a copy moves the bytes of a chunk of CPYA, of one row of CPYG or of one tile of a raw CPYT
between local and generic memory, and no other byte; the copy has its outcome after its last step. -/
def Obligations.CopySteps : Prop :=
  ∀ (s : State) (u : Nat) (n : Fin 4) (g : Wg) (e : QEntry), s.wg? u = some g → g.head (.cq n) = some e → e.started = true →
    e.outcome = none → s.ctxLive g.ctx = true → s.Quiet g.core g.ctx → (∀ x, x ∈ g.queue (.cq n) → x.uid = e.uid → x = e) →
    (∀ o, o ∈ g.objects → s.inUse g o = false) →
    let j := e.progress
    let step := fun (t : State) => exec (.copyChunk (.queue u (.cq n))) s = .next t
      ∧ ∃ v, t.wg? u = some v ∧ v.queue (.cq n) = (g.queue (.cq n)).map (fun x => if x = e then
          { e with progress := j + 1, outcome := if e.total ≤ j + 1 then some (0, 0, false) else none } else x)
    let local_ := fun (t : State) (d len : Nat) (b : Nat → Byte) => t.mem = s.mem ∧ ∃ v, t.wg? u = some v
      ∧ ∀ a, sparseGet v.locMem a = if d ≤ a ∧ a < d + len then b (a - d) else sparseGet g.locMem a
    let generic := fun (t : State) (d len : Nat) (b : Nat → Byte) => (∃ v, t.wg? u = some v ∧ v.locMem = g.locMem)
      ∧ ∀ a, t.byteAt a = if d ≤ a ∧ a < d + len then b (a - d) else s.byteAt a
    (∀ f, e.cmd = .cpya f → 4096 * j < e.c.toNat → e.c.toNat ≤ 2 ^ 24 → e.a.toNat + e.c.toNat ≤ 2 ^ 63 → e.b.toNat + e.c.toNat ≤ 2 ^ 63 →
      let len := min 4096 (e.c.toNat - 4096 * j)
      let A := e.a + BitVec.ofNat 64 (4096 * j)
      let B := e.b + BitVec.ofNat 64 (4096 * j)
      (f.sub.toNat % 4 = 0 → ∀ b, s.onePage g.core g.ctx B len false b →
        ∃ t, step t ∧ local_ t A.toNat len (fun i => s.byteAt (b + i)))
      ∧ (f.sub.toNat % 4 = 1 → ∀ b, s.onePage g.core g.ctx B len true b →
        ∃ t, step t ∧ generic t b len (fun i => sparseGet g.locMem (A.toNat + i)))
      ∧ (f.sub.toNat % 4 = 2 → ∀ a b, s.onePage g.core g.ctx B len false b → s.onePage g.core g.ctx A len true a →
        ∃ t, step t ∧ generic t a len (fun i => s.byteAt (b + i)))
      ∧ (f.sub.toNat % 4 = 3 → ∃ t, step t ∧ local_ t A.toNat len (fun i => sparseGet g.locMem (B.toNat + i))))
    ∧ (∀ f, e.cmd = .cpyg f → j < fieldNat f.imm 12 16 →
      let len := fieldNat f.imm 0 12 * 16
      let index := wordOfBytes ((List.range 4).map (fun i => sparseGet g.locMem (fieldNat e.a 32 32 + 4 * j + i)))
      0 < len → ∀ b, s.onePage g.core g.ctx (e.b + index * e.c) len false b →
        ∃ t, step t ∧ local_ t (fieldNat e.a 0 32 + j * len) len (fun i => s.byteAt (b + i)))
    ∧ (∀ f T i2 i3 b p, e.cmd = .cpyt f → f.sub.toNat % 4 = 0 → s.tensorOf g.ctx e.a = .ok (T, i2, i3) → j = 0 →
      rowsCols e.c = (1, 1) →
      let at_ := [(rowsCols e.b).2, (rowsCols e.b).1, i2, i3]
      T.within at_ = true → s.translate g.core g.ctx (T.tileVa at_).toNat = some p →
      (∃ r, s.translate g.core g.ctx T.base = some r ∧ pageAgrees T r.entry p.entry = true) →
      (pteFmt p.entry = 7 → s.companionFmt g.core g.ctx T (T.tileVa at_) = .ok ()) →
      (bitAt f.sub 2 = false → s.onePage g.core g.ctx (T.tileVa at_) 256 false b →
        ∃ t, step t ∧ local_ t f.imm.toNat 256 (fun i => s.byteAt (b + i)))
      ∧ (bitAt f.sub 2 = true → s.onePage g.core g.ctx (T.tileVa at_) 256 true b →
        ∃ t, step t ∧ generic t b 256 (fun i => sparseGet g.locMem (f.imm.toNat + i))))

/-- R291, R297, R298, R299, and the accumulator layout of log 9: when the head of mq starts, MZERO clears its tile, MLDACC loads it, an INT8
MMA adds the products of its operands modulo 2^32, MDRAIN writes an INT32 tile to local memory as it stands, and MTRN transposes; each ends
with its outcome, and no other accumulator or local byte changes. -/
def Obligations.MatrixEffects : Prop :=
  ∀ (s : State) (u : Nat) (g : Wg) (e : QEntry), s.wg? u = some g → g.head .mq = some e → e.guardGen = none → e.started = false →
    s.engineBusy g.core true = false → s.nextServed g.core true = some (u, .mq) → s.migrations = [] →
    (∀ o, o ∈ g.objects → s.inUse g o = false) → (∀ x, x ∈ g.queue .mq → x.uid = e.uid → x = e) →
    let M := fun (f : FmtE) => mRows f.sub
    let N := fun (f : FmtE) => nCols f.sub
    let width := fun (f : FmtE) => if f.imm.toNat % 4 = 1 then 8 else 4
    let element := fun (x : Wg) (off w i : Nat) => natOfBytes (sparseRead x.accMem (off * 1024 + i * w) w)
    let starts := fun (v : Wg) (t : State) => exec (.engineEntryStart (.queue u .mq)) s = .next t ∧ t.wg? u = some v
      ∧ (∀ p, p ≠ u → t.wg? p = s.wg? p) ∧ t.mem = s.mem ∧ t.warps = s.warps
    let ends := fun (v : Wg) (o : Nat × Nat × Bool) =>
      v.queue .mq = (g.queue .mq).map (fun x => if x = e then { e with started := true, outcome := some o } else x)
    let accOnly := fun (v : Wg) (off n : Nat) => v.locMem = g.locMem
      ∧ ∀ a, a < off * 1024 ∨ off * 1024 + n ≤ a → sparseGet v.accMem a = sparseGet g.accMem a
    (∀ f, e.cmd = .mzero f → ∃ t v, starts v t ∧ ends v (0, 0, false) ∧ accOnly v e.a.toNat (M f * N f * width f)
      ∧ (∀ i, i < M f * N f → element v e.a.toNat (width f) i = 0)
      ∧ ∃ r, r ∈ v.cks ∧ r.isFor e.a.toNat (M f) (N f) (f.imm.toNat % 4) = true ∧ r.skip = 0 ∧ r.drained = false)
    ∧ (∀ f, e.cmd = .mldacc f → ∃ t v, starts v t ∧ ends v (0, 0, false) ∧ accOnly v e.a.toNat (M f * N f * width f)
      ∧ ∀ m n, m < M f → n < N f → element v e.a.toNat (width f) (m * N f + n)
          = natOfBytes (sparseRead g.locMem (e.b.toNat + tileOff (N f * width f) m (n * width f)) (width f)))
    ∧ (∀ f, e.cmd = .mma f → f.sub.toNat % 8 = 7 → bitAt f.sub 3 = false → f.imm.getLsbD 0 = false → ∃ t v, starts v t ∧ ends v (0, 0, false)
      ∧ accOnly v e.c.toNat (M f * N f * 4)
      ∧ ∀ m n, m < M f → n < N f →
          let A := fun (k : Nat) => (sparseGet g.locMem (e.a.toNat + tileOff 64 m k)).toInt
          let B := fun (k : Nat) => (sparseGet g.locMem (e.b.toNat + tileOff (N f) k n)).toInt
          (element v e.c.toNat 4 (m * N f + n) : Int)
            = ((element g e.c.toNat 4 (m * N f + n) : Int) + (List.range 64).foldl (fun x k => x + A k * B k) 0) % 2 ^ 32)
    ∧ (∀ f, e.cmd = .mdrain f → f.imm.toNat % 4 = 2 → f.sub.toNat % 8 = 5 → bitAt f.imm 2 = false → bitAt f.imm 3 = false →
      ∃ t v, starts v t ∧ ends v (0, 0, false) ∧ v.accMem = g.accMem
        ∧ (∀ m n, m < M f → n < N f → natOfBytes (sparseRead v.locMem (e.b.toNat + tileOff (N f * 4) m (n * 4)) 4)
            = element g e.a.toNat 4 (m * N f + n))
        ∧ ∀ x, x < e.b.toNat ∨ e.b.toNat + M f * N f * 4 ≤ x → sparseGet v.locMem x = sparseGet g.locMem x)
    ∧ (∀ f, e.cmd = .mtrn f →
      let w := 2 ^ (f.sub.toNat % 4)
      let R := fieldNat e.c 0 16
      let C := fieldNat e.c 16 16
      R % 32 = 0 → C % 32 = 0 → ∃ t v, starts v t ∧ ends v (0, 0, false) ∧ v.accMem = g.accMem
        ∧ (∀ r c, r < R → c < C → sparseRead v.locMem (e.a.toNat + tileOff (R * w) c (r * w)) w
            = sparseRead g.locMem (e.b.toNat + tileOff (C * w) r (c * w)) w)
        ∧ ∀ x, x < e.a.toNat ∨ e.a.toNat + R * C * w ≤ x → sparseGet v.locMem x = sparseGet g.locMem x)

/-- R270, R271, R285, R286, R276: TAGWA waits until every tag of its mask is set, TAGWY until one is, and TAGFF does not wait; they write
the lowest set tag. A deferred trap of a tag that they observe is delivered, parked at the successor. TAGST reads a tag, TAGCLR clears the
set tags of its mask; a waiting TAGWA or TAGWY completes when its tags are set. -/
def Obligations.TagInstructions : Prop :=
  ∀ (f : FmtA) (s : State) (g : Wg), s.wg? s.me.wg = some g →
    let operand : Word := match f.sa with
      | .uni k => s.uni k.val
      | _ => if f.fn = 1 then f.imm.setWidth 64 <<< 32 else f.imm.setWidth 64
    let named := fun (x : Nat) => x < g.tags.length ∧ bitAt operand x = true
    let set := fun (x : Nat) => (nth g.tags x {}).pending = 0
    let trap := fun (x : Nat) => (nth g.tags x {}).trappend = true
    let lowest_ := fun (p : Nat → Prop) (x : Nat) => p x ∧ ∀ y, p y → x ≤ y
    let waits := fun (i : Instr) => ∃ t k, exec i s = .next t ∧ s.WaitsIn t k (s.flagOf f.cf).join
    let passes := fun (i : Instr) (unis : List Nat) (r : State → Prop) => ∃ t, exec i s = .next t
      ∧ ({ s with l1 := t.l1, l2 := t.l2 } : State).Passed t f.cf { unis := unis } ∧ r t
    let first := fun (k : Nat) (t : State) => (∀ x, lowest_ (fun y => named y ∧ set y) x → t.uni k = BitVec.ofNat 64 x)
      ∧ ((∀ x, ¬ (named x ∧ set x)) → t.uni k = -1)
    (s.ready f.guard f.cf f.sa.touch = true →
      ((∀ x, named x → set x ∧ ¬ trap x) → passes (.tagwa f) [] (fun _ => True))
      ∧ ((∃ x, named x ∧ ¬ set x) → waits (.tagwa f))
      ∧ (s.cur.handler = false → (∀ x, named x → set x) → ∀ x, lowest_ (fun y => named y ∧ trap y) x →
          ∃ t, exec (.tagwa f) s = .next t ∧ ({ s with l1 := t.l1, l2 := t.l2, wgs := t.wgs } : State).Parks t (s.ex f.guard)
              (nth g.tags x {}).code (succPc s.cur.pc) (BitVec.ofNat 64 x) 0
            ∧ ∃ v, t.wg? s.me.wg = some v ∧ ∀ y, nth v.tags y {} = if y = x then { nth g.tags x {} with trappend := false }
                else nth g.tags y {})
      ∧ (∃ t v, exec (.tagclr f) s = .next t ∧ ({ s with wgs := t.wgs } : State).Passed t f.cf {} ∧ t.wg? s.me.wg = some v
          ∧ (∀ x, named x → set x → nth v.tags x {} = {}) ∧ (∀ x, ¬ (named x ∧ set x) → nth v.tags x {} = nth g.tags x {})
          ∧ { v with tags := [] } = { g with tags := [] } ∧ ∀ u, u ≠ s.me.wg → t.wg? u = s.wg? u))
    ∧ (∀ k : Fin 192, f.dst = .uni k →
      (s.ready f.guard f.cf (f.sa.touch ++ f.dst.touch) = true → (∀ x, named x → set x → ¬ trap x) →
        passes (.tagff f) [k.val] (first k.val)
        ∧ ((∃ x, named x ∧ set x) ∨ (∀ x, ¬ named x) → passes (.tagwy f) [k.val] (first k.val))
        ∧ ((∃ x, named x) → (∀ x, named x → ¬ set x) → waits (.tagwy f)))
      ∧ (s.ready f.guard f.cf f.dst.touch = true → f.imm.toNat < g.tags.length →
        ∃ t, exec (.tagst f) s = .next t ∧ s.Passed t f.cf { unis := [k.val] }
          ∧ let x := nth g.tags f.imm.toNat {}
            fieldNat (t.uni k.val) 0 8 = x.status % 4 ∧ bitAt (t.uni k.val) 8 = decide (x.pending = 0)
            ∧ bitAt (t.uni k.val) 9 = x.trappend ∧ fieldNat (t.uni k.val) 16 8 = x.fcode % 256 ∧ fieldNat (t.uni k.val) 24 40 = 0))
    ∧ ∀ (l : Loc) (w : Warp) (h : Wg) (x : Wait) (m : Word) (ex : Mask), s.WaitsAt l w x → s.wg? w.wg = some h →
        s.ctxLive w.ctx = true →
        (x.kind = .tagAll m ex ∧ (∀ y, y < h.tags.length → bitAt m y = true → (nth h.tags y {}).pending = 0)
          ∨ ∃ d y, x.kind = .tagAny m d ex ∧ y < h.tags.length ∧ bitAt m y = true ∧ (nth h.tags y {}).pending = 0) →
        (∀ y, y < h.tags.length → bitAt m y = true → (nth h.tags y {}).trappend = false) →
        ∃ t v, exec (.tagWaitComplete { loc := l, handler := false, pc := x.pc }) s = .next t ∧ t.warp? l = some v
          ∧ WaitPassed w v x.pc x.mask ∧ t.wgs = s.wgs ∧ t.mem = s.mem
          ∧ ∀ d y, x.kind = .tagAny m d ex → y < h.tags.length → bitAt m y = true → (nth h.tags y {}).pending = 0 →
              (∀ z, z < y → bitAt m z = true → (nth h.tags z {}).pending ≠ 0) → nth v.unif d 0 = BitVec.ofNat 64 y

/-- R272, R287, R296: GSET resolves the current generation of a guard slot, or begins one that is resolved; GCLR resolves an unresolved one
to false and begins a new one. MCHK reads the record of an accumulator offset once the entries that were queued before it have left. -/
def Obligations.GuardSlotsAndRecords : Prop :=
  ∀ (f : FmtA) (s : State) (g : Wg), s.wg? s.me.wg = some g →
    let only := fun (t : State) (v : Wg) => ({ s with wgs := t.wgs } : State).Passed t f.cf {} ∧ t.wg? s.me.wg = some v
      ∧ { v with guards := [] } = { g with guards := [] } ∧ ∀ u, u ≠ s.me.wg → t.wg? u = s.wg? u
    let word_ := fun (x : Wg) (off : Word) (stat : Bool) (r : Word) =>
      match x.cks.find? (fun c => c.off == off.toNat) with
      | none => r = 0
      | some c => if stat then r.toNat = 2 ^ 33 + (if c.drained then 2 ^ 32 else 0) + c.mism % 512 * 65536 + c.unchk % 512
          else r.toNat = min c.skip (2 ^ 64 - 1)
    ((∀ (p : Fin 128) (old : List (Option Bool)) (c : Option Bool), f.sa = .name p → f.imm.toNat < g.guards.length →
        s.ready f.guard f.cf [.pred p.val] = true →
        nth g.guards f.imm.toNat [] = old ++ [c] →
        ∃ t v b, exec (.gset f) s = .next t ∧ only t v
          ∧ (b = true ↔ if f.fn = 1 then ∀ th, bitAt (s.ex f.guard) th = true → s.pred p.val th = true
              else ∃ th, bitAt (s.ex f.guard) th = true ∧ s.pred p.val th = true)
          ∧ nth v.guards f.imm.toNat [] = (if c = none then old ++ [some b] else old ++ [c, some b])
          ∧ ∀ k, k ≠ f.imm.toNat → nth v.guards k [] = nth g.guards k [])
      ∧ (f.imm.toNat < 2 ^ g.guards.length → g.guards.length ≤ 16 → s.ready f.guard f.cf [] = true →
        ∃ t v, exec (.gclr f) s = .next t ∧ only t v
          ∧ (∀ k old c, f.imm.getLsbD k = true → nth g.guards k [] = old ++ [c] →
              nth v.guards k [] = (if c = none then old ++ [some false, none] else old ++ [c, none]))
          ∧ ∀ k, f.imm.getLsbD k = false → nth v.guards k [] = nth g.guards k []))
    ∧ (∀ k : Fin 192, f.dst = .uni k → s.ready f.guard f.cf (f.sa.touch ++ f.dst.touch) = true →
      let off := s.src f.sa 0 (f.imm.setWidth 64)
      (g.queue .mq = [] → ∃ t, exec (.mchk f) s = .next t ∧ s.Passed t f.cf { unis := [k.val] }
          ∧ word_ g off (f.fn == 1) (t.uni k.val))
      ∧ (g.queue .mq ≠ [] → ∃ t, exec (.mchk f) s = .next t
          ∧ s.WaitsIn t (.mchk ((g.queue .mq).map (·.uid)) off (f.fn == 1) k.val) (s.flagOf f.cf).join))
    ∧ ∀ (w : Warp) (x : Wait) (e : QEntry) (o : Nat × Nat × Bool) (off : Word) (stat : Bool) (d : Nat),
        s.warps.filter (fun y => y.wg == g.uid) = [w] → s.warp? w.loc = some w → s.hrun? w.loc = none → w.waits = [x] →
        x.kind = .mchk [e.uid] off stat d → w.runAt x.pc = x.mask → s.ctxLive g.ctx = true → (∀ y, y ∈ s.wgs → y.gone = false) → g.head .mq = some e → e.outcome = some o →
        ∃ t v y, exec (.engineEntryComplete (.queue g.uid .mq)) s = .next t ∧ t.warp? w.loc = some v ∧ t.wg? g.uid = some y
          ∧ word_ y off stat (nth v.unif d 0) ∧ WaitPassed w v x.pc x.mask

/-! ### Synchronising (15) -/

/-- R302, R303, R304, R305, R306, R307: a whole warp arrives once at BAR or CBAR and waits for its generation, whose completion lets every
arrived warp pass and opens the next one; a wrong count raises ILLEGAL_OP. ARRIVE counts down a barrier object and returns its phase; AWAIT
waits until the phase differs from its token. -/
def Obligations.Barriers : Prop :=
  (∀ (f : FmtA) (s : State) (b : BarGen), s.mayWait = true → b.owed = [] → s.me.uid ∉ b.arrived →
    let arrived := fun (count : Option Nat) => { b with arrived := b.arrived ++ [s.me.uid], count := count, opened := true }
    let count := if f.fn = 1 then some (s.src f.sa 0 (f.imm.setWidth 64)).toNat else none
    (s.ready f.guard f.cf f.sa.touch = true → ∀ g, s.wg? s.me.wg = some g → g.bar = b → s.barrierDone false s.me.wg = none →
      (s.me.whole s.cur.pc = false → ∃ t, exec (.bar f) s = .next t ∧ s.WaitsIn t .gather (s.flagOf f.cf).join)
      ∧ (s.me.whole s.cur.pc = true → (∀ c, count = some c → 1 ≤ c ∧ c ≤ 32) → (b.opened = true → b.count = count) →
          ∃ t v, exec (.bar f) s = .next t ∧ ({ s with wgs := t.wgs } : State).WaitsIn t (.barrier false b.gen) (s.flagOf f.cf).join
            ∧ t.wg? s.me.wg = some v ∧ v.bar = arrived count ∧ { v with bar := b } = g ∧ ∀ u, u ≠ s.me.wg → t.wg? u = s.wg? u)
      ∧ (s.me.whole s.cur.pc = true → ((∃ c, count = some c ∧ (c = 0 ∨ 32 < c)) ∨ (b.opened = true ∧ b.count ≠ count)) →
          ∃ t, exec (.bar f) s = .next t ∧ s.Parks t (s.ex f.guard) 0x01 s.cur.pc 0 0))
    ∧ (s.ready f.guard f.cf [] = true → ∀ g c, s.wg? s.me.wg = some g → s.groups.find? (fun x => x.id == g.group.getD 0) = some c →
      c.cbar = b → b.count = none → s.me.whole s.cur.pc = true → s.barrierDone true c.id = none → s.releasable →
      ∃ t, exec (.cbar f) s = .next t
        ∧ ({ s.withMemoryOf t with groups := t.groups } : State).WaitsIn t (.barrier true b.gen) (s.flagOf f.cf).join
        ∧ t.groups = s.groups.map (fun x => if x.id = c.id then { x with cbar :=
            { x.cbar with arrived := x.cbar.arrived ++ [s.me.uid], count := none, opened := true } } else x)
        ∧ (s.scopeMoves s.myCore .cluster = true → ∀ l, l ∈ t.l1 → l.core = s.l1Owner s.myCore → l.dirty = [])))
  ∧ (∀ (s : State) (cluster : Bool) (id : Nat) (b : BarGen), s.barrier? cluster id = some b → b.opened = true → b.arrived.Nodup →
      (∀ c, b.count = some c → c ≤ b.arrived.length) →
      (b.count = none → ∀ w, w ∈ s.partiesOf cluster id → w.uid ∈ b.arrived) →
      (s.warps.map (·.loc)).Nodup → (s.warps.map (·.uid)).Nodup →
      ∃ t b', exec (.barrierComplete cluster id) s = .next t ∧ t.barrier? cluster id = some b'
        ∧ b'.gen = b.gen + 1 ∧ b'.arrived = [] ∧ b'.count = none ∧ b'.opened = false ∧ t.mem = s.mem
        ∧ (∀ w x, w ∈ s.warps → w.uid ∈ b.arrived → s.ctxLive w.ctx = true →
            w.waits.find? (fun x => x.kind == .barrier cluster b.gen && x.mask == w.runAt x.pc) = some x →
            ∃ v, t.warp? w.loc = some v ∧ ∀ th, th < 32 → v.thread th = if bitAt x.mask th then
              { w.thread th with pc := succPc x.pc, pos := (w.thread th).pos + 1, pass := false, arrived := false } else w.thread th)
        ∧ ∀ w, w ∈ s.warps → w.uid ∉ b.arrived → t.warp? w.loc = some w)
  ∧ (∀ (f : FmtM) (s : State) (g : Wg), s.wg? s.me.wg = some g →
      let a := (s.eaOf f 0 false 0).toNat
      let o := fun (x : Wg) => wordOfBytes (sparseRead x.locMem a 8)
      a % 8 = 0 → a + 8 ≤ g.foot.loc →
      (∀ k : Fin 192, f.dst = .uni k → s.cur.handler = false → s.ready f.guard f.cf (f.base.touch ++ f.index.touch ++ f.dst.touch) = true →
        let n := if f.index = .imm then 1 else fieldNat (s.src f.index 0 0) 0 16
        ∃ t v, exec (.arrive f) s = .next t ∧ ({ s with wgs := t.wgs } : State).Passed t f.cf { unis := [k.val] }
          ∧ t.wg? s.me.wg = some v ∧ { v with locMem := [], objects := [] } = { g with locMem := [], objects := [] }
          ∧ (∀ x, x < a ∨ a + 8 ≤ x → sparseGet v.locMem x = sparseGet g.locMem x)
          ∧ t.uni k.val = BitVec.ofNat 64 (fieldNat (o g) 32 16)
          ∧ fieldNat (o v) 0 16 = fieldNat (o g) 0 16 ∧ fieldNat (o v) 48 16 = fieldNat (o g) 48 16
          ∧ (fieldNat (o g) 16 16 ≤ n → fieldNat (o v) 16 16 = fieldNat (o g) 0 16
              ∧ fieldNat (o v) 32 16 = (fieldNat (o g) 32 16 + 1) % 65536)
          ∧ (n < fieldNat (o g) 16 16 → fieldNat (o v) 16 16 = fieldNat (o g) 16 16 - n
              ∧ fieldNat (o v) 32 16 = fieldNat (o g) 32 16))
      ∧ (s.mayWait = true → s.ready f.guard f.cf (f.base.touch ++ f.data.touch) = true →
        let token := fieldNat (s.src f.data 0 0) 0 16
        (fieldNat (o g) 32 16 ≠ token → ∃ t, exec (.await f) s = .next t
            ∧ ({ s with l1 := t.l1, l2 := t.l2 } : State).Passed t f.cf {})
        ∧ (fieldNat (o g) 32 16 = token → ∃ t v, exec (.await f) s = .next t
            ∧ ({ s with wgs := t.wgs } : State).WaitsIn t (.await a (BitVec.ofNat 16 token) f.scope) (s.flagOf f.cf).join
            ∧ t.wg? s.me.wg = some v ∧ { v with objects := [] } = { g with objects := [] } ∧ ∀ u, u ≠ s.me.wg → t.wg? u = s.wg? u)))
  ∧ ∀ (s : State) (l : Loc) (w : Warp) (x : Wait) (g : Wg) (a : Nat) (token : BitVec 16) (sc : Scope), s.WaitsAt l w x →
      s.wg? w.wg = some g → x.kind = .await a token sc → s.ctxLive w.ctx = true → fieldNat (wordOfBytes (sparseRead g.locMem a 8)) 32 16 ≠ token.toNat →
      ∃ t v, exec (.awaitComplete l x.pc) s = .next t ∧ t.warp? l = some v ∧ WaitPassed w v x.pc x.mask
        ∧ t.wgs = s.wgs ∧ t.mem = s.mem

/-- R308, R309, R310, R313, R314, R315: SPAWN makes a wave pending, with its footprint, arguments and given names, and counts it in its join
slot and bundle; with a capacity exhausted, or at depth 8 without .trap, it writes a false predicate and nothing else. JOIN waits until its
slot counts no pending child, then writes and clears the counts; the end of a child counts it in its parent's slot. -/
def Obligations.SpawnAndJoin : Prop :=
  (∀ (f : FmtA) (s : State), s.cur.handler = false →
    let k := f.fn.toNat
    let give := f.imm.getLsbD 5
    let j := f.imm.toNat % 16
    let names := (List.range k).map (fun i => f.sb.no + i)
    let args := if f.sc = .imm then List.replicate 8 0 else (List.range 8).map (fun i => s.uni (f.sc.no + i))
    let touched := f.sa.touch ++ (if f.sc = .imm then [] else (List.range 8).map (fun i => Touch.uni (f.sc.no + i)))
      ++ (if give && k != 0 then [] else names.map Touch.name) ++ [.pred f.dst.no]
    s.ready f.guard f.cf touched = true → s.mapped (names.map Touch.name) = true →
    (give = true → k ≠ 0 → s.me.inState .running = s.run ∧ s.me.inState .parked = 0) →
    let fails := ∃ t, exec (.spawn f) s = .next t ∧ (s.withMemoryOf t).Passed t f.cf { preds := [f.dst.no] }
      ∧ s.Predicate t (s.ex f.guard) f.dst.no (fun _ => false)
    (8 ≤ s.me.depth → f.imm.getLsbD 4 = false → fails)
    ∧ (8 ≤ s.me.depth → f.imm.getLsbD 4 = true →
        ∃ t, exec (.spawn f) s = .next t ∧ s.Parks t (s.ex f.guard) 0x19 s.cur.pc (BitVec.ofNat 64 s.me.depth) 0)
    ∧ ∀ foot c u, s.me.depth < 8 → s.entryRecord s.myCore s.myCtx (s.uni f.sa.no) = (.ok foot, u) → s.ctx? s.myCtx = some c →
        (k = 0 ∨ c.desc.spillBase ≠ 0) → u.cut = false → u.nextUid = s.nextUid → u.releasable →
        c.desc.spillBase.toNat + 2 ^ 26 ≤ fabricBase → s.cur.loc.die < 6 → s.ctx? 65536 = none →
        (s.spilled s.myCtx s.cur.loc.die).length + 4 ≤ 2 ^ 15 →
        let area := s.spilled s.myCtx s.cur.loc.die
        (s.spawnFull f = true → fails)
        ∧ (s.spawnFull f = false → ∃ t p, exec (.spawn f) s = .next t ∧ t.pending = s.pending ++ [p]
          ∧ p.uid = s.nextUid ∧ p.ctx = s.myCtx ∧ p.die = s.cur.loc.die ∧ p.arrival = s.clk ∧ p.foot = foot
          ∧ (∃ given, p.kind = .wave s.me.uid (sliceOfLoc s.cur.loc) s.me.wg (s.me.depth + 1) j (s.ex f.guard) args s.me.gid give given
              s.me.bundle
            ∧ (give = true → given = names.map (fun n => Given.ref ((s.me.mapOf n).getD 0)))
            ∧ (give = false → ∃ slots : List Nat, slots.length = k ∧ slots.Nodup ∧ (∀ x, x ∈ slots → x ∉ area) ∧ given = slots.map Given.copy
                ∧ ∀ i, i < k → t.unspill s.myCtx s.cur.loc.die (nth slots i 0) = (List.range 32).map (fun th => s.elem (f.sb.no + i) th)))
          ∧ s.Predicate t (s.ex f.guard) f.dst.no (fun _ => true)
          ∧ nth t.me.joins j {} = { nth s.me.joins j {} with pending := (nth s.me.joins j {}).pending + 1 }
          ∧ (∀ i, i ≠ j → nth t.me.joins i {} = nth s.me.joins i {})
          ∧ t.bundles = s.bundles.map (fun b => if s.me.bundle = some b.id then { b with waves := b.waves + 1 } else b)
          ∧ (∀ n, n ∈ names → give = true → t.me.mapOf n = none)
          ∧ (give = false → ({ (s.withMemoryOf t).updWarp s.cur.loc (fun w => { w with joins := t.me.joins }) with
              pending := t.pending, bundles := t.bundles, nextUid := s.nextUid + 1 } : State).Passed t f.cf { preds := [f.dst.no] })))
  ∧ (∀ (f : FmtA) (s : State) (k : Fin 192), s.cur.handler = false → f.dst = .uni k →
      let j := f.imm.toNat % 16
      let q := f.imm.toNat / 256 % 16
      let x := nth s.me.joins j {}
      s.ready f.guard f.cf (f.dst.touch ++ [.pred q]) = true →
      (x.pending ≠ 0 → ∃ t, exec (.join f) s = .next t ∧ s.WaitsIn t (.join j k.val q (s.ex f.guard)) (s.flagOf f.cf).join)
      ∧ (x.pending = 0 → ∃ t, exec (.join f) s = .next t
        ∧ ({ s.updWarp s.cur.loc (fun w => { w with joins := t.me.joins }) with l1 := t.l1, l2 := t.l2 } : State).Passed t f.cf
            { unis := [k.val], preds := [q] }
        ∧ t.uni k.val = BitVec.ofNat 64 (x.normal + x.faulted * 2 ^ 16 + x.killed * 2 ^ 32)
        ∧ s.Predicate t (s.ex f.guard) q (fun _ => decide (x.faulted = 0 ∧ x.killed = 0))
        ∧ nth t.me.joins j {} = {} ∧ ∀ i, i ≠ j → nth t.me.joins i {} = nth s.me.joins i {}))
  ∧ (∀ (s : State) (l : Loc) (w : Warp) (x : Wait) (j d q : Nat) (ex : Mask), s.WaitsAt l w x → x.kind = .join j d q ex → s.ctxLive w.ctx = true →
      (nth w.joins j {}).pending = 0 →
      let y := nth w.joins j {}
      ∃ t v, exec (.joinComplete l x.pc) s = .next t ∧ t.warp? l = some v ∧ WaitPassed w v x.pc x.mask
        ∧ nth v.unif d 0 = BitVec.ofNat 64 (y.normal + y.faulted * 2 ^ 16 + y.killed * 2 ^ 32)
        ∧ (∀ th, bitAt ex th = true → bitAt (nth v.preds q 0) th = decide (y.faulted = 0 ∧ y.killed = 0))
        ∧ nth v.joins j {} = {} ∧ t.mem = s.mem)
  ∧ ∀ (s : State) (e : Ended) (w : Warp) (j : Nat), s.ended.find? (fun x => x.uid == e.uid && x.inst.isNone) = some e → s.migrations = [] →
      e.joinOf = some (w.uid, j) → s.warpByUid w.uid = some w → s.warp? w.loc = some w →
      ∃ t v, exec (.childEnd e.uid) s = .next t ∧ t.ended = s.ended.filter (fun x => x != e) ∧ t.warp? w.loc = some v
        ∧ (let x := nth w.joins j {}
          nth v.joins j {} =
            { pending := x.pending - 1
              normal := if e.endClass = .normal then (x.normal + 1) % 65536 else x.normal
              faulted := if e.endClass = .faulted then (x.faulted + 1) % 65536 else x.faulted
              killed := if e.endClass = .killed then (x.killed + 1) % 65536 else x.killed })
        ∧ { v with joins := [] } = { w with joins := [] }
        ∧ t.bundles = s.bundles.map (fun b => if e.bundle = some b.id then { b with waves := b.waves - 1 } else b)
        ∧ ∀ i, i ∈ t.l1 → i.core = s.l1Owner e.core → i.dirty = []

/-- R316, R317, R318, R319: SIGNAL stores a word, or adds it, at home, after a release; QPUSH puts an item of local memory at a ring's tail
and QPOP takes one from its head; a QPUSH to a full ring and a QPOP from an empty one wait, and a closed empty ring, or a wave told to
leave, gives a status. -/
def Obligations.SignalsAndRings : Prop :=
  (∀ (f : FmtA) (s : State) (a : Nat), s.cur.handler = false → s.ready f.guard f.cf (f.sa.touch ++ f.sb.touch) = true →
    s.located (s.uni f.sa.no) 8 true = some a → s.Quiet s.myCore s.myCtx → (∀ l, l ∈ s.l2 → l.dirty = []) → s.undeliv = [] →
    ((s.uni f.sa.no).toNat % 256 < 64 → s.ringInUse s.myCtx (BitVec.ofNat 64 ((s.uni f.sa.no).toNat / 256 * 256)) = false) →
    let v := s.src f.sb 0 (f.imm.setWidth 64)
    let old := wordOfBytes ((List.range 8).map (fun i => s.byteAt (a + i)))
    ∃ t, exec (.signal f) s = .next t ∧ (s.withMemoryOf t).Passed t f.cf {}
      ∧ ∀ x, t.byteAt x = if a ≤ x ∧ x < a + 8 then
          nth (bytesOfWord 8 (if f.fn.getLsbD 0 = true then old + v else v)) (x - a) 0 else s.byteAt x)
  ∧ (∀ (s : State) (g : Wg) (ring off : Word) (a b : Nat), s.cur.handler = false → s.wg? s.me.wg = some g → s.Quiet s.myCore s.myCtx →
      s.pipes = [] → ring.toNat % 256 = 0 → s.onePage s.myCore s.myCtx ring 64 true a →
      (s.tlbFor s.myCore s.myCtx ring.toNat).isSome = true →
      let r := ringOf (s.bytesAt a 64)
      r.ok = true → off.toNat % 64 = 0 → off.toNat + r.item ≤ g.foot.loc → (b + r.item ≤ a ∨ a + 64 ≤ b) →
      let base := fun (t : State) => ({ s.withMemoryOf t with rings := t.rings } : State)
      let pushed := fun (cf : Attach) (t : State) => (base t).Passed t cf {}
        ∧ ∀ x, t.byteAt x = if b ≤ x ∧ x < b + r.item then sparseGet g.locMem (off.toNat + (x - b))
          else if a + 8 ≤ x ∧ x < a + 16 then nth (bytesOfNat 8 (r.tail + 1)) (x - (a + 8)) 0 else s.byteAt x
      let popped := fun (cf : Attach) (t : State) (d : Nat) => ({ base t with wgs := t.wgs } : State).Passed t cf { unis := [d] } ∧ t.uni d = 0
        ∧ (∃ v, t.wg? s.me.wg = some v ∧ ∀ x, sparseGet v.locMem x
            = if off.toNat ≤ x ∧ x < off.toNat + r.item then s.byteAt (b + (x - off.toNat)) else sparseGet g.locMem x)
        ∧ ∀ x, t.byteAt x = if a ≤ x ∧ x < a + 8 then nth (bytesOfNat 8 (r.head + 1)) (x - a) 0 else s.byteAt x
      let canPush := s.me.popped = false ∧ r.closed = false ∧ r.occ ≠ r.cap
        ∧ s.onePage s.myCore s.myCtx (r.itemVa ring r.tail) r.item true b
      let canPop := s.me.leave = false ∧ r.occ ≠ 0 ∧ s.onePage s.myCore s.myCtx (r.itemVa ring r.head) r.item false b
        ∧ s.objectsAt s.me.wg off.toNat r.item = []
      (∀ f : FmtM, f.ty ≠ .i8 → s.src f.base 0 0 = ring → s.src f.data 0 0 + f.offset.signExtend 64 = off →
        s.ready f.guard f.cf (f.base.touch ++ f.data.touch) = true →
        (canPush → ∃ t, exec (.qpush f) s = .next t ∧ pushed f.cf t)
        ∧ (s.me.popped = false → r.closed = false → r.occ = r.cap →
            ∃ t, exec (.qpush f) s = .next t ∧ s.WaitsIn t (.ringPush ring off (s.ex f.guard)) (s.flagOf f.cf).join))
      ∧ (∀ f : FmtM, f.ty = .i8 → s.src f.base 0 0 = ring → s.ready f.guard f.cf f.base.touch = true → s.me.popped = false →
          r.closed = false → ∃ t, exec (.qpush f) s = .next t ∧ (base t).Passed t f.cf {}
            ∧ ∀ x, t.byteAt x = if x = a + 30 then 1 else s.byteAt x)
      ∧ (∀ (f : FmtM) (k : Fin 192), f.dst = .uni k → s.src f.base 0 0 = ring → s.src f.data 0 0 + f.offset.signExtend 64 = off →
        s.ready f.guard f.cf (f.base.touch ++ f.data.touch ++ f.dst.touch) = true →
        (canPop → ∃ t, exec (.qpop f) s = .next t ∧ popped f.cf t k.val)
        ∧ (s.me.leave = false → r.occ = 0 → r.closed = false →
            ∃ t, exec (.qpop f) s = .next t ∧ s.WaitsIn t (.ringPop ring off k.val (s.ex f.guard)) (s.flagOf f.cf).join)
        ∧ (s.me.kind = .launched → s.me.leave = true ∨ (r.occ = 0 ∧ r.closed = true) →
            ∃ t, exec (.qpop f) s = .next t ∧ (base t).Passed t f.cf { unis := [k.val] } ∧ t.mem = s.mem
              ∧ t.uni k.val = if s.me.leave = true then 1 else 2))
      ∧ ∀ (w : Warp) (x : Wait), s.WaitsAt s.cur.loc w x → x.pc = s.cur.pc → x.mask ≠ 0 → s.ctxLive s.myCtx = true →
          (∀ ex, x.kind = .ringPush ring off ex → ex ≠ 0 → canPush →
            ∃ t, exec (.ringWaitServed s.cur.loc x.pc) s = .next t ∧ pushed .none { t with cur := s.cur })
          ∧ (∀ d ex, x.kind = .ringPop ring off d ex → ex ≠ 0 → canPop →
            ∃ t, exec (.ringWaitServed s.cur.loc x.pc) s = .next t ∧ popped .none { t with cur := s.cur } d))

/-! ### Bisection (10) -/

/-- R172, R217: BISECT reads X and writes [X.lo, mid] and [mid, X.hi] to its two destinations, with mid by Table 8.7; under .e an empty X
gives two empty halves and raises EM. -/
def Obligations.Bisection : Prop :=
  ∀ (f : FmtA) (s : State), f.ty.isIv = true → f.sb ≠ .imm →
    let F := boundFmt f.ty
    let wide := f.ty == .iv64
    let e := secondDst f
    let written := f.dst.names wide ++ e.names wide
    let ex := s.ex f.guard
    let X := fun (th : Nat) => s.ivSrc f f.sa th
    let fl : Nat → BitVec 8 := fun th => if F.isEmpty (X th) = true then flEM else 0
    f.dst.isUni = e.isUni → (written ++ f.dst.unis wide ++ e.unis wide).Nodup →
    (∀ n m, n ∈ written → m ∈ written → n ≠ m → s.cur.handler = true ∨ s.me.mapOf n = none ∨ s.me.mapOf n ≠ s.me.mapOf m) →
    s.ready f.guard f.cf (f.sa.touch wide ++ f.dst.touch wide ++ e.touch wide) = true → s.mapped (f.sa.touch wide) = true →
    s.roomFor written = true →
    (∀ th, bitAt ex th = true → F.ivWf (X th) = true ∧ (F.isEmpty (X th) = false ∨ bitAt f.fn 3 = true)) →
    ∃ t lo hi lo' hi', exec (.bisect f) s = .next t
      ∧ s.Passed t f.cf { writesA f wide ex fl with names := written, unis := f.dst.unis wide ++ e.unis wide }
      ∧ s.Holds t ex f.dst wide lo hi ∧ s.Holds t ex e wide lo' hi'
      ∧ ∀ th, bitAt ex th = true →
          (F.isEmpty (X th) = true → (lo th, hi th) = ivWords f.ty (X th) ∧ (lo' th, hi' th) = ivWords f.ty (X th))
          ∧ (F.isEmpty (X th) = false → (lo th, hi th) = ivWords f.ty (F.plusZero (X th).1, F.mid (X th))
              ∧ (lo' th, hi' th) = ivWords f.ty (F.mid (X th), F.plusZero (X th).2))

/-! ### Version cells (18) -/

/-- R324, R326, R328, R331, R332, R334, R335, R337: VBUF claims the lowest free buffer of a cell that is not final; VPIN pins the current
buffer, VUNPIN releases a pin, VQRY reads the cell; each cell word gives VERSION, FINAL, STOPPED and the buffer; a cell that is not in use
or is malformed raises PERMISSION. -/
def Obligations.VersionCells : Prop :=
  ∀ (f : FmtA) (s : State), s.cur.handler = false →
    let n := fieldNat (s.src f.sa 0 (f.imm.setWidth 64)) 0 16
    let ctx := s.myCtx
    let c := s.cell ctx n
    let ex := s.ex f.guard
    let others := fun (t : State) => ∀ x m, (x ≠ ctx ∨ m ≠ n) → t.cell x m = s.cell x m
    let word_ := fun (d : CellDesc) (r : Word) (v : Nat) (b : Option Nat) =>
      (∀ k, b = some k → k < 4) →
      fieldNat r 33 31 = v % 2 ^ 31 ∧ bitAt r 32 = c.final ∧ bitAt r 31 = c.stopped ∧ bitAt r 18 = b.isSome
      ∧ ∀ k, b = some k → fieldNat r 16 2 = k ∧ fieldNat r 0 16 = nth d.bufs k 0
    let ready := fun (ts : List Touch) => s.ready f.guard f.cf (f.sa.touch ++ (f.dst.touch ++ ts)) = true
    let flag : List Touch := [.pred f.fn.toNat]
    (s.cellDesc? ctx n = none → ∀ i, ((i = .vbuf f ∨ i = .vpin f) ∧ ready flag) ∨ (i = .vqry f ∧ s.ready f.guard f.cf (f.sa.touch ++ f.dst.touch) = true) →
      ∃ t, exec i s = .next t ∧ s.Parks t ex 0x0C s.cur.pc (BitVec.ofNat 64 n) 0)
    ∧ ∀ d, s.cellDesc? ctx n = some d →
      (∀ k : Fin 192, f.dst = .uni k → ready flag →
        let free := fun (b : Nat) => b < d.nbuf ∧ c.cur ≠ some b ∧ (∀ p, p ∈ c.claims → p.2 ≠ b) ∧ nth c.pins b 0 = 0
        ((c.final = true ∨ ∀ b, ¬ free b) → ∃ t, exec (.vbuf f) s = .next t
          ∧ s.Passed t f.cf { unis := [k.val], preds := [f.fn.toNat] } ∧ s.Predicate t ex f.fn.toNat (fun _ => false)
          ∧ word_ d (t.uni k.val) (c.version + 1) none)
        ∧ (∀ b, c.final = false → free b → (∀ j, j < b → ¬ free j) → ∃ t, exec (.vbuf f) s = .next t
          ∧ ({ s.updWarp s.cur.loc (fun w => { w with claims := t.me.claims }) with cells := t.cells, l1 := t.l1 } : State).Passed t f.cf
              { unis := [k.val], preds := [f.fn.toNat] }
          ∧ s.Predicate t ex f.fn.toNat (fun _ => true) ∧ word_ d (t.uni k.val) (c.version + 1) (some b)
          ∧ t.cell ctx n = { c with claims := c.claims ++ [(s.me.uid, b)] } ∧ t.me.claims = s.me.claims ++ [(n, b)] ∧ others t)
        ∧ (c.cur = none → s.me.pins.any (fun p => p.cell == n) = false → ∃ t, exec (.vpin f) s = .next t
          ∧ s.Passed t f.cf { unis := [k.val], preds := [f.fn.toNat] } ∧ s.Predicate t ex f.fn.toNat (fun _ => false)
          ∧ word_ d (t.uni k.val) c.version none)
        ∧ (∀ b, c.cur = some b → d.group = 0 → (s.me.pins.any (fun p => p.cell == n) = true ∨ s.me.pins.length < 8) →
          ∃ t, exec (.vpin f) s = .next t
            ∧ ({ s.updWarp s.cur.loc (fun w => { w with pins := t.me.pins }) with cells := t.cells, l1 := t.l1 } : State).Passed t f.cf
                { unis := [k.val], preds := [f.fn.toNat] }
            ∧ s.Predicate t ex f.fn.toNat (fun _ => true) ∧ word_ d (t.uni k.val) c.version (some b)
            ∧ t.me.pins = s.me.pins.filter (fun p => p.cell != n) ++ [{ cell := n, buf := b, version := c.version }]
            ∧ { t.cell ctx n with pins := [] } = { c with pins := [] } ∧ others t
            ∧ ∀ j, nth (t.cell ctx n).pins j 0 = (nth c.pins j 0
                - (if (s.me.pins.find? (fun p => p.cell == n)).map (·.buf) = some j then 1 else 0)) + (if j = b then 1 else 0)))
      ∧ (∀ k : Fin 192, f.dst = .uni k → s.ready f.guard f.cf (f.sa.touch ++ f.dst.touch) = true →
          ∃ t, exec (.vqry f) s = .next t ∧ ({ s with l1 := t.l1 } : State).Passed t f.cf { unis := [k.val] }
            ∧ word_ d (t.uni k.val) c.version c.cur)
      ∧ (s.ready f.guard f.cf f.sa.touch = true → s.noDirty → s.migrations = [] → d.group = 0 →
        (s.me.pins.find? (fun p => p.cell == n) = none → ∃ t, exec (.vunpin f) s = .next t ∧ s.Passed t f.cf {})
        ∧ ∀ p, s.me.pins.find? (fun p => p.cell == n) = some p → ∃ t, exec (.vunpin f) s = .next t
          ∧ ({ (s.withMemoryOf t).updWarp s.cur.loc (fun w => { w with pins := t.me.pins }) with cells := t.cells } : State).Passed t f.cf {}
          ∧ t.me.pins = s.me.pins.filter (fun q => q.cell != n) ∧ others t ∧ { t.cell ctx n with pins := [] } = { c with pins := [] }
          ∧ ∀ j, nth (t.cell ctx n).pins j 0 = nth c.pins j 0 - (if j = p.buf then 1 else 0))

/-- R329, R330, R333, R336, R340: PUBV makes a claimed buffer the current version of a cell, or fails on a final one; RFSTOP makes a cell
final; a new version fires a subscriber with no instance, and is remembered for one whose instance is resident, which RESTART cancels; a
cancelled instance is killed at a header; the end of an instance fires the version that it remembers when that is newer. -/
def Obligations.Publication : Prop :=
  (∀ (f : FmtA) (s : State) (d : CellDesc), s.cur.handler = false → s.Quiet s.myCore s.myCtx →
    let n := fieldNat (s.src f.sa 0 (f.imm.setWidth 64)) 0 16
    let ctx := s.myCtx
    let c := s.cell ctx n
    let ex := s.ex f.guard
    let base := fun (t : State) =>
      ({ (s.withMemoryOf t).updWarp s.cur.loc (fun w => { w with claims := t.me.claims }) with cells := t.cells } : State)
    let others := fun (t : State) => ∀ x m, (x ≠ ctx ∨ m ≠ n) → t.cell x m = s.cell x m
    let unused := fun (i : Nat) => (nth d.subs i { input := 0, policy := 3, arg := 0, rec_ := 0 }).rec_ = 0
    s.cellDesc? ctx n = some d → d.group = 0 →
    (s.ready f.guard f.cf (f.sa.touch ++ (f.sb.touch ++ [.pred f.dst.no])) = true →
      let b := fieldNat (s.src f.sb 0 0) 16 2
      let published : CellSt := { c with
        claims := c.claims.filter (fun p => p != (s.me.uid, b)), cur := some b, version := c.version + 1, prio := s.me.prio, cookie := s.me.cookie
        basis := (List.range 4).map (fun i => if i < d.nin then
            (match s.me.pins.find? (fun p => p.cell == nth d.inputs i 0) with
              | some p => BitVec.ofNat 32 p.version
              | none => -1)
          else nth c.basis i 0)
        final := f.fn.getLsbD 0 || c.version + 1 == 2 ^ 31 - 1 }
      (bitAt (s.src f.sb 0 0) 18 = false ∨ (s.me.uid, b) ∉ c.claims →
        ∃ t, exec (.pubv f) s = .next t ∧ s.Parks t ex 0x0C s.cur.pc (BitVec.ofNat 64 n) 0)
      ∧ (bitAt (s.src f.sb 0 0) 18 = true → (s.me.uid, b) ∈ c.claims →
        (c.final = true → ∃ t, exec (.pubv f) s = .next t ∧ (base t).Passed t f.cf { preds := [f.dst.no] }
          ∧ s.Predicate t ex f.dst.no (fun _ => false) ∧ others t
          ∧ t.cell ctx n = { c with claims := c.claims.filter (fun p => p != (s.me.uid, b)) })
        ∧ (c.final = false → (∀ i, i < 8 → unused i) → ∃ t, exec (.pubv f) s = .next t ∧ (base t).Passed t f.cf { preds := [f.dst.no] }
          ∧ s.Predicate t ex f.dst.no (fun _ => true) ∧ others t ∧ t.cell ctx n = published
          ∧ t.me.claims = s.me.claims.filter (fun p => p != (n, b)))
        ∧ (c.final = false → (∀ i, 1 ≤ i → i < 8 → unused i) → ¬ unused 0 →
          let x := nth d.subs 0 { input := 0, policy := 3, arg := 0, rec_ := 0 }
          let q : SubSt := nth c.subs 0 {}
          x.policy < 2 → q.pending = none →
          (∀ foot, q.resident = none → (s.entryRecord ⟨s.homeDie ctx n, 48⟩ ctx x.rec_).1 = .ok foot →
            ∃ t p args, exec (.pubv f) s = .next t ∧ s.Predicate t ex f.dst.no (fun _ => true) ∧ t.pending = s.pending ++ [p]
              ∧ p.ctx = ctx ∧ p.die = s.homeDie ctx n ∧ p.prio = s.me.prio ∧ p.foot = foot
              ∧ p.kind = .refine n 0 (c.version + 1) b args
              ∧ args = [word n, cellWord d published (c.version + 1) (some b), word x.arg, word x.input]
              ∧ nth (t.cell ctx n).pins b 0 = nth c.pins b 0 + 1 ∧ (t.cell ctx n).version = c.version + 1
              ∧ nth (t.cell ctx n).subs 0 {} = { q with pending := some p.uid, fired := true, remember := none })
          ∧ (∀ u, q.resident = some u → ∃ t, exec (.pubv f) s = .next t ∧ s.Predicate t ex f.dst.no (fun _ => true)
              ∧ nth (t.cell ctx n).subs 0 {} = { q with remember := some (c.version + 1, b, s.me.prio) }
              ∧ t.pending = s.pending ∧ (x.policy = 0 → ∀ w, w ∈ t.warps → w.uid = u → w.cancel = true)))))
    ∧ (s.ready f.guard f.cf (f.sa.touch ++ [.pred f.dst.no]) = true →
      (c.final = true → ∃ t, exec (.rfstop f) s = .next t ∧ s.Passed t f.cf { preds := [f.dst.no] }
        ∧ s.Predicate t ex f.dst.no (fun _ => false))
      ∧ (c.final = false → (∀ i, i < 8 → unused i ∨ (nth d.subs i { input := 0, policy := 3, arg := 0, rec_ := 0 }).policy ≠ 2) →
        ∃ t, exec (.rfstop f) s = .next t ∧ ({ s.withMemoryOf t with cells := t.cells } : State).Passed t f.cf { preds := [f.dst.no] }
          ∧ s.Predicate t ex f.dst.no (fun _ => true) ∧ others t
          ∧ t.cell ctx n = { c with final := true, stopped := true, prio := s.me.prio, cookie := s.me.cookie })))
  ∧ (∀ (s : State) (l : Loc) (w : Warp), s.warp? l = some w → s.migrations = [] → w.cancel = true → w.alive ≠ 0 →
      (w.inState .running = 0 ∨ (∃ x k, x ∈ w.waits ∧ x.kind = .header k ∧ w.runAt x.pc &&& x.mask ≠ 0)
        ∨ (w.inState .parked ≠ 0 ∧ ∀ th, (w.thread th).st = .running → ∃ x, x ∈ w.waits ∧ x.pc = (w.thread th).pc ∧ x.mask = w.runAt x.pc
            ∧ (x.kind = .exit ∨ x.kind = .wsync ∨ x.kind = .mapEdit))) →
      ∃ t v, exec (.instanceCancelStop l) s = .next t ∧ t.warp? l = some v ∧ v.alive = 0 ∧ v.records = [] ∧ v.pins = []
        ∧ v.claims = [] ∧ t.hrun? l = none)
  ∧ ∀ (s : State) (e : Ended) (n i v : Nat), s.ended.find? (fun x => x.uid == e.uid && x.inst.isSome) = some e → e.inst = some (n, i, v) →
      let q : SubSt := nth (s.cell e.ctx n).subs i {}
      ((∀ v' b prio, q.remember = some (v', b, prio) → v' ≤ v) →
        ∃ t, exec (.instanceEnd e.uid) s = .next t ∧ t.ended = s.ended.filter (fun x => x != e) ∧ t.pending = s.pending
          ∧ nth (t.cell e.ctx n).subs i {} = { q with resident := none, remember := none })
      ∧ ∀ v' b prio d foot, q.remember = some (v', b, prio) → v < v' → s.cellDesc? e.ctx n = some d →
        (s.entryRecord ⟨s.homeDie e.ctx n, 48⟩ e.ctx (nth d.subs i { input := 0, policy := 3, arg := 0, rec_ := 0 }).rec_).1 = .ok foot →
        ∃ t p args, exec (.instanceEnd e.uid) s = .next t ∧ t.pending = s.pending ++ [p] ∧ p.kind = .refine n i v' b args
          ∧ p.foot = foot ∧ p.prio = prio ∧ t.ended = s.ended.filter (fun x => x != e)

/-! ### Collectives (20) -/

/-- R342, R346, R347, R352, R353: SLATEQ reports a key; the issue of a COLL whose key is in use completes it at once; an engine accepts
the head of xq with a request or a cancel; a member with NEXT's entry sends its ready message, and on go, or on a skip, completes the entry and moves NEXT
on; what is unanswered is resent. -/
def Obligations.CollectiveMembers : Prop :=
  (∀ (f : FmtA) (s : State) (k : Fin 192) (c : Comm), f.dst = .uni k →
    s.ready f.guard f.cf (f.sa.touch ++ f.sb.touch ++ f.dst.touch) = true →
    let v := s.src f.sa 0 (f.imm.setWidth 64)
    let key : BitVec 32 := (s.src f.sb 0 (f.imm.setWidth 64)).setWidth 32
    s.comm? v.toNat = some c → c.desc.en = true → c.desc.ctx = s.myCtx →
    ∃ t, exec (.slateq f) s = .next t ∧ ({ s with free := t.free } : State).Passed t f.cf { unis := [k.val] }
      ∧ fieldNat (t.uni k.val) 48 16 = c.gen % 65536
      ∧ (c.keyRec key = none → fieldNat (t.uni k.val) 32 16 = 0)
      ∧ ∀ r, c.keyRec key = some r →
          let passed := ∃ h, c.high = some h ∧ 65536 ≤ (h - r.slate).toNat ∧ (h - r.slate).toNat < 2 ^ 31
          (r.st = .requested → fieldNat (t.uni k.val) 32 16 = 1)
          ∧ (r.st ≠ .requested → passed → fieldNat (t.uni k.val) 32 16 = 0)
          ∧ (r.st ≠ .requested → ¬ passed → fieldNat (t.uni k.val) 0 32 = r.slate.toNat
              ∧ fieldNat (t.uni k.val) 32 16 = (match r.st with
                | .requested => 1 | .assigned => 2 | .started => 3 | .completed => 4 | .cancelled => 5)))
  ∧ (∀ (s : State) (u : Nat) (g : Wg) (e : QEntry), s.wg? u = some g → g.head .xq = some e → e.guardGen = none → s.ctxLive g.ctx = true →
    (∀ x, x ∈ g.queue .xq → x.uid = e.uid → x = e) → (∀ x, x ∈ s.wgs → x.gone = false) →
    let reaches := fun (m : Nat) => m = s.ident.moduleNum ∨ (s.fabricUp = true ∧ s.holdsMessage m = false)
    let n := fieldNat e.c 0 12
    let key : BitVec 32 := e.fields.imm
    let accepted := fun (t : State) => ∃ v, t.wg? u = some v
      ∧ v.queue .xq = (g.queue .xq).map (fun x => if x = e then { e with accepted := true } else x) ∧ v.tags = g.tags
    (e.cmd.isColl = true → s.comm? n = none →
        ∃ t, exec (.collAccept u) s = .next t ∧ s.EntryLeaves t u .xq e 2 0x0C false ∧ t.mail = s.mail)
    ∧ (∀ f c, e.cmd = .coll f → s.comm? n = some c → s.collHeld g.ctx g.core.die < 1024 →
      (c.taken.contains key = true →
        ∃ t, exec (.collAccept u) s = .next t ∧ s.EntryLeaves t u .xq e 3 0 false ∧ t.mail = s.mail)
      ∧ (c.taken.contains key = false → reaches c.server →
        ∃ t c' x, exec (.collAccept u) s = .next t ∧ accepted t ∧ t.comm? n = some c'
          ∧ t.mail = s.mail ++ [(c.server, .slateRequest n (.key key) c.desc.rank c.gen)] ∧ c'.entries = c.entries ++ [x]
          ∧ x.uid = e.uid ∧ x.wg = u ∧ x.key = key ∧ x.op = f.sub.toNat % 16 ∧ x.root = fieldNat e.c 16 10 ∧ x.ready = false
          ∧ c'.next = c.next ∧ (c.keyRec key = none → ∃ r, c'.keyRec key = some r ∧ r.st = .requested)))
    ∧ ∀ f c, e.cmd = .collx f → s.comm? n = some c → s.collHeld g.ctx g.core.die < 1024 → reaches c.server →
        ∃ t c', exec (.collAccept u) s = .next t ∧ accepted t ∧ t.comm? n = some c'
          ∧ t.mail = s.mail ++ [(c.server, .collCancel n key c.desc.rank (c.entries.any (fun x => x.key == key)) c.gen)]
          ∧ (∃ r, c'.cancels = c.cancels ++ [r] ∧ r.uid = e.uid ∧ r.wg = u ∧ r.key = key) ∧ c'.entries = c.entries)
  ∧ ∀ (s : State) (n : Nat) (c : Comm) (slate : BitVec 32), s.comm? n = some c → (∀ x, x ∈ s.wgs → x.gone = false) →
      (c.server = s.ident.moduleNum ∨ (s.fabricUp = true ∧ s.holdsMessage c.server = false)) → s.away c = false →
      (∀ e, c.next = some slate → c.entries.find? (fun e => e.slate == some slate && !e.ready) = some e → s.ctxLive c.desc.ctx = true →
        ∃ t m c', exec (.collReady n) s = .next t ∧ t.mail = s.mail ++ [(c.server, .seqReady n slate m c.gen)]
          ∧ m.rank = c.desc.rank ∧ m.op = BitVec.ofNat 4 e.op ∧ m.root = e.root ∧ (e.op = 9 → m.code = none) ∧ t.comm? n = some c'
          ∧ c'.entries = c.entries.map (fun x => if x.uid = e.uid then { x with ready := true, since := s.clk } else x))
      ∧ (∀ key, c.known = [] → c.next = none → c.high = none → c.keyRec key = none →
        ∃ t c', exec (.slateNotify n slate key c.gen) s = .next t ∧ t.comm? n = some c' ∧ c'.next = some slate
          ∧ c'.known = [(slate, key)] ∧ (∃ r, c'.keyRec key = some r ∧ r.st = .assigned ∧ r.slate = slate)
          ∧ c'.entries = c.entries.map (fun e => if e.key = key ∧ e.slate = none then { e with slate := some slate } else e))
      ∧ (∀ key gen, gen < c.gen → exec (.slateNotify n slate key gen) s = .next s)
      ∧ (∀ e g q o, c.next = some slate → c.cancels = [] → c.skips = [] → c.overtaken slate = false → s.wg? e.wg = some g →
        c.entries.find? (fun e => e.slate == some slate && e.ready && c.next == some slate) = some e →
        (g.queue .xq).find? (fun x => x.uid == e.uid) = some q → (e.op = 9 ∨ ∃ k, o = .faulted k) →
        ∃ t c', exec (.collGo n slate o [] c.gen) s = .next t ∧ t.comm? n = some c' ∧ c'.next = some (slate + 1)
          ∧ c'.entries = c.entries.filter (fun x => x.uid != e.uid)
          ∧ (∃ r, c'.keyRec e.key = some r ∧ r.st = .completed ∧ r.slate = slate)
          ∧ (o = .run → s.EntryLeaves t e.wg .xq q 0 0 false) ∧ ∀ k, o = .faulted k → s.EntryLeaves t e.wg .xq q 2 k.toNat false)
      ∧ (∀ key e g q, c.next = some slate → c.cancels = [] → c.skips = [] → c.overtaken slate = false → s.wg? e.wg = some g →
        c.entries.find? (fun e => e.key == key) = some e → (g.queue .xq).find? (fun x => x.uid == e.uid) = some q →
        ∃ t c' m, exec (.collSkip n slate key c.gen) s = .next t ∧ t.comm? n = some c' ∧ c'.next = some (slate + 1)
          ∧ c'.entries = c.entries.filter (fun x => x.uid != e.uid) ∧ s.EntryLeaves t e.wg .xq q 3 0 false
          ∧ t.mail = s.mail ++ [(c.server, .seqReady n slate m c.gen)] ∧ m.rank = c.desc.rank ∧ m.op = ackOp)
      ∧ (∀ e, c.entries = [e] → c.cancels = [] → e.slate = none → e.ready = false →
        (e.since + resendLimit ≤ s.clk → ∃ t, exec (.collResend n c.gen) s = .next t
          ∧ t.mail = s.mail ++ [(c.server, .slateRequest n (.key e.key) c.desc.rank c.gen)])
        ∧ ∀ gen, c.gen < gen → gen ≠ 1 → c.desc.backup = some s.ident.moduleNum →
          ∃ t c', exec (.collResend n gen) s = .next t ∧ t.comm? n = some c' ∧ c'.gen = gen ∧ c'.server = s.ident.moduleNum
            ∧ t.mail = s.mail ++ [(s.ident.moduleNum, .slateRequest n (.key e.key) c.desc.rank gen)])

/-- R345, R346, R350, R351, R352, R359: the sequencer gives a key its open number, or the next one, of which it notifies every member; it keeps a
request outside the window, and a member's later ones behind it; the last ready message decides the outcome of go, a cancel skips the open use
of a key, and the last acknowledgement closes it. What it sends of an assignment waits for the backup's acknowledgement of it. Heartbeats pass
between the two sequencers; the backup takes over under the next generation, and the host is told when both have failed; a watch of 2^26 clk
raises SLATE_GAP. -/
def Obligations.Sequencers : Prop :=
  (∀ (s : State) (n gen : Nat) (c : Comm), s.comm? n = some c → c.seq.serving = true → gen ≤ c.seq.gen →
    let me := s.ident.moduleNum
    let reaches := fun (m : Nat) => m = me ∨ (s.fabricUp = true ∧ s.holdsMessage m = false)
    let toAll := fun (i : Instr) => c.desc.members.map (fun m => (m, i))
    let opens := fun (a : Assign) => a.outcome = none
    let tells := fun (t : State) (slate : BitVec 32) (l : List (Nat × Instr)) =>
      (∀ b, c.desc.backup = some b → b ≠ me → reaches b → ∃ (a : Assign) (c' : Comm), t.comm? n = some c' ∧ a.slate = slate
        ∧ c'.seq.sent = c.seq.sent + 1 ∧ c'.seq.held = c.seq.held ++ [(c.seq.sent + 1, l)]
        ∧ t.mail = s.mail ++ [(b, .seqHeartbeat ⟨n, .replicate (c.seq.sent + 1) a c.seq.gen⟩)])
      ∧ ((c.desc.backup = none ∨ c.desc.backup = some me) → c.seq.held = [] → (∀ x, x ∈ l → reaches x.1) → t.mail = s.mail ++ l)
    let waits := fun (rank : Nat) => ∃ x, x ∈ c.seq.waiting ∧ x.rank = rank
    (∀ key rank,
      (waits rank → ∃ t c', exec (.slateRequest n (.key key) rank gen) s = .next t ∧ t.comm? n = some c' ∧ c'.seq.next = c.seq.next
        ∧ c'.seq.waiting = c.seq.waiting ++ [⟨rank, key, none⟩] ∧ t.mail = s.mail)
      ∧ (∀ a, ¬ waits rank → c.seq.assigns.find? (fun a => a.key == key && a.outcome.isNone) = some a →
        ∃ t c', exec (.slateRequest n (.key key) rank gen) s = .next t ∧ t.comm? n = some c' ∧ c'.seq.next = c.seq.next
          ∧ tells t a.slate [(nth c.desc.members rank 0, .slateNotify n a.slate key c.seq.gen)])
      ∧ (¬ waits rank → (∀ a, a ∈ c.seq.assigns → a.key = key → ¬ opens a) →
        ((∀ a, a ∈ c.seq.assigns → opens a → (c.seq.next - a.slate).toNat < 65536) →
          ∃ t c', exec (.slateRequest n (.key key) rank gen) s = .next t ∧ t.comm? n = some c' ∧ c'.seq.next = c.seq.next + 1
            ∧ (∃ a, a ∈ c'.seq.assigns ∧ a.slate = c.seq.next ∧ a.key = key ∧ opens a ∧ a.requests = [rank] ∧ a.cancelled = false)
            ∧ tells t c.seq.next (toAll (.slateNotify n c.seq.next key c.seq.gen)))
        ∧ ((∃ a, a ∈ c.seq.assigns ∧ opens a ∧ 65536 ≤ (c.seq.next - a.slate).toNat) →
          ∃ t c', exec (.slateRequest n (.key key) rank gen) s = .next t ∧ t.comm? n = some c' ∧ c'.seq.next = c.seq.next
            ∧ c'.seq.waiting = c.seq.waiting ++ [⟨rank, key, none⟩] ∧ t.mail = s.mail)))
    ∧ (∀ (slate : BitVec 32) (a : Assign) (m : ReadyMsg), c.seq.assigns.find? (fun a => a.slate == slate && a.outcome.isNone) = some a →
      c.seq.waiting = [] →
      (a.cancelled = false → m.op ≠ ackOp → (∀ x, x ∈ a.ready → x.rank ≠ m.rank) →
        let agrees := fun (x : ReadyMsg) => x.op = m.op ∧ x.fmt = m.fmt ∧ x.root = m.root ∧ x.tsrc = m.tsrc ∧ x.tdst = m.tdst
        (a.ready.length + 1 < c.desc.n → ∃ t, exec (.seqReady n slate m gen) s = .next t ∧ t.mail = s.mail)
        ∧ (a.ready.length + 1 = c.desc.n → ∃ t o, exec (.seqReady n slate m gen) s = .next t
            ∧ tells t slate (toAll (.collGo n slate o [] c.seq.gen))
            ∧ (m.code = none → (∀ x, x ∈ a.ready → x.code = none ∧ agrees x) → o = .run)
            ∧ (∀ k, m.code = some k → (∀ x, x ∈ a.ready → x.code = none) → o = .faulted k)
            ∧ (m.code = none → (∀ x, x ∈ a.ready → x.code = none) → (∃ x, x ∈ a.ready ∧ ¬ agrees x) → o = .faulted 0x0E)))
      ∧ (a.cancelled = true → m.op = ackOp → m.rank ∉ a.acks → a.acks.length + 1 = c.desc.n →
        ∃ t c', exec (.seqReady n slate m gen) s = .next t ∧ t.comm? n = some c' ∧ t.mail = s.mail
          ∧ c'.seq.assigns = c.seq.assigns.filter (fun x => x.slate != slate)))
    ∧ (∀ key rank own, ¬ waits rank →
      (∀ a, c.seq.assigns.find? (fun a => a.key == key && a.outcome.isNone) = some a → own = false ∨ rank ∈ a.requests →
        ∃ t, exec (.collCancel n key rank own gen) s = .next t ∧ tells t a.slate (toAll (.collSkip n a.slate key c.seq.gen)))
      ∧ ((∀ a, a ∈ c.seq.assigns → a.key ≠ key) → (∀ a, a ∈ c.seq.assigns → opens a → (c.seq.next - a.slate).toNat < 65536) →
        ∃ t c', exec (.collCancel n key rank own gen) s = .next t ∧ t.comm? n = some c' ∧ c'.seq.next = c.seq.next + 1
          ∧ tells t c.seq.next (toAll (.slateNotify n c.seq.next key c.seq.gen) ++ toAll (.collSkip n c.seq.next key c.seq.gen)))
      ∧ (∀ b, own = true → (∀ a, c.seq.assigns.find? (fun a => a.key == key && a.outcome.isNone) = some a → rank ∉ a.requests) →
        c.seq.assigns.find? (fun a => a.key == key && a.outcome.isSome) = some b → rank ∈ b.requests →
        exec (.collCancel n key rank own gen) s = .next s)))
  ∧ (∀ (s : State) (n gen : Nat) (c : Comm) (key : BitVec 32) (rank : Nat), s.comm? n = some c → c.seq.serving = true → c.seq.gen < gen →
      ∃ t c', exec (.slateRequest n (.key key) rank gen) s = .next t ∧ t.comm? n = some c' ∧ c'.seq.serving = false ∧ t.mail = s.mail)
  ∧ (∀ (s : State) (n : Nat) (c : Comm), s.comm? n = some c →
      let me := s.ident.moduleNum
      let reaches := fun (m : Nat) => m = me ∨ (s.fabricUp = true ∧ s.holdsMessage m = false)
      (∀ gen, gen ≤ c.seq.gen → ∃ t c', exec (.seqHeartbeat ⟨n, .beat gen⟩) s = .next t ∧ t.comm? n = some c'
        ∧ c' = { c with seq := { c.seq with lastBeat := s.clk } })
      ∧ (∀ b, c.desc.en = true → c.seq.sentBeat + 15000 ≤ s.clk → c.seq.serving = true → c.desc.backup = some b → b ≠ me → reaches b →
        ∃ t c', exec (.seqHeartbeat ⟨n, .due⟩) s = .next t ∧ t.comm? n = some c' ∧ c' = { c with seq := { c.seq with sentBeat := s.clk } }
          ∧ t.mail = s.mail ++ [(b, .seqHeartbeat ⟨n, .beat c.seq.gen⟩)])
      ∧ (∀ no gen (a : Assign), c.seq.serving = false → c.gen ≤ gen → c.seq.gen ≤ gen → (∀ x, x ∈ c.seq.assigns → x.slate ≠ a.slate) →
        reaches c.server → ∃ t c', exec (.seqHeartbeat ⟨n, .replicate no a gen⟩) s = .next t ∧ t.comm? n = some c'
          ∧ c'.seq.next = a.slate + 1 ∧ c'.seq.gen = gen ∧ a ∈ c'.seq.assigns
          ∧ t.mail = s.mail ++ [(c.server, .seqHeartbeat ⟨n, .ack no gen⟩)])
      ∧ (∀ no l, c.seq.serving = true → c.seq.held = [(no, l)] → (∀ x, x ∈ l → reaches x.1) →
        ∃ t c', exec (.seqHeartbeat ⟨n, .ack no c.seq.gen⟩) s = .next t ∧ t.comm? n = some c' ∧ c'.seq.held = [] ∧ t.mail = s.mail ++ l)
      ∧ (c.seq.serving = false → ∃ t, exec (.seqHeartbeat ⟨n, .lost⟩) s = .next t ∧ t.hostEvents = s.hostEvents ++ [.seqLost n])
      ∧ (c.desc.en = true → c.desc.backup = some me → c.seq.serving = false → c.server ≠ me →
        c.seq.lastBeat + 45000 ≤ s.clk → ∀ a, c.seq.assigns = [a] → a.outcome = none → a.cancelled = false →
        (∀ m, m ∈ c.desc.members → reaches m) →
        let gen := max c.gen c.seq.gen + 1
        ∃ t c', exec (.seqFailover n) s = .next t ∧ t.comm? n = some c' ∧ c'.seq.gen = gen ∧ c'.seq.serving = true
          ∧ c'.server = me
          ∧ t.mail = s.mail ++ c.desc.members.map (fun m => (m, .collResend n gen))
              ++ c.desc.members.map (fun m => (m, .slateNotify n a.slate a.key gen))))
  ∧ ∀ (s : State) (n k since : Nat) (c : Comm) (e : CollEntry) (w : Warp) (x : Wait) (m : Word) (ex : Mask) (key : BitVec 32),
      s.comm? n = some c → c.watch = some since → since + 2 ^ 26 ≤ s.clk → c.nextKey = some key → c.gap = [e] → e.tag = some k →
      s.warps.filter (fun w => w.wg == e.wg) = [w] → s.warp? w.loc = some w → s.hrun? w.loc = none → w.waits = [x] →
      x.kind = .tagAll m ex → bitAt m k = true → w.runAt x.pc = x.mask → x.mask ≠ 0 →
      ∃ t v c', exec (.slateGap n) s = .next t ∧ t.hostEvents = s.hostEvents ++ [.slateGap n] ∧ t.comm? n = some c'
        ∧ c'.watch = some s.clk ∧ t.warp? w.loc = some v ∧ (∀ th, th < 32 → bitAt x.mask th = true → (v.thread th).st = .parked)
        ∧ v.records = w.records ++ [{ mask := x.mask, code := 0x18, fpc := x.pc, ppc := x.pc
                                      bits := s.slotBits (coreOfLoc w.loc) w.ctx x.pc
                                      vals := (maskList x.mask).map (fun th => (th, BitVec.ofNat 64 n, key.setWidth 64)) }]

/-! ### Traps and handlers (22) -/

/-- R368, R371, R372, R377: outside a handler run TRD and TWR raise ILLEGAL_OP. In one, TRD writes the item of the selected warp, and TWR
changes a predicate, a uniform register, sr.fflags, a map entry or a row of it and answers true; a row not in use answers false. -/
def Obligations.HandlerReadsAndWrites : Prop :=
  ∀ (f : FmtA) (s : State),
    (s.cur.handler = false → s.run ≠ 0 → ∀ i, i ∈ [Instr.trd f, .twr f] →
      ∃ t, exec i s = .next t ∧ s.Parks t s.run 0x01 s.cur.pc 0 0)
    ∧ (s.cur.handler = true → ∀ w, s.warp? w.loc = some w → s.settled w.loc = true →
      let sel := s.src f.sb 0 (f.imm.setWidth 64)
      let idx := fieldNat sel 0 8
      let th := fieldNat sel 8 5
      let i := sliceOfLoc w.loc
      (if bitAt sel 21 then w = s.me else s.me.kind = .launched ∧ fieldNat sel 16 5 < s.myWg.foot.warps
        ∧ s.warps.find? (fun v => v.wg == s.me.wg && v.kind == .launched && v.wid == fieldNat sel 16 5) = some w) →
      (s.ready f.guard f.cf (f.sb.touch ++ f.dst.touch) = true →
        (∀ d : Fin 128, f.dst = .name d → f.fn.toNat = 0 → idx < 128 → ∃ t, exec (.trd f) s = .next t
          ∧ s.Passed t f.cf { names := [d.val] } ∧ ∀ j, j < 32 → t.elem d.val j = (match w.mapOf idx with
              | some r => (s.slice i).elem r j
              | none => 0))
        ∧ ∀ k : Fin 192, f.dst = .uni k →
          let reads := fun (p : Word → Prop) => ∃ t, exec (.trd f) s = .next t ∧ s.Passed t f.cf { unis := [k.val] } ∧ p (t.uni k.val)
          let mapWord := fun (r : Option Nat) (v : Word) => match r.bind (fun r => (s.slice i).row? r) with
            | some y => y.charge < 4 → y.holders < 4096 → y.no < 256 → bitAt v 0 = true ∧ fieldNat v 8 8 = y.no
                ∧ fieldNat v 16 12 = y.holders ∧ fieldNat v 28 2 = y.charge
            | none => v = 0
          (f.fn.toNat = 1 → idx < 128 → reads (mapWord (w.mapOf idx)))
          ∧ (f.fn.toNat = 2 → reads (fun v => fieldNat v 56 2 = (match (w.thread th).st with
                | .running => 0 | .parked => 1 | .exited => 2)
              ∧ fieldNat v 0 56 = (if (w.thread th).st = .exited then 0 else (w.thread th).pc.toNat % 2 ^ 56)
              ∧ bitAt v 58 = w.serial ∧ bitAt v 59 = (w.thread th).pass ∧ bitAt v 60 = (w.thread th).xfer))
          ∧ (f.fn.toNat = 3 → reads (fun v => ∀ j, j < 64 → bitAt v j = (decide (j < 12) && bitAt (nth w.preds j 0) th)))
          ∧ (f.fn.toNat = 4 → idx < 192 → reads (fun v => v = nth w.unif idx 0))
          ∧ (f.fn.toNat = 5 → reads (fun v => v = (w.thread th).fflags.setWidth 64))
          ∧ (f.fn.toNat = 6 → idx < 16 → reads (mapWord (nth (s.slice i).mailboxes idx none)))
          ∧ (f.fn.toNat = 7 → reads (fun v => ∀ j, j < 64 → bitAt v j =
              (decide (j < 12) && (decide (nth w.flags j 0 ≠ 0) || w.waits.any (fun x => x.flag == some j))))))
      ∧ (s.ready f.guard f.cf (f.sa.touch ++ f.sb.touch) = true → f.dst.no < 12 →
        let v := s.src f.sa 0 (f.imm.setWidth 64)
        let p := fun (t : State) => t.pred f.dst.no s.myH.thread
        let writes := fun (g : Warp → Prop) => ∃ t x, exec (.twr f) s = .next t ∧ t.warp? w.loc = some x ∧ g x ∧ p t = true
          ∧ (s.updWarp w.loc (fun _ => x)).Passed t f.cf { preds := [f.dst.no] }
        let fails := ∃ t, exec (.twr f) s = .next t ∧ s.Passed t f.cf { preds := [f.dst.no] } ∧ p t = false
        (f.fn.toNat = 3 → w.preds.length = 12 → writes (fun x => { x with preds := [] } = { w with preds := [] }
          ∧ ∀ k j, k < 12 → bitAt (nth x.preds k 0) j = if j = th then bitAt v k else bitAt (nth w.preds k 0) j))
        ∧ (f.fn.toNat = 4 → idx < 192 → writes (fun x => { x with unif := [] } = { w with unif := [] }
          ∧ ∀ k, nth x.unif k 0 = if k = idx then v else nth w.unif k 0))
        ∧ (f.fn.toNat = 5 → writes (fun x => { x with threads := [] } = { w with threads := [] }
          ∧ ∀ j, j < w.threads.length → j < 32 → x.thread j = if j = th then { w.thread j with fflags := (v.setWidth 7).setWidth 8 }
              else w.thread j))
        ∧ (f.fn.toNat = 1 → idx < 128 → bitAt v 0 = false → ∃ t x, exec (.twr f) s = .next t ∧ t.warp? w.loc = some x
          ∧ x.mapOf idx = none ∧ (∀ n, n ≠ idx → x.mapOf n = w.mapOf n) ∧ p t = true)
        ∧ (f.fn.toNat = 1 → idx < 128 → bitAt v 0 = true → w.mapOf idx = none → ∀ y, (s.slice i).row? (fieldNat v 8 8) = some y → y.holders ≠ 0 →
          ∃ t x z, exec (.twr f) s = .next t ∧ t.warp? w.loc = some x ∧ x.mapOf idx = some y.no ∧ (∀ n, n ≠ idx → x.mapOf n = w.mapOf n)
            ∧ (t.slice i).row? y.no = some z ∧ z.holders = y.holders + 1 ∧ z.data = y.data ∧ p t = true)
        ∧ (f.fn.toNat = 1 → idx < 128 → bitAt v 0 = true → (∀ y, (s.slice i).row? (fieldNat v 8 8) = some y → y.holders = 0) → fails)
        ∧ (∀ h : Fin 128, f.fn.toNat = 0 → f.sa = .name h → idx < 128 → (s.allocNames w.loc [idx]).isSome = true →
          ∃ t x r, exec (.twr f) s = .next t ∧ t.warp? w.loc = some x ∧ x.mapOf idx = some r
            ∧ (∀ q, w.mapOf idx = some q → r = q) ∧ p t = true
            ∧ ∀ j, j < 32 → (t.slice i).elem r j = nth (nth (s.slice (sliceOfLoc s.cur.loc)).hrows h.val []) j 0)))

/-- R368, R370, R373, R374, R375, R376, R384: TRESUME, TKILL, TEMU and TRET raise ILLEGAL_OP outside a handler run. In one, TRESUME lets
parked threads run at their PC or at a given one, and the handler thread at TRET; TKILL ends threads, a whole warp or a whole workgroup;
TEMU resumes the threads of an extension's record past its slot; TRET ends the run. ICINV drops instruction lines. -/
def Obligations.HandlerControl : Prop :=
  ∀ (f : FmtA) (s : State),
    (s.cur.handler = false → s.run ≠ 0 → ∀ i, i ∈ [Instr.tresume f, .tkill f, .temu f, .tret f] →
      ∃ t, exec i s = .next t ∧ s.Parks t s.run 0x01 s.cur.pc 0 0)
    ∧ (s.cur.handler = true → ∀ w, s.warp? w.loc = some w → s.settled w.loc = true →
      let sel := s.src f.sc 0 (f.imm.setWidth 64)
      let m : Mask := (s.src f.sa 0 (f.imm.setWidth 64)).setWidth 32
      let own := fun (th : Nat) => ∃ h, s.hrun? w.loc = some h ∧ h.thread = th
      let hit := fun (th : Nat) => bitAt m th = true ∧ (w.thread th).st = .parked
      (if bitAt sel 21 then w = s.me else s.me.kind = .launched ∧ fieldNat sel 16 5 < s.myWg.foot.warps
        ∧ s.warps.find? (fun v => v.wg == s.me.wg && v.kind == .launched && v.wid == fieldNat sel 16 5) = some w) →
      (s.ready f.guard f.cf (f.sa.touch ++ f.sc.touch ++ (if f.fn == 1 then f.sb.touch else [])) = true → f.fn.toNat ≤ 1 →
        let pc := s.src f.sb 0 (f.imm.setWidth 64)
        ∃ t v, exec (.tresume f) s = .next t ∧ t.warp? w.loc = some v
          ∧ (∀ th, th < 32 → hit th → ¬ own th → v.thread th =
              if f.fn = 1 then { w.thread th with st := .running, pc := pc, xfer := false, arriving := true }
              else { w.thread th with st := .running, pass := true })
          ∧ (∀ th, th < 32 → (¬ hit th ∨ own th) → v.thread th = w.thread th)
          ∧ ∀ h, s.hrun? w.loc = some h → hit h.thread →
              ∃ h', t.hrun? w.loc = some h' ∧ h'.resume = some (if f.fn = 1 then .target pc else .here))
      ∧ (s.ready f.guard f.cf ((if f.fn.toNat = 0 then f.sa.touch else []) ++ f.sc.touch) = true → f.fn.toNat ≤ 1 →
        let dead := fun (th : Nat) => th < 32 ∧ (f.fn = 1 ∨ bitAt m th = true)
        let all := ∀ th, th < 32 → (w.thread th).st ≠ .exited → dead th
        ∃ t v, exec (.tkill f) s = .next t ∧ t.warp? w.loc = some v
          ∧ (∀ th, dead th → (¬ own th ∨ all) → (v.thread th).st = .exited)
          ∧ (∀ th, th < 32 → ¬ dead th → v.thread th = w.thread th)
          ∧ (all → t.hrun? w.loc = none)
          ∧ (¬ all → ∀ h, s.hrun? w.loc = some h → dead h.thread → (w.thread h.thread).st ≠ .exited →
              (v.thread h.thread).st = (w.thread h.thread).st ∧ ∃ h', t.hrun? w.loc = some h' ∧ h'.kill = true)))
    ∧ (s.cur.handler = true → s.ready f.guard f.cf [] = true → (s.warp? s.cur.loc).isSome = true → ∀ h, s.hrun? s.cur.loc = some h →
      (f.fn.toNat = 2 → (∀ v, v ∈ s.warps → v.wg = s.me.wg → s.settled v.loc = true) → ∃ t, exec (.tkill f) s = .next t ∧ (∀ v, v ∈ t.warps → v.wg = s.me.wg → v.alive = 0 ∧ v.records = [])
        ∧ t.hrun? s.cur.loc = none ∧ ∀ g b x, s.wg? s.me.wg = some g → g.counted = false → g.retired = false → g.wave = false → g.bundle = some b →
            s.bundle? b = some x → ∃ y, t.bundle? b = some y ∧ y.killed = x.killed ++ [(g.number, h.trec.code)])
      ∧ (s.ctxLive s.myCtx = true → ∃ t v, exec (.tret f) s = .next t ∧ t.hrun? s.cur.loc = none ∧ t.warp? s.cur.loc = some v
          ∧ (t.slice (sliceOfLoc s.cur.loc)).lastServed = h.slot
          ∧ (∀ th, th < 32 → th ≠ h.thread → v.thread th = s.me.thread th)
          ∧ (h.kill = true → h.thread < 32 → (v.thread h.thread).st = .exited)
          ∧ (h.kill = false → h.resume = none → v.thread h.thread = s.me.thread h.thread)
          ∧ (h.kill = false → h.thread < 32 → (s.me.thread h.thread).st = .parked → ∀ r, h.resume = some r → v.thread h.thread =
              let x := s.me.thread h.thread
              match r with
              | .here => { x with st := .running, pass := true }
              | .target pc => { x with st := .running, pc := pc, xfer := false, arriving := true }
              | .past => { x with st := .running, pc := succPc x.pc, pos := x.pos + 1, pass := false })))
    ∧ (s.cur.handler = true → s.ready f.guard f.cf f.sa.touch = true → (s.warp? s.cur.loc).isSome = true → ∀ h, s.hrun? s.cur.loc = some h →
      let gone := fun (th : Nat) => th < 32 ∧ bitAt h.trec.mask th = true ∧ (s.me.thread th).st = .parked
        ∧ (s.me.thread th).pc = h.trec.ppc
      (h.trec.code ≠ 0x02 → ∃ t, exec (.temu f) s = .next t ∧ s.DoubleFaults t)
      ∧ (h.trec.code = 0x02 → s.settled s.cur.loc = true → (f.fn ≠ 0 ∨ (bitAt h.trec.bits 24 = true ∧ fieldNat h.trec.bits 16 8 < 192)) →
        ∃ t v, exec (.temu f) s = .next t ∧ t.warp? s.cur.loc = some v
          ∧ (∀ th, gone th → th ≠ h.thread → v.thread th = { s.me.thread th with
              st := .running, pc := succPc h.trec.ppc, pos := (s.me.thread th).pos + 1, pass := false })
          ∧ (∀ th, th < 32 → (¬ gone th ∨ th = h.thread) → v.thread th = s.me.thread th)
          ∧ (gone h.thread → ∃ h', t.hrun? s.cur.loc = some h' ∧ h'.resume = some .past)
          ∧ ∀ a : Fin 128, f.fn = 0 → f.sa = .name a → nth v.unif (fieldNat h.trec.bits 16 8) 0 = s.elem a.val h.thread))
    ∧ (s.releasable →
      (f.fn = 1 → s.ready f.guard f.cf [] = true → ∃ t, exec (.icinv f) s = .next t
        ∧ ({ s.withMemoryOf t with icache := t.icache } : State).Passed t f.cf {}
        ∧ t.icache = s.icache.filter (fun l => l.ctx != s.myCtx))
      ∧ (f.fn ≠ 1 → s.ready f.guard f.cf (f.sa.touch ++ f.sb.touch) = true →
        let lo := (s.src f.sa 0 0).toNat
        let n := (s.src f.sb 0 (f.imm.setWidth 64)).toNat
        n ≤ 2 ^ 40 → ∃ t, exec (.icinv f) s = .next t ∧ ({ s.withMemoryOf t with icache := t.icache } : State).Passed t f.cf {}
          ∧ t.icache = s.icache.filter (fun l => l.ctx != s.myCtx || decide (l.va + 64 ≤ lo) || decide (lo + n ≤ l.va))))

/-- R362, R365, R366, R367, R369, R370, R378, R379, R380: HANDLER_RUN_START takes the record of lowest FPC, reads its vector and starts the
run in a bank that holds the record; an entry of 0 kills the workgroup, and a failed read is a double fault. A run of 2^26 clk kills its
workgroup; a stall of 2^24 clk and a runtime limit park the running threads. -/
def Obligations.HandlerRuns : Prop :=
  (∀ (s : State) (l : Loc) (w : Warp) (r : TrapRec) (c : Ctx),
    let i := sliceOfLoc l
    l.slot < 4 → s.warp? l = some w → w.loc = l → r ∈ w.records →
    (∀ x, x ∈ w.records → x = r ∨ r.fpc.toNat < x.fpc.toNat
      ∨ (r.fpc = x.fpc ∧ ((maskList r.mask)[0]?).getD 0 < ((maskList x.mask)[0]?).getD 0)) →
    (s.slice i).handler = none → w.cancel = false → s.ctx? w.ctx = some c → c.status = .live →
    (∀ k v, k < 4 → k ≠ l.slot → s.warp? ⟨l.die, l.core, l.slice, k⟩ = some v → v.records = []) →
    (∀ e, (s.vectorEntry (coreOfLoc l) w.ctx r.code).1 = some e → e ≠ 0 →
      ∃ t v h, exec (.handlerRunStart i) s = .next t ∧ t.hrun? l = some h ∧ t.warp? l = some v
        ∧ v.records = w.records.filter (fun x => x != r) ∧ { v with records := [] } = { w with records := [] }
        ∧ h.thread = ((maskList r.mask)[0]?).getD 0 ∧ h.pc = e ∧ h.trec = r ∧ h.preds = 0 ∧ h.flags = List.replicate 12 0
        ∧ h.start = s.clk ∧ h.arriving = true ∧ (∀ k j, nth (nth (t.slice i).hrows k []) j 0 = 0)
        ∧ (w.wid < 65536 → r.code < 256 → fieldNat (nth h.unif 0 0) 0 8 = r.code ∧ fieldNat (nth h.unif 0 0) 8 8 = h.thread
            ∧ fieldNat (nth h.unif 0 0) 16 16 = w.wid ∧ fieldNat (nth h.unif 0 0) 32 32 = r.mask.toNat)
        ∧ nth h.unif 1 0 = r.fpc ∧ nth h.unif 2 0 = r.ppc ∧ (nth h.unif 3 0).toNat = fieldNat r.bits 0 64
        ∧ (nth h.unif 4 0).toNat = fieldNat r.bits 64 32 ∧ (nth h.unif 5 0, nth h.unif 6 0) = (lookupKey r.vals h.thread).getD (0, 0)
        ∧ ∀ k, 7 ≤ k → nth h.unif k 0 = 0)
    ∧ (∀ g, (s.vectorEntry (coreOfLoc l) w.ctx r.code).1 = some 0 → s.wg? w.wg = some g →
      ∃ t ck, exec (.handlerRunStart i) s = .next t ∧ (∀ v, v ∈ t.warps → v.wg = w.wg → v.alive = 0 ∧ v.records = [])
        ∧ t.hostEvents = s.hostEvents ++ [.killed ck g.ctx g.number r.code])
    ∧ ((s.vectorEntry (coreOfLoc l) w.ctx r.code).1 = none →
      ∃ t v, exec (.handlerRunStart i) s = .next t ∧ t.warp? l = some v ∧ v.alive = 0 ∧ v.records = [] ∧ v.endClass = .faulted
        ∧ ∃ ck n, t.hostEvents = s.hostEvents ++ [.doubleFault ck w.ctx n]))
  ∧ (∀ (s : State) (i : SliceId) (h : HRun) (w : Warp) (g : Wg), (s.slice i).handler = some h →
      s.warp? ⟨i.die, i.core, i.slice, h.slot⟩ = some w → s.wg? w.wg = some g → h.start + 2 ^ 26 ≤ s.clk →
      ∃ t ck, exec (.handlerTimeout i) s = .next t ∧ (∀ v, v ∈ t.warps → v.wg = w.wg → v.alive = 0 ∧ v.records = [])
        ∧ t.hostEvents = s.hostEvents ++ [.killed ck g.ctx g.number 0x1B])
  ∧ (∀ (s : State) (l : Loc) (w : Warp) (pc : Word), s.warp? l = some w → w.stall = 2 ^ 24 → w.inState .running ≠ 0 →
      (∀ th, th < 32 → (w.thread th).st = .running → (w.thread th).pc = pc) →
      ∃ t v, exec (.watchdog l) s = .next t ∧ t.warp? l = some v
        ∧ v.records = w.records ++ [{ mask := w.inState .running, code := 0x14, fpc := pc, ppc := pc
                                      bits := s.slotBits (coreOfLoc l) w.ctx pc
                                      vals := (maskList (w.inState .running)).map (fun th => (th, 0, 0)) }]
        ∧ (∀ th, th < 32 → (v.thread th).st = if (w.thread th).st = .exited then .exited else .parked)
        ∧ (∀ th, th < 32 → (v.thread th).pc = (w.thread th).pc) ∧ v.stall ≠ 2 ^ 24)
  ∧ ∀ (s : State) (u : Nat) (g : Wg) (w : Warp) (pc : Word), s.wg? u = some g → g.foot.limit ≠ 0 → g.limitHit = false →
      g.foot.limit ≤ g.runtime → s.warps.filter (fun w => w.wg == u) = [w] → s.warp? w.loc = some w → w.inState .running ≠ 0 →
      (∀ th, th < 32 → (w.thread th).st = .running → (w.thread th).pc = pc) →
      ∃ t v x, exec (.runtimeLimit u) s = .next t ∧ t.warp? w.loc = some v
        ∧ v.records = w.records ++ [{ mask := w.inState .running, code := 0x15, fpc := pc, ppc := pc
                                      bits := s.slotBits (coreOfLoc w.loc) w.ctx pc
                                      vals := (maskList (w.inState .running)).map (fun th => (th, BitVec.ofNat 64 g.foot.limit, 0)) }]
        ∧ (∀ th, th < 32 → (v.thread th).st = if (w.thread th).st = .exited then .exited else .parked)
        ∧ t.wg? u = some x ∧ x = { g with limitHit := true }

/-! ### Fetching, fairness and the end of a warp (05, 06) -/

/-- R63, R64, R65, R106, R118, R138, R139: the line of a run's PC is fetched when it translates with execute permission and its parity
holds; otherwise the run is parked there. When the fairness count has reached its quantum and the lowest ready run is about to issue a
header, the next higher ready run is selected and the lowest is held. A warp whose threads have all exited gives back its names and its
slot; its rows pass to heirs, or its slice's mailboxes are drained. -/
def Obligations.FetchingAndRetiring : Prop :=
  (∀ (s : State) (r : RunRef) (w : Warp), r.handler = false → s.warp? r.loc = some w → w.runAt r.pc ≠ 0 → r.pc.toNat < 2 ^ 56 →
    let c := coreOfLoc r.loc
    let va := r.pc.toNat / 64 * 64
    let m := w.runAt r.pc
    let parks := fun (code : Nat) (i0 i1 : Word) (bits : Slot) => ∃ t v, exec (.instructionFetch r) s = .next t ∧ t.warp? r.loc = some v
      ∧ t.icache = s.icache
      ∧ v.records = w.records ++ [{ mask := m, code := code, fpc := r.pc, ppc := r.pc, bits := bits
                                    vals := (maskList m).map (fun th => (th, i0, i1)) }]
      ∧ ∀ th, th < 32 → (v.thread th).pc = (w.thread th).pc
          ∧ (v.thread th).st = if bitAt m th then .parked else (w.thread th).st
    s.icLine c w.ctx va = none →
    let slot := fun (b : List Byte) => lineSlot b (r.pc.toNat % 64 / 12)
    (s.translate c w.ctx va = none → parks 0x0B (word va) 0 0)
    ∧ ∀ p, s.translate c w.ctx va = some p →
      let a := p.loc va
      (pteX p.entry = false ∨ pteFmt p.entry ≠ 0 → parks 0x0C (word va) 0 0)
      ∧ ∀ f, pteX p.entry = true → pteFmt p.entry = 0 → s.poisonedAt a = false →
        ((s.cacheTlb p).fetchTile c (linearView w.ctx p.entry va) (a / 256)).1 = some f →
        let b := (f.drop (a % 256)).take 64
        (isLocal a = true → a % 256 + 64 ≤ 256 → b = s.bytesAt a 64)
        ∧ (parFails b ≠ 0 → parks 0x07 (word va) (word (parFails b)) (slot b))
        ∧ (parFails b = 0 → lineWord b / 4096 ≠ 0 → ∃ t v, exec (.instructionFetch r) s = .next t ∧ t.warp? r.loc = some v
            ∧ v.records = w.records ++ [{ mask := m, code := 6, fpc := r.pc, ppc := r.pc, bits := slot b
                                          vals := (maskList m).map (fun th => (th, word (lineWord b), 0)) }])
        ∧ (parFails b = 0 → lineWord b / 4096 = 0 → (s.icache.filter (fun l => l.core == c)).length < 2048 →
            ∃ t, exec (.instructionFetch r) s = .next t
              ∧ t = { s.withMemoryOf t with nextUid := t.nextUid, icache := s.icache ++ [{ core := c, ctx := w.ctx, va := va, bytes := b }] }))
  ∧ (∀ (s : State) (l : Loc) (w : Warp) (p q : Word) (rest : List Word), s.warp? l = some w → w.readyPcs = p :: q :: rest → p ≠ q →
      w.fairPick = none → w.fair = w.fairQ → s.atHdr w p = true →
      ∃ t v, exec (.fairnessYield l) s = .next t ∧ (∀ k, k ≠ l → t.warp? k = s.warp? k) ∧ t.warp? l = some v
        ∧ v = { w with fairPick := some (w.runAt q, false) } ∧ v.pickedPc = some q
        ∧ t.clauseReady { loc := l, handler := false, pc := p } = false)
  ∧ ∀ (s : State) (l : Loc) (w : Warp), l.slot < 4 → s.warp? l = some w → w.alive = 0 → s.hrun? l = none → s.settled l = true →
      w.pins = [] → w.claims = [] → w.kind = .launched → s.isDestroying w.ctx = false →
      let i := sliceOfLoc l
      let others := (s.warpsOn i).filter (fun x => x.loc != l)
      let mine := fun (r : Nat) => ∃ n, n < 128 ∧ w.mapOf n = some r
      ∃ t, exec (.warpRetire l) s = .next t ∧ t.warp? l = none
        ∧ (∀ k x, k ≠ l → s.warp? k = some x → ∃ y, t.warp? k = some y ∧ { y with balance := x.balance } = x)
        ∧ (others = [] → ∀ k, k < 16 → t.mailbox i k = none)
        ∧ (others ≠ [] → (s.slice i).RowsHeld → (∀ k, t.mailbox i k = s.mailbox i k) ∧ ∀ r y, (s.slice i).row? r = some y →
            (¬ mine r → y.charge ≠ l.slot → (t.slice i).row? r = some y)
            ∧ (¬ mine r → y.charge = l.slot → ∀ h, heirOf others r = some h → (t.slice i).row? r = some { y with charge := h })
            ∧ ((∃ n, n < 128 ∧ w.mapOf n = some r ∧ ∀ k, k < 128 → k ≠ n → w.mapOf k ≠ some r) → y.holders = 1 →
                s.rowPending i r = false → (t.slice i).row? r = none))

/-! ### Queues and commands (03) -/

/-- R20, R22, R28, R42, Table 3.3: the doorbell stores WPTR and nothing but an overrun or the retry of a held fetch follows from it; EN
starts a queue that is DISABLED with both indices 0, or gives ERR 9; the priority is written at once. -/
def Obligations.QueueRegisters : Prop :=
  ∀ s : State,
    (∀ (i : Instr) (r : QueueRef) (w : BitVec 32) (x : Queue),
      (∃ q, q < 4096 ∧ i = .dbwp q w ∧ r = .user q) ∨ (∃ p, partDies s.mode p ≠ [] ∧ i = .mqWptr p w ∧ r = .mgmt p) →
      s.queue? r = some x → s.hostReaches r = true →
      let beyond := 2 ^ x.logN < (w - x.rptr).toNat
      ∃ t y, exec i s = .next t ∧ t = { s with queues := t.queues, cmds := t.cmds } ∧ t.queue? r = some y
        ∧ (∀ p, p ≠ r → t.queue? p = s.queue? p) ∧ y.wptr = w ∧ y.rptr = x.rptr ∧ y.ring = x.ring ∧ y.en = x.en
        ∧ (x.state = .active ∨ x.state = .fetchFault → if beyond then y.state = .error ∧ y.err = 5 else y.state = .active ∧ y.err = x.err)
        ∧ (x.state ≠ .active → x.state ≠ .fetchFault → y.state = x.state)
        ∧ (x.state = .disabled ∨ x.state = .error ∨ x.state = .destroyed → y = { x with wptr := w })
        ∧ t.cmds = s.cmds.map (fun (c : Cmd) => if c.queue = r then { c with held := false } else c))
    ∧ (∀ (q : Nat) (e : QueueEntry), q < 4096 → (s.q (.user q)).state = .disabled →
        let n := e.logSlots.toNat
        let good := 4 ≤ n ∧ n ≤ 16 ∧ e.home.toNat < 6 ∧ e.ringBase.toNat % 256 = 0 ∧ 256 * 2 ^ n ≤ e.ringLen.toNat
          ∧ e.ringBase.toNat + 256 * 2 ^ n ≤ 2 ^ 56
        ∃ t y, exec (.queueEnable q e) s = .next t ∧ t = { s with queues := t.queues } ∧ t.queue? (.user q) = some y
          ∧ (∀ p, p ≠ .user q → t.queue? p = s.queue? p) ∧ y.en = true ∧ y.ring = e.ringBase ∧ y.logN = n ∧ y.ctx = e.ctx.toNat
          ∧ y.prio = e.prio.toNat ∧ y.home = e.home.toNat
          ∧ (good → y.state = .active ∧ y.wptr = 0 ∧ y.rptr = 0) ∧ (¬ good → y.state = .disabled ∧ y.err = 9))
    ∧ (∀ (q : Nat) (x : Queue), s.queue? (.user q) = some x →
        (∃ t y, exec (.queueDisable q) s = .next t ∧ t = { s with queues := t.queues } ∧ t.queue? (.user q) = some y
          ∧ (∀ p, p ≠ .user q → t.queue? p = s.queue? p)
          ∧ (x.state = .active ∨ x.state = .fetchFault ∨ x.state = .error → y = { x with en := false, state := .disabled }))
        ∧ ∀ p : BitVec 3, ∃ t y, exec (.prioWrite q p) s = .next t ∧ t = { s with queues := t.queues } ∧ t.queue? (.user q) = some y
          ∧ (∀ p, p ≠ .user q → t.queue? p = s.queue? p) ∧ y = { x with prio := p.toNat })
    ∧ ∀ (p : Nat) (v : Word), partDies s.mode p ≠ [] →
        let x := s.q (.mgmt p)
        let n := fieldNat v 0 4
        ∃ t y, exec (.mqctl p v) s = .next t ∧ t = { s with queues := t.queues } ∧ t.queue? (.mgmt p) = some y ∧ y.logN = n
          ∧ (∀ r, r ≠ .mgmt p → t.queue? r = s.queue? r) ∧ y.ring = x.ring
          ∧ (bitAt v 4 = false → x.state = .active ∨ x.state = .error ∨ x.state = .disabled → y.en = false ∧ y.state = .disabled)
          ∧ (bitAt v 4 = true → x.state = .disabled → y.en = true
              ∧ if 4 ≤ n ∧ n ≤ 12 then y.state = .active ∧ y.wptr = 0 ∧ y.rptr = 0 else y.state = .disabled ∧ y.err = 9)

/-- R22, R23, R24, R25, R28: a scheduler fetches the slot that RPTR names. A command that passes every check is accepted and RPTR rises by
one; the first check that fails gives the error code, and the queue moves to ERROR; a failed translation moves it to FETCH_FAULT with a host
event. A slot that fails leaves RPTR and the accepted commands as they were. -/
def Obligations.CommandFetches : Prop :=
  ∀ (s : State) (r : QueueRef) (x : Queue) (d : Nat), s.queue? r = some x → s.fetchable x = true → s.scheduler x = some d →
    let keeps := fun (t : State) (y : Queue) => exec (.commandFetch r) s = .next t ∧ t.queue? r = some y
      ∧ (∀ p, p ≠ r → t.queue? p = s.queue? p) ∧ t.mem = s.mem ∧ t.warps = s.warps ∧ t.wgs = s.wgs
    let fails := fun (n : Nat) => ∃ t y, keeps t y ∧ y = { x with state := .error, err := n } ∧ t.cmds = s.cmds
    let accepts := fun (b : List Byte) (ctx : Nat) (n : Named) => ∃ t y c, keeps t y ∧ t.cmds = s.cmds ++ [c]
      ∧ y = { x with rptr := if recNat b 0 1 = 0x43 then x.rptr else x.rptr + 1 }
      ∧ c.uid = s.nextUid ∧ c.queue = r ∧ c.ctx = ctx ∧ c.slot = b ∧ c.seq = x.rptr.toNat ∧ c.started = false ∧ c.held = false
      ∧ c.hdr.cmd.toNat = recNat b 0 1 ∧ c.hdr.cookie.toNat = recNat b 4 4 ∧ c.hdr.fence = (recNat b 1 1).testBit 0
      ∧ c.hdr.evt = (recNat b 1 1).testBit 1 ∧ c.pro = n.pro ∧ c.epi = n.epi ∧ c.nodes = n.nodes ∧ c.stages = n.stages
    (∀ q, r = .user q →
      let rd := s.readRecord d x.ctx (x.ring + word (256 * (x.rptr.toNat % 2 ^ x.logN))) 256
      (∀ e, rd.1 = .bad e → ∃ t y, keeps t y ∧ y = { x with state := .fetchFault } ∧ t.cmds = s.cmds
        ∧ t.hostEvents = s.hostEvents ++ [.fetchFault 0 r e.2 e.1])
      ∧ ∀ b, rd.1 = .ok b →
        let cmd := recNat b 0 1
        (¬ ((1 ≤ cmd ∧ cmd ≤ 8) ∨ (0x40 ≤ cmd ∧ cmd ≤ 0x43)) → fails 1)
        ∧ (0x40 ≤ cmd ∧ cmd ≤ 0x43 → fails 8)
        ∧ (1 ≤ cmd ∧ cmd ≤ 8 →
          (slotReserved cmd b = false → fails 2)
          ∧ (slotReserved cmd b = true → slotAddrs cmd b = false → fails 4)
          ∧ (slotReserved cmd b = true → slotAddrs cmd b = true → rd.2.slotLimits x.ctx cmd b = false → fails 3)
          ∧ (slotReserved cmd b = true → slotAddrs cmd b = true → rd.2.slotLimits x.ctx cmd b = true →
            (∀ n, (rd.2.readNamed d x.ctx cmd b).1 = .err n → fails n)
            ∧ (∀ n, (rd.2.readNamed d x.ctx cmd b).1 = .ok n → accepts b x.ctx n)
            ∧ ∀ e, (rd.2.readNamed d x.ctx cmd b).1 = .bad e → ∃ t y, keeps t y ∧ y = { x with state := .fetchFault }
                ∧ t.cmds = s.cmds ∧ ∃ k l, t.hostEvents = l ++ [.fetchFault k r e.2 e.1] ∧ k.toNat = recNat b 4 4))
        ∧ (cmd = 8 → recZero b 8 248 = true → recNat b 1 3 < 4 → accepts b x.ctx {}))
    ∧ ∀ p, r = .mgmt p →
      let b := s.bytesAt (hostBase + x.ring.toNat + 256 * (x.rptr.toNat % 2 ^ x.logN)) 256
      let cmd := recNat b 0 1
      (¬ ((0x40 ≤ cmd ∧ cmd ≤ 0x43) ∨ cmd = 8) → fails 1)
      ∧ ((0x40 ≤ cmd ∧ cmd ≤ 0x43) ∨ cmd = 8 →
        (slotReserved cmd b = false → fails 2)
        ∧ (slotReserved cmd b = true → s.mgmtLimits p cmd b = false → fails 3)
        ∧ (slotReserved cmd b = true → s.mgmtLimits p cmd b = true → accepts b (recNat b 8 2) {}))

/-- R26, R27, R28, R33, R446: a command starts when its turn comes, not before an incomplete WAITSIG or CELLWAIT of its queue, and under
FENCE or for SIGNAL not before any earlier command has completed. NOP, SIGNAL, a satisfied WAITSIG and a satisfied CELLWAIT complete, with a
host event when EVT is set; SIGNAL stores or adds its value; COPY completes when its chain has ended; a failed access holds the queue. -/
def Obligations.SimpleCommands : Prop :=
  (∀ (s : State) (u code : Nat) (c x : Cmd), s.cmd? u = some c → x ∈ s.cmds → x.queue = c.queue → x.uid < c.uid →
    (x.hdr.cmd = 5 ∨ x.hdr.cmd = 7 ∨ x.started = false ∨ c.hdr.fence = true ∨ c.hdr.cmd = 6) → s.toStart u code = none)
  ∧ ∀ (s : State) (u : Nat) (c : Cmd), s.cmd? u = some c → (s.scheduler (s.q c.queue)).isSome = true →
    let va := recWord c.slot 8 8
    let core := schedCore (s.firstDie c.ctx)
    let began := fun (t : State) => s.queue? c.queue = t.queue? c.queue ∧ (∀ v, v ≠ u → t.cmd? v = s.cmd? v)
    let done := fun (t : State) => t.cmd? u = none ∧ began t
      ∧ t.hostEvents = s.hostEvents ++ (if c.hdr.evt then [.complete c.hdr.cookie none] else [])
    let waits := fun (t : State) => t.cmd? u = some { c with started := true } ∧ began t ∧ t.hostEvents = s.hostEvents ∧ t.mem = s.mem
    let heldUp := fun (t : State) (e : Bad) => t.cmd? u = some { c with held := true }
      ∧ (∀ x, s.queue? c.queue = some x → t.queue? c.queue = some (if x.state = .active then { x with state := .fetchFault } else x))
      ∧ t.hostEvents = s.hostEvents ++ [.fetchFault c.hdr.cookie c.queue e.2 e.1] ∧ t.mem = s.mem
    ((s.toStart u 8 = some c ∨ (c.hdr.cmd = 8 ∧ c.isUser = false)) → ∃ t, exec (.cmdNop u) s = .next t ∧ done t ∧ t.mem = s.mem)
    ∧ (s.toStart u 6 = some c →
      (∀ a, s.onePage core c.ctx va 8 true a → s.Quiet core c.ctx →
        let old := wordOfBytes (s.bytesAt a 8)
        ∃ t, exec (.cmdSignal u) s = .next t ∧ done t
          ∧ ∀ x, t.byteAt x = if a ≤ x ∧ x < a + 8 then
              nth (bytesOfWord 8 (if recNat c.slot 24 1 = 1 then old + recWord c.slot 16 8 else recWord c.slot 16 8)) (x - a) 0
            else s.byteAt x)
      ∧ (∀ e, s.walk core c.ctx va true = .bad e → ∃ t, exec (.cmdSignal u) s = .next t ∧ heldUp t e))
    ∧ ((s.toStart u 5 = some c ∨ (c.hdr.cmd = 5 ∧ c.started = true ∧ c.held = false ∧ s.ctxLive c.ctx = true)) →
      let i := if c.started then Instr.waitsigSatisfied u else .waitsig u
      (∀ a, s.onePage core c.ctx va 8 false a →
        let w := wordOfBytes (s.bytesAt a 8)
        let v := recWord c.slot 16 8
        let met := if recNat c.slot 24 1 = 0 then v.toNat ≤ w.toNat else if recNat c.slot 24 1 = 1 then w = v else w ≠ v
        (met → ∃ t, exec i s = .next t ∧ done t ∧ t.mem = s.mem)
        ∧ (¬ met → c.started = false → ∃ t, exec i s = .next t ∧ waits t)
        ∧ (¬ met → c.started = true → exec i s = .next s))
      ∧ (∀ e, s.walk core c.ctx va false = .bad e → ∃ t, exec i s = .next t ∧ heldUp t e))
    ∧ ((s.toStart u 7 = some c ∨ (s.toStart u 7 = none ∧ c.hdr.cmd = 7 ∧ c.started = true ∧ s.ctxLive c.ctx = true)) →
      let x := s.cell c.ctx (recNat c.slot 8 2)
      let met := if recNat c.slot 14 1 = 0 then recNat c.slot 10 4 ≤ x.version else x.final = true
      (met → ∃ t, exec (.cellwait u) s = .next t ∧ done t ∧ t.mem = s.mem)
      ∧ (¬ met → c.started = false → ∃ t, exec (.cellwait u) s = .next t ∧ waits t))
    ∧ (s.toStart u 4 = some c → ∃ t k, exec (.copy u) s = .next t ∧ waits t ∧ t.chains = s.chains ++ [k] ∧ k.recs = c.pro ∧ k.progress = 0
        ∧ k.failed = none ∧ k.ctx = c.ctx ∧ k.owner = u)
    ∧ (∀ k, s.toStart u 4 = none → c.hdr.cmd = 4 → s.chainOf u 0 = some k → s.ctxLive c.ctx = true →
        (k.recs = [] ∨ k.failed.isSome = true → ∃ t, exec (.copy u) s = .next t ∧ done t ∧ t.chainOf u 0 = none ∧ t.mem = s.mem)
        ∧ (k.recs ≠ [] → k.failed = none → exec (.copy u) s = .next s))

/-- R29, R30, R31, R34, R35, R396, R398, Table 3.7b: LAUNCH opens a bundle, which runs its prologue chain and then distributes one unit for
each cluster group to the dies; a ROLLBACK bundle opens a checkpoint interval. When its workgroups have retired and its epilogue has ended,
it writes its status word and then SIGVAL, and completes its command; if poison was consumed in an interval that can be replayed, it is
rolled back and starts again instead. -/
def Obligations.LaunchBundles : Prop :=
  let dealt := fun (s t : State) (b : Bundle) =>
    let n := cgsOf b.slot
    ∃ l, t.batches = s.batches ++ l ∧ (∀ x, x ∈ l → ∀ p, p ∈ x.units → p.die = x.die)
      ∧ ∀ k, k < gridOf b.slot / n → ∃ x p, x ∈ l ∧ p ∈ x.units ∧ p.kind = .launch b.id (k * n) n (fuseOf b.slot) ∧ p.ctx = b.ctx
          ∧ p.foot = footOfLaunch b.slot ∧ p.queue = some b.queue
  (∀ (s : State) (u : Nat) (c : Cmd), s.toStart u 1 = some c → (∀ b, b ∈ s.bundles → b.id < s.nextUid) →
    (∀ d, d ∈ s.diesOf c.ctx → d < 6) → s.diesOf c.ctx ≠ [] →
    ∃ t b, exec (.launch u) s = .next t ∧ t.cmd? u = some { c with started := true } ∧ t.bundles = s.bundles ++ [b] ∧ t.mem = s.mem
      ∧ b.id = s.nextUid ∧ b.cmd = u ∧ b.node = none ∧ b.ctx = c.ctx ∧ b.slot = c.slot ∧ b.epi = c.epi ∧ b.killed = [] ∧ b.reruns = 0
      ∧ (c.pro ≠ [] → b.phase = .prologue ∧ t.batches = s.batches
          ∧ ∃ k, t.chains = s.chains ++ [k] ∧ k.recs = c.pro ∧ k.owner = b.id ∧ k.stage = 0)
      ∧ (c.pro = [] → b.phase = .run ∧ b.alive = gridOf c.slot ∧ dealt s t b)
      ∧ (rollbackOf c.slot = false → t.ctxs = s.ctxs)
      ∧ (rollbackOf c.slot = true → ∀ x, s.ctx? c.ctx = some x → ∃ y, t.ctx? c.ctx = some y ∧ y.chk &&& chkPoison = 0
          ∧ (y.chk &&& chkLogfull = 0 ↔ x.desc.logSlice ≠ 0)
          ∧ y.interval = some { bundle := b.id, overflow := x.desc.logSlice == 0, log := [] }))
  ∧ (∀ (s : State) (id : Nat) (b : Bundle), s.bundle? id = some b → b.phase = .prologue → (∀ k, s.chainOf id 0 = some k → k.ended = true) →
      s.ctxLive b.ctx = true → (∀ d, d ∈ s.diesOf b.ctx → d < 6) → s.diesOf b.ctx ≠ [] →
      ∃ t, exec (.prologueComplete id) s = .next t ∧ t.bundle? id = some { b with phase := .run, alive := gridOf b.slot } ∧ dealt s t b
        ∧ t.chainOf id 0 = none ∧ t.mem = s.mem ∧ t.cmds = s.cmds)
  ∧ ∀ (s : State) (id a : Nat) (b : Bundle) (c : Cmd) (x : Ctx), s.bundle? id = some b → b.phase = .epilogue → b.alive = 0 → b.waves = 0 →
      (∀ k, s.chainOf id 1 = some k → k.ended = true) → s.ctx? b.ctx = some x → x.status = .live → s.migrations = [] →
      let va := recWord b.slot 64 8
      let core := schedCore (s.firstDie b.ctx)
      let due := b.killed = [] ∧ b.reruns < 2 ∧ x.chk &&& chkPoison ≠ 0 ∧ x.chk &&& chkLogfull = 0
        ∧ ∃ i, x.interval = some i ∧ i.bundle = id ∧ i.fresh = true ∧ i.overflow = false
      (¬ due → b.node = none → s.cmd? b.cmd = some c → (∀ i, x.interval = some i → i.bundle = id) →
        (∀ l, l ∈ s.l1 → l.core = s.l1Owner core → l.dirty = []) →
        (va ≠ 0 → va.toNat % 16 = 0 ∧ s.onePage core b.ctx va 16 true a ∧ (s.tlbFor core b.ctx va.toNat).isSome = true) →
        ∃ t, exec (.bundleEnd id) s = .next t ∧ t.bundle? id = none ∧ t.cmd? b.cmd = none
          ∧ t.hostEvents = s.hostEvents ++ (if c.hdr.evt then [.complete c.hdr.cookie none] else [])
          ∧ (va = 0 → t.mem = s.mem)
          ∧ (va ≠ 0 → (∀ k, k < 8 → t.byteAt (a + k) = nth (bytesOfWord 8 (recWord b.slot 72 8)) k 0)
              ∧ (∀ y, ¬ (a ≤ y ∧ y < a + 16) → t.byteAt y = s.byteAt y)
              ∧ ∃ st : Word, (∀ k, k < 8 → t.byteAt (a + 8 + k) = nth (bytesOfWord 8 st) k 0)
                ∧ (b.killed.length < 2 ^ 32 → (∀ k, k ∈ b.killed → k.2 < 256) → fieldNat st 0 32 = b.killed.length
                  ∧ bitAt st 40 = b.episkip ∧ bitAt st 41 = b.rolled
                  ∧ bitAt st 42 = (rollbackOf b.slot && x.chk &&& chkLogfull != 0)
                  ∧ (b.killed = [] → fieldNat st 32 8 = 0)
                  ∧ ∀ n k, (n, k) ∈ b.killed → (∀ q, q ∈ b.killed → q = (n, k) ∨ n < q.1) → fieldNat st 32 8 = k)))
      ∧ (due → (∀ i, x.interval = some i → i.log = []) → b.pro ≠ [] →
        (∀ l, l ∈ s.l1 → l.ctx = b.ctx → l.dirty = []) → (∀ l, l ∈ s.l2 → l.ctx = b.ctx → l.dirty = []) →
        ∃ t y i, exec (.bundleEnd id) s = .next t ∧ t.bundle? id = some { b with
            phase := .prologue, alive := 0, killed := [], episkip := false, rolled := true, reruns := b.reruns + 1 }
          ∧ (∃ k, k ∈ t.chains ∧ k.owner = id ∧ k.stage = 0 ∧ k.recs = b.pro) ∧ t.cmds = s.cmds ∧ t.mem = s.mem
          ∧ (∀ l, l ∈ t.l1 → l.ctx ≠ b.ctx) ∧ (∀ l, l ∈ t.l2 → l.ctx ≠ b.ctx) ∧ t.ctx? b.ctx = some y ∧ y.interval = some i ∧ i.bundle = id ∧ i.log = []
          ∧ y.chk &&& chkPoison = 0)

/-- R36, R37, R38, R39, R41, R40: GRAPH dispatches the ready node of greatest remaining path, the lowest number first among equals, but first the
node whose record it could not read before; an empty
node is done at once; a running node whose bundle or chain has ended is done, or failed when a workgroup of it was killed or a record
stopped, after which nothing is dispatched; the command completes when every node is done, or with the lowest failed node once none runs.
PIPE starts with WMIN waves of each stage and completes when every ring is closed and empty and no wave is left. -/
def Obligations.GraphsAndPipes : Prop :=
  (∀ (g : Graph) (j : Nat), g.retry = some j → (∀ y, y ∈ g.nodes → y.st ≠ .failed) → g.next = some j)
  ∧ (∀ (g : Graph) (j : Nat) (x : Node), g.retry = none → g.next = some j → g.nodes[j]? = some x → x.st = .waiting
      ∧ (∀ y, y ∈ g.nodes → y.st ≠ .failed) ∧ (∀ p, p ∈ x.preds → ∃ y, g.nodes[p]? = some y ∧ y.st = .done)
      ∧ ∀ k y, g.nodes[k]? = some y → y.st = .waiting → (∀ p, p ∈ y.preds → ∃ z, g.nodes[p]? = some z ∧ z.st = .done) →
          y.rem < x.rem ∨ (y.rem = x.rem ∧ j ≤ k))
  ∧ (∀ (nodes : List Node) (j : Nat) (x : Node), (∀ i (y : Node), nodes[i]? = some y → ∀ p, p ∈ y.preds → p < i) →
      (withRem nodes)[j]? = some x →
      let l := withRem nodes
      let at_ := fun (k : Nat) (y : Node) => l[k]? = some y
      x.cost ≤ x.rem ∧ (∀ k y, at_ k y → j ∈ y.preds → x.cost + y.rem ≤ x.rem)
      ∧ (x.rem = x.cost ∨ ∃ k y, at_ k y ∧ j ∈ y.preds ∧ x.rem = x.cost + y.rem))
  ∧ ∀ (s : State) (u : Nat) (c : Cmd), s.cmd? u = some c →
    let closes := fun (t : State) (n : Option Nat) => t.cmd? u = none ∧ t.graph? u = none
      ∧ t.hostEvents = s.hostEvents ++ (if c.hdr.evt then [.complete c.hdr.cookie n] else [])
    (s.toStart u 2 = some c → s.graph? u = none → ∃ t, exec (.graph u) s = .next t ∧ t.cmd? u = some { c with started := true }
      ∧ t.graph? u = some { cmd := u, ctx := c.ctx, nodes := c.nodes } ∧ t.mem = s.mem ∧ t.hostEvents = s.hostEvents)
    ∧ (∀ g j x, s.toStart u 2 = none → s.graph? u = some g → s.dispatchable c = some j → s.myTurn c.queue = true → g.nodes[j]? = some x →
      let g' : Graph := { g with nodes := updNth g.nodes j (fun y => { y with st := .done }), retry := none }
      (x.kind = 0 → ∃ t, exec (.graph u) s = .next t ∧ t.mem = s.mem
        ∧ ((∃ y, y ∈ g'.nodes ∧ y.st ≠ .done) → t.graph? u = some g' ∧ t.cmd? u = some c)
        ∧ ((∀ y, y ∈ g'.nodes → y.st = .done) → closes t none))
      ∧ (let s₂ := s.tookTurn c.queue
          ∀ b p e s₃, x.kind = 1 → s₂.readRecord (s.firstDie c.ctx) c.ctx x.ptr 256 = (.ok b, s₃) → rollbackOf b = false →
          firstErr (s₃.launchChecks c.ctx b) = .ok () → (s₃.launchChains (s.firstDie c.ctx) c.ctx b).1 = .ok (p, e) →
          (∀ b, b ∈ s.bundles → b.id < s.nextUid) →
          p ≠ [] → ∃ t k, exec (.graph u) s = .next t ∧ t.bundles = s.bundles ++ [k] ∧ k.node = some j ∧ k.cmd = u ∧ k.slot = b
            ∧ t.graph? u = some { g with nodes := updNth g.nodes j (fun y => { y with st := .running }), retry := none }))
    ∧ (∀ g j x b, c.hdr.cmd = 2 → s.ctxLive c.ctx = true → s.graph? u = some g → g.nodes[j]? = some x → x.st = .running →
      s.bundles.find? (fun b => b.cmd == u && b.node == some j) = some b → b.phase = .finish →
      let st : NodeState := if b.killed = [] then .done else .failed
      let g' : Graph := { g with nodes := updNth g.nodes j (fun y => { y with st := st }), retry := if g.retry = some j then none else g.retry }
      ∃ t, exec (.graphNodeComplete u j) s = .next t ∧ t.mem = s.mem ∧ (∀ k, k ∈ t.bundles → k ∈ s.bundles)
        ∧ (∀ k, k ∈ t.bundles → ¬ (k.cmd = u ∧ k.node = some j))
        ∧ ((∀ y, y ∈ g'.nodes → y.st = .done) → closes t none)
        ∧ ((∃ y, y ∈ g'.nodes ∧ y.st ≠ .done) → ((∀ y, y ∈ g'.nodes → y.st ≠ .failed) ∨ ∃ y, y ∈ g'.nodes ∧ y.st = .running) →
            t.graph? u = some g' ∧ t.cmd? u = some c)
        ∧ ∀ n y, g'.nodes[n]? = some y → y.st = .failed → (∀ m z, m < n → g'.nodes[m]? = some z → z.st ≠ .failed) →
            (∀ z, z ∈ g'.nodes → z.st ≠ .running) → closes t (some n))
    ∧ (s.toStart u 3 = some c → (∀ k : Stage, k ∈ c.stages → s.peekRing c.ctx k.ring = none) →
        ∃ t p, exec (.pipe u) s = .next t ∧ t.cmd? u = some { c with started := true } ∧ t.pipes = s.pipes ++ [p] ∧ p.cmd = u
          ∧ p.stages = c.stages ∧ p.ctx = c.ctx ∧ t.mem = s.mem
          ∧ ∀ k, k < c.stages.length → t.stageCount u k = s.stageCount u k + (p.stage k).wmin)
    ∧ ∀ p, s.toStart u 3 = none → s.pipes.find? (fun p => p.cmd == u) = some p → s.ctxLive c.ctx = true →
        ((∀ k, k < p.stages.length → (∃ r, s.peekRing p.ctx (p.stage k).ring = some r ∧ r.closed = true ∧ r.occ = 0) ∧ s.stageCount u k = 0) →
          ∃ t, exec (.pipe u) s = .next t ∧ t.cmd? u = none ∧ (∀ q, q ∈ t.pipes → q.cmd ≠ u)
            ∧ t.hostEvents = s.hostEvents ++ (if c.hdr.evt then [.complete c.hdr.cookie none] else []) ∧ t.mem = s.mem)
        ∧ ((∃ k, k < p.stages.length ∧ s.stageCount u k ≠ 0) → exec (.pipe u) s = .next s)

/-! ### Placement and retirement (04, 25) -/

/-- R31, R32, R41, R43, R44, R47, R52, R53, R54, R56, R57, R58, R407, R408, Table 4.1: a batch's units become pending at its die; the first
unit in order that fits is placed whole, with its warps at ENTRY and its arguments in u0 to u15; a unit that does not fit for 2^20 clk stops
its die; idle cores are gated and activated again, at most 12 in 1,500 clk; a workgroup's end gives its resources back and may start its
bundle's epilogue; a scheduler that falls silent is adopted by its first live watcher. -/
def Obligations.Placing : Prop :=
  (∀ (s : State) (id : Nat) (b : Batch), s.batches.find? (fun b => b.id == id) = some b → ∃ t, exec (.batchAccept id) s = .next t
    ∧ t = { s with batches := s.batches.filter (fun x => x.id != id), pending := s.pending ++ b.units, dies := t.dies }
    ∧ ((∃ y, y ∈ s.dies ∧ y.no = b.die) → t.die b.die = { s.die b.die with
        batches := (s.die b.die).batches ++ [{ id := id, bundle := b.bundle, units := b.units.map (·.uid) }] })
    ∧ ∀ q, q ≠ b.die → t.die q = s.die q)
  ∧ (∀ (s : State) (d b first : Nat) (p : Pending) (sp : Spot) (x : Bundle), (s.tryOrder d).head? = some p → p.kind = .launch b first 1 false →
      (s.die d).stopFor = [] → s.bundle? b = some x → s.bestSpot p.ctx d p.foot 0 = some sp →
      ∃ t g ws, exec (.placement d) s = .next t ∧ t.pending = s.pending.filter (fun q => q.uid != p.uid) ∧ t.mem = s.mem
        ∧ t.wgs = s.wgs ++ [g] ∧ g.ctx = p.ctx ∧ g.core = sp.core ∧ g.slices = sp.slices ∧ g.locBase = sp.loc ∧ g.accBase = sp.acc
        ∧ g.number = first ∧ g.bundle = some b ∧ g.foot = p.foot ∧ g.locMem = [] ∧ g.accMem = [] ∧ g.runtime = 0
        ∧ g.tags = List.replicate p.foot.tags ({} : Tag) ∧ g.guards = List.replicate p.foot.guards [none] ∧ (∀ q, g.queue q = [])
        ∧ t.warps = s.warps ++ ws ∧ ws.length = p.foot.warps
        ∧ ∀ k, k < p.foot.warps → ∃ v, ws[k]? = some v ∧ v.wg = g.uid ∧ v.ctx = p.ctx ∧ v.wid = k ∧ v.crew = k / p.foot.crew
          ∧ v.loc = ⟨sp.core.die, sp.core.core, nth sp.slices (k / p.foot.crew) 0, k % p.foot.crew⟩ ∧ v.gid = word first
          ∧ v.rowsRes = p.foot.rows ∧ v.fairQ = p.foot.fairq ∧ v.fair = 0 ∧ v.serial = false ∧ (∀ n, v.mapOf n = none)
          ∧ (∀ q, nth v.preds q 0 = 0) ∧ (∀ q, nth v.flags q 0 = 0)
          ∧ (∀ th, th < 32 → v.thread th = { st := .running, pc := p.foot.entry, arriving := true })
          ∧ (∀ j, j < 16 → nth v.unif j 0 = recWord x.slot (128 + 8 * j) 8) ∧ ∀ j, 16 ≤ j → nth v.unif j 0 = 0)
  ∧ (∀ (s : State) (d : Nat) (p : Pending), (∀ q, q ∈ s.tryOrder d → q.kind.cls = 2 ∧ s.tryPlace q = none ∧ s.stopped d q = false) →
      (s.tryOrder d).head? = some p → p.blocked = none → (s.pending.map (·.uid)).Nodup →
      ∃ t, exec (.placement d) s = .next t ∧ t.wgs = s.wgs ∧ t.warps = s.warps ∧ { p with blocked := some s.clk } ∈ t.pending)
  ∧ (∀ (s : State) (d : Nat), (∃ y, y ∈ s.dies ∧ y.no = d) →
      (∀ p t₀, s.pending.find? (fun p => p.die == d && p.blocked.any (fun t => decide (t + 2 ^ 20 ≤ s.clk))
          && !(s.die d).stopFor.contains p.uid) = some p →
        p.blocked = some t₀ → ∃ t, exec (.placementStop d) s = .next t ∧ t = { s with dies := t.dies }
          ∧ t.die d = { s.die d with stopFor := (s.die d).stopFor ++ [p.uid] } ∧ (∀ q, q ≠ d → t.die q = s.die q)
          ∧ ∀ q, q ∈ t.pending → q.uid ≠ p.uid → (s.pending.map (·.uid)).Nodup → s.prioNow q ≤ s.prioNow p → t.stopped d q = true)
      ∧ (∀ c : CoreId, c.die = d → (s.core c).active = false → s.residents c ≠ 0 →
          ((s.die d).recent.filter (fun t => decide (s.clk < t + 1500))).length < 12 →
          ∃ t, exec (.coreActivate c) s = .next t ∧ t = { s with cores := t.cores, dies := t.dies }
            ∧ t.core c = { s.core c with active := true } ∧ (∀ k, k ≠ c → t.core k = s.core k) ∧ s.clk ∈ (t.die d).recent)
      ∧ (((s.die d).boot = .up ∧ (s.die d).dead = false ∧ (s.die d).fenced = false) → (s.die d).beat + 150000 ≤ s.clk →
          ∃ t, exec (.schedHeartbeat d) s = .next t ∧ t = { s with dies := t.dies } ∧ t.die d = { s.die d with beat := s.clk }
            ∧ ∀ q, q ≠ d → t.die q = s.die q)
      ∧ (s.mode = 1 → d < 6 → (s.die d).boot = .up → (s.die d).fenced = false → (s.die d).adopter = none → (s.die d).told = false →
          let near := [min ((d + 5) % 6) ((d + 1) % 6), max ((d + 5) % 6) ((d + 1) % 6), (d + 3) % 6]
          let live := fun (w : Nat) => (s.die w).boot = .up ∧ (s.die w).dead = false ∧ (s.die w).fenced = false
          (∀ i w, near[i]? = some w → live w → (∀ j v, j < i → near[j]? = some v → ¬ live v) → (s.die w).adopter = none →
            (s.die d).beat + 450000 * (i + 1) ≤ s.clk →
            ∃ t, exec (.schedulerAdoption d) s = .next t ∧ t.die d = { s.die d with fenced := true, adopter := some w }
              ∧ t.hostEvents = s.hostEvents ++ [.adopted d w] ∧ ∀ q, s.homeOf q = d → t.scheduler q = some w)
          ∧ ((∀ w, w ∈ near → ¬ live w) → (s.die d).beat + 450000 ≤ s.clk →
            ∃ t, exec (.schedulerAdoption d) s = .next t ∧ t.die d = { s.die d with told := true }
              ∧ t.hostEvents = s.hostEvents ++ [.noAdopter d])))
  ∧ (∀ (s : State) (c : CoreId), (s.core c).active = true → s.residents c = 0 → (s.core c).idleSince + 15000 ≤ s.clk →
      s.migrations = [] → ∃ t, exec (.coreGate c) s = .next t ∧ t.core c = { s.core c with active := false }
        ∧ (∀ k, k ≠ c → t.core k = s.core k) ∧ (∀ l, l ∈ t.l1 → l.core ≠ c) ∧ t.warps = s.warps ∧ t.wgs = s.wgs)
  ∧ ∀ (s : State) (u : Nat) (g : Wg), s.wg? u = some g → (∀ w, w ∈ s.warps → w.wg ≠ u) → (∀ q, q ≠ .xq → g.queue q = []) →
      g.queues.length = 6 → s.migrations = [] → g.retired = false → s.isDestroying g.ctx = false → (∀ x, x ∈ s.wgs → x.gone = false) →
      ∃ t, exec (.workgroupRetire u) s = .next t ∧ t.warps = s.warps
        ∧ (∀ l, l ∈ t.l1 → l.core = s.l1Owner g.core → l.dirty = [])
        ∧ (g.group = none → (∀ v, v ≠ u → t.wg? v = s.wg? v) ∧ (∀ k, k ∈ t.groups → u ∉ k.wgs) ∧ (g.queue .xq = [] → t.wg? u = none)
            ∧ (g.queue .xq ≠ [] → ∃ y, t.wg? u = some y ∧ y.retired = true ∧ y.slices = [] ∧ y.locMem = [] ∧ y.accMem = []
                ∧ y.queue .xq = g.queue .xq))
        ∧ (∀ k x, g.group = some k → x ∈ s.wgs → x.group = some k → x.uid ≠ u → x.retired = false → t.wg? u = some { g with retired := true })
        ∧ ∀ b x, g.bundle = some b → g.wave = false → s.bundle? b = some x → ∃ y, t.bundle? b = some y ∧ y.alive = x.alive - 1
          ∧ y.killed = x.killed ∧ (x.phase = .run → 2 ≤ x.alive → y.phase = .run)
          ∧ (x.phase = .run → x.alive = 1 → y.phase = .epilogue ∧ (y.episkip = true ↔ x.epi ≠ [] ∧ x.killed ≠ [])
              ∧ (x.epi ≠ [] → x.killed = [] → ∃ k, t.chains = s.chains ++ [k] ∧ k.owner = b ∧ k.stage = 1 ∧ k.recs = x.epi)
              ∧ (x.epi = [] ∨ x.killed ≠ [] → t.chains = s.chains))

/-! ### Pre-emption, the end of a context and partitions (23, 25) -/

/-- R386, R387, R390, R391, R392, R393, R403: PREEMPT holds the context's queues and lets its runs stop; once it is quiet its image is
written to the named place, or to the reserve when it does not fit there, with the header of Table 23.3, and its warps, workgroups and
pending units leave the module; RESUME reads the image, places its units again, returns the queues to their states, and waits while a
unit does not fit; an image of another module closes the interval and sets CHK.LOGFULL. -/
def Obligations.Preemption : Prop :=
  (∀ (s : State) (u : Nat) (c : Cmd) (x : Ctx), s.cmd? u = some c → s.ctx? c.ctx = some x → c.isUser = false →
    let ctx := c.ctx
    (s.mgmtStart u 0x40 = some c →
      (x.status ≠ .live ∨ s.hasWork ctx = false → ∃ t, exec (.preempt u) s = .next t ∧ t.cmd? u = none ∧ t.ctxs = s.ctxs
        ∧ t.queues = s.queues ∧ t.hostEvents = s.hostEvents ++ (if c.hdr.evt then [.complete c.hdr.cookie none] else []))
      ∧ (x.status = .live → s.hasWork ctx = true → ∃ t, exec (.preempt u) s = .next t ∧ t.cmd? u = some { c with started := true }
        ∧ t.ctx? ctx = some { x with status := .preempting } ∧ t.warps = s.warps ∧ t.mem = s.mem
        ∧ ∀ n q, s.queue? (.user n) = some q → t.queue? (.user n) = some (
            if q.ctx = ctx ∧ (q.state = .active ∨ q.state = .fetchFault ∨ q.state = .error) then { q with state := .held, before := q.state }
            else q)))
    ∧ (c.hdr.cmd = 0x40 → c.started = true →
      (s.quiet ctx = false → exec (.preemptSave u) s = .next s)
      ∧ (s.quiet ctx = true → s.migrations = [] → (∀ k, k ∈ s.cells → k.ctx ≠ ctx) → s.errors = [] →
          (∀ l, l ∈ s.l1 → l.ctx = ctx → l.dirty = []) → (∀ l, l ∈ s.l2 → l.ctx = ctx → l.dirty = []) → s.ctx? noCtx = none →
          let img := s.imageBytes x ((s.warps.filter (fun w => w.ctx == ctx)).map (fun w => s.savedWarp w))
          let reserve := decide (recNat c.slot 24 8 < img.length)
          let place := if reserve then firstReserve * 65536 else recNat c.slot 16 8
          (reserve = true → s.reserveFull = false) → place + img.length ≤ fabricBase →
          ∃ t, exec (.preemptSave u) s = .next t
          ∧ (∀ a, t.byteAt a = if place ≤ a ∧ a < place + img.length then nth img (a - place) 0 else s.byteAt a)
          ∧ t.images = s.images ++ [{ ctx := ctx, place := place, reserve := reserve, size := img.length }]
          ∧ t.warps = s.warps.filter (fun w => w.ctx != ctx) ∧ t.wgs = s.wgs.filter (fun g => g.ctx != ctx)
          ∧ t.pending = s.pending.filter (fun p => p.ctx != ctx) ∧ (∀ l, l ∈ t.l1 → l.ctx ≠ ctx) ∧ (∀ l, l ∈ t.l2 → l.ctx ≠ ctx)
          ∧ t.ctx? ctx = some { x with status := .saved } ∧ t.cmd? u = none
          ∧ t.hostEvents = s.hostEvents ++ (if c.hdr.evt then [.saved c.hdr.cookie ctx img.length] else [])
          ∧ recNat img 0 8 = 1 ∧ recNat img 8 8 = s.ident.origin.toNat ∧ (img.length < 2 ^ 64 → recNat img 16 8 = img.length)
          ∧ recNat img 32 8 = x.chk.toNat))
    ∧ (s.mgmtStart u 0x41 = some c →
      (s.imageFor c = none → ∀ q, s.queue? c.queue = some q → ∃ t, exec (.resume u) s = .next t ∧ t.cmd? u = none ∧ t.ctxs = s.ctxs
        ∧ t.queue? c.queue = some (q.error 3))
      ∧ ∀ img, s.imageFor c = some img →
        (s.restored img = none → exec (.resume u) s = .next s)
        ∧ ∀ r, s.restored img = some r → ∃ t, exec (.resume u) s = .next t ∧ { t with cmds := r.cmds, hostEvents := r.hostEvents } = r
          ∧ t.cmd? u = none ∧ t.hostEvents = r.hostEvents ++ (if c.hdr.evt then [.complete c.hdr.cookie none] else [])))
  ∧ (∀ (s : State) (img : Saved) (x : Ctx) (g : Wg) (sp : Spot), s.ctx? img.ctx = some x →
      let ctx := img.ctx
      let prio := (((img.warps.filter (fun w => w.wg == g.uid)).head?).map (fun w => s.resumePrio w)).getD g.prio
      img.groups = [] → img.wgs = [g] → g.fuse = false → g.ctx = ctx → g.gone = false →
      (∀ d r n q, d ∈ img.dispatch → (r, n) ∈ d.rptrs → s.queue? r = some q → q.rptr = n) →
      ((s.diesFor ctx prio).findSome? (fun d => s.bestSpot ctx d g.foot 0) = none → s.restored img = none)
      ∧ ((s.diesFor ctx prio).findSome? (fun d => s.bestSpot ctx d g.foot 0) = some sp → sp.slices.length = g.slices.length →
          g.slices.Nodup →
          ∃ t h ws, s.restored img = some t ∧ t.images = s.images.filter (fun i => i.ctx != ctx)
            ∧ t.wgs = s.wgs ++ [h] ∧ h.uid = g.uid ∧ h.core = sp.core ∧ h.slices = sp.slices ∧ h.locBase = sp.loc ∧ h.accBase = sp.acc
            ∧ h.tags = g.tags ∧ h.guards = g.guards ∧ h.locMem = g.locMem ∧ h.accMem = g.accMem ∧ h.runtime = g.runtime
            ∧ t.warps = s.warps ++ ws
            ∧ (∀ w k, w ∈ img.warps → w.wg = g.uid → g.slices[k]? = some w.loc.slice → w.loc.die = g.core.die →
                w.loc.core = g.core.core →
                ∃ v, v ∈ ws ∧ v.loc = ⟨sp.core.die, sp.core.core, nth sp.slices k 0, w.loc.slot⟩
                  ∧ v.prio = s.resumePrio w ∧ { v with loc := w.loc, prio := w.prio } = w)
            ∧ t.ctx? ctx = some (if img.origin = s.ident.origin then { x with status := .live } else
                { x with status := .live, interval := none, moved := img.flags % 4 != 0, chk := img.chk ||| chkLogfull,
                         settled := img.settled })
            ∧ (∀ n q, s.queue? (.user n) = some q → t.queue? (.user n) = some (
                if q.ctx = ctx ∧ q.state = .held then { q with state := q.before } else q))
            ∧ ∃ l, t.pending = s.pending ++ l ∧ l.length = img.pending.length ∧ ∀ p, p ∈ l → p.ctx = ctx ∧ p.blocked = none))
  ∧ ∀ (s : State) (ctx n : Nat) (c : Comm) (r : SavedComm), s.comm? n = some c → ∃ k, (s.restoreComm ctx (n, r)).comm? n = some k
      ∧ k.next = r.next ∧ k.keys = r.keys ∧ k.taken = r.taken ∧ k.high = r.high ∧ k.desc = c.desc
      ∧ k.entries.map (fun e => (e.key, e.slate, e.ready, e.ctx)) = r.entries.map (fun e => (e.key, e.slate, e.ready, ctx))

/-- R409, R410, R411, R412, R413, R414, R415, R416: DESTROY kills the context's threads and drops its pending work; once its engines are
quiet its units leave and every die of its partition scrubs, a unit at a time, the rows, memories, caches and, under PAGES, the frames of
the context; its record stands in memory until phase 0; at the end of the scrub the context is gone and the host is told. PARTITION takes
effect once no context remains, and is refused after 10 ms. -/
def Obligations.ContextEnd : Prop :=
  (∀ (s : State) (u : Nat) (c : Cmd) (x : Ctx), s.cmd? u = some c → s.ctx? c.ctx = some x → c.isUser = false →
    let ctx := c.ctx
    (s.mgmtStart u 0x42 = some c →
      (x.status = .destroyed → ∃ t, exec (.destroy u) s = .next t ∧ t.cmd? u = none ∧ t.ctxs = s.ctxs
        ∧ t.hostEvents = s.hostEvents ++ [.destroyed c.hdr.cookie ctx])
      ∧ (x.status ≠ .destroyed → ∃ t, exec (.destroy u) s = .next t
        ∧ (∀ w, w ∈ t.warps → w.ctx = ctx → w.alive = 0 ∧ w.records = [])
        ∧ (∀ n q, s.queue? (.user n) = some q → q.ctx = ctx → q.described = true → t.queue? (.user n) = some { q with state := .destroyed })
        ∧ (∀ n q, s.queue? (.user n) = some q → q.ctx ≠ ctx → t.queue? (.user n) = some q)
        ∧ (∀ p, p ∈ t.pending → p.ctx ≠ ctx) ∧ (∀ b, b ∈ t.bundles → b.ctx ≠ ctx) ∧ (∀ k, k ∈ t.chains → k.ctx ≠ ctx)
        ∧ (∀ k, k ∈ t.cmds → k.isUser = true → k.ctx ≠ ctx)
        ∧ (∀ k e, k ∈ t.comms → k.desc.ctx = ctx → e ∈ k.entries → e.ready = true)
        ∧ t.ctx? ctx = some { x with status := .destroying }
        ∧ ∃ k, t.cmd? u = some k ∧ k.started = true ∧ k.saved = (x.status == .saved) ∧ k.scrub = c.scrub))
    ∧ (s.mgmtStart u 0x42 = none → c.hdr.cmd = 0x42 → c.started = true →
      (c.scrub = false → s.destroyQuiet ctx = true → s.scrubbed ctx = true → ctx < 65536 → ∃ t, exec (.destroy u) s = .next t
        ∧ t.cmd? u = some { c with scrub := true } ∧ (∀ w, w ∈ t.warps → w.ctx ≠ ctx) ∧ (∀ g, g ∈ t.wgs → g.ctx ≠ ctx)
        ∧ (∀ d y, d ∈ s.diesOf ctx → y ∈ s.dies → y.no = d → (t.die d).active = true ∧ (t.die d).ctx = ctx ∧ (t.die d).done = 0
            ∧ (t.die d).phase = (if c.saved then 3 else 1) ∧ t.scrubRecord d = some (ctx, c.pages)
            ∧ ∀ g k, g ∈ s.wgs → g.ctx = ctx → g.core.die = d → k ∈ g.slices → (⟨d, g.core.core, k⟩ : SliceId) ∈ (t.die d).held)
        ∧ ∀ d, s.diesOf ctx = [d] →
            let l := if c.pages then (s.mappedFrames x).filter (fun p => framesOn d p != 0) else []
            l.length < 2 ^ 32 → (∀ f n, (f, n) ∈ l → f < 2 ^ 64 ∧ n < 2 ^ 64) → t.scrubFrames d = l)
      ∧ (c.scrub = true → s.scrubbed ctx = true → ∃ t, exec (.destroy u) s = .next t ∧ t.cmd? u = none
        ∧ t.hostEvents = s.hostEvents ++ [.destroyed c.hdr.cookie ctx]
        ∧ t.ctx? ctx = some { x with status := .destroyed, interval := none, settled := [], moved := false, chk := 0 }
        ∧ (∀ k, k ∈ t.cells → k.ctx ≠ ctx) ∧ ∀ i, i ∈ t.images → i.ctx ≠ ctx)
      ∧ ((c.scrub = true → s.scrubbed ctx = false) → (c.scrub = false → s.destroyQuiet ctx = false) → exec (.destroy u) s = .next s))
    ∧ ∀ q, s.mgmtStart u 0x43 = some c → s.queue? c.queue = some q →
      let free := (∀ k, k ∈ s.ctxs → k.status = .destroyed) ∧ ∀ d, d ∈ s.dies → d.phase = 0
      (free → ∃ t, exec (.partition u) s = .next t ∧ t.mode = recNat c.slot 8 1 ∧ t.cmd? u = none
        ∧ t.queue? c.queue = some { q with rptr := q.rptr + 1 }
        ∧ t.hostEvents = s.hostEvents ++ (if c.hdr.evt then [.complete c.hdr.cookie none] else []))
      ∧ (¬ free → exec (.partition u) s = .next s
        ∧ (s.clk < c.since + 15000000 → exec (.partitionWaitExpiry u) s = .next s)
        ∧ (c.since + 15000000 ≤ s.clk → ∃ t, exec (.partitionWaitExpiry u) s = .next t ∧ t.mode = s.mode ∧ t.cmd? u = none
            ∧ t.queue? c.queue = some { q with state := .error, err := 3 } ∧ t.hostEvents = s.hostEvents)))
  ∧ (∀ x : DieSt, bitAt x.scrubProgress 63 = x.active ∧ fieldNat x.scrubProgress 60 3 = x.phase % 8
      ∧ fieldNat x.scrubProgress 48 12 = 0 ∧ fieldNat x.scrubProgress 32 16 = x.ctx % 65536 ∧ fieldNat x.scrubProgress 0 32 = x.done % 2 ^ 32)
  ∧ ∀ (s : State) (d : Nat) (x : DieSt) (ctx : Nat) (pages : Bool), s.die d = x → x ∈ s.dies → x.boot = .up → x.phase ≠ 0 →
      s.scrubRecord d = some (ctx, pages) → x.ctx = ctx →
      let becomes := fun (t : State) (y : DieSt) => exec (.scrubPhase d) s = .next t ∧ (∀ q, q ≠ d → t.die q = s.die q) ∧ t.die d = y
      let ends := fun (t : State) (n : Nat) => becomes t { x with phase := n, done := 0 } ∧ t.mem = s.mem
      let ended := fun (t : State) => becomes t { x with active := false, phase := 0, done := 0, held := [] } ∧ t.scrubRecord d = none
      (∀ i, x.phase = 1 → x.held[x.done / 136]? = some i → ∃ t, becomes t { x with done := x.done + 136 } ∧ t.mem = s.mem
          ∧ (t.slice i).rows = [] ∧ (∀ k j, nth (nth (t.slice i).hrows k []) j 0 = 0) ∧ (∀ j, j ≠ i → t.slice j = s.slice j)
          ∧ ∀ e, e ∈ t.errors → e.onSlice i = false)
      ∧ (x.phase = 1 → x.held[x.done / 136]? = none → ∃ t, ends t 2)
      ∧ (∀ k, x.phase = 2 → x.heldCores[x.done / 768]? = some k → ∃ t, becomes t { x with done := x.done + 768 } ∧ t.mem = s.mem
          ∧ ∀ e, e ∈ t.errors ↔ e ∈ s.errors ∧ e.onCore k = false)
      ∧ (x.phase = 2 → x.heldCores[x.done / 768]? = none → ∃ t, ends t 3)
      ∧ (x.phase = 3 → ∃ t, (if pages then ends t 4 else ended t) ∧ (∀ k, k ∈ t.l1 → ¬ (k.core.die = d ∧ k.ctx = ctx))
          ∧ (∀ k, k ∈ t.l2 → ¬ (k.die = d ∧ k.ctx = ctx)) ∧ (∀ k, k ∈ t.icache → ¬ (k.core.die = d ∧ k.ctx = ctx))
          ∧ (∀ k, k ∈ t.tlb → ¬ (k.core.die = d ∧ k.ctx = ctx)) ∧ ∀ k, k ∈ t.tlb2 → ¬ (k.core.die = d ∧ k.ctx = ctx))
      ∧ (∀ f n, x.phase = 4 → runAt d (s.scrubFrames d) x.done = some (f, n) → (∀ k, k ∈ s.ctxs → k.no ≠ ctx → k.status = .destroyed) →
          ∃ t, becomes t { x with done := x.done + framesOn d (f, n) }
          ∧ ∀ a, let hit := isLocal a = true ∧ dieOfLoc a = d ∧ f ≤ a / 65536 ∧ a / 65536 < f + n
              (hit → t.byteAt a = 0) ∧ (¬ hit → t.byteAt a = s.byteAt a))
      ∧ (x.phase = 4 → runAt d (s.scrubFrames d) x.done = none → ∃ t, ended t)

/-! ### Shootdowns, migration, the dailies, comparators and monitors (11, 22, 25) -/

/-- R235, R236, R237, R238, R239, R240, R241: a shootdown drops the cached entries of its pages; a migration sets MIG, copies the dirty
blocks to the new frame, switches the entry with MIG clear, and releases the stalled writes, with the cached lines of the page, to the new
frame in order; DLYCTL starts a
controller's sketch, whose interval's end writes the hottest frames and a header, and starts the next one. -/
def Obligations.MemoryManagement : Prop :=
  (∀ (s : State) (id : Nat) (x : Shootdown), s.shootdowns.find? (fun x => x.id == id) = some x →
    ∃ t, exec (.shootdown id) s = .next t
      ∧ t = { s with tlb := t.tlb, tlb2 := t.tlb2, shootdowns := s.shootdowns.filter (fun y => y.id != id) }
      ∧ (∀ e, e ∈ t.tlb ↔ e ∈ s.tlb ∧ ¬ (e.ctx = x.ctx ∧ x.first ≤ e.page ∧ e.page < x.first + x.pages))
      ∧ ∀ e, e ∈ t.tlb2 ↔ e ∈ s.tlb2 ∧ ¬ (e.ctx = x.ctx ∧ x.first ≤ e.page ∧ e.page < x.first + x.pages))
  ∧ (∀ (s : State) (ctx frame at_ : Nat) (va e : Word), s.pageEntry ctx va = some (e, at_) → pteMig e = false → framesNamed frame 1 = true →
      frame ≠ pteFrame e → s.migrations = [] → s.ctx? noCtx = none →
      ∃ t m x, exec (.migrationStart ctx va frame) s = .next t ∧ t.migrations = [m] ∧ m.ctx = ctx ∧ m.va = va ∧ m.entryAt = at_
        ∧ m.old = pteFrame e ∧ m.new = frame ∧ m.phase = .marked ∧ m.stalled = [] ∧ (∀ i, i < 16 → bitAt m.dirty i = true)
        ∧ t.shootdowns = s.shootdowns ++ [x] ∧ x.ctx = ctx ∧ x.first = va.toNat / 65536 ∧ x.pages = 1 ∧ x.mig = some m.id
        ∧ ∀ a, t.byteAt a = if at_ ≤ a ∧ a < at_ + 8 then nth (bytesOfWord 8 (e ||| 0x2000)) (a - at_) 0 else s.byteAt a)
  ∧ (∀ (s : State) (id : Nat) (m : Migration), s.migrations = [m] → m.id = id → m.old ≠ m.new → (∀ x, x ∈ s.shootdowns → x.mig ≠ some id) →
      let copied := fun (a : Nat) => if a / 65536 = m.new ∧ bitAt m.dirty (a % 65536 / 4096) = true
        then s.byteAt (m.old * 65536 + a % 65536) else s.byteAt a
      (m.phase ≠ .switching → ∃ t, exec (.migrationCopyPass id) s = .next t
        ∧ t.migrations = [{ m with dirty := 0, phase := .copying }] ∧ (∀ a, t.byteAt a = copied a) ∧ t.shootdowns = s.shootdowns)
      ∧ (m.phase = .copying → s.ctx? noCtx = none → m.entryAt % 8 = 0 → m.entryAt < fabricBase → m.entryAt / 65536 ≠ m.old →
        m.entryAt / 65536 ≠ m.new →
        let e := wordOfBytes (s.bytesAt m.entryAt 8)
        ∃ t x e', exec (.migrationFinalPass id) s = .next t ∧ t.migrations = [{ m with dirty := 0, phase := .switching }]
          ∧ t.shootdowns = s.shootdowns ++ [x] ∧ x.ctx = m.ctx ∧ x.first = m.va.toNat / 65536 ∧ x.pages = 1 ∧ x.mig = some id
          ∧ (m.new < 2 ^ 32 → fieldNat e' 32 32 = m.new) ∧ bitAt e' 13 = false
          ∧ (∀ i, i < 32 → i ≠ 13 → bitAt e' i = bitAt e i)
          ∧ ∀ a, t.byteAt a = if m.entryAt ≤ a ∧ a < m.entryAt + 8 then nth (bytesOfWord 8 e') (a - m.entryAt) 0 else copied a)
      ∧ (∀ x a b, m.phase = .switching → m.stalled = [(x, a, b)] → a % 65536 + b.length ≤ 65536 → m.new * 65536 + 65536 ≤ fabricBase →
        (∀ k, s.ctx? x = some k → k.interval = none) →
        ∃ t, exec (.migrationRelease id) s = .next t ∧ t.migrations = []
          ∧ (∀ l, l ∈ s.l1 → { l with tile := if l.tile / 256 = m.old then m.new * 256 + l.tile % 256 else l.tile } ∈ t.l1)
          ∧ (∀ l, l ∈ t.l1 → l.tile / 256 ≠ m.old) ∧ (∀ l, l ∈ t.l2 → l.tile / 256 ≠ m.old)
          ∧ (∀ e, e ∈ t.tlb → ¬ (e.ctx = m.ctx ∧ e.page = m.va.toNat / 65536))
          ∧ (∀ y, t.byteAt y = let p := m.new * 65536 + a % 65536
              if p ≤ y ∧ y < p + b.length then nth b (y - p) 0 else s.byteAt y)
          ∧ (∀ k v, lookupKey s.exports k = some v → ∃ u, lookupKey t.exports k = some u ∧ u.part = v.part ∧ u.v = v.v ∧ u.w = v.w
              ∧ u.frame = if v.frame.toNat = m.old then BitVec.ofNat 26 m.new else v.frame)
          ∧ ∀ w, w ∈ t.warps → ∀ y, y ∈ w.waits → y.kind ≠ .stalledWrite))
  ∧ ∀ (s : State) (c : Nat), c < 72 →
      (∀ v : Word, ∃ t, exec (.dlyctl c v) s = .next t ∧ t = { s with dailies := t.dailies }
        ∧ (∀ k, k ≠ c → t.dailiesOf k = s.dailiesOf k) ∧ (t.dailiesOf c).en = bitAt v 0 ∧ (t.dailiesOf c).buf = field v 9 55
        ∧ (t.dailiesOf c).ivl.toNat = min 10 (fieldNat v 1 4)
        ∧ (bitAt v 0 = true → (t.dailiesOf c).counts = [] ∧ (t.dailiesOf c).frames = [] ∧ (t.dailiesOf c).start = s.clk
            ∧ (t.dailiesOf c).seq = 0))
      ∧ (let d := s.dailiesOf c
          let base := d.buf.toNat * 512
          d.en = true → d.start + 2 ^ (20 + d.ivl.toNat) ≤ s.clk → s.migrations = [] → s.ctx? noCtx = none → base + 320 ≤ fabricBase →
          ∃ (t : State) (l : List (Nat × Nat)), exec (.dailiesIntervalEnd c) s = .next t
            ∧ t.dailiesOf c = { d with ctl := c, counts := [], frames := [], start := d.start + 2 ^ (20 + d.ivl.toNat), seq := d.seq + 1 }
            ∧ l.length ≤ 32 ∧ (∀ f n, (f, n) ∈ l → f ∈ d.frames ∧ n = d.estimate f)
            ∧ (∀ f, f ∈ d.frames → (f, d.estimate f) ∈ l ∨ (l.length = 32 ∧ ∀ p, p ∈ l → d.estimate f ≤ p.2))
            ∧ recNat (t.bytesAt base 8) 0 4 = (d.seq + 1) % 2 ^ 32 ∧ recNat (t.bytesAt base 8) 4 1 = c
            ∧ recNat (t.bytesAt base 8) 5 3 = l.length
            ∧ ∀ i f n, l[i]? = some (f, n) → f < 2 ^ 32 → n < 2 ^ 32 → recNat (t.bytesAt (base + 64 + 8 * i) 8) 0 4 = f
                ∧ recNat (t.bytesAt (base + 64 + 8 * i) 8) 4 4 = n)

/-- R4, R21, R28, R382, R423: the debugger's registers change one comparator of a core; a sensor that reads above 100 °C steps its die's
clock down, a droop monitor counts a voltage below 92 % of the set one, and above 115 °C the module is powered down as in a reset, with a
host event; MONITOR clears; a register without a behaviour of
its own ignores a write, but RING of a management queue takes it. -/
def Obligations.DebugAndMonitors : Prop :=
  (∀ (s : State) (c : CoreId) (k : Nat) (v : Word), c.die < 6 → c.core < 48 → k < 8 →
    let x := nth (s.core c).cmps k {}
    (∃ t, exec (.bpaddr c k v) s = .next t ∧ t = { s with cores := t.cores } ∧ (∀ d, d ≠ c → t.core d = s.core d)
      ∧ nth (t.core c).cmps k {} = { x with en := bitAt v 63, addr := field v 0 56 }
      ∧ ∀ j, j ≠ k → nth (t.core c).cmps j {} = nth (s.core c).cmps j {})
    ∧ ∃ t, exec (.bpmask c k v) s = .next t ∧ t = { s with cores := t.cores } ∧ (∀ d, d ≠ c → t.core d = s.core d)
      ∧ nth (t.core c).cmps k {} = { x with ctx := field v 32 16, mask := field v 0 32 }
      ∧ ∀ j, j ≠ k → nth (t.core c).cmps j {} = nth (s.core c).cmps j {})
  ∧ (∀ (s : State) (d k : Nat) (v : BitVec 16), d < 6 → k < 56 →
      let m := s.monitor d k
      let others := fun (t : State) => ∀ e j, (e ≠ d ∨ j ≠ k) → t.monitor e j = s.monitor e j
      (∃ t, exec (.monitorClear d k) s = .next t ∧ t = { s with monitors := t.monitors } ∧ others t
        ∧ t.monitor d k = { m with die := d, k := k, events := 0, peak := 0 })
      ∧ (∃ t, exec (.thermalStep d k v) s = .next t ∧ t = { s with monitors := t.monitors, dies := t.dies } ∧ others t
        ∧ (t.monitor d k).value = v
        ∧ (t.monitor d k).peak = (if (if k < 32 then m.peak.toInt < v.toInt else m.peak.toNat < v.toNat) then v else m.peak)
        ∧ (k < 32 ∧ 1600 < v.toInt → (t.monitor d k).events = m.events + 1
            ∧ ((∃ y, y ∈ s.dies ∧ y.no = d) → t.die d = { s.die d with clkSteps := (s.die d).clkSteps + 1 }))
        ∧ (32 ≤ k ∧ k < 48 ∧ v.toNat * 100 < 92 * (s.die d).volts → (t.monitor d k).events = m.events + 1 ∧ t.dies = s.dies)
        ∧ (¬ (k < 32 ∧ 1600 < v.toInt) → ¬ (32 ≤ k ∧ k < 48 ∧ v.toNat * 100 < 92 * (s.die d).volts) →
            (t.monitor d k).events = m.events ∧ t.dies = s.dies))
      ∧ (k < 32 → 1840 < v.toInt → ∃ t, exec (.thermalShutdown d k v) s = .next t ∧ t.hostEvents = s.hostEvents ++ [.thermal d]
        ∧ t.mem = [] ∧ t.warps = [] ∧ t.wgs = [] ∧ t.queues = [] ∧ t.ctxs = [] ∧ t.l1 = [] ∧ t.tlb = [] ∧ t.icache = [] ∧ t.mode = 1
        ∧ t.clk = s.clk ∧ t.ident = s.ident ∧ ∀ e, e < 6 → (t.die e).boot = .held ∧ (t.die e).fw = (s.die e).fw)
      ∧ (¬ (k < 32 ∧ 1840 < v.toInt) → exec (.thermalShutdown d k v) s = .next s))
  ∧ ∀ (s : State) (a : Nat) (v : Word),
      (∀ p, p < 6 → a = 0x1000 + 0x40 * p → partDies s.mode p ≠ [] → ∃ t y, exec (.registerWrite a v) s = .next t
        ∧ t = { s with queues := t.queues } ∧ t.queue? (.mgmt p) = some y ∧ y = { s.q (.mgmt p) with ring := y.ring }
        ∧ ∀ i, bitAt y.ring i = (bitAt v i && decide (8 ≤ i)))
      ∧ ((∀ p, p < 6 → a = 0x1000 + 0x40 * p → partDies s.mode p = []) → exec (.registerWrite a v) s = .next s)

/-! ### The host, firmware, boot and attestation (03, 20, 22, 23, 25) -/

/-- R23, R225, R235, R341, R357, R383, R401, R402: a write of the host lands at home and its read changes no byte; the firmware writes
context, communicator and export entries, invalidates code, asks for shootdowns and reads CHK; an uncorrectable error poisons a block. -/
def Obligations.HostAndFirmware : Prop :=
  ∀ s : State,
    (∀ (a : Nat) (b : List Byte), s.migrations = [] → s.ctx? noCtx = none → a % 65536 + b.length ≤ 65536 → frameExists (a / 65536) = true →
      a + b.length ≤ fabricBase →
      ∃ t, exec (.hostMemoryAccess a (some b) b.length) s = .next t ∧ t = { s with mem := t.mem, dailies := t.dailies, poison := t.poison }
        ∧ ∀ x, t.byteAt x = if a ≤ x ∧ x < a + b.length then nth b (x - a) 0 else s.byteAt x)
    ∧ (∀ a n : Nat, ∃ t, exec (.hostMemoryAccess a none n) s = .next t ∧ t = { s with dailies := t.dailies })
    ∧ (∀ (fn n : Nat) (d : CtxDesc),
        let mine := n < 4096 ∧ fnOf d = fn ∧ ∀ x, s.ctx? n = some x → x.status ≠ .destroyed → fnOf x.desc = fn
        (¬ mine → exec (.managementFirmwareRequest (.writeContext fn n d)) s = .next s)
        ∧ (mine → ∃ t y, exec (.managementFirmwareRequest (.writeContext fn n d)) s = .next t
          ∧ t = { s with ctxs := t.ctxs } ∧ t.ctx? n = some y ∧ y.desc = d ∧ (∀ m, m ≠ n → t.ctx? m = s.ctx? m)
          ∧ (∀ x, s.ctx? n = some x → x.status ≠ .destroyed → y = { x with desc := d })
          ∧ ((s.ctx? n = none ∨ ∃ x, s.ctx? n = some x ∧ x.status = .destroyed) → y = { no := n, desc := d })))
    ∧ (∀ (n : Nat) (d : CommDesc), n < 4096 → ∃ t y, exec (.managementFirmwareRequest (.writeCommunicator n d)) s = .next t
        ∧ t.comm? n = some y ∧ y.desc = d ∧ (∀ m, m ≠ n → t.comm? m = s.comm? m) ∧ t.ctxs = s.ctxs ∧ t.warps = s.warps
        ∧ (∀ c, s.comm? n = some c → c.began = true ∨ d.en = false → y.gen = c.gen ∧ y.next = c.next ∧ y.entries = c.entries ∧ y.keys = c.keys
            ∧ y.seq.next = c.seq.next ∧ y.seq.assigns = c.seq.assigns ∧ (d.primary = c.desc.primary → y.server = c.server)
            ∧ (d.primary ≠ c.desc.primary → y.server = d.primary ∧ y.seq.serving = (d.primary == s.ident.moduleNum)))
        ∧ ((s.comm? n = none ∨ ∃ c, s.comm? n = some c ∧ c.began = false ∧ d.en = true) → y.gen = 0 ∧ y.server = d.primary ∧ y.next = none
            ∧ y.entries = [] ∧ y.keys = [] ∧ y.seq.next = 0 ∧ y.seq.gen = 1 ∧ (y.seq.serving = true ↔ d.en = true ∧ d.primary = s.ident.moduleNum)))
    ∧ (∀ fn, (∃ t, exec (.managementFirmwareRequest (.enableAts fn true)) s = .next t ∧ t = { s with atsOn := t.atsOn }
          ∧ ∀ g, g ∈ t.atsOn ↔ g = fn ∨ g ∈ s.atsOn)
        ∧ ∃ t, exec (.managementFirmwareRequest (.enableAts fn false)) s = .next t ∧ t = { s with atsOn := t.atsOn, atc := t.atc }
          ∧ (∀ g, g ∈ t.atsOn ↔ g ≠ fn ∧ g ∈ s.atsOn) ∧ ∀ k, k ∈ t.atc ↔ k.1 ≠ fn ∧ k ∈ s.atc)
    ∧ (∀ (m : Nat) (e : BitVec 22) (x : ExportEntry), ∃ t, exec (.managementFirmwareRequest (.remoteExport m e x)) s = .next t
        ∧ t = { s with remote := t.remote } ∧ lookupKey t.remote (m, e.toNat) = (if x.v then some (x.w, x.part) else none)
        ∧ ∀ k, k ≠ (m, e.toNat) → lookupKey t.remote k = lookupKey s.remote k)
    ∧ (∀ (e : BitVec 22) (x : ExportEntry), ∃ t, exec (.managementFirmwareRequest (.writeExport e x)) s = .next t
        ∧ t = { s with exports := t.exports } ∧ lookupKey t.exports e = some x ∧ ∀ k, k ≠ e → lookupKey t.exports k = lookupKey s.exports k)
    ∧ (∀ ctx c, s.ctx? ctx = some c → ∃ t, exec (.managementFirmwareRequest (.readChk ctx)) s = .next t
        ∧ t = { s with hostEvents := s.hostEvents ++ [.chk ctx c.chk] })
    ∧ (∀ q x, s.queue? (.user q) = some x → x.state = .destroyed → ∃ t, exec (.managementFirmwareRequest (.reuseQueue q)) s = .next t
        ∧ t = { s with queues := t.queues } ∧ t.queue? (.user q) = some { x with state := .disabled, en := false })
    ∧ (∀ ctx va len, ∃ t x, exec (.managementFirmwareRequest (.requestShootdown ctx va len)) s = .next t
        ∧ t = { s with shootdowns := s.shootdowns ++ [x], nextUid := t.nextUid } ∧ x.ctx = ctx ∧ x.mig = none
        ∧ ∀ p, (va.toNat ≤ p * 65536 + 65535 ∧ p * 65536 < va.toNat + len.toNat) → x.first ≤ p ∧ p < x.first + x.pages)
    ∧ (∀ ctx, s.migrations = [] → ∃ t, exec (.managementFirmwareRequest (.invalidateCode ctx)) s = .next t
        ∧ t.icache = s.icache.filter (fun l => l.ctx != ctx) ∧ (∀ l, l ∈ t.l1 → l.ctx = ctx → l.dirty = []) ∧ t.warps = s.warps)
    ∧ (∀ a, a < fabricBase → frameExists (a / 65536) = true → ∃ t, exec (.uncorrectableError (.memory a)) s = .next t
        ∧ t = { s with poison := t.poison } ∧ ∀ b, b ∈ t.poison ↔ b ∈ s.poison ∨ b = a / 64)
    ∧ ∀ e : ErrPlace, (∀ a, e ≠ .memory a) → ∃ t, exec (.uncorrectableError e) s = .next t ∧ t = { s with errors := t.errors }
        ∧ ∀ x, x ∈ t.errors ↔ x ∈ s.errors ∨ x = e

/-- R414, R417, R418, R420, R421, R422, R423: an ATS invalidation drops the translations of its range and completes when the reads that may
have used one have returned; a TDISP interface is locked by its first requester, stopped, and moves to ERROR with its contexts destroyed (its
start message is the model's code of log 20); a die boots when its own firmware passes, scrubs in three phases, a unit at a time, and its
ports come up one by one every 50 µs, and it stays absent otherwise; a reset of the module keeps DRAM; a signature over every die's firmware
uses an index only once. -/
def Obligations.Platform : Prop :=
  ∀ s : State,
    (∀ id first pages,
      ((∀ x, x ∈ s.ats → x.id ≠ id) → ∃ t x, exec (.atsInvalidation id first pages) s = .next t
        ∧ t = { s with ats := s.ats ++ [x], atc := t.atc } ∧ x.id = id ∧ x.first = first ∧ x.pages = pages
        ∧ (∀ w f c k, w ∈ s.warps → f ∈ w.inflight → f.load = true → f.writes ≠ [] → s.ctx? w.ctx = some c → (fnOf c.desc, k) ∈ s.atc →
            first ≤ k → k < first + pages → f.id ∈ x.waits)
        ∧ ∀ k, k ∈ t.atc ↔ k ∈ s.atc ∧ ¬ (first ≤ k.2 ∧ k.2 < first + pages))
      ∧ (∀ x, s.ats.find? (fun x => x.id == id) = some x → (∃ k, k ∈ x.waits ∧ s.readFlies k = true) →
          exec (.atsInvalidation id first pages) s = .next s)
      ∧ (∀ x, s.ats.find? (fun x => x.id == id) = some x → (∀ k, k ∈ x.waits → s.readFlies k = false) →
          ∃ t, exec (.atsInvalidation id first pages) s = .next t
          ∧ t = { s with ats := s.ats.filter (fun x => x.id != id), hostEvents := s.hostEvents ++ [.atsDone id] }))
    ∧ (∀ fn who, let x := s.interface fn
        let becomes := fun (i : Instr) (st : TdispState) (by_ : Option Nat) => ∃ t, exec i s = .next t ∧ t = { s with tdisp := t.tdisp }
          ∧ t.interface fn = { fn := fn, st := st, by_ := by_ } ∧ ∀ g, g ≠ fn → t.interface g = s.interface g
        (x.st = .unlocked → becomes (.lockInterface fn who) .locked (some who))
        ∧ (x.st ≠ .unlocked → ∃ t, exec (.lockInterface fn who) s = .next t
            ∧ t = { s with hostEvents := s.hostEvents ++ [.tdispRefused fn who] })
        ∧ becomes (.stopInterface fn) .unlocked none
        ∧ (∀ code, code = startInterface ∧ x.st = .locked → becomes (.tdispMessage fn code) .run x.by_)
        ∧ (∀ code, code ≠ startInterface ∨ x.st ≠ .locked → exec (.tdispMessage fn code) s = .next s)
        ∧ (x.st = .unlocked ∨ x.st = .error → exec (.tdispError fn) s = .next s)
        ∧ (x.st = .locked ∨ x.st = .run → ∃ t l, exec (.tdispError fn) s = .next t ∧ (t.interface fn).st = .error
            ∧ t.hostEvents = s.hostEvents ++ [.tdispError fn] ∧ t.cmds = s.cmds ++ l
            ∧ ∀ c, c ∈ s.ctxs → fnOf c.desc = fn → c.status ≠ .destroyed → c.status ≠ .destroying →
                ∃ k, k ∈ l ∧ k.ctx = c.no ∧ k.hdr.cmd = 0x42 ∧ k.started = false ∧ k.queue = .mgmt c.desc.ownerPart))
    ∧ (∀ d, d < 6 → (∃ y, y ∈ s.dies ∧ y.no = d) → let x := s.die d
        let others := fun (t : State) => ∀ q, q ≠ d → t.die q = s.die q
        let good := x.fw.signed = true ∧ x.fw.keyHash = x.fw.fuseHash ∧ x.fw.rollback ≤ x.fw.version
        (x.boot = .held → good → ∃ t, exec (.reset d) s = .next t ∧ others t
          ∧ t.die d = { x with boot := .scrub, active := true, phase := 1, ctx := 0xFFFF, done := 0 } ∧ t = { s with dies := t.dies })
        ∧ (x.boot = .held → ¬ good → ∃ t, exec (.reset d) s = .next t
          ∧ others t ∧ t.die d = { x with boot := .absent } ∧ t = { s with dies := t.dies })
        ∧ (x.boot ≠ .held → ∃ t, exec (.reset d) s = .next t ∧ t.mem = s.mem ∧ t.poison = s.poison ∧ t.warps = [] ∧ t.wgs = [] ∧ t.queues = []
          ∧ t.ctxs = [] ∧ t.l1 = [] ∧ t.l2 = [] ∧ t.tlb = [] ∧ t.icache = [] ∧ t.mode = 1 ∧ t.clk = s.clk ∧ t.ident = s.ident
          ∧ ∀ e, e < 6 → (t.die e).boot = .held ∧ (t.die e).fw = (s.die e).fw)
        ∧ (∀ k, x.boot = .scrub → x.phase = 1 → (coresOf d)[x.done / 4352]? = some k → ∃ t, exec (.resetScrub d) s = .next t ∧ others t
          ∧ t.die d = { x with done := x.done + 4352 } ∧ t.mem = s.mem
          ∧ ∀ i, i < 32 → (t.slice ⟨k.die, k.core, i⟩).rows = [] ∧ ∀ n j, nth (nth (t.slice ⟨k.die, k.core, i⟩).hrows n []) j 0 = 0)
        ∧ (∀ k, x.boot = .scrub → x.phase = 2 → (coresOf d)[x.done / 768]? = some k → ∃ t, exec (.resetScrub d) s = .next t ∧ others t
          ∧ t.die d = { x with done := x.done + 768 } ∧ t.mem = s.mem ∧ ∀ e, e ∈ t.errors ↔ e ∈ s.errors ∧ e.onCore k = false)
        ∧ (x.boot = .scrub → (x.phase = 1 ∧ (coresOf d)[x.done / 4352]? = none) ∨ (x.phase = 2 ∧ (coresOf d)[x.done / 768]? = none) →
          ∃ t, exec (.resetScrub d) s = .next t ∧ others t ∧ t.die d = { x with phase := x.phase + 1, done := 0 } ∧ t.mem = s.mem)
        ∧ (x.boot = .scrub → x.phase = 3 → ∃ t, exec (.resetScrub d) s = .next t ∧ others t ∧ (t.die d).boot = .up ∧ (t.die d).beat = s.clk
          ∧ t.mem = s.mem ∧ t.links = s.links ∧ (t.die d).ports = 0 ∧ (t.die d).rising = some (s.clk + 75000)
          ∧ (s.scrubRecord d = none → (t.die d).phase = 0 ∧ (t.die d).active = false)
          ∧ (∀ ctx pages, s.scrubRecord d = some (ctx, pages) → (t.die d).phase = 1 ∧ (t.die d).active = true ∧ (t.die d).ctx = ctx
              ∧ (t.die d).done = 0 ∧ ∀ k, k ∈ coresOf d → ∀ i, i < 32 → (⟨k.die, k.core, i⟩ : SliceId) ∈ (t.die d).held)
          ∧ (∀ k, k ∈ t.l1 → k.core.die ≠ d) ∧ (∀ k, k ∈ t.l2 → k.die ≠ d) ∧ (∀ k, k ∈ t.icache → k.core.die ≠ d)
          ∧ (∀ k, k ∈ t.tlb → k.core.die ≠ d) ∧ ∀ k, k ∈ t.tlb2 → k.core.die ≠ d)
        ∧ (∀ at_, x.rising = some at_ →
          (s.clk < at_ → s.raisePort d = s)
          ∧ (at_ ≤ s.clk → x.ports < 8 → let t := s.raisePort d
              others t ∧ t.die d = { x with ports := x.ports + 1, rising := some (s.clk + 75000) }
              ∧ (∀ l, l ∈ t.links ↔ l = { port := 8 * d + x.ports, up := true } ∨ (l ∈ s.links ∧ l.port ≠ 8 * d + x.ports)))
          ∧ (at_ ≤ s.clk → 8 ≤ x.ports → let t := s.raisePort d
              others t ∧ t.links = s.links ∧ t.die d = { x with rising := none, eth := true, pcie := d == 0 || d == 3 })))
    ∧ (s.spdm.next < 2 ^ 20 → ∃ t, exec .spdmSign s = .next t ∧ t = { s with spdm := t.spdm } ∧ t.spdm.next = s.spdm.next + 1
        ∧ t.spdm.signed = s.spdm.signed ++ [{ index := s.spdm.next, measures := s.dies.map (·.fw) }]
        ∧ (s.spdm.next < s.spdm.limit → t.spdm.limit = s.spdm.limit) ∧ (s.spdm.limit ≤ s.spdm.next → t.spdm.limit = s.spdm.next + 64)
        ∧ ((∀ i, i ∈ s.spdm.signed → i.index < s.spdm.next) → ∀ i, i ∈ t.spdm.signed → i.index < t.spdm.next))
    ∧ (2 ^ 20 ≤ s.spdm.next → ∃ t, exec .spdmSign s = .next t ∧ t = { s with hostEvents := s.hostEvents ++ [.spdmRefused] })

/-! ### The step, the encoding, numbers and the invariants -/

/-- R59, R66, R75, R93, R98: when the turn is a warp's, and the run that it offers stands at a slot of a line that the core holds and passes
the checks of its arrival, a step is the execution of the slot's instruction in the state in which that run is selected, with what R355 and
R401 say of an undelivered request and of an error in what it reads, and one clk; a slot
that is no legal instruction parks every thread of the run with ILLEGAL_OP. -/
def Obligations.StepRunsTheDecodedInstruction : Prop :=
  ∀ (s : State) (l : Loc) (rest : List Turn) (w : Warp) (r : RunRef) (k : ILine),
    (s.agenda = .warp l :: rest ∨ (s.agenda = [] ∧ rest = [] ∧ s.nextEvent = none ∧ s.nextWarp = some l)) →
    s.warp? l = some w → s.offered w = some r →
    s.icLine (coreOfLoc l) w.ctx (r.pc.toNat / 64 * 64) = some k → isSlotAddr r.pc.toNat = true → r.pc.toNat < 2 ^ 56 →
    parFails k.bytes = 0 → lineWord k.bytes / 4096 = 0 →
    let bits := lineSlot k.bytes (r.pc.toNat % 64 / 12)
    let m := s.runOf r
    let isHdr := fieldNat bits 0 8 = 1
    (s.arriving r m false ≠ 0 → lineTgt k.bytes (r.pc.toNat % 64 / 12) = true ∧ isHdr) → s.breaks r w m = [] →
    (s.overrun r w m ≠ 0 → isHdr) →
    ∃ s₂ : State,
      s₂.cur = { loc := l, handler := r.handler, pc := r.pc, bits := bits } ∧ s₂.agenda = rest
      ∧ { s₂ with cur := s.cur, agenda := s.agenda, last := s.last, warps := s.warps, slices := s.slices } = s
      ∧ (∀ q, q ≠ l → s₂.warp? q = (s.warp? q).map (fun v => if sliceOfLoc q = sliceOfLoc l then { v with yieldTo := false } else v))
      ∧ (∀ i, i ≠ sliceOfLoc l → s₂.slice i = s.slice i)
      ∧ (∃ v, s₂.warp? l = some v
          ∧ { v with threads := [], fair := 0, fairPick := none, readyAt := none, yieldTo := false }
              = { w with threads := [], fair := 0, fairPick := none, readyAt := none, yieldTo := false }
          ∧ ∀ th, th < 32 → v.thread th = if r.handler = false ∧ bitAt m th = true
              then { w.thread th with arriving := false, xfer := false, arrived := true } else w.thread th)
      ∧ { s₂.slice (sliceOfLoc l) with lastIssued := 0, handler := none } = { s.slice (sliceOfLoc l) with lastIssued := 0, handler := none }
      ∧ s₂.hrun? l = (s.hrun? l).map (fun h => if r.handler then { h with arriving := false, arrived := true } else h)
      ∧ (∀ i, decodeSlot bits = .ok i → step s = mapNext (fun t =>
          ((s₂.noteErrors (s₂.runStep t) ((s₂.slotReads i).map (fun p => (w.ctx, p)))).countSplit r m).tick) (exec i s₂))
      ∧ ∀ e, decodeSlot bits = .error e → r.handler = false →
          ∃ t, s₂.Parks t m 0x01 r.pc 0 0 ∧ step s = .next ((t.countSplit r m).tick)

/-- R59, R60, R76 to R90, R94: every well-formed instruction of a slot decodes from its encoding to itself, and every word that decodes is
the encoding of its instruction: no bit of a slot is dropped. -/
def Obligations.EncodingRoundTrip : Prop :=
  (∀ i : Instr, i.body.isSome = true → i.wf = true → ∃ w, encode i = some w ∧ decodeSlot w = .ok i)
  ∧ ∀ (w : Slot) (i : Instr), decodeSlot w = .ok i → i.body.isSome = true ∧ i.wf = true ∧ encode i = some w

/-- Words that the spec writes out decode to the instructions that it gives beside them. -/
def Obligations.WordsOfTheSpec : Prop :=
  let a : FmtA := { guard := .always, cf := .none, ru := false, dst := .name 0, sa := .name 0, sb := .name 0, sc := .name 0, ty := .i8x8,
                    fn := 0, rm := .rn, nf := false, imm := 0 }
  let e : FmtE := { guard := .always, cf := .none, ru := false, tag := none, slot := none, queue := .mq, sa := .uni 0, sb := .uni 0,
                    sc := .uni 0, sub := 0, imm := 0 }
  decodeTableWord 96 0x000000000000000000000F09 = some (.yield a)
  ∧ decodeTableWord 96 0x000000000000000301100101 = some (.hdr { wait := 1, fa := some 1, fb := none, yh := false, live := 3 })
  ∧ decodeTableWord 96 0x000000000300000007070F0C = some (.vote { a with dst := .uni 7, sa := .name 3, fn := 3 })
  ∧ decodeTableWord 96 0x123456780170000002010F47
      = some (.movi { a with dst := .name 1, sa := .name 1, ty := .n64, fn := 1, imm := 0x12345678 })
  ∧ decodeTableWord 96 0x00000008294FF80002050F80
      = some (.ld { guard := .always, cf := .none, ru := false, dst := .name 5, base := .name 1, data := .name 0, index := .imm, ty := .i32,
                    ord := .acq, scope := .die, st := false, offset := 8 })
  ∧ decodeTableWord 96 0x0000000000050004104300A0
      = some (.cpya { e with guard := .pred 0 false, tag := some 3, queue := .cq 0, sa := .uni 4, sc := .uni 5 })
  ∧ decodeTableWord 96 0x00000007090CFFFF50460FD8
      = some (.coll { e with tag := some 6, queue := .xq, sa := .imm, sb := .imm, sc := .uni 12, sub := 9, imm := 7 })

/-- R158, Table 5.7, R174, R344: a finite sum, product or fused product and sum is the exact value rounded once: the greatest number not
above it under rd, the least not below it under ru, the nearest to it toward zero under rz, a nearest one under rn and rna; NX says whether
the result is inexact. A reduction combines the ranks' elements along a fixed tree: an integer sum is the sum modulo 2^32, and the FP32 sum
of four ranks adds two sums of neighbours. -/
def Obligations.Rounding : Prop :=
  (∀ (F : FFmt) (rm : Rm) (a b c : Nat), F ∈ [fp64, fp32, fp16, bf16] →
    let finite := fun (x : Nat) => ∃ n g e, F.decode x = .fin n g e
    let val : Nat → Int := fun x => match F.decode x with
      | .fin n g e => (if n then -(g : Int) else g) * 2 ^ (e + 1100).toNat
      | _ => 0
    let rounds := fun (r : FRes) (v : Int) (scale : Int) =>
      let p := fun (x : Nat) => val x * scale
      finite r.bits →
        (rm = .rd → p r.bits ≤ v ∧ ∀ x, finite x → p x ≤ v → p x ≤ p r.bits)
        ∧ (rm = .ru → v ≤ p r.bits ∧ ∀ x, finite x → v ≤ p x → p r.bits ≤ p x)
        ∧ (rm = .rz → 0 ≤ v * p r.bits ∧ (p r.bits).natAbs ≤ v.natAbs
            ∧ ∀ x, finite x → (p x).natAbs ≤ v.natAbs → (p x).natAbs ≤ (p r.bits).natAbs)
        ∧ (rm = .rn ∨ rm = .rna → ∀ x, finite x → (p r.bits - v).natAbs ≤ (p x - v).natAbs)
        ∧ (r.flags.getLsbD 0 = true ↔ p r.bits ≠ v)
    finite a → finite b → rounds (F.add rm a b) (val a + val b) 1 ∧ rounds (F.mul rm a b) (val a * val b) (2 ^ 1100)
      ∧ (finite c → rounds (F.fma rm a b c) (val a * val b + val c * 2 ^ 1100) (2 ^ 1100)))
  ∧ (∀ (srcs : List (List Byte)) (i : Nat), srcs ≠ [] → srcs.length ≤ 1024 → (∀ b, b ∈ srcs → b.length = 256) → i < 64 →
    recNat (reduceBytes 11 0 srcs) (4 * i) 4 = (srcs.foldl (fun x b => x + recNat b (4 * i) 4) 0) % 2 ^ 32)
  ∧ (∀ (a b c d : List Byte) (i : Nat), a.length = 256 → b.length = 256 → c.length = 256 → d.length = 256 → i < 64 →
    let x := fun (l : List Byte) => recNat l (4 * i) 4
    recNat (reduceBytes 1 0 [a, b, c, d]) (4 * i) 4
      = (fp32.add .rn (fp32.add .rn (x a) (x b)).bits (fp32.add .rn (x c) (x d)).bits).bits % 2 ^ 32)

/-- R101, R104: after every step, a warp that has 9 or more distinct PCs is in serial mode and one that has 6 or fewer is not, and a warp is
timed as ready exactly when it offers a run. -/
def Obligations.SerialModeAndReadiness : Prop :=
  ∀ s t : State, step s = .next t → ∀ w, w ∈ t.warps →
    (9 ≤ w.allPcs.length → w.serial = true) ∧ (w.allPcs.length ≤ 6 → w.serial = false)
    ∧ (w.readyAt.isSome = true ↔ t.warpReady w = true)

/-- Log 5: the memory keeps its canonical form in every step: addresses strictly rising, no entry that an unlisted byte reads as. -/
def Obligations.MemoryStaysCanonical : Prop :=
   ∀ s t : State, s.memWf → step s = .next t → t.memWf

/-- R4, R20, R28, R235, R237, R382, R414, R415, R421, R422, R423: after reset every queue is DISABLED with both indices 0, no comparator is
enabled, no sketch samples, the monitors and the one-time index are 0, the module is one partition, its dies wait for their boot, and no
core is active; memory is canonical (every byte reads as the model's 0 of log 5) and nothing runs. -/
def Obligations.ResetState : Prop :=
  State.reset.memWf ∧ (∀ a, State.reset.byteAt a = 0) ∧ State.reset.mode = 1 ∧ State.reset.warps = [] ∧ State.reset.wgs = []
  ∧ State.reset.pending = [] ∧ State.reset.cmds = [] ∧ State.reset.tlb = [] ∧ State.reset.l1 = [] ∧ State.reset.icache = []
  ∧ (∀ r, (State.reset.q r).state = .disabled ∧ (State.reset.q r).en = false ∧ (State.reset.q r).wptr = 0 ∧ (State.reset.q r).rptr = 0
      ∧ (State.reset.q r).err = 0)
  ∧ (∀ c, (State.reset.core c).active = false ∧ ∀ k, (nth (State.reset.core c).cmps k {}).en = false)
  ∧ (∀ c, (State.reset.dailiesOf c).en = false ∧ (State.reset.dailiesOf c).counts = [] ∧ (State.reset.dailiesOf c).seq = 0)
  ∧ (∀ d k, (State.reset.monitor d k).events = 0 ∧ (State.reset.monitor d k).peak = 0)
  ∧ (∀ d, d < 6 → (State.reset.die d).boot = .held ∧ (State.reset.die d).clkSteps = 0 ∧ (State.reset.die d).adopter = none
      ∧ (State.reset.die d).active = true ∧ (State.reset.die d).phase = 1 ∧ (State.reset.die d).done = 0 ∧ State.reset.scrubRecord d = none)
  ∧ State.reset.spdm.next = 0 ∧ State.reset.spdm.signed = []
end

