-- ==== Sys2Proof/Laws/Lists.lean ====
section
/-!
SUPPORT. Lemmas about the helpers of Machine/Bits.lean: register banks, masks and lists, packed bits.
-/
namespace Sys2Proof.Laws
open Sys2Proof

/-! ### Register banks -/

theorem nth_nil (i : Nat) (d : α) : nth ([] : List α) i d = d := by simp [nth]

theorem nth_cons_zero (a : α) (l : List α) (d : α) : nth (a :: l) 0 d = a := by simp [nth]

theorem nth_cons_succ (a : α) (l : List α) (i : Nat) (d : α) : nth (a :: l) (i + 1) d = nth l i d := by simp [nth]

/-- A bank read after a write. -/
theorem nth_putNth (d : α) (l : List α) (i j : Nat) (b : α) :
    nth (putNth d l i b) j d = if j = i then b else nth l j d := by
  induction i generalizing l j with
  | zero =>
    cases l <;> cases j <;> simp [putNth, nth_nil, nth_cons_zero, nth_cons_succ]
  | succ i ih =>
    cases l <;> cases j <;> simp [putNth, nth_nil, nth_cons_zero, nth_cons_succ, ih]

/-- The register that was written. -/
@[simp] theorem nth_putNth_self (d : α) (l : List α) (i : Nat) (b : α) : nth (putNth d l i b) i d = b := by
  simp [nth_putNth]

/-- Any other register. -/
theorem nth_putNth_ne (d : α) (l : List α) {i j : Nat} (b : α) (h : j ≠ i) : nth (putNth d l i b) j d = nth l j d := by
  simp [nth_putNth, h]

/-- A bank read after a change of one register. -/
theorem nth_tweakNth (d : α) (l : List α) (i j : Nat) (g : α → α) :
    nth (tweakNth d l i g) j d = if j = i then g (nth l i d) else nth l j d := by
  simp [tweakNth, nth_putNth]

/-! ### Masks -/

theorem mem_maskList {m : Mask} {t : Nat} : t ∈ maskList m ↔ bitAt m t = true := by
  simp only [maskList, List.mem_filter, List.mem_range, bitAt, and_iff_right_iff_imp]
  exact fun h => BitVec.lt_of_getLsbD h

theorem maskList_lt {m : Mask} {t : Nat} (h : t ∈ maskList m) : t < 32 := by
  simp only [maskList, List.mem_filter, List.mem_range] at h; exact h.1

theorem bitAt_lt {m : Mask} {t : Nat} (h : bitAt m t = true) : t < 32 := maskList_lt (mem_maskList.2 h)

theorem bitAt_oneBit (t u : Nat) : bitAt (BitVec.ofNat 32 (2 ^ t)) u = decide (u = t ∧ u < 32) := by
  simp only [bitAt, BitVec.getLsbD_ofNat, Nat.testBit_two_pow]
  by_cases h : u < 32 <;> by_cases h2 : u = t <;> simp [h, h2, eq_comm] <;> omega

theorem bitAt_foldl_or (l : List Nat) (m : Mask) (u : Nat) :
    bitAt (l.foldl (fun m t => m ||| BitVec.ofNat 32 (2 ^ t)) m) u = (bitAt m u || decide (u < 32 ∧ u ∈ l)) := by
  induction l generalizing m with
  | nil => simp
  | cons a l ih =>
    simp only [List.foldl_cons, ih, List.mem_cons]
    have : bitAt (m ||| BitVec.ofNat 32 (2 ^ a)) u = (bitAt m u || bitAt (BitVec.ofNat 32 (2 ^ a)) u) := by
      simp [bitAt, BitVec.getLsbD_or]
    rw [this, bitAt_oneBit]
    cases bitAt m u <;> by_cases h1 : u < 32 <;> by_cases h2 : u = a <;> by_cases h3 : u ∈ l <;> simp [h1, h2, h3] <;> omega

/-- A thread is in the mask of a list. -/
theorem bitAt_listMask (l : List Nat) (u : Nat) : bitAt (listMask l) u = decide (u < 32 ∧ u ∈ l) := by
  rw [listMask, bitAt_foldl_or]; simp [bitAt]

/-- A thread is in the mask of a test. -/
theorem bitAt_maskOf (p : Nat → Bool) (u : Nat) : bitAt (maskOf p) u = (decide (u < 32) && p u) := by
  rw [maskOf, bitAt_listMask]
  by_cases h : u < 32 <;> by_cases h2 : p u = true <;> simp [h, h2, List.mem_filter]

theorem mask_ext {m k : Mask} (h : ∀ t, t < 32 → bitAt m t = bitAt k t) : m = k :=
  BitVec.eq_of_getLsbD_eq (fun i hi => h i hi)

theorem listMask_maskList (m : Mask) : listMask (maskList m) = m := by
  apply mask_ext
  intro t ht
  rw [bitAt_listMask]
  by_cases h : bitAt m t = true
  · simp [h, ht, mem_maskList]
  · simp [h, mem_maskList]

@[simp] theorem listMask_nil : listMask [] = 0 := rfl

@[simp] theorem bitAt_zero (t : Nat) : bitAt (0 : Mask) t = false := by simp [bitAt]

theorem bitAt_and (a b : Mask) (t : Nat) : bitAt (a &&& b) t = (bitAt a t && bitAt b t) := by simp [bitAt]

theorem bitAt_or (a b : Mask) (t : Nat) : bitAt (a ||| b) t = (bitAt a t || bitAt b t) := by simp [bitAt]

theorem bitAt_not (a : Mask) {t : Nat} (h : t < 32) : bitAt (~~~a) t = !bitAt a t := by simp [bitAt, h]

/-- A mask is not empty exactly when a thread is in it. -/
theorem mask_ne_zero {m : Mask} : m ≠ 0 ↔ ∃ t, bitAt m t = true := by
  constructor
  · intro h
    apply Classical.byContradiction
    intro hn
    apply h
    apply mask_ext
    intro t _
    rw [bitAt_zero]
    cases hb : bitAt m t
    · rfl
    · exact absurd ⟨t, hb⟩ hn
  · rintro ⟨t, ht⟩ h
    rw [h, bitAt_zero] at ht
    exact absurd ht (by decide)

theorem maskList_ne_nil {m : Mask} (h : m ≠ 0) : maskList m ≠ [] := by
  obtain ⟨t, ht⟩ := mask_ne_zero.1 h
  exact List.ne_nil_of_mem (mem_maskList.2 ht)

/-- The threads of a mask are listed once each. -/
theorem maskList_nodup (m : Mask) : (maskList m).Nodup := List.Nodup.sublist List.filter_sublist List.nodup_range

/-! ### Finding and updating -/

/-- The entry of a key after a change of the entries of one key. -/
theorem find?_map_upd (l : List α) (key : α → κ) [DecidableEq κ] (k k' : κ) (g : α → α)
    (hg : ∀ a, key a = k → key (g a) = k) :
    (l.map (fun a => if key a == k then g a else a)).find? (fun a => key a == k')
      = if k' = k then (l.find? (fun a => key a == k')).map g else l.find? (fun a => key a == k') := by
  induction l with
  | nil => simp
  | cons a l ih =>
    rw [List.map_cons, List.find?_cons, List.find?_cons]
    by_cases h : key a = k
    · have h2 := hg a h
      rw [if_pos (by simpa using h), h, h2]
      by_cases hk : k' = k
      · subst hk
        simp
      · have hne : (k == k') = false := by simpa using fun e => hk e.symm
        rw [hne]
        exact ih
    · rw [if_neg (by simpa using h)]
      by_cases hk : k' = k
      · subst hk
        have hne : (key a == k') = false := by simpa using h
        rw [hne]
        exact ih
      · cases key a == k'
        · exact ih
        · rw [if_neg hk]

/-! ### Packed words -/

theorem fieldNat_lt (w : BitVec m) (lo n : Nat) : fieldNat w lo n < 2 ^ n := Nat.mod_lt _ (Nat.two_pow_pos n)

end Sys2Proof.Laws
end

