-- ==== Sys2Proof/Laws/State.lean ====
section
/-!
SUPPORT. What each update of the state leaves alone: one lemma for each field and update.
-/
namespace Sys2Proof.Laws
open Sys2Proof Sys2Proof.Machine

/-! `updWarp` writes `warps`. -/

@[simp] theorem updWarp_clk (s : State) (l : Loc) (g : Warp → Warp) : (s.updWarp l g).clk = s.clk := rfl
@[simp] theorem updWarp_agenda (s : State) (l : Loc) (g : Warp → Warp) : (s.updWarp l g).agenda = s.agenda := rfl
@[simp] theorem updWarp_cur (s : State) (l : Loc) (g : Warp → Warp) : (s.updWarp l g).cur = s.cur := rfl
@[simp] theorem updWarp_free (s : State) (l : Loc) (g : Warp → Warp) : (s.updWarp l g).free = s.free := rfl
@[simp] theorem updWarp_nextUid (s : State) (l : Loc) (g : Warp → Warp) : (s.updWarp l g).nextUid = s.nextUid := rfl
@[simp] theorem updWarp_last (s : State) (l : Loc) (g : Warp → Warp) : (s.updWarp l g).last = s.last := rfl
@[simp] theorem updWarp_ident (s : State) (l : Loc) (g : Warp → Warp) : (s.updWarp l g).ident = s.ident := rfl
@[simp] theorem updWarp_mode (s : State) (l : Loc) (g : Warp → Warp) : (s.updWarp l g).mode = s.mode := rfl
@[simp] theorem updWarp_mem (s : State) (l : Loc) (g : Warp → Warp) : (s.updWarp l g).mem = s.mem := rfl
@[simp] theorem updWarp_poison (s : State) (l : Loc) (g : Warp → Warp) : (s.updWarp l g).poison = s.poison := rfl
@[simp] theorem updWarp_errors (s : State) (l : Loc) (g : Warp → Warp) : (s.updWarp l g).errors = s.errors := rfl
@[simp] theorem updWarp_l1 (s : State) (l : Loc) (g : Warp → Warp) : (s.updWarp l g).l1 = s.l1 := rfl
@[simp] theorem updWarp_l2 (s : State) (l : Loc) (g : Warp → Warp) : (s.updWarp l g).l2 = s.l2 := rfl
@[simp] theorem updWarp_icache (s : State) (l : Loc) (g : Warp → Warp) : (s.updWarp l g).icache = s.icache := rfl
@[simp] theorem updWarp_tlb (s : State) (l : Loc) (g : Warp → Warp) : (s.updWarp l g).tlb = s.tlb := rfl
@[simp] theorem updWarp_tlb2 (s : State) (l : Loc) (g : Warp → Warp) : (s.updWarp l g).tlb2 = s.tlb2 := rfl
@[simp] theorem updWarp_shootdowns (s : State) (l : Loc) (g : Warp → Warp) : (s.updWarp l g).shootdowns = s.shootdowns := rfl
@[simp] theorem updWarp_migrations (s : State) (l : Loc) (g : Warp → Warp) : (s.updWarp l g).migrations = s.migrations := rfl
@[simp] theorem updWarp_dailies (s : State) (l : Loc) (g : Warp → Warp) : (s.updWarp l g).dailies = s.dailies := rfl
@[simp] theorem updWarp_ctxs (s : State) (l : Loc) (g : Warp → Warp) : (s.updWarp l g).ctxs = s.ctxs := rfl
@[simp] theorem updWarp_images (s : State) (l : Loc) (g : Warp → Warp) : (s.updWarp l g).images = s.images := rfl
@[simp] theorem updWarp_queues (s : State) (l : Loc) (g : Warp → Warp) : (s.updWarp l g).queues = s.queues := rfl
@[simp] theorem updWarp_cmds (s : State) (l : Loc) (g : Warp → Warp) : (s.updWarp l g).cmds = s.cmds := rfl
@[simp] theorem updWarp_chains (s : State) (l : Loc) (g : Warp → Warp) : (s.updWarp l g).chains = s.chains := rfl
@[simp] theorem updWarp_bundles (s : State) (l : Loc) (g : Warp → Warp) : (s.updWarp l g).bundles = s.bundles := rfl
@[simp] theorem updWarp_graphs (s : State) (l : Loc) (g : Warp → Warp) : (s.updWarp l g).graphs = s.graphs := rfl
@[simp] theorem updWarp_pipes (s : State) (l : Loc) (g : Warp → Warp) : (s.updWarp l g).pipes = s.pipes := rfl
@[simp] theorem updWarp_hostEvents (s : State) (l : Loc) (g : Warp → Warp) : (s.updWarp l g).hostEvents = s.hostEvents := rfl
@[simp] theorem updWarp_pending (s : State) (l : Loc) (g : Warp → Warp) : (s.updWarp l g).pending = s.pending := rfl
@[simp] theorem updWarp_batches (s : State) (l : Loc) (g : Warp → Warp) : (s.updWarp l g).batches = s.batches := rfl
@[simp] theorem updWarp_ended (s : State) (l : Loc) (g : Warp → Warp) : (s.updWarp l g).ended = s.ended := rfl
@[simp] theorem updWarp_dies (s : State) (l : Loc) (g : Warp → Warp) : (s.updWarp l g).dies = s.dies := rfl
@[simp] theorem updWarp_cores (s : State) (l : Loc) (g : Warp → Warp) : (s.updWarp l g).cores = s.cores := rfl
@[simp] theorem updWarp_slices (s : State) (l : Loc) (g : Warp → Warp) : (s.updWarp l g).slices = s.slices := rfl
@[simp] theorem updWarp_wgs (s : State) (l : Loc) (g : Warp → Warp) : (s.updWarp l g).wgs = s.wgs := rfl
@[simp] theorem updWarp_groups (s : State) (l : Loc) (g : Warp → Warp) : (s.updWarp l g).groups = s.groups := rfl
@[simp] theorem updWarp_rings (s : State) (l : Loc) (g : Warp → Warp) : (s.updWarp l g).rings = s.rings := rfl
@[simp] theorem updWarp_cells (s : State) (l : Loc) (g : Warp → Warp) : (s.updWarp l g).cells = s.cells := rfl
@[simp] theorem updWarp_comms (s : State) (l : Loc) (g : Warp → Warp) : (s.updWarp l g).comms = s.comms := rfl
@[simp] theorem updWarp_mail (s : State) (l : Loc) (g : Warp → Warp) : (s.updWarp l g).mail = s.mail := rfl
@[simp] theorem updWarp_exports (s : State) (l : Loc) (g : Warp → Warp) : (s.updWarp l g).exports = s.exports := rfl
@[simp] theorem updWarp_remote (s : State) (l : Loc) (g : Warp → Warp) : (s.updWarp l g).remote = s.remote := rfl
@[simp] theorem updWarp_refusals (s : State) (l : Loc) (g : Warp → Warp) : (s.updWarp l g).refusals = s.refusals := rfl
@[simp] theorem updWarp_links (s : State) (l : Loc) (g : Warp → Warp) : (s.updWarp l g).links = s.links := rfl
@[simp] theorem updWarp_undeliv (s : State) (l : Loc) (g : Warp → Warp) : (s.updWarp l g).undeliv = s.undeliv := rfl
@[simp] theorem updWarp_cut (s : State) (l : Loc) (g : Warp → Warp) : (s.updWarp l g).cut = s.cut := rfl
@[simp] theorem updWarp_monitors (s : State) (l : Loc) (g : Warp → Warp) : (s.updWarp l g).monitors = s.monitors := rfl
@[simp] theorem updWarp_tdisp (s : State) (l : Loc) (g : Warp → Warp) : (s.updWarp l g).tdisp = s.tdisp := rfl
@[simp] theorem updWarp_atsOn (s : State) (l : Loc) (g : Warp → Warp) : (s.updWarp l g).atsOn = s.atsOn := rfl
@[simp] theorem updWarp_atc (s : State) (l : Loc) (g : Warp → Warp) : (s.updWarp l g).atc = s.atc := rfl
@[simp] theorem updWarp_ats (s : State) (l : Loc) (g : Warp → Warp) : (s.updWarp l g).ats = s.ats := rfl
@[simp] theorem updWarp_spdm (s : State) (l : Loc) (g : Warp → Warp) : (s.updWarp l g).spdm = s.spdm := rfl

/-! `updWg` writes `wgs`. -/

@[simp] theorem updWg_clk (s : State) (u : Nat) (g : Wg → Wg) : (s.updWg u g).clk = s.clk := rfl
@[simp] theorem updWg_agenda (s : State) (u : Nat) (g : Wg → Wg) : (s.updWg u g).agenda = s.agenda := rfl
@[simp] theorem updWg_cur (s : State) (u : Nat) (g : Wg → Wg) : (s.updWg u g).cur = s.cur := rfl
@[simp] theorem updWg_free (s : State) (u : Nat) (g : Wg → Wg) : (s.updWg u g).free = s.free := rfl
@[simp] theorem updWg_nextUid (s : State) (u : Nat) (g : Wg → Wg) : (s.updWg u g).nextUid = s.nextUid := rfl
@[simp] theorem updWg_last (s : State) (u : Nat) (g : Wg → Wg) : (s.updWg u g).last = s.last := rfl
@[simp] theorem updWg_ident (s : State) (u : Nat) (g : Wg → Wg) : (s.updWg u g).ident = s.ident := rfl
@[simp] theorem updWg_mode (s : State) (u : Nat) (g : Wg → Wg) : (s.updWg u g).mode = s.mode := rfl
@[simp] theorem updWg_mem (s : State) (u : Nat) (g : Wg → Wg) : (s.updWg u g).mem = s.mem := rfl
@[simp] theorem updWg_poison (s : State) (u : Nat) (g : Wg → Wg) : (s.updWg u g).poison = s.poison := rfl
@[simp] theorem updWg_errors (s : State) (u : Nat) (g : Wg → Wg) : (s.updWg u g).errors = s.errors := rfl
@[simp] theorem updWg_l1 (s : State) (u : Nat) (g : Wg → Wg) : (s.updWg u g).l1 = s.l1 := rfl
@[simp] theorem updWg_l2 (s : State) (u : Nat) (g : Wg → Wg) : (s.updWg u g).l2 = s.l2 := rfl
@[simp] theorem updWg_icache (s : State) (u : Nat) (g : Wg → Wg) : (s.updWg u g).icache = s.icache := rfl
@[simp] theorem updWg_tlb (s : State) (u : Nat) (g : Wg → Wg) : (s.updWg u g).tlb = s.tlb := rfl
@[simp] theorem updWg_tlb2 (s : State) (u : Nat) (g : Wg → Wg) : (s.updWg u g).tlb2 = s.tlb2 := rfl
@[simp] theorem updWg_shootdowns (s : State) (u : Nat) (g : Wg → Wg) : (s.updWg u g).shootdowns = s.shootdowns := rfl
@[simp] theorem updWg_migrations (s : State) (u : Nat) (g : Wg → Wg) : (s.updWg u g).migrations = s.migrations := rfl
@[simp] theorem updWg_dailies (s : State) (u : Nat) (g : Wg → Wg) : (s.updWg u g).dailies = s.dailies := rfl
@[simp] theorem updWg_ctxs (s : State) (u : Nat) (g : Wg → Wg) : (s.updWg u g).ctxs = s.ctxs := rfl
@[simp] theorem updWg_images (s : State) (u : Nat) (g : Wg → Wg) : (s.updWg u g).images = s.images := rfl
@[simp] theorem updWg_queues (s : State) (u : Nat) (g : Wg → Wg) : (s.updWg u g).queues = s.queues := rfl
@[simp] theorem updWg_cmds (s : State) (u : Nat) (g : Wg → Wg) : (s.updWg u g).cmds = s.cmds := rfl
@[simp] theorem updWg_chains (s : State) (u : Nat) (g : Wg → Wg) : (s.updWg u g).chains = s.chains := rfl
@[simp] theorem updWg_bundles (s : State) (u : Nat) (g : Wg → Wg) : (s.updWg u g).bundles = s.bundles := rfl
@[simp] theorem updWg_graphs (s : State) (u : Nat) (g : Wg → Wg) : (s.updWg u g).graphs = s.graphs := rfl
@[simp] theorem updWg_pipes (s : State) (u : Nat) (g : Wg → Wg) : (s.updWg u g).pipes = s.pipes := rfl
@[simp] theorem updWg_hostEvents (s : State) (u : Nat) (g : Wg → Wg) : (s.updWg u g).hostEvents = s.hostEvents := rfl
@[simp] theorem updWg_pending (s : State) (u : Nat) (g : Wg → Wg) : (s.updWg u g).pending = s.pending := rfl
@[simp] theorem updWg_batches (s : State) (u : Nat) (g : Wg → Wg) : (s.updWg u g).batches = s.batches := rfl
@[simp] theorem updWg_ended (s : State) (u : Nat) (g : Wg → Wg) : (s.updWg u g).ended = s.ended := rfl
@[simp] theorem updWg_dies (s : State) (u : Nat) (g : Wg → Wg) : (s.updWg u g).dies = s.dies := rfl
@[simp] theorem updWg_cores (s : State) (u : Nat) (g : Wg → Wg) : (s.updWg u g).cores = s.cores := rfl
@[simp] theorem updWg_slices (s : State) (u : Nat) (g : Wg → Wg) : (s.updWg u g).slices = s.slices := rfl
@[simp] theorem updWg_warps (s : State) (u : Nat) (g : Wg → Wg) : (s.updWg u g).warps = s.warps := rfl
@[simp] theorem updWg_groups (s : State) (u : Nat) (g : Wg → Wg) : (s.updWg u g).groups = s.groups := rfl
@[simp] theorem updWg_rings (s : State) (u : Nat) (g : Wg → Wg) : (s.updWg u g).rings = s.rings := rfl
@[simp] theorem updWg_cells (s : State) (u : Nat) (g : Wg → Wg) : (s.updWg u g).cells = s.cells := rfl
@[simp] theorem updWg_comms (s : State) (u : Nat) (g : Wg → Wg) : (s.updWg u g).comms = s.comms := rfl
@[simp] theorem updWg_mail (s : State) (u : Nat) (g : Wg → Wg) : (s.updWg u g).mail = s.mail := rfl
@[simp] theorem updWg_exports (s : State) (u : Nat) (g : Wg → Wg) : (s.updWg u g).exports = s.exports := rfl
@[simp] theorem updWg_remote (s : State) (u : Nat) (g : Wg → Wg) : (s.updWg u g).remote = s.remote := rfl
@[simp] theorem updWg_refusals (s : State) (u : Nat) (g : Wg → Wg) : (s.updWg u g).refusals = s.refusals := rfl
@[simp] theorem updWg_links (s : State) (u : Nat) (g : Wg → Wg) : (s.updWg u g).links = s.links := rfl
@[simp] theorem updWg_undeliv (s : State) (u : Nat) (g : Wg → Wg) : (s.updWg u g).undeliv = s.undeliv := rfl
@[simp] theorem updWg_cut (s : State) (u : Nat) (g : Wg → Wg) : (s.updWg u g).cut = s.cut := rfl
@[simp] theorem updWg_monitors (s : State) (u : Nat) (g : Wg → Wg) : (s.updWg u g).monitors = s.monitors := rfl
@[simp] theorem updWg_tdisp (s : State) (u : Nat) (g : Wg → Wg) : (s.updWg u g).tdisp = s.tdisp := rfl
@[simp] theorem updWg_atsOn (s : State) (u : Nat) (g : Wg → Wg) : (s.updWg u g).atsOn = s.atsOn := rfl
@[simp] theorem updWg_atc (s : State) (u : Nat) (g : Wg → Wg) : (s.updWg u g).atc = s.atc := rfl
@[simp] theorem updWg_ats (s : State) (u : Nat) (g : Wg → Wg) : (s.updWg u g).ats = s.ats := rfl
@[simp] theorem updWg_spdm (s : State) (u : Nat) (g : Wg → Wg) : (s.updWg u g).spdm = s.spdm := rfl

/-! `updBundle` writes `bundles`. -/

@[simp] theorem updBundle_clk (s : State) (b : Nat) (g : Bundle → Bundle) : (s.updBundle b g).clk = s.clk := rfl
@[simp] theorem updBundle_agenda (s : State) (b : Nat) (g : Bundle → Bundle) : (s.updBundle b g).agenda = s.agenda := rfl
@[simp] theorem updBundle_cur (s : State) (b : Nat) (g : Bundle → Bundle) : (s.updBundle b g).cur = s.cur := rfl
@[simp] theorem updBundle_free (s : State) (b : Nat) (g : Bundle → Bundle) : (s.updBundle b g).free = s.free := rfl
@[simp] theorem updBundle_nextUid (s : State) (b : Nat) (g : Bundle → Bundle) : (s.updBundle b g).nextUid = s.nextUid := rfl
@[simp] theorem updBundle_last (s : State) (b : Nat) (g : Bundle → Bundle) : (s.updBundle b g).last = s.last := rfl
@[simp] theorem updBundle_ident (s : State) (b : Nat) (g : Bundle → Bundle) : (s.updBundle b g).ident = s.ident := rfl
@[simp] theorem updBundle_mode (s : State) (b : Nat) (g : Bundle → Bundle) : (s.updBundle b g).mode = s.mode := rfl
@[simp] theorem updBundle_mem (s : State) (b : Nat) (g : Bundle → Bundle) : (s.updBundle b g).mem = s.mem := rfl
@[simp] theorem updBundle_poison (s : State) (b : Nat) (g : Bundle → Bundle) : (s.updBundle b g).poison = s.poison := rfl
@[simp] theorem updBundle_errors (s : State) (b : Nat) (g : Bundle → Bundle) : (s.updBundle b g).errors = s.errors := rfl
@[simp] theorem updBundle_l1 (s : State) (b : Nat) (g : Bundle → Bundle) : (s.updBundle b g).l1 = s.l1 := rfl
@[simp] theorem updBundle_l2 (s : State) (b : Nat) (g : Bundle → Bundle) : (s.updBundle b g).l2 = s.l2 := rfl
@[simp] theorem updBundle_icache (s : State) (b : Nat) (g : Bundle → Bundle) : (s.updBundle b g).icache = s.icache := rfl
@[simp] theorem updBundle_tlb (s : State) (b : Nat) (g : Bundle → Bundle) : (s.updBundle b g).tlb = s.tlb := rfl
@[simp] theorem updBundle_tlb2 (s : State) (b : Nat) (g : Bundle → Bundle) : (s.updBundle b g).tlb2 = s.tlb2 := rfl
@[simp] theorem updBundle_shootdowns (s : State) (b : Nat) (g : Bundle → Bundle) : (s.updBundle b g).shootdowns = s.shootdowns := rfl
@[simp] theorem updBundle_migrations (s : State) (b : Nat) (g : Bundle → Bundle) : (s.updBundle b g).migrations = s.migrations := rfl
@[simp] theorem updBundle_dailies (s : State) (b : Nat) (g : Bundle → Bundle) : (s.updBundle b g).dailies = s.dailies := rfl
@[simp] theorem updBundle_ctxs (s : State) (b : Nat) (g : Bundle → Bundle) : (s.updBundle b g).ctxs = s.ctxs := rfl
@[simp] theorem updBundle_images (s : State) (b : Nat) (g : Bundle → Bundle) : (s.updBundle b g).images = s.images := rfl
@[simp] theorem updBundle_queues (s : State) (b : Nat) (g : Bundle → Bundle) : (s.updBundle b g).queues = s.queues := rfl
@[simp] theorem updBundle_cmds (s : State) (b : Nat) (g : Bundle → Bundle) : (s.updBundle b g).cmds = s.cmds := rfl
@[simp] theorem updBundle_chains (s : State) (b : Nat) (g : Bundle → Bundle) : (s.updBundle b g).chains = s.chains := rfl
@[simp] theorem updBundle_graphs (s : State) (b : Nat) (g : Bundle → Bundle) : (s.updBundle b g).graphs = s.graphs := rfl
@[simp] theorem updBundle_pipes (s : State) (b : Nat) (g : Bundle → Bundle) : (s.updBundle b g).pipes = s.pipes := rfl
@[simp] theorem updBundle_hostEvents (s : State) (b : Nat) (g : Bundle → Bundle) : (s.updBundle b g).hostEvents = s.hostEvents := rfl
@[simp] theorem updBundle_pending (s : State) (b : Nat) (g : Bundle → Bundle) : (s.updBundle b g).pending = s.pending := rfl
@[simp] theorem updBundle_batches (s : State) (b : Nat) (g : Bundle → Bundle) : (s.updBundle b g).batches = s.batches := rfl
@[simp] theorem updBundle_ended (s : State) (b : Nat) (g : Bundle → Bundle) : (s.updBundle b g).ended = s.ended := rfl
@[simp] theorem updBundle_dies (s : State) (b : Nat) (g : Bundle → Bundle) : (s.updBundle b g).dies = s.dies := rfl
@[simp] theorem updBundle_cores (s : State) (b : Nat) (g : Bundle → Bundle) : (s.updBundle b g).cores = s.cores := rfl
@[simp] theorem updBundle_slices (s : State) (b : Nat) (g : Bundle → Bundle) : (s.updBundle b g).slices = s.slices := rfl
@[simp] theorem updBundle_warps (s : State) (b : Nat) (g : Bundle → Bundle) : (s.updBundle b g).warps = s.warps := rfl
@[simp] theorem updBundle_wgs (s : State) (b : Nat) (g : Bundle → Bundle) : (s.updBundle b g).wgs = s.wgs := rfl
@[simp] theorem updBundle_groups (s : State) (b : Nat) (g : Bundle → Bundle) : (s.updBundle b g).groups = s.groups := rfl
@[simp] theorem updBundle_rings (s : State) (b : Nat) (g : Bundle → Bundle) : (s.updBundle b g).rings = s.rings := rfl
@[simp] theorem updBundle_cells (s : State) (b : Nat) (g : Bundle → Bundle) : (s.updBundle b g).cells = s.cells := rfl
@[simp] theorem updBundle_comms (s : State) (b : Nat) (g : Bundle → Bundle) : (s.updBundle b g).comms = s.comms := rfl
@[simp] theorem updBundle_mail (s : State) (b : Nat) (g : Bundle → Bundle) : (s.updBundle b g).mail = s.mail := rfl
@[simp] theorem updBundle_exports (s : State) (b : Nat) (g : Bundle → Bundle) : (s.updBundle b g).exports = s.exports := rfl
@[simp] theorem updBundle_remote (s : State) (b : Nat) (g : Bundle → Bundle) : (s.updBundle b g).remote = s.remote := rfl
@[simp] theorem updBundle_refusals (s : State) (b : Nat) (g : Bundle → Bundle) : (s.updBundle b g).refusals = s.refusals := rfl
@[simp] theorem updBundle_links (s : State) (b : Nat) (g : Bundle → Bundle) : (s.updBundle b g).links = s.links := rfl
@[simp] theorem updBundle_undeliv (s : State) (b : Nat) (g : Bundle → Bundle) : (s.updBundle b g).undeliv = s.undeliv := rfl
@[simp] theorem updBundle_cut (s : State) (b : Nat) (g : Bundle → Bundle) : (s.updBundle b g).cut = s.cut := rfl
@[simp] theorem updBundle_monitors (s : State) (b : Nat) (g : Bundle → Bundle) : (s.updBundle b g).monitors = s.monitors := rfl
@[simp] theorem updBundle_tdisp (s : State) (b : Nat) (g : Bundle → Bundle) : (s.updBundle b g).tdisp = s.tdisp := rfl
@[simp] theorem updBundle_atsOn (s : State) (b : Nat) (g : Bundle → Bundle) : (s.updBundle b g).atsOn = s.atsOn := rfl
@[simp] theorem updBundle_atc (s : State) (b : Nat) (g : Bundle → Bundle) : (s.updBundle b g).atc = s.atc := rfl
@[simp] theorem updBundle_ats (s : State) (b : Nat) (g : Bundle → Bundle) : (s.updBundle b g).ats = s.ats := rfl
@[simp] theorem updBundle_spdm (s : State) (b : Nat) (g : Bundle → Bundle) : (s.updBundle b g).spdm = s.spdm := rfl

/-! `updDie` writes `dies`. -/

@[simp] theorem updDie_clk (s : State) (d : Nat) (g : DieSt → DieSt) : (s.updDie d g).clk = s.clk := rfl
@[simp] theorem updDie_agenda (s : State) (d : Nat) (g : DieSt → DieSt) : (s.updDie d g).agenda = s.agenda := rfl
@[simp] theorem updDie_cur (s : State) (d : Nat) (g : DieSt → DieSt) : (s.updDie d g).cur = s.cur := rfl
@[simp] theorem updDie_free (s : State) (d : Nat) (g : DieSt → DieSt) : (s.updDie d g).free = s.free := rfl
@[simp] theorem updDie_nextUid (s : State) (d : Nat) (g : DieSt → DieSt) : (s.updDie d g).nextUid = s.nextUid := rfl
@[simp] theorem updDie_last (s : State) (d : Nat) (g : DieSt → DieSt) : (s.updDie d g).last = s.last := rfl
@[simp] theorem updDie_ident (s : State) (d : Nat) (g : DieSt → DieSt) : (s.updDie d g).ident = s.ident := rfl
@[simp] theorem updDie_mode (s : State) (d : Nat) (g : DieSt → DieSt) : (s.updDie d g).mode = s.mode := rfl
@[simp] theorem updDie_mem (s : State) (d : Nat) (g : DieSt → DieSt) : (s.updDie d g).mem = s.mem := rfl
@[simp] theorem updDie_poison (s : State) (d : Nat) (g : DieSt → DieSt) : (s.updDie d g).poison = s.poison := rfl
@[simp] theorem updDie_errors (s : State) (d : Nat) (g : DieSt → DieSt) : (s.updDie d g).errors = s.errors := rfl
@[simp] theorem updDie_l1 (s : State) (d : Nat) (g : DieSt → DieSt) : (s.updDie d g).l1 = s.l1 := rfl
@[simp] theorem updDie_l2 (s : State) (d : Nat) (g : DieSt → DieSt) : (s.updDie d g).l2 = s.l2 := rfl
@[simp] theorem updDie_icache (s : State) (d : Nat) (g : DieSt → DieSt) : (s.updDie d g).icache = s.icache := rfl
@[simp] theorem updDie_tlb (s : State) (d : Nat) (g : DieSt → DieSt) : (s.updDie d g).tlb = s.tlb := rfl
@[simp] theorem updDie_tlb2 (s : State) (d : Nat) (g : DieSt → DieSt) : (s.updDie d g).tlb2 = s.tlb2 := rfl
@[simp] theorem updDie_shootdowns (s : State) (d : Nat) (g : DieSt → DieSt) : (s.updDie d g).shootdowns = s.shootdowns := rfl
@[simp] theorem updDie_migrations (s : State) (d : Nat) (g : DieSt → DieSt) : (s.updDie d g).migrations = s.migrations := rfl
@[simp] theorem updDie_dailies (s : State) (d : Nat) (g : DieSt → DieSt) : (s.updDie d g).dailies = s.dailies := rfl
@[simp] theorem updDie_ctxs (s : State) (d : Nat) (g : DieSt → DieSt) : (s.updDie d g).ctxs = s.ctxs := rfl
@[simp] theorem updDie_images (s : State) (d : Nat) (g : DieSt → DieSt) : (s.updDie d g).images = s.images := rfl
@[simp] theorem updDie_queues (s : State) (d : Nat) (g : DieSt → DieSt) : (s.updDie d g).queues = s.queues := rfl
@[simp] theorem updDie_cmds (s : State) (d : Nat) (g : DieSt → DieSt) : (s.updDie d g).cmds = s.cmds := rfl
@[simp] theorem updDie_chains (s : State) (d : Nat) (g : DieSt → DieSt) : (s.updDie d g).chains = s.chains := rfl
@[simp] theorem updDie_bundles (s : State) (d : Nat) (g : DieSt → DieSt) : (s.updDie d g).bundles = s.bundles := rfl
@[simp] theorem updDie_graphs (s : State) (d : Nat) (g : DieSt → DieSt) : (s.updDie d g).graphs = s.graphs := rfl
@[simp] theorem updDie_pipes (s : State) (d : Nat) (g : DieSt → DieSt) : (s.updDie d g).pipes = s.pipes := rfl
@[simp] theorem updDie_hostEvents (s : State) (d : Nat) (g : DieSt → DieSt) : (s.updDie d g).hostEvents = s.hostEvents := rfl
@[simp] theorem updDie_pending (s : State) (d : Nat) (g : DieSt → DieSt) : (s.updDie d g).pending = s.pending := rfl
@[simp] theorem updDie_batches (s : State) (d : Nat) (g : DieSt → DieSt) : (s.updDie d g).batches = s.batches := rfl
@[simp] theorem updDie_ended (s : State) (d : Nat) (g : DieSt → DieSt) : (s.updDie d g).ended = s.ended := rfl
@[simp] theorem updDie_cores (s : State) (d : Nat) (g : DieSt → DieSt) : (s.updDie d g).cores = s.cores := rfl
@[simp] theorem updDie_slices (s : State) (d : Nat) (g : DieSt → DieSt) : (s.updDie d g).slices = s.slices := rfl
@[simp] theorem updDie_warps (s : State) (d : Nat) (g : DieSt → DieSt) : (s.updDie d g).warps = s.warps := rfl
@[simp] theorem updDie_wgs (s : State) (d : Nat) (g : DieSt → DieSt) : (s.updDie d g).wgs = s.wgs := rfl
@[simp] theorem updDie_groups (s : State) (d : Nat) (g : DieSt → DieSt) : (s.updDie d g).groups = s.groups := rfl
@[simp] theorem updDie_rings (s : State) (d : Nat) (g : DieSt → DieSt) : (s.updDie d g).rings = s.rings := rfl
@[simp] theorem updDie_cells (s : State) (d : Nat) (g : DieSt → DieSt) : (s.updDie d g).cells = s.cells := rfl
@[simp] theorem updDie_comms (s : State) (d : Nat) (g : DieSt → DieSt) : (s.updDie d g).comms = s.comms := rfl
@[simp] theorem updDie_mail (s : State) (d : Nat) (g : DieSt → DieSt) : (s.updDie d g).mail = s.mail := rfl
@[simp] theorem updDie_exports (s : State) (d : Nat) (g : DieSt → DieSt) : (s.updDie d g).exports = s.exports := rfl
@[simp] theorem updDie_remote (s : State) (d : Nat) (g : DieSt → DieSt) : (s.updDie d g).remote = s.remote := rfl
@[simp] theorem updDie_refusals (s : State) (d : Nat) (g : DieSt → DieSt) : (s.updDie d g).refusals = s.refusals := rfl
@[simp] theorem updDie_links (s : State) (d : Nat) (g : DieSt → DieSt) : (s.updDie d g).links = s.links := rfl
@[simp] theorem updDie_undeliv (s : State) (d : Nat) (g : DieSt → DieSt) : (s.updDie d g).undeliv = s.undeliv := rfl
@[simp] theorem updDie_cut (s : State) (d : Nat) (g : DieSt → DieSt) : (s.updDie d g).cut = s.cut := rfl
@[simp] theorem updDie_monitors (s : State) (d : Nat) (g : DieSt → DieSt) : (s.updDie d g).monitors = s.monitors := rfl
@[simp] theorem updDie_tdisp (s : State) (d : Nat) (g : DieSt → DieSt) : (s.updDie d g).tdisp = s.tdisp := rfl
@[simp] theorem updDie_atsOn (s : State) (d : Nat) (g : DieSt → DieSt) : (s.updDie d g).atsOn = s.atsOn := rfl
@[simp] theorem updDie_atc (s : State) (d : Nat) (g : DieSt → DieSt) : (s.updDie d g).atc = s.atc := rfl
@[simp] theorem updDie_ats (s : State) (d : Nat) (g : DieSt → DieSt) : (s.updDie d g).ats = s.ats := rfl
@[simp] theorem updDie_spdm (s : State) (d : Nat) (g : DieSt → DieSt) : (s.updDie d g).spdm = s.spdm := rfl

/-! `updCtx` writes `ctxs`. -/

@[simp] theorem updCtx_clk (s : State) (n : Nat) (g : Ctx → Ctx) : (s.updCtx n g).clk = s.clk := rfl
@[simp] theorem updCtx_agenda (s : State) (n : Nat) (g : Ctx → Ctx) : (s.updCtx n g).agenda = s.agenda := rfl
@[simp] theorem updCtx_cur (s : State) (n : Nat) (g : Ctx → Ctx) : (s.updCtx n g).cur = s.cur := rfl
@[simp] theorem updCtx_free (s : State) (n : Nat) (g : Ctx → Ctx) : (s.updCtx n g).free = s.free := rfl
@[simp] theorem updCtx_nextUid (s : State) (n : Nat) (g : Ctx → Ctx) : (s.updCtx n g).nextUid = s.nextUid := rfl
@[simp] theorem updCtx_last (s : State) (n : Nat) (g : Ctx → Ctx) : (s.updCtx n g).last = s.last := rfl
@[simp] theorem updCtx_ident (s : State) (n : Nat) (g : Ctx → Ctx) : (s.updCtx n g).ident = s.ident := rfl
@[simp] theorem updCtx_mode (s : State) (n : Nat) (g : Ctx → Ctx) : (s.updCtx n g).mode = s.mode := rfl
@[simp] theorem updCtx_mem (s : State) (n : Nat) (g : Ctx → Ctx) : (s.updCtx n g).mem = s.mem := rfl
@[simp] theorem updCtx_poison (s : State) (n : Nat) (g : Ctx → Ctx) : (s.updCtx n g).poison = s.poison := rfl
@[simp] theorem updCtx_errors (s : State) (n : Nat) (g : Ctx → Ctx) : (s.updCtx n g).errors = s.errors := rfl
@[simp] theorem updCtx_l1 (s : State) (n : Nat) (g : Ctx → Ctx) : (s.updCtx n g).l1 = s.l1 := rfl
@[simp] theorem updCtx_l2 (s : State) (n : Nat) (g : Ctx → Ctx) : (s.updCtx n g).l2 = s.l2 := rfl
@[simp] theorem updCtx_icache (s : State) (n : Nat) (g : Ctx → Ctx) : (s.updCtx n g).icache = s.icache := rfl
@[simp] theorem updCtx_tlb (s : State) (n : Nat) (g : Ctx → Ctx) : (s.updCtx n g).tlb = s.tlb := rfl
@[simp] theorem updCtx_tlb2 (s : State) (n : Nat) (g : Ctx → Ctx) : (s.updCtx n g).tlb2 = s.tlb2 := rfl
@[simp] theorem updCtx_shootdowns (s : State) (n : Nat) (g : Ctx → Ctx) : (s.updCtx n g).shootdowns = s.shootdowns := rfl
@[simp] theorem updCtx_migrations (s : State) (n : Nat) (g : Ctx → Ctx) : (s.updCtx n g).migrations = s.migrations := rfl
@[simp] theorem updCtx_dailies (s : State) (n : Nat) (g : Ctx → Ctx) : (s.updCtx n g).dailies = s.dailies := rfl
@[simp] theorem updCtx_images (s : State) (n : Nat) (g : Ctx → Ctx) : (s.updCtx n g).images = s.images := rfl
@[simp] theorem updCtx_queues (s : State) (n : Nat) (g : Ctx → Ctx) : (s.updCtx n g).queues = s.queues := rfl
@[simp] theorem updCtx_cmds (s : State) (n : Nat) (g : Ctx → Ctx) : (s.updCtx n g).cmds = s.cmds := rfl
@[simp] theorem updCtx_chains (s : State) (n : Nat) (g : Ctx → Ctx) : (s.updCtx n g).chains = s.chains := rfl
@[simp] theorem updCtx_bundles (s : State) (n : Nat) (g : Ctx → Ctx) : (s.updCtx n g).bundles = s.bundles := rfl
@[simp] theorem updCtx_graphs (s : State) (n : Nat) (g : Ctx → Ctx) : (s.updCtx n g).graphs = s.graphs := rfl
@[simp] theorem updCtx_pipes (s : State) (n : Nat) (g : Ctx → Ctx) : (s.updCtx n g).pipes = s.pipes := rfl
@[simp] theorem updCtx_hostEvents (s : State) (n : Nat) (g : Ctx → Ctx) : (s.updCtx n g).hostEvents = s.hostEvents := rfl
@[simp] theorem updCtx_pending (s : State) (n : Nat) (g : Ctx → Ctx) : (s.updCtx n g).pending = s.pending := rfl
@[simp] theorem updCtx_batches (s : State) (n : Nat) (g : Ctx → Ctx) : (s.updCtx n g).batches = s.batches := rfl
@[simp] theorem updCtx_ended (s : State) (n : Nat) (g : Ctx → Ctx) : (s.updCtx n g).ended = s.ended := rfl
@[simp] theorem updCtx_dies (s : State) (n : Nat) (g : Ctx → Ctx) : (s.updCtx n g).dies = s.dies := rfl
@[simp] theorem updCtx_cores (s : State) (n : Nat) (g : Ctx → Ctx) : (s.updCtx n g).cores = s.cores := rfl
@[simp] theorem updCtx_slices (s : State) (n : Nat) (g : Ctx → Ctx) : (s.updCtx n g).slices = s.slices := rfl
@[simp] theorem updCtx_warps (s : State) (n : Nat) (g : Ctx → Ctx) : (s.updCtx n g).warps = s.warps := rfl
@[simp] theorem updCtx_wgs (s : State) (n : Nat) (g : Ctx → Ctx) : (s.updCtx n g).wgs = s.wgs := rfl
@[simp] theorem updCtx_groups (s : State) (n : Nat) (g : Ctx → Ctx) : (s.updCtx n g).groups = s.groups := rfl
@[simp] theorem updCtx_rings (s : State) (n : Nat) (g : Ctx → Ctx) : (s.updCtx n g).rings = s.rings := rfl
@[simp] theorem updCtx_cells (s : State) (n : Nat) (g : Ctx → Ctx) : (s.updCtx n g).cells = s.cells := rfl
@[simp] theorem updCtx_comms (s : State) (n : Nat) (g : Ctx → Ctx) : (s.updCtx n g).comms = s.comms := rfl
@[simp] theorem updCtx_mail (s : State) (n : Nat) (g : Ctx → Ctx) : (s.updCtx n g).mail = s.mail := rfl
@[simp] theorem updCtx_exports (s : State) (n : Nat) (g : Ctx → Ctx) : (s.updCtx n g).exports = s.exports := rfl
@[simp] theorem updCtx_remote (s : State) (n : Nat) (g : Ctx → Ctx) : (s.updCtx n g).remote = s.remote := rfl
@[simp] theorem updCtx_refusals (s : State) (n : Nat) (g : Ctx → Ctx) : (s.updCtx n g).refusals = s.refusals := rfl
@[simp] theorem updCtx_links (s : State) (n : Nat) (g : Ctx → Ctx) : (s.updCtx n g).links = s.links := rfl
@[simp] theorem updCtx_undeliv (s : State) (n : Nat) (g : Ctx → Ctx) : (s.updCtx n g).undeliv = s.undeliv := rfl
@[simp] theorem updCtx_cut (s : State) (n : Nat) (g : Ctx → Ctx) : (s.updCtx n g).cut = s.cut := rfl
@[simp] theorem updCtx_monitors (s : State) (n : Nat) (g : Ctx → Ctx) : (s.updCtx n g).monitors = s.monitors := rfl
@[simp] theorem updCtx_tdisp (s : State) (n : Nat) (g : Ctx → Ctx) : (s.updCtx n g).tdisp = s.tdisp := rfl
@[simp] theorem updCtx_atsOn (s : State) (n : Nat) (g : Ctx → Ctx) : (s.updCtx n g).atsOn = s.atsOn := rfl
@[simp] theorem updCtx_atc (s : State) (n : Nat) (g : Ctx → Ctx) : (s.updCtx n g).atc = s.atc := rfl
@[simp] theorem updCtx_ats (s : State) (n : Nat) (g : Ctx → Ctx) : (s.updCtx n g).ats = s.ats := rfl
@[simp] theorem updCtx_spdm (s : State) (n : Nat) (g : Ctx → Ctx) : (s.updCtx n g).spdm = s.spdm := rfl

/-! `post` writes `hostEvents`. -/

@[simp] theorem post_clk (s : State) (e : HostEvent) : (s.post e).clk = s.clk := rfl
@[simp] theorem post_agenda (s : State) (e : HostEvent) : (s.post e).agenda = s.agenda := rfl
@[simp] theorem post_cur (s : State) (e : HostEvent) : (s.post e).cur = s.cur := rfl
@[simp] theorem post_free (s : State) (e : HostEvent) : (s.post e).free = s.free := rfl
@[simp] theorem post_nextUid (s : State) (e : HostEvent) : (s.post e).nextUid = s.nextUid := rfl
@[simp] theorem post_last (s : State) (e : HostEvent) : (s.post e).last = s.last := rfl
@[simp] theorem post_ident (s : State) (e : HostEvent) : (s.post e).ident = s.ident := rfl
@[simp] theorem post_mode (s : State) (e : HostEvent) : (s.post e).mode = s.mode := rfl
@[simp] theorem post_mem (s : State) (e : HostEvent) : (s.post e).mem = s.mem := rfl
@[simp] theorem post_poison (s : State) (e : HostEvent) : (s.post e).poison = s.poison := rfl
@[simp] theorem post_errors (s : State) (e : HostEvent) : (s.post e).errors = s.errors := rfl
@[simp] theorem post_l1 (s : State) (e : HostEvent) : (s.post e).l1 = s.l1 := rfl
@[simp] theorem post_l2 (s : State) (e : HostEvent) : (s.post e).l2 = s.l2 := rfl
@[simp] theorem post_icache (s : State) (e : HostEvent) : (s.post e).icache = s.icache := rfl
@[simp] theorem post_tlb (s : State) (e : HostEvent) : (s.post e).tlb = s.tlb := rfl
@[simp] theorem post_tlb2 (s : State) (e : HostEvent) : (s.post e).tlb2 = s.tlb2 := rfl
@[simp] theorem post_shootdowns (s : State) (e : HostEvent) : (s.post e).shootdowns = s.shootdowns := rfl
@[simp] theorem post_migrations (s : State) (e : HostEvent) : (s.post e).migrations = s.migrations := rfl
@[simp] theorem post_dailies (s : State) (e : HostEvent) : (s.post e).dailies = s.dailies := rfl
@[simp] theorem post_ctxs (s : State) (e : HostEvent) : (s.post e).ctxs = s.ctxs := rfl
@[simp] theorem post_images (s : State) (e : HostEvent) : (s.post e).images = s.images := rfl
@[simp] theorem post_queues (s : State) (e : HostEvent) : (s.post e).queues = s.queues := rfl
@[simp] theorem post_cmds (s : State) (e : HostEvent) : (s.post e).cmds = s.cmds := rfl
@[simp] theorem post_chains (s : State) (e : HostEvent) : (s.post e).chains = s.chains := rfl
@[simp] theorem post_bundles (s : State) (e : HostEvent) : (s.post e).bundles = s.bundles := rfl
@[simp] theorem post_graphs (s : State) (e : HostEvent) : (s.post e).graphs = s.graphs := rfl
@[simp] theorem post_pipes (s : State) (e : HostEvent) : (s.post e).pipes = s.pipes := rfl
@[simp] theorem post_pending (s : State) (e : HostEvent) : (s.post e).pending = s.pending := rfl
@[simp] theorem post_batches (s : State) (e : HostEvent) : (s.post e).batches = s.batches := rfl
@[simp] theorem post_ended (s : State) (e : HostEvent) : (s.post e).ended = s.ended := rfl
@[simp] theorem post_dies (s : State) (e : HostEvent) : (s.post e).dies = s.dies := rfl
@[simp] theorem post_cores (s : State) (e : HostEvent) : (s.post e).cores = s.cores := rfl
@[simp] theorem post_slices (s : State) (e : HostEvent) : (s.post e).slices = s.slices := rfl
@[simp] theorem post_warps (s : State) (e : HostEvent) : (s.post e).warps = s.warps := rfl
@[simp] theorem post_wgs (s : State) (e : HostEvent) : (s.post e).wgs = s.wgs := rfl
@[simp] theorem post_groups (s : State) (e : HostEvent) : (s.post e).groups = s.groups := rfl
@[simp] theorem post_rings (s : State) (e : HostEvent) : (s.post e).rings = s.rings := rfl
@[simp] theorem post_cells (s : State) (e : HostEvent) : (s.post e).cells = s.cells := rfl
@[simp] theorem post_comms (s : State) (e : HostEvent) : (s.post e).comms = s.comms := rfl
@[simp] theorem post_mail (s : State) (e : HostEvent) : (s.post e).mail = s.mail := rfl
@[simp] theorem post_exports (s : State) (e : HostEvent) : (s.post e).exports = s.exports := rfl
@[simp] theorem post_remote (s : State) (e : HostEvent) : (s.post e).remote = s.remote := rfl
@[simp] theorem post_refusals (s : State) (e : HostEvent) : (s.post e).refusals = s.refusals := rfl
@[simp] theorem post_links (s : State) (e : HostEvent) : (s.post e).links = s.links := rfl
@[simp] theorem post_undeliv (s : State) (e : HostEvent) : (s.post e).undeliv = s.undeliv := rfl
@[simp] theorem post_cut (s : State) (e : HostEvent) : (s.post e).cut = s.cut := rfl
@[simp] theorem post_monitors (s : State) (e : HostEvent) : (s.post e).monitors = s.monitors := rfl
@[simp] theorem post_tdisp (s : State) (e : HostEvent) : (s.post e).tdisp = s.tdisp := rfl
@[simp] theorem post_atsOn (s : State) (e : HostEvent) : (s.post e).atsOn = s.atsOn := rfl
@[simp] theorem post_atc (s : State) (e : HostEvent) : (s.post e).atc = s.atc := rfl
@[simp] theorem post_ats (s : State) (e : HostEvent) : (s.post e).ats = s.ats := rfl
@[simp] theorem post_spdm (s : State) (e : HostEvent) : (s.post e).spdm = s.spdm := rfl

/-! `setSlice` writes `slices`. -/

@[simp] theorem setSlice_clk (s : State) (x : Slice) : (s.setSlice x).clk = s.clk := by unfold State.setSlice; split <;> rfl
@[simp] theorem setSlice_agenda (s : State) (x : Slice) : (s.setSlice x).agenda = s.agenda := by unfold State.setSlice; split <;> rfl
@[simp] theorem setSlice_cur (s : State) (x : Slice) : (s.setSlice x).cur = s.cur := by unfold State.setSlice; split <;> rfl
@[simp] theorem setSlice_free (s : State) (x : Slice) : (s.setSlice x).free = s.free := by unfold State.setSlice; split <;> rfl
@[simp] theorem setSlice_nextUid (s : State) (x : Slice) : (s.setSlice x).nextUid = s.nextUid := by unfold State.setSlice; split <;> rfl
@[simp] theorem setSlice_last (s : State) (x : Slice) : (s.setSlice x).last = s.last := by unfold State.setSlice; split <;> rfl
@[simp] theorem setSlice_ident (s : State) (x : Slice) : (s.setSlice x).ident = s.ident := by unfold State.setSlice; split <;> rfl
@[simp] theorem setSlice_mode (s : State) (x : Slice) : (s.setSlice x).mode = s.mode := by unfold State.setSlice; split <;> rfl
@[simp] theorem setSlice_mem (s : State) (x : Slice) : (s.setSlice x).mem = s.mem := by unfold State.setSlice; split <;> rfl
@[simp] theorem setSlice_poison (s : State) (x : Slice) : (s.setSlice x).poison = s.poison := by unfold State.setSlice; split <;> rfl
@[simp] theorem setSlice_errors (s : State) (x : Slice) : (s.setSlice x).errors = s.errors := by unfold State.setSlice; split <;> rfl
@[simp] theorem setSlice_l1 (s : State) (x : Slice) : (s.setSlice x).l1 = s.l1 := by unfold State.setSlice; split <;> rfl
@[simp] theorem setSlice_l2 (s : State) (x : Slice) : (s.setSlice x).l2 = s.l2 := by unfold State.setSlice; split <;> rfl
@[simp] theorem setSlice_icache (s : State) (x : Slice) : (s.setSlice x).icache = s.icache := by unfold State.setSlice; split <;> rfl
@[simp] theorem setSlice_tlb (s : State) (x : Slice) : (s.setSlice x).tlb = s.tlb := by unfold State.setSlice; split <;> rfl
@[simp] theorem setSlice_tlb2 (s : State) (x : Slice) : (s.setSlice x).tlb2 = s.tlb2 := by unfold State.setSlice; split <;> rfl
@[simp] theorem setSlice_shootdowns (s : State) (x : Slice) : (s.setSlice x).shootdowns = s.shootdowns := by unfold State.setSlice; split <;> rfl
@[simp] theorem setSlice_migrations (s : State) (x : Slice) : (s.setSlice x).migrations = s.migrations := by unfold State.setSlice; split <;> rfl
@[simp] theorem setSlice_dailies (s : State) (x : Slice) : (s.setSlice x).dailies = s.dailies := by unfold State.setSlice; split <;> rfl
@[simp] theorem setSlice_ctxs (s : State) (x : Slice) : (s.setSlice x).ctxs = s.ctxs := by unfold State.setSlice; split <;> rfl
@[simp] theorem setSlice_images (s : State) (x : Slice) : (s.setSlice x).images = s.images := by unfold State.setSlice; split <;> rfl
@[simp] theorem setSlice_queues (s : State) (x : Slice) : (s.setSlice x).queues = s.queues := by unfold State.setSlice; split <;> rfl
@[simp] theorem setSlice_cmds (s : State) (x : Slice) : (s.setSlice x).cmds = s.cmds := by unfold State.setSlice; split <;> rfl
@[simp] theorem setSlice_chains (s : State) (x : Slice) : (s.setSlice x).chains = s.chains := by unfold State.setSlice; split <;> rfl
@[simp] theorem setSlice_bundles (s : State) (x : Slice) : (s.setSlice x).bundles = s.bundles := by unfold State.setSlice; split <;> rfl
@[simp] theorem setSlice_graphs (s : State) (x : Slice) : (s.setSlice x).graphs = s.graphs := by unfold State.setSlice; split <;> rfl
@[simp] theorem setSlice_pipes (s : State) (x : Slice) : (s.setSlice x).pipes = s.pipes := by unfold State.setSlice; split <;> rfl
@[simp] theorem setSlice_hostEvents (s : State) (x : Slice) : (s.setSlice x).hostEvents = s.hostEvents := by unfold State.setSlice; split <;> rfl
@[simp] theorem setSlice_pending (s : State) (x : Slice) : (s.setSlice x).pending = s.pending := by unfold State.setSlice; split <;> rfl
@[simp] theorem setSlice_batches (s : State) (x : Slice) : (s.setSlice x).batches = s.batches := by unfold State.setSlice; split <;> rfl
@[simp] theorem setSlice_ended (s : State) (x : Slice) : (s.setSlice x).ended = s.ended := by unfold State.setSlice; split <;> rfl
@[simp] theorem setSlice_dies (s : State) (x : Slice) : (s.setSlice x).dies = s.dies := by unfold State.setSlice; split <;> rfl
@[simp] theorem setSlice_cores (s : State) (x : Slice) : (s.setSlice x).cores = s.cores := by unfold State.setSlice; split <;> rfl
@[simp] theorem setSlice_warps (s : State) (x : Slice) : (s.setSlice x).warps = s.warps := by unfold State.setSlice; split <;> rfl
@[simp] theorem setSlice_wgs (s : State) (x : Slice) : (s.setSlice x).wgs = s.wgs := by unfold State.setSlice; split <;> rfl
@[simp] theorem setSlice_groups (s : State) (x : Slice) : (s.setSlice x).groups = s.groups := by unfold State.setSlice; split <;> rfl
@[simp] theorem setSlice_rings (s : State) (x : Slice) : (s.setSlice x).rings = s.rings := by unfold State.setSlice; split <;> rfl
@[simp] theorem setSlice_cells (s : State) (x : Slice) : (s.setSlice x).cells = s.cells := by unfold State.setSlice; split <;> rfl
@[simp] theorem setSlice_comms (s : State) (x : Slice) : (s.setSlice x).comms = s.comms := by unfold State.setSlice; split <;> rfl
@[simp] theorem setSlice_mail (s : State) (x : Slice) : (s.setSlice x).mail = s.mail := by unfold State.setSlice; split <;> rfl
@[simp] theorem setSlice_exports (s : State) (x : Slice) : (s.setSlice x).exports = s.exports := by unfold State.setSlice; split <;> rfl
@[simp] theorem setSlice_remote (s : State) (x : Slice) : (s.setSlice x).remote = s.remote := by unfold State.setSlice; split <;> rfl
@[simp] theorem setSlice_refusals (s : State) (x : Slice) : (s.setSlice x).refusals = s.refusals := by unfold State.setSlice; split <;> rfl
@[simp] theorem setSlice_links (s : State) (x : Slice) : (s.setSlice x).links = s.links := by unfold State.setSlice; split <;> rfl
@[simp] theorem setSlice_undeliv (s : State) (x : Slice) : (s.setSlice x).undeliv = s.undeliv := by unfold State.setSlice; split <;> rfl
@[simp] theorem setSlice_cut (s : State) (x : Slice) : (s.setSlice x).cut = s.cut := by unfold State.setSlice; split <;> rfl
@[simp] theorem setSlice_monitors (s : State) (x : Slice) : (s.setSlice x).monitors = s.monitors := by unfold State.setSlice; split <;> rfl
@[simp] theorem setSlice_tdisp (s : State) (x : Slice) : (s.setSlice x).tdisp = s.tdisp := by unfold State.setSlice; split <;> rfl
@[simp] theorem setSlice_atsOn (s : State) (x : Slice) : (s.setSlice x).atsOn = s.atsOn := by unfold State.setSlice; split <;> rfl
@[simp] theorem setSlice_atc (s : State) (x : Slice) : (s.setSlice x).atc = s.atc := by unfold State.setSlice; split <;> rfl
@[simp] theorem setSlice_ats (s : State) (x : Slice) : (s.setSlice x).ats = s.ats := by unfold State.setSlice; split <;> rfl
@[simp] theorem setSlice_spdm (s : State) (x : Slice) : (s.setSlice x).spdm = s.spdm := by unfold State.setSlice; split <;> rfl

/-! `updSlice` writes `slices`. -/

@[simp] theorem updSlice_clk (s : State) (i : SliceId) (g : Slice → Slice) : (s.updSlice i g).clk = s.clk := setSlice_clk s _
@[simp] theorem updSlice_agenda (s : State) (i : SliceId) (g : Slice → Slice) : (s.updSlice i g).agenda = s.agenda := setSlice_agenda s _
@[simp] theorem updSlice_cur (s : State) (i : SliceId) (g : Slice → Slice) : (s.updSlice i g).cur = s.cur := setSlice_cur s _
@[simp] theorem updSlice_free (s : State) (i : SliceId) (g : Slice → Slice) : (s.updSlice i g).free = s.free := setSlice_free s _
@[simp] theorem updSlice_nextUid (s : State) (i : SliceId) (g : Slice → Slice) : (s.updSlice i g).nextUid = s.nextUid := setSlice_nextUid s _
@[simp] theorem updSlice_last (s : State) (i : SliceId) (g : Slice → Slice) : (s.updSlice i g).last = s.last := setSlice_last s _
@[simp] theorem updSlice_ident (s : State) (i : SliceId) (g : Slice → Slice) : (s.updSlice i g).ident = s.ident := setSlice_ident s _
@[simp] theorem updSlice_mode (s : State) (i : SliceId) (g : Slice → Slice) : (s.updSlice i g).mode = s.mode := setSlice_mode s _
@[simp] theorem updSlice_mem (s : State) (i : SliceId) (g : Slice → Slice) : (s.updSlice i g).mem = s.mem := setSlice_mem s _
@[simp] theorem updSlice_poison (s : State) (i : SliceId) (g : Slice → Slice) : (s.updSlice i g).poison = s.poison := setSlice_poison s _
@[simp] theorem updSlice_errors (s : State) (i : SliceId) (g : Slice → Slice) : (s.updSlice i g).errors = s.errors := setSlice_errors s _
@[simp] theorem updSlice_l1 (s : State) (i : SliceId) (g : Slice → Slice) : (s.updSlice i g).l1 = s.l1 := setSlice_l1 s _
@[simp] theorem updSlice_l2 (s : State) (i : SliceId) (g : Slice → Slice) : (s.updSlice i g).l2 = s.l2 := setSlice_l2 s _
@[simp] theorem updSlice_icache (s : State) (i : SliceId) (g : Slice → Slice) : (s.updSlice i g).icache = s.icache := setSlice_icache s _
@[simp] theorem updSlice_tlb (s : State) (i : SliceId) (g : Slice → Slice) : (s.updSlice i g).tlb = s.tlb := setSlice_tlb s _
@[simp] theorem updSlice_tlb2 (s : State) (i : SliceId) (g : Slice → Slice) : (s.updSlice i g).tlb2 = s.tlb2 := setSlice_tlb2 s _
@[simp] theorem updSlice_shootdowns (s : State) (i : SliceId) (g : Slice → Slice) : (s.updSlice i g).shootdowns = s.shootdowns := setSlice_shootdowns s _
@[simp] theorem updSlice_migrations (s : State) (i : SliceId) (g : Slice → Slice) : (s.updSlice i g).migrations = s.migrations := setSlice_migrations s _
@[simp] theorem updSlice_dailies (s : State) (i : SliceId) (g : Slice → Slice) : (s.updSlice i g).dailies = s.dailies := setSlice_dailies s _
@[simp] theorem updSlice_ctxs (s : State) (i : SliceId) (g : Slice → Slice) : (s.updSlice i g).ctxs = s.ctxs := setSlice_ctxs s _
@[simp] theorem updSlice_images (s : State) (i : SliceId) (g : Slice → Slice) : (s.updSlice i g).images = s.images := setSlice_images s _
@[simp] theorem updSlice_queues (s : State) (i : SliceId) (g : Slice → Slice) : (s.updSlice i g).queues = s.queues := setSlice_queues s _
@[simp] theorem updSlice_cmds (s : State) (i : SliceId) (g : Slice → Slice) : (s.updSlice i g).cmds = s.cmds := setSlice_cmds s _
@[simp] theorem updSlice_chains (s : State) (i : SliceId) (g : Slice → Slice) : (s.updSlice i g).chains = s.chains := setSlice_chains s _
@[simp] theorem updSlice_bundles (s : State) (i : SliceId) (g : Slice → Slice) : (s.updSlice i g).bundles = s.bundles := setSlice_bundles s _
@[simp] theorem updSlice_graphs (s : State) (i : SliceId) (g : Slice → Slice) : (s.updSlice i g).graphs = s.graphs := setSlice_graphs s _
@[simp] theorem updSlice_pipes (s : State) (i : SliceId) (g : Slice → Slice) : (s.updSlice i g).pipes = s.pipes := setSlice_pipes s _
@[simp] theorem updSlice_hostEvents (s : State) (i : SliceId) (g : Slice → Slice) : (s.updSlice i g).hostEvents = s.hostEvents := setSlice_hostEvents s _
@[simp] theorem updSlice_pending (s : State) (i : SliceId) (g : Slice → Slice) : (s.updSlice i g).pending = s.pending := setSlice_pending s _
@[simp] theorem updSlice_batches (s : State) (i : SliceId) (g : Slice → Slice) : (s.updSlice i g).batches = s.batches := setSlice_batches s _
@[simp] theorem updSlice_ended (s : State) (i : SliceId) (g : Slice → Slice) : (s.updSlice i g).ended = s.ended := setSlice_ended s _
@[simp] theorem updSlice_dies (s : State) (i : SliceId) (g : Slice → Slice) : (s.updSlice i g).dies = s.dies := setSlice_dies s _
@[simp] theorem updSlice_cores (s : State) (i : SliceId) (g : Slice → Slice) : (s.updSlice i g).cores = s.cores := setSlice_cores s _
@[simp] theorem updSlice_warps (s : State) (i : SliceId) (g : Slice → Slice) : (s.updSlice i g).warps = s.warps := setSlice_warps s _
@[simp] theorem updSlice_wgs (s : State) (i : SliceId) (g : Slice → Slice) : (s.updSlice i g).wgs = s.wgs := setSlice_wgs s _
@[simp] theorem updSlice_groups (s : State) (i : SliceId) (g : Slice → Slice) : (s.updSlice i g).groups = s.groups := setSlice_groups s _
@[simp] theorem updSlice_rings (s : State) (i : SliceId) (g : Slice → Slice) : (s.updSlice i g).rings = s.rings := setSlice_rings s _
@[simp] theorem updSlice_cells (s : State) (i : SliceId) (g : Slice → Slice) : (s.updSlice i g).cells = s.cells := setSlice_cells s _
@[simp] theorem updSlice_comms (s : State) (i : SliceId) (g : Slice → Slice) : (s.updSlice i g).comms = s.comms := setSlice_comms s _
@[simp] theorem updSlice_mail (s : State) (i : SliceId) (g : Slice → Slice) : (s.updSlice i g).mail = s.mail := setSlice_mail s _
@[simp] theorem updSlice_exports (s : State) (i : SliceId) (g : Slice → Slice) : (s.updSlice i g).exports = s.exports := setSlice_exports s _
@[simp] theorem updSlice_remote (s : State) (i : SliceId) (g : Slice → Slice) : (s.updSlice i g).remote = s.remote := setSlice_remote s _
@[simp] theorem updSlice_refusals (s : State) (i : SliceId) (g : Slice → Slice) : (s.updSlice i g).refusals = s.refusals := setSlice_refusals s _
@[simp] theorem updSlice_links (s : State) (i : SliceId) (g : Slice → Slice) : (s.updSlice i g).links = s.links := setSlice_links s _
@[simp] theorem updSlice_undeliv (s : State) (i : SliceId) (g : Slice → Slice) : (s.updSlice i g).undeliv = s.undeliv := setSlice_undeliv s _
@[simp] theorem updSlice_cut (s : State) (i : SliceId) (g : Slice → Slice) : (s.updSlice i g).cut = s.cut := setSlice_cut s _
@[simp] theorem updSlice_monitors (s : State) (i : SliceId) (g : Slice → Slice) : (s.updSlice i g).monitors = s.monitors := setSlice_monitors s _
@[simp] theorem updSlice_tdisp (s : State) (i : SliceId) (g : Slice → Slice) : (s.updSlice i g).tdisp = s.tdisp := setSlice_tdisp s _
@[simp] theorem updSlice_atsOn (s : State) (i : SliceId) (g : Slice → Slice) : (s.updSlice i g).atsOn = s.atsOn := setSlice_atsOn s _
@[simp] theorem updSlice_atc (s : State) (i : SliceId) (g : Slice → Slice) : (s.updSlice i g).atc = s.atc := setSlice_atc s _
@[simp] theorem updSlice_ats (s : State) (i : SliceId) (g : Slice → Slice) : (s.updSlice i g).ats = s.ats := setSlice_ats s _
@[simp] theorem updSlice_spdm (s : State) (i : SliceId) (g : Slice → Slice) : (s.updSlice i g).spdm = s.spdm := setSlice_spdm s _

/-! `updHrun` writes `slices`. -/

@[simp] theorem updHrun_clk (s : State) (l : Loc) (g : HRun → HRun) : (s.updHrun l g).clk = s.clk := updSlice_clk s _ _
@[simp] theorem updHrun_agenda (s : State) (l : Loc) (g : HRun → HRun) : (s.updHrun l g).agenda = s.agenda := updSlice_agenda s _ _
@[simp] theorem updHrun_cur (s : State) (l : Loc) (g : HRun → HRun) : (s.updHrun l g).cur = s.cur := updSlice_cur s _ _
@[simp] theorem updHrun_free (s : State) (l : Loc) (g : HRun → HRun) : (s.updHrun l g).free = s.free := updSlice_free s _ _
@[simp] theorem updHrun_nextUid (s : State) (l : Loc) (g : HRun → HRun) : (s.updHrun l g).nextUid = s.nextUid := updSlice_nextUid s _ _
@[simp] theorem updHrun_last (s : State) (l : Loc) (g : HRun → HRun) : (s.updHrun l g).last = s.last := updSlice_last s _ _
@[simp] theorem updHrun_ident (s : State) (l : Loc) (g : HRun → HRun) : (s.updHrun l g).ident = s.ident := updSlice_ident s _ _
@[simp] theorem updHrun_mode (s : State) (l : Loc) (g : HRun → HRun) : (s.updHrun l g).mode = s.mode := updSlice_mode s _ _
@[simp] theorem updHrun_mem (s : State) (l : Loc) (g : HRun → HRun) : (s.updHrun l g).mem = s.mem := updSlice_mem s _ _
@[simp] theorem updHrun_poison (s : State) (l : Loc) (g : HRun → HRun) : (s.updHrun l g).poison = s.poison := updSlice_poison s _ _
@[simp] theorem updHrun_errors (s : State) (l : Loc) (g : HRun → HRun) : (s.updHrun l g).errors = s.errors := updSlice_errors s _ _
@[simp] theorem updHrun_l1 (s : State) (l : Loc) (g : HRun → HRun) : (s.updHrun l g).l1 = s.l1 := updSlice_l1 s _ _
@[simp] theorem updHrun_l2 (s : State) (l : Loc) (g : HRun → HRun) : (s.updHrun l g).l2 = s.l2 := updSlice_l2 s _ _
@[simp] theorem updHrun_icache (s : State) (l : Loc) (g : HRun → HRun) : (s.updHrun l g).icache = s.icache := updSlice_icache s _ _
@[simp] theorem updHrun_tlb (s : State) (l : Loc) (g : HRun → HRun) : (s.updHrun l g).tlb = s.tlb := updSlice_tlb s _ _
@[simp] theorem updHrun_tlb2 (s : State) (l : Loc) (g : HRun → HRun) : (s.updHrun l g).tlb2 = s.tlb2 := updSlice_tlb2 s _ _
@[simp] theorem updHrun_shootdowns (s : State) (l : Loc) (g : HRun → HRun) : (s.updHrun l g).shootdowns = s.shootdowns := updSlice_shootdowns s _ _
@[simp] theorem updHrun_migrations (s : State) (l : Loc) (g : HRun → HRun) : (s.updHrun l g).migrations = s.migrations := updSlice_migrations s _ _
@[simp] theorem updHrun_dailies (s : State) (l : Loc) (g : HRun → HRun) : (s.updHrun l g).dailies = s.dailies := updSlice_dailies s _ _
@[simp] theorem updHrun_ctxs (s : State) (l : Loc) (g : HRun → HRun) : (s.updHrun l g).ctxs = s.ctxs := updSlice_ctxs s _ _
@[simp] theorem updHrun_images (s : State) (l : Loc) (g : HRun → HRun) : (s.updHrun l g).images = s.images := updSlice_images s _ _
@[simp] theorem updHrun_queues (s : State) (l : Loc) (g : HRun → HRun) : (s.updHrun l g).queues = s.queues := updSlice_queues s _ _
@[simp] theorem updHrun_cmds (s : State) (l : Loc) (g : HRun → HRun) : (s.updHrun l g).cmds = s.cmds := updSlice_cmds s _ _
@[simp] theorem updHrun_chains (s : State) (l : Loc) (g : HRun → HRun) : (s.updHrun l g).chains = s.chains := updSlice_chains s _ _
@[simp] theorem updHrun_bundles (s : State) (l : Loc) (g : HRun → HRun) : (s.updHrun l g).bundles = s.bundles := updSlice_bundles s _ _
@[simp] theorem updHrun_graphs (s : State) (l : Loc) (g : HRun → HRun) : (s.updHrun l g).graphs = s.graphs := updSlice_graphs s _ _
@[simp] theorem updHrun_pipes (s : State) (l : Loc) (g : HRun → HRun) : (s.updHrun l g).pipes = s.pipes := updSlice_pipes s _ _
@[simp] theorem updHrun_hostEvents (s : State) (l : Loc) (g : HRun → HRun) : (s.updHrun l g).hostEvents = s.hostEvents := updSlice_hostEvents s _ _
@[simp] theorem updHrun_pending (s : State) (l : Loc) (g : HRun → HRun) : (s.updHrun l g).pending = s.pending := updSlice_pending s _ _
@[simp] theorem updHrun_batches (s : State) (l : Loc) (g : HRun → HRun) : (s.updHrun l g).batches = s.batches := updSlice_batches s _ _
@[simp] theorem updHrun_ended (s : State) (l : Loc) (g : HRun → HRun) : (s.updHrun l g).ended = s.ended := updSlice_ended s _ _
@[simp] theorem updHrun_dies (s : State) (l : Loc) (g : HRun → HRun) : (s.updHrun l g).dies = s.dies := updSlice_dies s _ _
@[simp] theorem updHrun_cores (s : State) (l : Loc) (g : HRun → HRun) : (s.updHrun l g).cores = s.cores := updSlice_cores s _ _
@[simp] theorem updHrun_warps (s : State) (l : Loc) (g : HRun → HRun) : (s.updHrun l g).warps = s.warps := updSlice_warps s _ _
@[simp] theorem updHrun_wgs (s : State) (l : Loc) (g : HRun → HRun) : (s.updHrun l g).wgs = s.wgs := updSlice_wgs s _ _
@[simp] theorem updHrun_groups (s : State) (l : Loc) (g : HRun → HRun) : (s.updHrun l g).groups = s.groups := updSlice_groups s _ _
@[simp] theorem updHrun_rings (s : State) (l : Loc) (g : HRun → HRun) : (s.updHrun l g).rings = s.rings := updSlice_rings s _ _
@[simp] theorem updHrun_cells (s : State) (l : Loc) (g : HRun → HRun) : (s.updHrun l g).cells = s.cells := updSlice_cells s _ _
@[simp] theorem updHrun_comms (s : State) (l : Loc) (g : HRun → HRun) : (s.updHrun l g).comms = s.comms := updSlice_comms s _ _
@[simp] theorem updHrun_mail (s : State) (l : Loc) (g : HRun → HRun) : (s.updHrun l g).mail = s.mail := updSlice_mail s _ _
@[simp] theorem updHrun_exports (s : State) (l : Loc) (g : HRun → HRun) : (s.updHrun l g).exports = s.exports := updSlice_exports s _ _
@[simp] theorem updHrun_remote (s : State) (l : Loc) (g : HRun → HRun) : (s.updHrun l g).remote = s.remote := updSlice_remote s _ _
@[simp] theorem updHrun_refusals (s : State) (l : Loc) (g : HRun → HRun) : (s.updHrun l g).refusals = s.refusals := updSlice_refusals s _ _
@[simp] theorem updHrun_links (s : State) (l : Loc) (g : HRun → HRun) : (s.updHrun l g).links = s.links := updSlice_links s _ _
@[simp] theorem updHrun_undeliv (s : State) (l : Loc) (g : HRun → HRun) : (s.updHrun l g).undeliv = s.undeliv := updSlice_undeliv s _ _
@[simp] theorem updHrun_cut (s : State) (l : Loc) (g : HRun → HRun) : (s.updHrun l g).cut = s.cut := updSlice_cut s _ _
@[simp] theorem updHrun_monitors (s : State) (l : Loc) (g : HRun → HRun) : (s.updHrun l g).monitors = s.monitors := updSlice_monitors s _ _
@[simp] theorem updHrun_tdisp (s : State) (l : Loc) (g : HRun → HRun) : (s.updHrun l g).tdisp = s.tdisp := updSlice_tdisp s _ _
@[simp] theorem updHrun_atsOn (s : State) (l : Loc) (g : HRun → HRun) : (s.updHrun l g).atsOn = s.atsOn := updSlice_atsOn s _ _
@[simp] theorem updHrun_atc (s : State) (l : Loc) (g : HRun → HRun) : (s.updHrun l g).atc = s.atc := updSlice_atc s _ _
@[simp] theorem updHrun_ats (s : State) (l : Loc) (g : HRun → HRun) : (s.updHrun l g).ats = s.ats := updSlice_ats s _ _
@[simp] theorem updHrun_spdm (s : State) (l : Loc) (g : HRun → HRun) : (s.updHrun l g).spdm = s.spdm := updSlice_spdm s _ _

/-! `updCore` writes `cores`. -/

@[simp] theorem updCore_clk (s : State) (i : CoreId) (g : CoreSt → CoreSt) : (s.updCore i g).clk = s.clk := by unfold State.updCore; split <;> rfl
@[simp] theorem updCore_agenda (s : State) (i : CoreId) (g : CoreSt → CoreSt) : (s.updCore i g).agenda = s.agenda := by unfold State.updCore; split <;> rfl
@[simp] theorem updCore_cur (s : State) (i : CoreId) (g : CoreSt → CoreSt) : (s.updCore i g).cur = s.cur := by unfold State.updCore; split <;> rfl
@[simp] theorem updCore_free (s : State) (i : CoreId) (g : CoreSt → CoreSt) : (s.updCore i g).free = s.free := by unfold State.updCore; split <;> rfl
@[simp] theorem updCore_nextUid (s : State) (i : CoreId) (g : CoreSt → CoreSt) : (s.updCore i g).nextUid = s.nextUid := by unfold State.updCore; split <;> rfl
@[simp] theorem updCore_last (s : State) (i : CoreId) (g : CoreSt → CoreSt) : (s.updCore i g).last = s.last := by unfold State.updCore; split <;> rfl
@[simp] theorem updCore_ident (s : State) (i : CoreId) (g : CoreSt → CoreSt) : (s.updCore i g).ident = s.ident := by unfold State.updCore; split <;> rfl
@[simp] theorem updCore_mode (s : State) (i : CoreId) (g : CoreSt → CoreSt) : (s.updCore i g).mode = s.mode := by unfold State.updCore; split <;> rfl
@[simp] theorem updCore_mem (s : State) (i : CoreId) (g : CoreSt → CoreSt) : (s.updCore i g).mem = s.mem := by unfold State.updCore; split <;> rfl
@[simp] theorem updCore_poison (s : State) (i : CoreId) (g : CoreSt → CoreSt) : (s.updCore i g).poison = s.poison := by unfold State.updCore; split <;> rfl
@[simp] theorem updCore_errors (s : State) (i : CoreId) (g : CoreSt → CoreSt) : (s.updCore i g).errors = s.errors := by unfold State.updCore; split <;> rfl
@[simp] theorem updCore_l1 (s : State) (i : CoreId) (g : CoreSt → CoreSt) : (s.updCore i g).l1 = s.l1 := by unfold State.updCore; split <;> rfl
@[simp] theorem updCore_l2 (s : State) (i : CoreId) (g : CoreSt → CoreSt) : (s.updCore i g).l2 = s.l2 := by unfold State.updCore; split <;> rfl
@[simp] theorem updCore_icache (s : State) (i : CoreId) (g : CoreSt → CoreSt) : (s.updCore i g).icache = s.icache := by unfold State.updCore; split <;> rfl
@[simp] theorem updCore_tlb (s : State) (i : CoreId) (g : CoreSt → CoreSt) : (s.updCore i g).tlb = s.tlb := by unfold State.updCore; split <;> rfl
@[simp] theorem updCore_tlb2 (s : State) (i : CoreId) (g : CoreSt → CoreSt) : (s.updCore i g).tlb2 = s.tlb2 := by unfold State.updCore; split <;> rfl
@[simp] theorem updCore_shootdowns (s : State) (i : CoreId) (g : CoreSt → CoreSt) : (s.updCore i g).shootdowns = s.shootdowns := by unfold State.updCore; split <;> rfl
@[simp] theorem updCore_migrations (s : State) (i : CoreId) (g : CoreSt → CoreSt) : (s.updCore i g).migrations = s.migrations := by unfold State.updCore; split <;> rfl
@[simp] theorem updCore_dailies (s : State) (i : CoreId) (g : CoreSt → CoreSt) : (s.updCore i g).dailies = s.dailies := by unfold State.updCore; split <;> rfl
@[simp] theorem updCore_ctxs (s : State) (i : CoreId) (g : CoreSt → CoreSt) : (s.updCore i g).ctxs = s.ctxs := by unfold State.updCore; split <;> rfl
@[simp] theorem updCore_images (s : State) (i : CoreId) (g : CoreSt → CoreSt) : (s.updCore i g).images = s.images := by unfold State.updCore; split <;> rfl
@[simp] theorem updCore_queues (s : State) (i : CoreId) (g : CoreSt → CoreSt) : (s.updCore i g).queues = s.queues := by unfold State.updCore; split <;> rfl
@[simp] theorem updCore_cmds (s : State) (i : CoreId) (g : CoreSt → CoreSt) : (s.updCore i g).cmds = s.cmds := by unfold State.updCore; split <;> rfl
@[simp] theorem updCore_chains (s : State) (i : CoreId) (g : CoreSt → CoreSt) : (s.updCore i g).chains = s.chains := by unfold State.updCore; split <;> rfl
@[simp] theorem updCore_bundles (s : State) (i : CoreId) (g : CoreSt → CoreSt) : (s.updCore i g).bundles = s.bundles := by unfold State.updCore; split <;> rfl
@[simp] theorem updCore_graphs (s : State) (i : CoreId) (g : CoreSt → CoreSt) : (s.updCore i g).graphs = s.graphs := by unfold State.updCore; split <;> rfl
@[simp] theorem updCore_pipes (s : State) (i : CoreId) (g : CoreSt → CoreSt) : (s.updCore i g).pipes = s.pipes := by unfold State.updCore; split <;> rfl
@[simp] theorem updCore_hostEvents (s : State) (i : CoreId) (g : CoreSt → CoreSt) : (s.updCore i g).hostEvents = s.hostEvents := by unfold State.updCore; split <;> rfl
@[simp] theorem updCore_pending (s : State) (i : CoreId) (g : CoreSt → CoreSt) : (s.updCore i g).pending = s.pending := by unfold State.updCore; split <;> rfl
@[simp] theorem updCore_batches (s : State) (i : CoreId) (g : CoreSt → CoreSt) : (s.updCore i g).batches = s.batches := by unfold State.updCore; split <;> rfl
@[simp] theorem updCore_ended (s : State) (i : CoreId) (g : CoreSt → CoreSt) : (s.updCore i g).ended = s.ended := by unfold State.updCore; split <;> rfl
@[simp] theorem updCore_dies (s : State) (i : CoreId) (g : CoreSt → CoreSt) : (s.updCore i g).dies = s.dies := by unfold State.updCore; split <;> rfl
@[simp] theorem updCore_slices (s : State) (i : CoreId) (g : CoreSt → CoreSt) : (s.updCore i g).slices = s.slices := by unfold State.updCore; split <;> rfl
@[simp] theorem updCore_warps (s : State) (i : CoreId) (g : CoreSt → CoreSt) : (s.updCore i g).warps = s.warps := by unfold State.updCore; split <;> rfl
@[simp] theorem updCore_wgs (s : State) (i : CoreId) (g : CoreSt → CoreSt) : (s.updCore i g).wgs = s.wgs := by unfold State.updCore; split <;> rfl
@[simp] theorem updCore_groups (s : State) (i : CoreId) (g : CoreSt → CoreSt) : (s.updCore i g).groups = s.groups := by unfold State.updCore; split <;> rfl
@[simp] theorem updCore_rings (s : State) (i : CoreId) (g : CoreSt → CoreSt) : (s.updCore i g).rings = s.rings := by unfold State.updCore; split <;> rfl
@[simp] theorem updCore_cells (s : State) (i : CoreId) (g : CoreSt → CoreSt) : (s.updCore i g).cells = s.cells := by unfold State.updCore; split <;> rfl
@[simp] theorem updCore_comms (s : State) (i : CoreId) (g : CoreSt → CoreSt) : (s.updCore i g).comms = s.comms := by unfold State.updCore; split <;> rfl
@[simp] theorem updCore_mail (s : State) (i : CoreId) (g : CoreSt → CoreSt) : (s.updCore i g).mail = s.mail := by unfold State.updCore; split <;> rfl
@[simp] theorem updCore_exports (s : State) (i : CoreId) (g : CoreSt → CoreSt) : (s.updCore i g).exports = s.exports := by unfold State.updCore; split <;> rfl
@[simp] theorem updCore_remote (s : State) (i : CoreId) (g : CoreSt → CoreSt) : (s.updCore i g).remote = s.remote := by unfold State.updCore; split <;> rfl
@[simp] theorem updCore_refusals (s : State) (i : CoreId) (g : CoreSt → CoreSt) : (s.updCore i g).refusals = s.refusals := by unfold State.updCore; split <;> rfl
@[simp] theorem updCore_links (s : State) (i : CoreId) (g : CoreSt → CoreSt) : (s.updCore i g).links = s.links := by unfold State.updCore; split <;> rfl
@[simp] theorem updCore_undeliv (s : State) (i : CoreId) (g : CoreSt → CoreSt) : (s.updCore i g).undeliv = s.undeliv := by unfold State.updCore; split <;> rfl
@[simp] theorem updCore_cut (s : State) (i : CoreId) (g : CoreSt → CoreSt) : (s.updCore i g).cut = s.cut := by unfold State.updCore; split <;> rfl
@[simp] theorem updCore_monitors (s : State) (i : CoreId) (g : CoreSt → CoreSt) : (s.updCore i g).monitors = s.monitors := by unfold State.updCore; split <;> rfl
@[simp] theorem updCore_tdisp (s : State) (i : CoreId) (g : CoreSt → CoreSt) : (s.updCore i g).tdisp = s.tdisp := by unfold State.updCore; split <;> rfl
@[simp] theorem updCore_atsOn (s : State) (i : CoreId) (g : CoreSt → CoreSt) : (s.updCore i g).atsOn = s.atsOn := by unfold State.updCore; split <;> rfl
@[simp] theorem updCore_atc (s : State) (i : CoreId) (g : CoreSt → CoreSt) : (s.updCore i g).atc = s.atc := by unfold State.updCore; split <;> rfl
@[simp] theorem updCore_ats (s : State) (i : CoreId) (g : CoreSt → CoreSt) : (s.updCore i g).ats = s.ats := by unfold State.updCore; split <;> rfl
@[simp] theorem updCore_spdm (s : State) (i : CoreId) (g : CoreSt → CoreSt) : (s.updCore i g).spdm = s.spdm := by unfold State.updCore; split <;> rfl

/-! `setMap` writes `warps`. -/

@[simp] theorem setMap_clk (s : State) (l : Loc) (n : Nat) (r : Option Nat) : (s.setMap l n r).clk = s.clk := rfl
@[simp] theorem setMap_agenda (s : State) (l : Loc) (n : Nat) (r : Option Nat) : (s.setMap l n r).agenda = s.agenda := rfl
@[simp] theorem setMap_cur (s : State) (l : Loc) (n : Nat) (r : Option Nat) : (s.setMap l n r).cur = s.cur := rfl
@[simp] theorem setMap_free (s : State) (l : Loc) (n : Nat) (r : Option Nat) : (s.setMap l n r).free = s.free := rfl
@[simp] theorem setMap_nextUid (s : State) (l : Loc) (n : Nat) (r : Option Nat) : (s.setMap l n r).nextUid = s.nextUid := rfl
@[simp] theorem setMap_last (s : State) (l : Loc) (n : Nat) (r : Option Nat) : (s.setMap l n r).last = s.last := rfl
@[simp] theorem setMap_ident (s : State) (l : Loc) (n : Nat) (r : Option Nat) : (s.setMap l n r).ident = s.ident := rfl
@[simp] theorem setMap_mode (s : State) (l : Loc) (n : Nat) (r : Option Nat) : (s.setMap l n r).mode = s.mode := rfl
@[simp] theorem setMap_mem (s : State) (l : Loc) (n : Nat) (r : Option Nat) : (s.setMap l n r).mem = s.mem := rfl
@[simp] theorem setMap_poison (s : State) (l : Loc) (n : Nat) (r : Option Nat) : (s.setMap l n r).poison = s.poison := rfl
@[simp] theorem setMap_errors (s : State) (l : Loc) (n : Nat) (r : Option Nat) : (s.setMap l n r).errors = s.errors := rfl
@[simp] theorem setMap_l1 (s : State) (l : Loc) (n : Nat) (r : Option Nat) : (s.setMap l n r).l1 = s.l1 := rfl
@[simp] theorem setMap_l2 (s : State) (l : Loc) (n : Nat) (r : Option Nat) : (s.setMap l n r).l2 = s.l2 := rfl
@[simp] theorem setMap_icache (s : State) (l : Loc) (n : Nat) (r : Option Nat) : (s.setMap l n r).icache = s.icache := rfl
@[simp] theorem setMap_tlb (s : State) (l : Loc) (n : Nat) (r : Option Nat) : (s.setMap l n r).tlb = s.tlb := rfl
@[simp] theorem setMap_tlb2 (s : State) (l : Loc) (n : Nat) (r : Option Nat) : (s.setMap l n r).tlb2 = s.tlb2 := rfl
@[simp] theorem setMap_shootdowns (s : State) (l : Loc) (n : Nat) (r : Option Nat) : (s.setMap l n r).shootdowns = s.shootdowns := rfl
@[simp] theorem setMap_migrations (s : State) (l : Loc) (n : Nat) (r : Option Nat) : (s.setMap l n r).migrations = s.migrations := rfl
@[simp] theorem setMap_dailies (s : State) (l : Loc) (n : Nat) (r : Option Nat) : (s.setMap l n r).dailies = s.dailies := rfl
@[simp] theorem setMap_ctxs (s : State) (l : Loc) (n : Nat) (r : Option Nat) : (s.setMap l n r).ctxs = s.ctxs := rfl
@[simp] theorem setMap_images (s : State) (l : Loc) (n : Nat) (r : Option Nat) : (s.setMap l n r).images = s.images := rfl
@[simp] theorem setMap_queues (s : State) (l : Loc) (n : Nat) (r : Option Nat) : (s.setMap l n r).queues = s.queues := rfl
@[simp] theorem setMap_cmds (s : State) (l : Loc) (n : Nat) (r : Option Nat) : (s.setMap l n r).cmds = s.cmds := rfl
@[simp] theorem setMap_chains (s : State) (l : Loc) (n : Nat) (r : Option Nat) : (s.setMap l n r).chains = s.chains := rfl
@[simp] theorem setMap_bundles (s : State) (l : Loc) (n : Nat) (r : Option Nat) : (s.setMap l n r).bundles = s.bundles := rfl
@[simp] theorem setMap_graphs (s : State) (l : Loc) (n : Nat) (r : Option Nat) : (s.setMap l n r).graphs = s.graphs := rfl
@[simp] theorem setMap_pipes (s : State) (l : Loc) (n : Nat) (r : Option Nat) : (s.setMap l n r).pipes = s.pipes := rfl
@[simp] theorem setMap_hostEvents (s : State) (l : Loc) (n : Nat) (r : Option Nat) : (s.setMap l n r).hostEvents = s.hostEvents := rfl
@[simp] theorem setMap_pending (s : State) (l : Loc) (n : Nat) (r : Option Nat) : (s.setMap l n r).pending = s.pending := rfl
@[simp] theorem setMap_batches (s : State) (l : Loc) (n : Nat) (r : Option Nat) : (s.setMap l n r).batches = s.batches := rfl
@[simp] theorem setMap_ended (s : State) (l : Loc) (n : Nat) (r : Option Nat) : (s.setMap l n r).ended = s.ended := rfl
@[simp] theorem setMap_dies (s : State) (l : Loc) (n : Nat) (r : Option Nat) : (s.setMap l n r).dies = s.dies := rfl
@[simp] theorem setMap_cores (s : State) (l : Loc) (n : Nat) (r : Option Nat) : (s.setMap l n r).cores = s.cores := rfl
@[simp] theorem setMap_slices (s : State) (l : Loc) (n : Nat) (r : Option Nat) : (s.setMap l n r).slices = s.slices := rfl
@[simp] theorem setMap_wgs (s : State) (l : Loc) (n : Nat) (r : Option Nat) : (s.setMap l n r).wgs = s.wgs := rfl
@[simp] theorem setMap_groups (s : State) (l : Loc) (n : Nat) (r : Option Nat) : (s.setMap l n r).groups = s.groups := rfl
@[simp] theorem setMap_rings (s : State) (l : Loc) (n : Nat) (r : Option Nat) : (s.setMap l n r).rings = s.rings := rfl
@[simp] theorem setMap_cells (s : State) (l : Loc) (n : Nat) (r : Option Nat) : (s.setMap l n r).cells = s.cells := rfl
@[simp] theorem setMap_comms (s : State) (l : Loc) (n : Nat) (r : Option Nat) : (s.setMap l n r).comms = s.comms := rfl
@[simp] theorem setMap_mail (s : State) (l : Loc) (n : Nat) (r : Option Nat) : (s.setMap l n r).mail = s.mail := rfl
@[simp] theorem setMap_exports (s : State) (l : Loc) (n : Nat) (r : Option Nat) : (s.setMap l n r).exports = s.exports := rfl
@[simp] theorem setMap_remote (s : State) (l : Loc) (n : Nat) (r : Option Nat) : (s.setMap l n r).remote = s.remote := rfl
@[simp] theorem setMap_refusals (s : State) (l : Loc) (n : Nat) (r : Option Nat) : (s.setMap l n r).refusals = s.refusals := rfl
@[simp] theorem setMap_links (s : State) (l : Loc) (n : Nat) (r : Option Nat) : (s.setMap l n r).links = s.links := rfl
@[simp] theorem setMap_undeliv (s : State) (l : Loc) (n : Nat) (r : Option Nat) : (s.setMap l n r).undeliv = s.undeliv := rfl
@[simp] theorem setMap_cut (s : State) (l : Loc) (n : Nat) (r : Option Nat) : (s.setMap l n r).cut = s.cut := rfl
@[simp] theorem setMap_monitors (s : State) (l : Loc) (n : Nat) (r : Option Nat) : (s.setMap l n r).monitors = s.monitors := rfl
@[simp] theorem setMap_tdisp (s : State) (l : Loc) (n : Nat) (r : Option Nat) : (s.setMap l n r).tdisp = s.tdisp := rfl
@[simp] theorem setMap_atsOn (s : State) (l : Loc) (n : Nat) (r : Option Nat) : (s.setMap l n r).atsOn = s.atsOn := rfl
@[simp] theorem setMap_atc (s : State) (l : Loc) (n : Nat) (r : Option Nat) : (s.setMap l n r).atc = s.atc := rfl
@[simp] theorem setMap_ats (s : State) (l : Loc) (n : Nat) (r : Option Nat) : (s.setMap l n r).ats = s.ats := rfl
@[simp] theorem setMap_spdm (s : State) (l : Loc) (n : Nat) (r : Option Nat) : (s.setMap l n r).spdm = s.spdm := rfl

/-! `fresh` writes `nextUid`. -/

@[simp] theorem fresh_clk (s : State) : (s.fresh.2).clk = s.clk := rfl
@[simp] theorem fresh_agenda (s : State) : (s.fresh.2).agenda = s.agenda := rfl
@[simp] theorem fresh_cur (s : State) : (s.fresh.2).cur = s.cur := rfl
@[simp] theorem fresh_free (s : State) : (s.fresh.2).free = s.free := rfl
@[simp] theorem fresh_last (s : State) : (s.fresh.2).last = s.last := rfl
@[simp] theorem fresh_ident (s : State) : (s.fresh.2).ident = s.ident := rfl
@[simp] theorem fresh_mode (s : State) : (s.fresh.2).mode = s.mode := rfl
@[simp] theorem fresh_mem (s : State) : (s.fresh.2).mem = s.mem := rfl
@[simp] theorem fresh_poison (s : State) : (s.fresh.2).poison = s.poison := rfl
@[simp] theorem fresh_errors (s : State) : (s.fresh.2).errors = s.errors := rfl
@[simp] theorem fresh_l1 (s : State) : (s.fresh.2).l1 = s.l1 := rfl
@[simp] theorem fresh_l2 (s : State) : (s.fresh.2).l2 = s.l2 := rfl
@[simp] theorem fresh_icache (s : State) : (s.fresh.2).icache = s.icache := rfl
@[simp] theorem fresh_tlb (s : State) : (s.fresh.2).tlb = s.tlb := rfl
@[simp] theorem fresh_tlb2 (s : State) : (s.fresh.2).tlb2 = s.tlb2 := rfl
@[simp] theorem fresh_shootdowns (s : State) : (s.fresh.2).shootdowns = s.shootdowns := rfl
@[simp] theorem fresh_migrations (s : State) : (s.fresh.2).migrations = s.migrations := rfl
@[simp] theorem fresh_dailies (s : State) : (s.fresh.2).dailies = s.dailies := rfl
@[simp] theorem fresh_ctxs (s : State) : (s.fresh.2).ctxs = s.ctxs := rfl
@[simp] theorem fresh_images (s : State) : (s.fresh.2).images = s.images := rfl
@[simp] theorem fresh_queues (s : State) : (s.fresh.2).queues = s.queues := rfl
@[simp] theorem fresh_cmds (s : State) : (s.fresh.2).cmds = s.cmds := rfl
@[simp] theorem fresh_chains (s : State) : (s.fresh.2).chains = s.chains := rfl
@[simp] theorem fresh_bundles (s : State) : (s.fresh.2).bundles = s.bundles := rfl
@[simp] theorem fresh_graphs (s : State) : (s.fresh.2).graphs = s.graphs := rfl
@[simp] theorem fresh_pipes (s : State) : (s.fresh.2).pipes = s.pipes := rfl
@[simp] theorem fresh_hostEvents (s : State) : (s.fresh.2).hostEvents = s.hostEvents := rfl
@[simp] theorem fresh_pending (s : State) : (s.fresh.2).pending = s.pending := rfl
@[simp] theorem fresh_batches (s : State) : (s.fresh.2).batches = s.batches := rfl
@[simp] theorem fresh_ended (s : State) : (s.fresh.2).ended = s.ended := rfl
@[simp] theorem fresh_dies (s : State) : (s.fresh.2).dies = s.dies := rfl
@[simp] theorem fresh_cores (s : State) : (s.fresh.2).cores = s.cores := rfl
@[simp] theorem fresh_slices (s : State) : (s.fresh.2).slices = s.slices := rfl
@[simp] theorem fresh_warps (s : State) : (s.fresh.2).warps = s.warps := rfl
@[simp] theorem fresh_wgs (s : State) : (s.fresh.2).wgs = s.wgs := rfl
@[simp] theorem fresh_groups (s : State) : (s.fresh.2).groups = s.groups := rfl
@[simp] theorem fresh_rings (s : State) : (s.fresh.2).rings = s.rings := rfl
@[simp] theorem fresh_cells (s : State) : (s.fresh.2).cells = s.cells := rfl
@[simp] theorem fresh_comms (s : State) : (s.fresh.2).comms = s.comms := rfl
@[simp] theorem fresh_mail (s : State) : (s.fresh.2).mail = s.mail := rfl
@[simp] theorem fresh_exports (s : State) : (s.fresh.2).exports = s.exports := rfl
@[simp] theorem fresh_remote (s : State) : (s.fresh.2).remote = s.remote := rfl
@[simp] theorem fresh_refusals (s : State) : (s.fresh.2).refusals = s.refusals := rfl
@[simp] theorem fresh_links (s : State) : (s.fresh.2).links = s.links := rfl
@[simp] theorem fresh_undeliv (s : State) : (s.fresh.2).undeliv = s.undeliv := rfl
@[simp] theorem fresh_cut (s : State) : (s.fresh.2).cut = s.cut := rfl
@[simp] theorem fresh_monitors (s : State) : (s.fresh.2).monitors = s.monitors := rfl
@[simp] theorem fresh_tdisp (s : State) : (s.fresh.2).tdisp = s.tdisp := rfl
@[simp] theorem fresh_atsOn (s : State) : (s.fresh.2).atsOn = s.atsOn := rfl
@[simp] theorem fresh_atc (s : State) : (s.fresh.2).atc = s.atc := rfl
@[simp] theorem fresh_ats (s : State) : (s.fresh.2).ats = s.ats := rfl
@[simp] theorem fresh_spdm (s : State) : (s.fresh.2).spdm = s.spdm := rfl

/-! `freeValue` writes `free`. -/

@[simp] theorem freeValue_clk (s : State) : (s.freeValue.2).clk = s.clk := rfl
@[simp] theorem freeValue_agenda (s : State) : (s.freeValue.2).agenda = s.agenda := rfl
@[simp] theorem freeValue_cur (s : State) : (s.freeValue.2).cur = s.cur := rfl
@[simp] theorem freeValue_nextUid (s : State) : (s.freeValue.2).nextUid = s.nextUid := rfl
@[simp] theorem freeValue_last (s : State) : (s.freeValue.2).last = s.last := rfl
@[simp] theorem freeValue_ident (s : State) : (s.freeValue.2).ident = s.ident := rfl
@[simp] theorem freeValue_mode (s : State) : (s.freeValue.2).mode = s.mode := rfl
@[simp] theorem freeValue_mem (s : State) : (s.freeValue.2).mem = s.mem := rfl
@[simp] theorem freeValue_poison (s : State) : (s.freeValue.2).poison = s.poison := rfl
@[simp] theorem freeValue_errors (s : State) : (s.freeValue.2).errors = s.errors := rfl
@[simp] theorem freeValue_l1 (s : State) : (s.freeValue.2).l1 = s.l1 := rfl
@[simp] theorem freeValue_l2 (s : State) : (s.freeValue.2).l2 = s.l2 := rfl
@[simp] theorem freeValue_icache (s : State) : (s.freeValue.2).icache = s.icache := rfl
@[simp] theorem freeValue_tlb (s : State) : (s.freeValue.2).tlb = s.tlb := rfl
@[simp] theorem freeValue_tlb2 (s : State) : (s.freeValue.2).tlb2 = s.tlb2 := rfl
@[simp] theorem freeValue_shootdowns (s : State) : (s.freeValue.2).shootdowns = s.shootdowns := rfl
@[simp] theorem freeValue_migrations (s : State) : (s.freeValue.2).migrations = s.migrations := rfl
@[simp] theorem freeValue_dailies (s : State) : (s.freeValue.2).dailies = s.dailies := rfl
@[simp] theorem freeValue_ctxs (s : State) : (s.freeValue.2).ctxs = s.ctxs := rfl
@[simp] theorem freeValue_images (s : State) : (s.freeValue.2).images = s.images := rfl
@[simp] theorem freeValue_queues (s : State) : (s.freeValue.2).queues = s.queues := rfl
@[simp] theorem freeValue_cmds (s : State) : (s.freeValue.2).cmds = s.cmds := rfl
@[simp] theorem freeValue_chains (s : State) : (s.freeValue.2).chains = s.chains := rfl
@[simp] theorem freeValue_bundles (s : State) : (s.freeValue.2).bundles = s.bundles := rfl
@[simp] theorem freeValue_graphs (s : State) : (s.freeValue.2).graphs = s.graphs := rfl
@[simp] theorem freeValue_pipes (s : State) : (s.freeValue.2).pipes = s.pipes := rfl
@[simp] theorem freeValue_hostEvents (s : State) : (s.freeValue.2).hostEvents = s.hostEvents := rfl
@[simp] theorem freeValue_pending (s : State) : (s.freeValue.2).pending = s.pending := rfl
@[simp] theorem freeValue_batches (s : State) : (s.freeValue.2).batches = s.batches := rfl
@[simp] theorem freeValue_ended (s : State) : (s.freeValue.2).ended = s.ended := rfl
@[simp] theorem freeValue_dies (s : State) : (s.freeValue.2).dies = s.dies := rfl
@[simp] theorem freeValue_cores (s : State) : (s.freeValue.2).cores = s.cores := rfl
@[simp] theorem freeValue_slices (s : State) : (s.freeValue.2).slices = s.slices := rfl
@[simp] theorem freeValue_warps (s : State) : (s.freeValue.2).warps = s.warps := rfl
@[simp] theorem freeValue_wgs (s : State) : (s.freeValue.2).wgs = s.wgs := rfl
@[simp] theorem freeValue_groups (s : State) : (s.freeValue.2).groups = s.groups := rfl
@[simp] theorem freeValue_rings (s : State) : (s.freeValue.2).rings = s.rings := rfl
@[simp] theorem freeValue_cells (s : State) : (s.freeValue.2).cells = s.cells := rfl
@[simp] theorem freeValue_comms (s : State) : (s.freeValue.2).comms = s.comms := rfl
@[simp] theorem freeValue_mail (s : State) : (s.freeValue.2).mail = s.mail := rfl
@[simp] theorem freeValue_exports (s : State) : (s.freeValue.2).exports = s.exports := rfl
@[simp] theorem freeValue_remote (s : State) : (s.freeValue.2).remote = s.remote := rfl
@[simp] theorem freeValue_refusals (s : State) : (s.freeValue.2).refusals = s.refusals := rfl
@[simp] theorem freeValue_links (s : State) : (s.freeValue.2).links = s.links := rfl
@[simp] theorem freeValue_undeliv (s : State) : (s.freeValue.2).undeliv = s.undeliv := rfl
@[simp] theorem freeValue_cut (s : State) : (s.freeValue.2).cut = s.cut := rfl
@[simp] theorem freeValue_monitors (s : State) : (s.freeValue.2).monitors = s.monitors := rfl
@[simp] theorem freeValue_tdisp (s : State) : (s.freeValue.2).tdisp = s.tdisp := rfl
@[simp] theorem freeValue_atsOn (s : State) : (s.freeValue.2).atsOn = s.atsOn := rfl
@[simp] theorem freeValue_atc (s : State) : (s.freeValue.2).atc = s.atc := rfl
@[simp] theorem freeValue_ats (s : State) : (s.freeValue.2).ats = s.ats := rfl
@[simp] theorem freeValue_spdm (s : State) : (s.freeValue.2).spdm = s.spdm := rfl

end Sys2Proof.Laws
end

