-- ==== Sys2Proof/Laws/Ops.lean ====
section
/-!
SUPPORT. What the accessors of Machine/Ops.lean read after each of its updates.
-/
namespace Sys2Proof.Laws
open Sys2Proof Sys2Proof.Machine

/-! ### Warps, slices and handler runs -/

/-- The warp of a slot after a change of the warp in a slot. -/
theorem warp?_updWarp (s : State) (l k : Loc) (g : Warp → Warp) (hg : ∀ w, w.loc = l → (g w).loc = l) :
    (s.updWarp l g).warp? k = if k = l then (s.warp? k).map g else s.warp? k :=
  find?_map_upd s.warps (·.loc) l k g hg

/-- Two changes of the warp in a slot, one after the other. -/
theorem updWarp_updWarp (s : State) (l : Loc) (f g : Warp → Warp) (hf : ∀ w, w.loc = l → (f w).loc = l) :
    (s.updWarp l f).updWarp l g = s.updWarp l (fun w => g (f w)) := by
  have : ((s.warps.map (fun w => if w.loc == l then f w else w)).map (fun w => if w.loc == l then g w else w))
      = s.warps.map (fun w => if w.loc == l then g (f w) else w) := by
    rw [List.map_map]
    apply List.map_congr_left
    intro w _
    by_cases h : w.loc = l
    · simp [Function.comp, h, hf w h]
    · simp [Function.comp, h]
  unfold State.updWarp
  rw [this]

theorem warp?_loc {s : State} {l : Loc} {w : Warp} (h : s.warp? l = some w) : w.loc = l := by
  simpa using List.find?_some h

@[simp] theorem slice_id (s : State) (i : SliceId) : (s.slice i).id = i := by
  unfold State.slice
  cases h : s.slices.find? (fun x => x.id == i) with
  | none => rfl
  | some x => simpa using List.find?_some h

/-- A slice after a slice is stored. -/
theorem slice_setSlice (s : State) (x : Slice) (i : SliceId) : (s.setSlice x).slice i = if i = x.id then x else s.slice i := by
  unfold State.setSlice State.slice
  by_cases h : s.slices.any (fun y => y.id == x.id) = true
  · rw [if_pos h]
    have := find?_map_upd s.slices (·.id) x.id i (fun _ => x) (fun _ _ => rfl)
    rw [this]
    by_cases hi : i = x.id
    · subst hi
      rw [if_pos rfl, if_pos rfl]
      obtain ⟨y, hy, hyx⟩ := List.any_eq_true.1 h
      cases hf : s.slices.find? (fun a => a.id == x.id) with
      | none => exact absurd hyx (by simpa using List.find?_eq_none.1 hf y hy)
      | some z => rfl
    · rw [if_neg hi, if_neg hi]
  · rw [if_neg h]
    by_cases hi : i = x.id
    · subst hi
      rw [if_pos rfl, List.find?_append]
      have : s.slices.find? (fun a => a.id == x.id) = none := by
        rw [List.find?_eq_none]
        intro y hy hc
        exact h (List.any_eq_true.2 ⟨y, hy, hc⟩)
      rw [this]
      simp
    · rw [if_neg hi, List.find?_append]
      have : (x.id == i) = false := by simpa using fun e => hi e.symm
      simp [this]

/-- A slice after a change of a slice. -/
theorem slice_updSlice (s : State) (i j : SliceId) (g : Slice → Slice) (hg : (g (s.slice i)).id = i) :
    (s.updSlice i g).slice j = if j = i then g (s.slice i) else s.slice j := by
  rw [State.updSlice, slice_setSlice, hg]

/-- The slice stored last remains. -/
theorem setSlice_setSlice (s : State) (x y : Slice) (hxy : y.id = x.id) : (s.setSlice x).setSlice y = s.setSlice y := by
  unfold State.setSlice
  by_cases h : s.slices.any (fun z => z.id == x.id) = true
  · have h2 : (s.slices.map (fun z => if z.id == x.id then x else z)).any (fun z => z.id == x.id) = true := by
      obtain ⟨z, hz, hzx⟩ := List.any_eq_true.1 h
      exact List.any_eq_true.2 ⟨x, List.mem_map.2 ⟨z, hz, by rw [if_pos hzx]⟩, by simp⟩
    have : (s.slices.map (fun z => if z.id == x.id then x else z)).map (fun z => if z.id == x.id then y else z)
        = s.slices.map (fun z => if z.id == x.id then y else z) := by
      rw [List.map_map]
      apply List.map_congr_left
      intro z _
      by_cases hz : z.id = x.id <;> simp [hz]
    rw [if_pos h, hxy, if_pos h, if_pos h2, this]
  · have h2 : (s.slices ++ [x]).any (fun z => z.id == x.id) = true := by simp
    have : (s.slices ++ [x]).map (fun z => if z.id == x.id then y else z) = s.slices ++ [y] := by
      rw [List.map_append]
      congr 1
      · conv => rhs; rw [← List.map_id s.slices]
        apply List.map_congr_left
        intro z hz
        have hne : (z.id == x.id) = false := by
          cases hb : z.id == x.id with
          | false => rfl
          | true => exact absurd (List.any_eq_true.2 ⟨z, hz, hb⟩) h
        simp [hne]
      · simp
    rw [if_neg h, hxy, if_neg h, if_pos h2, this]

/-- Two changes of a slice, one after the other. -/
theorem updSlice_updSlice (s : State) (i : SliceId) (f g : Slice → Slice) (hf : (f (s.slice i)).id = i)
    (hg : (g (f (s.slice i))).id = i) : (s.updSlice i f).updSlice i g = s.updSlice i (fun x => g (f x)) := by
  have h : (s.setSlice (f (s.slice i))).slice i = f (s.slice i) := by rw [slice_setSlice, hf, if_pos rfl]
  unfold State.updSlice
  rw [h, setSlice_setSlice _ _ _ (by rw [hf, hg])]

/-- Two changes of a handler run, one after the other. -/
theorem updHrun_updHrun (s : State) (l : Loc) (f g : HRun → HRun) :
    (s.updHrun l f).updHrun l g = s.updHrun l (fun h => g (f h)) := by
  unfold State.updHrun
  rw [updSlice_updSlice _ _ _ _ (by simp) (by simp)]
  simp [Option.map_map, Function.comp_def]

@[simp] theorem slice_updWarp (s : State) (l : Loc) (g : Warp → Warp) (i : SliceId) :
    (s.updWarp l g).slice i = s.slice i := rfl

@[simp] theorem warp?_updSlice (s : State) (i : SliceId) (g : Slice → Slice) (l : Loc) :
    (s.updSlice i g).warp? l = s.warp? l := by simp [State.warp?]

@[simp] theorem hrun?_updWarp (s : State) (l k : Loc) (g : Warp → Warp) : (s.updWarp l g).hrun? k = s.hrun? k := rfl

/-- The handler run of the slot in which a handler run is changed. -/
theorem hrun?_updHrun (s : State) (l : Loc) (g : HRun → HRun) (hg : ∀ h, (g h).slot = h.slot) :
    (s.updHrun l g).hrun? l = (s.hrun? l).map g := by
  unfold State.hrun? State.updHrun
  rw [slice_updSlice _ _ _ _ (by simp), if_pos rfl]
  cases (s.slice (sliceOfLoc l)).handler with
  | none => rfl
  | some h =>
    simp only [Option.map_some, hg]
    by_cases hs : (h.slot == l.slot) = true <;> simp [hs]

@[simp] theorem warp?_updHrun (s : State) (l k : Loc) (g : HRun → HRun) : (s.updHrun l g).warp? k = s.warp? k := by
  simp [State.updHrun]

/-- The slice of a handler run that is changed. -/
theorem slice_updHrun (s : State) (l : Loc) (g : HRun → HRun) (i : SliceId) :
    (s.updHrun l g).slice i =
      if i = sliceOfLoc l then { s.slice i with handler := (s.slice i).handler.map g } else s.slice i := by
  unfold State.updHrun
  rw [slice_updSlice _ _ _ _ (by simp)]
  by_cases h : i = sliceOfLoc l
  · subst h; simp
  · simp [h]

/-! ### The issuing bank -/

/-- The issuing warp, or its handler run, exists. -/
def Live (s : State) : Prop :=
  if s.cur.handler then ∃ h, s.hrun? s.cur.loc = some h else ∃ w, s.warp? s.cur.loc = some w

/-- A run that is not empty has its warp or its handler run. -/
theorem live_of_run {s : State} (h : s.run ≠ 0) : Live s := by
  unfold State.run at h
  unfold Live
  by_cases hh : s.cur.handler = true
  · rw [if_pos hh] at h ⊢
    cases hr : s.hrun? s.cur.loc with
    | none => simp [hr] at h
    | some x => exact ⟨x, rfl⟩
  · rw [if_neg hh] at h ⊢
    cases hr : s.warp? s.cur.loc with
    | none => simp [hr] at h
    | some x => exact ⟨x, rfl⟩

/-- The issuing warp after a change of it. -/
theorem me_updWarp {s : State} (h : ∃ w, s.warp? s.cur.loc = some w) (g : Warp → Warp)
    (hg : ∀ w, w.loc = s.cur.loc → (g w).loc = s.cur.loc) : (s.updWarp s.cur.loc g).me = g s.me := by
  obtain ⟨w, hw⟩ := h
  unfold State.me
  simp [warp?_updWarp _ _ _ _ hg, hw]

theorem myH_updHrun {s : State} (h : ∃ x, s.hrun? s.cur.loc = some x) (g : HRun → HRun) (hg : ∀ h, (g h).slot = h.slot) :
    (s.updHrun s.cur.loc g).myH = g s.myH := by
  obtain ⟨x, hx⟩ := h
  unfold State.myH
  simp [hrun?_updHrun _ _ _ hg, hx]

theorem me_updWarp_at {s : State} {l : Loc} (hc : s.cur.loc = l) (h : ∃ w, s.warp? l = some w) (g : Warp → Warp)
    (hg : ∀ w, w.loc = l → (g w).loc = l) : (s.updWarp l g).me = g s.me := by
  subst hc; exact me_updWarp h g hg

theorem myH_updHrun_at {s : State} {l : Loc} (hc : s.cur.loc = l) (h : ∃ x, s.hrun? l = some x) (g : HRun → HRun)
    (hg : ∀ h, (g h).slot = h.slot) : (s.updHrun l g).myH = g s.myH := by
  subst hc; exact myH_updHrun h g hg

@[simp] theorem me_updSlice (s : State) (i : SliceId) (g : Slice → Slice) : (s.updSlice i g).me = s.me := by
  simp [State.me]

@[simp] theorem me_updHrun (s : State) (l : Loc) (g : HRun → HRun) : (s.updHrun l g).me = s.me := by
  simp [State.me]

@[simp] theorem myH_updWarp (s : State) (l : Loc) (g : Warp → Warp) : (s.updWarp l g).myH = s.myH := rfl

/-- A slice update that keeps the handler keeps the handler runs. -/
theorem hrun?_updSlice (s : State) (i : SliceId) (g : Slice → Slice) (l : Loc) (hg : (g (s.slice i)).id = i)
    (hh : (g (s.slice i)).handler = (s.slice i).handler) : (s.updSlice i g).hrun? l = s.hrun? l := by
  unfold State.hrun?
  rw [slice_updSlice _ _ _ _ hg]
  by_cases h : sliceOfLoc l = i
  · rw [if_pos h, hh, ← h]
  · rw [if_neg h]

theorem myH_updSlice (s : State) (i : SliceId) (g : Slice → Slice) (hg : (g (s.slice i)).id = i)
    (hh : (g (s.slice i)).handler = (s.slice i).handler) : (s.updSlice i g).myH = s.myH := by
  unfold State.myH
  rw [updSlice_cur, hrun?_updSlice _ _ _ _ hg hh]

/-! ### Rows -/

theorem row?_updRow (x : Slice) (r q : Nat) (g : Row → Row) (hg : ∀ y, y.no = r → (g y).no = r) :
    (x.updRow r g).row? q = if q = r then (x.row? q).map g else x.row? q :=
  find?_map_upd x.rows (·.no) r q g hg

@[simp] theorem editData_id (x : Slice) (r : Nat) (g : List Word → List Word) : (x.editData r g).id = x.id := by
  unfold Slice.editData; split <;> rfl

@[simp] theorem editData_hrows (x : Slice) (r : Nat) (g : List Word → List Word) : (x.editData r g).hrows = x.hrows := by
  unfold Slice.editData; split <;> rfl

@[simp] theorem editData_handler (x : Slice) (r : Nat) (g : List Word → List Word) :
    (x.editData r g).handler = x.handler := by
  unfold Slice.editData; split <;> rfl

/-- A change of the elements of a row changes the row list alone. -/
theorem editData_eq (x : Slice) (r : Nat) (g : List Word → List Word) :
    x.editData r g = { x with rows := (x.editData r g).rows } := by
  unfold Slice.editData; split <;> rfl

/-- Another row is as before. -/
theorem row?_editData_ne (x : Slice) {r q : Nat} (g : List Word → List Word) (h : q ≠ r) :
    (x.editData r g).row? q = x.row? q := by
  unfold Slice.editData
  split
  · exact (row?_updRow x r q _ (by simp)).trans (if_neg h)
  · have hne : (r == q) = false := by simpa using fun e => h e.symm
    simp [Slice.row?, List.find?_append, hne]

/-- The elements of the row whose elements are changed. -/
theorem row?_editData (x : Slice) (r : Nat) (g : List Word → List Word) :
    ∃ y, (x.editData r g).row? r = some y ∧ y.data = g (((x.row? r).map (·.data)).getD []) := by
  unfold Slice.editData
  cases h : x.row? r with
  | some z =>
    refine ⟨{ z with data := g z.data }, ?_, rfl⟩
    exact (row?_updRow x r r _ (by simp)).trans (by simp [h])
  | none =>
    refine ⟨{ no := r, holders := 0, charge := 0, data := g [] }, ?_, rfl⟩
    unfold Slice.row? at h ⊢
    simp [List.find?_append, h]

/-- An element of a row after a write of one element of a row. -/
theorem elem_editData (x : Slice) (r t q u : Nat) (v : Word) :
    (x.editData r (fun d => putNth 0 d t v)).elem q u = if q = r ∧ u = t then v else x.elem q u := by
  by_cases h : q = r
  · subst h
    obtain ⟨y, hy, hd⟩ := row?_editData x q (fun d => putNth 0 d t v)
    unfold Slice.elem
    rw [hy]
    simp only [hd, nth_putNth]
    by_cases hu : u = t
    · simp [hu]
    · simp only [hu, if_false, and_false]
      cases x.row? q <;> simp [nth_nil]
  · unfold Slice.elem
    rw [row?_editData_ne _ _ h]
    simp [h]

/-! ### Threads -/

/-- A thread of a warp after a change of the threads of a mask. -/
theorem thread_updThreads (w : Warp) (m : Mask) (g : Nat → Thread → Thread) (t : Nat) (ht : t < 32) :
    (w.updThreads m g).thread t
      = if bitAt m t = true ∧ t < w.threads.length then g t (w.thread t) else w.thread t := by
  unfold Warp.thread Warp.updThreads nth
  simp only [List.getD_eq_getElem?_getD, List.getElem?_map, List.zip_eq_zipWith,
    List.getElem?_zipWith, List.getElem?_range ht]
  by_cases hl : t < w.threads.length
  · simp only [List.getElem?_eq_getElem hl, Option.map_some, Option.getD_some, hl, and_true]
  · simp [hl]

@[simp] theorem updThreads_loc (w : Warp) (m : Mask) (g : Nat → Thread → Thread) : (w.updThreads m g).loc = w.loc := rfl

@[simp] theorem tidyWaits_loc (w : Warp) : w.tidyWaits.loc = w.loc := rfl

@[simp] theorem tidyWaits_thread (w : Warp) (t : Nat) : w.tidyWaits.thread t = w.thread t := rfl

/-- A thread that is running is in the table. -/
theorem running_lt {w : Warp} {t : Nat} (h : (w.thread t).st = .running) : t < w.threads.length := by
  apply Classical.byContradiction
  intro hn
  have : w.thread t = { st := .exited } := by simp [Warp.thread, nth, hn]
  rw [this] at h
  exact absurd h (by decide)

/-- The threads of a run are running at its PC. -/
theorem runAt_spec {w : Warp} {pc : Word} {t : Nat} (h : bitAt (w.runAt pc) t = true) :
    t < 32 ∧ (w.thread t).st = .running ∧ (w.thread t).pc = pc := by
  unfold Warp.runAt at h
  rw [bitAt_maskOf] at h
  simpa using h

/-- The threads of the issuing run, when no handler run issues. -/
theorem run_eq_runAt {s : State} (hh : s.cur.handler = false) {w : Warp} (hw : s.warp? s.cur.loc = some w) :
    s.run = w.runAt s.cur.pc := by
  simp [State.run, hh, hw]

theorem me_eq {s : State} {w : Warp} (hw : s.warp? s.cur.loc = some w) : s.me = w := by simp [State.me, hw]

theorem myH_eq {s : State} {h : HRun} (hh : s.hrun? s.cur.loc = some h) : s.myH = h := by simp [State.myH, hh]

/-- The executing threads are threads of the run. -/
theorem executing_sub (s : State) (g : Guard) (run : Mask) {t : Nat} (h : bitAt (s.executing g run) t = true) :
    bitAt run t = true := by
  cases g with
  | always => exact h
  | pred p neg =>
    rw [State.executing, bitAt_maskOf] at h
    simp at h
    exact h.2.1

end Sys2Proof.Laws
end

