-- ==== Sys2Proof/Laws/Bank.lean ====
section
/-!
SUPPORT. What the operations that write the issuing bank do, once each: the relation `Edit` between the states before and after, which
composes, and the value that the written register, predicate or name then holds.
-/
namespace Sys2Proof.Laws
open Sys2Proof Sys2Proof.Machine

/-- An operation that writes the issuing bank, and no PC, wait or flag. -/
structure Edit (s t : State) (w : Writes) : Prop where
  same    : s.SameRest t
  bank    : s.SameBank t w
  uid     : t.nextUid = s.nextUid
  length  : ∀ th, th < 32 → (th < t.me.threads.length ↔ th < s.me.threads.length)
  threads : ∀ th, th < 32 → t.me.thread th =
              { s.me.thread th with
                fflags := (s.me.thread th).fflags ||| (if s.cur.handler then 0 else w.sticky th) }
  waits   : t.openWaits = s.openWaits
  flags   : ∀ k, t.flagCount k = s.flagCount k
  ops     : t.ops = s.ops
  hpc     : t.myH.pc = s.myH.pc ∧ t.myH.pos = s.myH.pos
  live    : Live t

/-- Two lists of writes together. -/
def Writes.and (a b : Writes) : Writes where
  names := a.names ++ b.names
  unis := a.unis ++ b.unis
  preds := a.preds ++ b.preds
  sticky := fun t => a.sticky t ||| b.sticky t

theorem frozen_cur {s t : State} (h : t.frozen = s.frozen) : t.cur = s.cur := by
  have := congrArg State.cur h
  exact this

theorem Edit.cur {s t : State} {w : Writes} (h : Edit s t w) : t.cur = s.cur := frozen_cur h.same.rest

/-- Nothing has been written. -/
theorem Edit.refl {s : State} (h : Live s) : Edit s s {} where
  same := ⟨rfl, fun _ _ => rfl, fun _ _ => rfl, rfl, rfl, fun _ => ⟨rfl, rfl⟩, fun _ => rfl, rfl⟩
  bank := { unis := fun _ _ => rfl, preds := fun _ _ _ => rfl, maps := fun _ _ _ => rfl,
            fresh := fun _ n _ hn => absurd hn (by simp), rows := fun _ _ _ => rfl, kept := fun _ h => h,
            elems := fun _ _ _ _ => rfl }
  uid := rfl
  length := fun _ _ => Iff.rfl
  threads := by intro th _; simp
  waits := rfl
  flags := fun _ => rfl
  ops := rfl
  hpc := ⟨rfl, rfl⟩
  live := h

/-- One operation after another. -/
theorem Edit.trans {s u t : State} {a b : Writes} (h : Edit s u a) (k : Edit u t b) : Edit s t (Writes.and a b) := by
  have hc := h.cur
  refine ⟨?_, ?_, k.uid.trans h.uid, fun th ht => (k.length th ht).trans (h.length th ht), ?_, k.waits.trans h.waits, fun j => (k.flags j).trans (h.flags j),
    k.ops.trans h.ops, ⟨k.hpc.1.trans h.hpc.1, k.hpc.2.trans h.hpc.2⟩, k.live⟩
  · obtain ⟨k1, k2, k3, k4, k5, k6, k7, k8⟩ := k.same
    rw [hc] at k2 k3 k5 k6 k7
    exact ⟨k1.trans h.same.rest, fun l hl => (k2 l hl).trans (h.same.warps l hl),
      fun i hi => (k3 i hi).trans (h.same.slices i hi), k4.trans h.same.warp, k5.trans h.same.slice,
      fun hh => ⟨(k6 hh).1.trans (h.same.program hh).1, (k6 hh).2.trans (h.same.program hh).2⟩,
      fun hh => (k7 hh).trans (h.same.rows hh), k8.trans h.same.handler⟩
  · obtain ⟨k1, k2, k3, k4, k5, k6, k7⟩ := k.bank
    have hm : ∀ n, u.isMapped n = (s.cur.handler || (u.me.mapOf n).isSome) := by intro n; rw [State.isMapped, hc]
    rw [hc] at k3 k4 k5 k6 k7
    simp only [hm] at k3
    have hs : ∀ n, s.isMapped n = (s.cur.handler || (s.me.mapOf n).isSome) := fun n => rfl
    have hu := h.bank.maps
    simp only [hs] at hu
    refine ⟨?_, ?_, ?_, ?_, ?_, ?_, ?_⟩
    · intro j hj
      simp only [Writes.and, List.mem_append, not_or] at hj
      exact (k1 j hj.2).trans (h.bank.unis j hj.1)
    · intro p hp th
      simp only [Writes.and, List.mem_append, not_or] at hp
      exact (k2 p hp.2 th).trans (h.bank.preds p hp.1 th)
    · intro hh n hn
      simp only [hs, hh, Bool.false_or, true_implies] at hn k3 hu
      simp only [Writes.and, List.mem_append, not_or] at hn
      rcases hn with ⟨h1, h2⟩ | hm'
      · exact (k3 n (.inl h2)).trans (hu n (.inl h1))
      · have e := hu n (.inr hm')
        exact (k3 n (.inr (by rw [e]; exact hm'))).trans e
    · intro hh n r hn hnone hsome
      simp only [hh, Bool.false_or, true_implies] at k3 hu
      simp only [Writes.and, List.mem_append] at hn
      cases hun : u.me.mapOf n with
      | some r' =>
        have e := k3 n (.inr (by rw [hun]; rfl))
        rw [e, hun] at hsome
        cases hsome
        by_cases hna : n ∈ a.names
        · exact h.bank.fresh hh n r hna hnone hun
        · have := hu n (.inl hna)
          rw [hun, hnone] at this
          exact absurd this (by simp)
      | none =>
        have hnb : n ∈ b.names := by
          apply Classical.byContradiction
          intro hnb
          have := k3 n (.inl hnb)
          rw [hun, hsome] at this
          exact absurd this (by simp)
        have hr := k4 hh n r hnb hun hsome
        cases hsr : (s.slice (sliceOfLoc s.cur.loc)).row? r with
        | none => rfl
        | some y =>
          have := h.bank.kept r (by rw [hsr]; rfl)
          rw [hr] at this
          exact absurd this (by simp)
    · intro hh r hr
      simp only [hh, Bool.false_or, true_implies] at k3
      have e1 := k5 hh r (fun n hn => hr n (by simp [Writes.and, hn]))
      have e2 := h.bank.rows hh r (fun n hn hun => by
        have e := k3 n (.inr (by rw [hun]; rfl))
        exact hr n (by simp [Writes.and, hn]) (e.trans hun))
      exact e1.trans e2
    · exact fun r hr => k6 r (h.bank.kept r hr)
    · intro hh n hn th
      simp only [Writes.and, List.mem_append, not_or] at hn
      exact (k7 hh n hn.2 th).trans (h.bank.elems hh n hn.1 th)
  · intro th ht
    rw [k.threads th ht, h.threads th ht, hc]
    simp only [Writes.and, Thread.mk.injEq, true_and]
    cases s.cur.handler <;> simp [BitVec.or_assoc]

/-- A longer list of writes. -/
theorem Edit.weaken {s t : State} {a b : Writes} (h : Edit s t a) (hn : ∀ n ∈ a.names, n ∈ b.names)
    (hu : ∀ n ∈ a.unis, n ∈ b.unis) (hp : ∀ n ∈ a.preds, n ∈ b.preds) (hs : ∀ th, a.sticky th = b.sticky th) : Edit s t b where
  same := h.same
  bank := {
    unis := fun k hk => h.bank.unis k (fun c => hk (hu k c))
    preds := fun k hk => h.bank.preds k (fun c => hk (hp k c))
    maps := fun hh n hn' => h.bank.maps hh n (hn'.imp (fun x c => x (hn n c)) id)
    fresh := fun hh n r hb h1 h2 => by
      by_cases ha : n ∈ a.names
      · exact h.bank.fresh hh n r ha h1 h2
      · have := h.bank.maps hh n (.inl ha)
        rw [h1, h2] at this
        exact absurd this (by simp)
    rows := fun hh r hr => h.bank.rows hh r (fun n hn' => hr n (hn n hn'))
    kept := h.bank.kept
    elems := fun hh n hn' => h.bank.elems hh n (fun c => hn' (hn n c)) }
  uid := h.uid
  length := h.length
  threads := by intro th ht; rw [h.threads th ht, hs]
  waits := h.waits
  flags := h.flags
  ops := h.ops
  hpc := h.hpc
  live := h.live

/-! ### Changes of the issuing warp and of the handler run -/

theorem live_warp {s : State} (hl : Live s) (hh : s.cur.handler = false) : ∃ w, s.warp? s.cur.loc = some w := by
  unfold Live at hl; simpa [hh] using hl

theorem live_hrun {s : State} (hl : Live s) (hh : s.cur.handler = true) : ∃ x, s.hrun? s.cur.loc = some x := by
  unfold Live at hl; simpa [hh] using hl

theorem me_loc {s : State} (hl : Live s) (hh : s.cur.handler = false) : s.me.loc = s.cur.loc := by
  obtain ⟨w, hw⟩ := live_warp hl hh
  rw [me_eq hw]; exact warp?_loc hw

/-- A change of the issuing warp's registers and predicates, and of sticky flags. -/
theorem edit_warp {s : State} (hl : Live s) (hh : s.cur.handler = false) (g : Warp → Warp) (w : Writes)
    (hf : ∀ x, (g x).frozen = x.frozen) (hmap : ∀ x, (g x).map = x.map)
    (hlen : ∀ th, th < 32 → (th < (g s.me).threads.length ↔ th < s.me.threads.length))
    (hth : ∀ th, th < 32 → (g s.me).thread th = { s.me.thread th with fflags := (s.me.thread th).fflags ||| w.sticky th })
    (hwt : (g s.me).waits = s.me.waits) (hfl : (g s.me).flags = s.me.flags) (hin : (g s.me).inflight = s.me.inflight)
    (hu : ∀ k, k ∉ w.unis → nth (g s.me).unif k 0 = nth s.me.unif k 0)
    (hp : ∀ p, p ∉ w.preds → ∀ t, bitAt (nth (g s.me).preds p 0) t = bitAt (nth s.me.preds p 0) t) :
    Edit s (s.updWarp s.cur.loc g) w := by
  have hloc : ∀ x : Warp, x.loc = s.cur.loc → (g x).loc = s.cur.loc := fun x hx => by
    have := congrArg Warp.loc (hf x)
    simp only [Warp.frozen] at this
    exact this.trans hx
  obtain ⟨x, hx⟩ := live_warp hl hh
  have hme : (s.updWarp s.cur.loc g).me = g s.me := me_updWarp ⟨x, hx⟩ g hloc
  refine ⟨⟨rfl, ?_, fun _ _ => rfl, ?_, rfl, fun _ => ⟨rfl, rfl⟩, fun _ => rfl, rfl⟩, ⟨?_, ?_, ?_, ?_, ?_, fun _ h => h, ?_⟩,
    rfl, by rw [hme]; exact hlen, ?_, ?_, ?_, ?_, ⟨rfl, rfl⟩, ?_⟩
  · intro l hlo
    rw [warp?_updWarp _ _ _ _ hloc, if_neg (by simpa [hh] using hlo)]
  · rw [hme, hf]
  · intro k hk
    simp only [State.uni, updWarp_cur, hh, Bool.false_eq_true, if_false, hme]
    exact hu k hk
  · intro p hp' th
    simp only [State.pred, updWarp_cur, hh, Bool.false_eq_true, if_false, hme]
    exact hp p hp' th
  · intro _ n _
    rw [hme, Warp.mapOf, Warp.mapOf, hmap]
  · intro _ n r _ h1 h2
    rw [hme, Warp.mapOf, hmap] at h2
    rw [Warp.mapOf, h2] at h1
    exact absurd h1 (by simp)
  · intro _ r _; rfl
  · intro h; rw [hh] at h; exact absurd h (by decide)
  · intro th ht
    rw [hme, hth th ht]
    simp [hh]
  · simp [State.openWaits, hh, hme, hwt]
  · intro k; simp [State.flagCount, hh, hme, hfl]
  · simp [State.ops, hh, hme, hin]
  · unfold Live
    simp only [updWarp_cur, hh, Bool.false_eq_true, if_false]
    exact ⟨g x, by rw [warp?_updWarp _ _ _ _ hloc, if_pos rfl, hx]; rfl⟩

/-- A change of the handler run's registers and predicates. -/
theorem edit_hrun {s : State} (hl : Live s) (hh : s.cur.handler = true) (g : HRun → HRun) (w : Writes)
    (hf : ∀ x, (g x).frozen = x.frozen) (hpc : ∀ x, (g x).pc = x.pc ∧ (g x).pos = x.pos)
    (hwt : (g s.myH).waits = s.myH.waits) (hfl : (g s.myH).flags = s.myH.flags) (hin : (g s.myH).inflight = s.myH.inflight)
    (hu : ∀ k, k ∉ w.unis → nth (g s.myH).unif k 0 = nth s.myH.unif k 0)
    (hp : ∀ p, p ∉ w.preds → bitAt (g s.myH).preds p = bitAt s.myH.preds p) :
    Edit s (s.updHrun s.cur.loc g) w := by
  have hslot : ∀ x : HRun, (g x).slot = x.slot := fun x => by
    have := congrArg HRun.slot (hf x)
    simpa only [HRun.frozen] using this
  obtain ⟨x, hx⟩ := live_hrun hl hh
  have hme : (s.updHrun s.cur.loc g).myH = g s.myH := myH_updHrun ⟨x, hx⟩ g hslot
  have hsl : ∀ i, (s.updHrun s.cur.loc g).slice i = if i = sliceOfLoc s.cur.loc then
      { s.slice i with handler := (s.slice i).handler.map g } else s.slice i := slice_updHrun s _ g
  have hfr : (s.updHrun s.cur.loc g).frozen = s.frozen := by unfold State.frozen; simp
  refine ⟨⟨hfr, ?_, ?_, by simp, ?_, ?_, ?_, ?_⟩, ⟨?_, ?_, ?_, ?_, ?_, ?_, ?_⟩, by simp, by simp, ?_, ?_, ?_, ?_, ?_, ?_⟩
  · intro l _; simp
  · intro i hi; rw [hsl, if_neg hi]
  · rw [hsl, if_pos rfl]; rfl
  · intro h; rw [hh] at h; exact absurd h (by decide)
  · intro _; rw [hsl, if_pos rfl]
  · rw [hme, hf]
  · intro k hk
    simp only [State.uni, updHrun_cur, hh, if_true, hme]
    exact hu k hk
  · intro p hp' th
    simp only [State.pred, updHrun_cur, hh, if_true, hme]
    exact hp p hp'
  · intro h; rw [hh] at h; exact absurd h (by decide)
  · intro h; rw [hh] at h; exact absurd h (by decide)
  · intro h; rw [hh] at h; exact absurd h (by decide)
  · intro r hr; rw [hsl, if_pos rfl]; exact hr
  · intro _ n _ th
    simp only [State.elem, updHrun_cur, hh, if_true]
    rw [hsl, if_pos rfl]
  · intro th _; simp [hh]
  · simp [State.openWaits, hh, hme, hwt]
  · intro k; simp [State.flagCount, hh, hme, hfl]
  · simp [State.ops, hh, hme, hin]
  · rw [hme]; exact hpc _
  · unfold Live
    simp only [updHrun_cur, hh, if_true]
    exact ⟨g x, by rw [hrun?_updHrun _ _ _ hslot, hx]; rfl⟩

/-! ### Uniform registers, predicates and sticky flags -/

/-- A write of a uniform register. -/
theorem edit_setUni {s : State} (hl : Live s) (k : Nat) (v : Word) : Edit s (s.setUni k v) { unis := [k] } := by
  unfold State.setUni
  by_cases hh : s.cur.handler = true
  · rw [if_pos hh]
    refine edit_hrun hl hh _ _ (fun _ => rfl) (fun _ => ⟨rfl, rfl⟩) rfl rfl rfl ?_ (fun _ _ => rfl)
    intro j hj
    exact nth_putNth_ne 0 _ _ (by simpa using hj)
  · rw [if_neg hh]
    refine edit_warp hl (by simpa using hh) _ _ (fun _ => rfl) (fun _ => rfl) (fun _ _ => Iff.rfl) (fun _ _ => by simp; rfl) rfl rfl rfl ?_
      (fun _ _ _ => rfl)
    intro j hj
    exact nth_putNth_ne 0 _ _ (by simpa using hj)

/-- The register written. -/
theorem uni_setUni {s : State} (hl : Live s) (k j : Nat) (v : Word) :
    (s.setUni k v).uni j = if j = k then v else s.uni j := by
  unfold State.setUni
  by_cases hh : s.cur.handler = true
  · rw [if_pos hh]
    have := myH_updHrun (live_hrun hl hh) (fun h => { h with unif := putNth 0 h.unif k v }) (fun _ => rfl)
    simp only [State.uni, updHrun_cur, hh, if_true, this, nth_putNth]
  · rw [if_neg hh]
    have := me_updWarp (live_warp hl (by simpa using hh)) (fun w => { w with unif := putNth 0 w.unif k v }) (fun _ h => h)
    simp only [State.uni, updWarp_cur, hh, if_false, this, nth_putNth, Bool.false_eq_true]

theorem bitAt_withBit (w : BitVec 12) (p q : Nat) (b : Bool) :
    bitAt (withBit w p b) q = if q = p ∧ q < 12 then b else bitAt w q := by
  have hb : (BitVec.ofNat 12 (2 ^ p)).getLsbD q = decide (q = p ∧ q < 12) := by
    simp only [BitVec.getLsbD_ofNat, Nat.testBit_two_pow]
    by_cases h : q < 12 <;> by_cases h2 : q = p <;> simp [h, h2, eq_comm] <;> omega
  unfold withBit bitAt
  cases b
  · simp only [Bool.false_eq_true, if_false, BitVec.getLsbD_and, BitVec.getLsbD_not, hb]
    by_cases h : q < 12
    · by_cases h2 : q = p
      · simp only [h2] at h ⊢; simp [h]
      · simp [h, h2]
    · simp [h, BitVec.getLsbD_of_ge w q (Nat.le_of_not_lt h)]
  · simp only [if_true, BitVec.getLsbD_or, hb]
    by_cases h : q = p ∧ q < 12
    · rw [if_pos h, decide_eq_true h, Bool.or_true]
    · rw [if_neg h, decide_eq_false h, Bool.or_false]

/-- A write of a predicate. -/
theorem edit_setPred {s : State} (hl : Live s) (p : Nat) (m v : Mask) : Edit s (s.setPred p m v) { preds := [p] } := by
  unfold State.setPred
  by_cases hh : s.cur.handler = true
  · rw [if_pos hh]
    refine edit_hrun hl hh _ _ (fun _ => rfl) (fun _ => ⟨rfl, rfl⟩) rfl rfl rfl (fun _ _ => rfl) ?_
    intro q hq
    have hne : q ≠ p := by simpa using hq
    simp only []
    split
    · rw [bitAt_withBit, if_neg (fun c => hne c.1)]
    · rfl
  · rw [if_neg hh]
    refine edit_warp hl (by simpa using hh) _ _ (fun _ => rfl) (fun _ => rfl) (fun _ _ => Iff.rfl) (fun _ _ => by simp; rfl) rfl rfl rfl
      (fun _ _ => rfl) ?_
    intro q hq t
    have hne : q ≠ p := by simpa using hq
    simp only [nth_tweakNth, hne, if_false]

/-- The predicate written, in the threads of the mask. -/
theorem pred_setPred {s : State} (hl : Live s) (p : Nat) (hp : p < 12) (m v : Mask) (q t : Nat) (ht : t < 32)
    (hm : s.cur.handler = true → t = s.myH.thread) :
    (s.setPred p m v).pred q t = if q = p ∧ bitAt m t = true then bitAt v t else s.pred q t := by
  unfold State.setPred
  by_cases hh : s.cur.handler = true
  · rw [if_pos hh]
    obtain rfl := hm hh
    have := myH_updHrun (live_hrun hl hh) (fun h =>
      { h with preds := if bitAt m h.thread then withBit h.preds p (bitAt v h.thread) else h.preds }) (fun _ => rfl)
    simp only [State.pred, updHrun_cur, hh, if_true, this]
    by_cases hmt : bitAt m s.myH.thread = true
    · simp only [hmt, if_true, bitAt_withBit, and_true]
      by_cases h : q = p
      · subst h; simp [hp]
      · simp [h]
    · simp [hmt]
  · rw [if_neg hh]
    have := me_updWarp (live_warp hl (by simpa using hh))
      (fun w => { w with preds := tweakNth 0 w.preds p (fun o => (o &&& ~~~m) ||| (v &&& m)) }) (fun _ h => h)
    simp only [State.pred, updWarp_cur, hh, if_false, this, nth_tweakNth, Bool.false_eq_true]
    by_cases h : q = p
    · subst h
      simp only [if_true, true_and, bitAt_or, bitAt_and, bitAt_not _ ht]
      cases bitAt m t <;> simp
    · simp [h]

theorem lookupKey_none {l : List (Nat × α)} {t : Nat} (h : t ∉ l.map (·.1)) : lookupKey l t = none := by
  induction l with
  | nil => rfl
  | cons p l ih =>
    obtain ⟨k, a⟩ := p
    simp only [List.map_cons, List.mem_cons, not_or] at h
    have : (k == t) = false := by simpa using fun e => h.1 e.symm
    simp only [lookupKey, this]
    exact ih h.2

/-- Raising sticky flags of threads of the table. -/
theorem edit_orFlags {s : State} (hl : Live s) (nf : Bool) (l : List (Nat × BitVec 8))
    (hlt : s.cur.handler = false → ∀ t ∈ l.map (·.1), t < s.me.threads.length) :
    Edit s (s.orFlags nf l) { sticky := fun t => if nf then 0 else (lookupKey l t).getD 0 } := by
  unfold State.orFlags
  by_cases hh : s.cur.handler = true
  · rw [if_pos (by simp [hh])]
    have := Edit.refl hl
    exact { this with bank := ⟨fun _ _ => rfl, fun _ _ _ => rfl, fun _ _ _ => rfl, fun _ n _ hn => absurd hn (by simp),
                               fun _ _ _ => rfl, fun _ h => h, fun _ _ _ _ => rfl⟩
                      threads := by intro th _; simp [hh] }
  · have hh' : s.cur.handler = false := by simpa using hh
    cases hn : nf with
    | true =>
      simp only [Bool.true_or, if_true]
      exact (Edit.refl hl).weaken (fun _ h => h) (fun _ h => h) (fun _ h => h) (fun _ => rfl)
    | false =>
      rw [if_neg (by simpa using hh)]
      refine edit_warp hl hh' _ _ (fun _ => rfl) (fun _ => rfl) (by intro th ht; simp [Warp.updThreads]; omega) ?_ rfl rfl rfl
        (fun _ _ => rfl) (fun _ _ _ => rfl)
      intro th ht
      rw [thread_updThreads _ _ _ _ ht]
      simp only [Bool.false_eq_true, if_false]
      by_cases hm : th ∈ l.map (·.1)
      · rw [if_pos ⟨by rw [bitAt_listMask]; exact decide_eq_true ⟨ht, hm⟩, hlt hh' th hm⟩]
      · rw [if_neg (fun c => by rw [bitAt_listMask] at c; exact hm (of_decide_eq_true c.1).2), lookupKey_none hm]
        simp

/-! ### Elements of names -/

theorem editData_frozen (x : Slice) (r : Nat) (g : List Word → List Word) : (x.editData r g).frozen = x.frozen := by
  unfold Slice.editData; split <;> rfl

/-- A write of one element of a mapped name. -/
theorem edit_setElem {s : State} (hl : Live s) (n t : Nat) (v : Word) (hm : s.isMapped n = true) :
    Edit s (s.setElem n t v) { names := [n] } := by
  unfold State.setElem
  by_cases hh : s.cur.handler = true
  · rw [if_pos hh]
    let g : Slice → Slice := fun x => { x with hrows := tweakNth [] x.hrows n (fun d => putNth 0 d t v) }
    show Edit s (s.updSlice (sliceOfLoc s.cur.loc) g) _
    have hsl := fun i => slice_updSlice s (sliceOfLoc s.cur.loc) i g (by simp [g])
    have hH : (s.updSlice (sliceOfLoc s.cur.loc) g).myH = s.myH := myH_updSlice _ _ _ (by simp [g]) rfl
    refine ⟨⟨by unfold State.frozen; simp, fun l _ => by simp, ?_, by simp, ?_, ?_, ?_, by rw [hH]⟩,
      ⟨?_, ?_, ?_, ?_, ?_, ?_, ?_⟩, by simp, by simp, ?_, ?_, ?_, ?_, ?_, ?_⟩
    · intro i hi; rw [hsl, if_neg hi]
    · rw [hsl, if_pos rfl]; rfl
    · intro h; rw [hh] at h; exact absurd h (by decide)
    · intro _; rw [hsl, if_pos rfl]
    · intro k _; simp [State.uni, hh, hH]
    · intro p _ th; simp [State.pred, hh, hH]
    · intro h; rw [hh] at h; exact absurd h (by decide)
    · intro h; rw [hh] at h; exact absurd h (by decide)
    · intro h; rw [hh] at h; exact absurd h (by decide)
    · intro r hr; rw [hsl, if_pos rfl]; exact hr
    · intro _ m hmn th
      have hne : m ≠ n := by simpa using hmn
      simp only [State.elem, updSlice_cur, hh, if_true]
      rw [hsl, if_pos rfl]
      simp only [g, nth_tweakNth, hne, if_false]
    · intro th _; simp [hh]
    · simp [State.openWaits, hh, hH]
    · intro k; simp [State.flagCount, hh, hH]
    · simp [State.ops, hh, hH]
    · rw [hH]; exact ⟨rfl, rfl⟩
    · obtain ⟨x, hx⟩ := live_hrun hl hh
      unfold Live
      simp only [updSlice_cur, hh, if_true]
      exact ⟨x, by rw [hrun?_updSlice _ _ _ _ (by simp [g]) rfl, hx]⟩
  · have hh' : s.cur.handler = false := by simpa using hh
    rw [if_neg hh]
    have hmap : (s.me.mapOf n).isSome = true := by simpa [State.isMapped, hh'] using hm
    obtain ⟨r, hr⟩ := Option.isSome_iff_exists.1 hmap
    rw [hr]
    let g : Slice → Slice := fun x => x.editData r (fun d => putNth 0 d t v)
    show Edit s (s.updSlice (sliceOfLoc s.cur.loc) g) _
    have hsl := fun i => slice_updSlice s (sliceOfLoc s.cur.loc) i g (by simp [g])
    have hH : (s.updSlice (sliceOfLoc s.cur.loc) g).myH = s.myH := myH_updSlice _ _ _ (by simp [g]) (by simp [g])
    refine ⟨⟨by unfold State.frozen; simp, fun l _ => by simp, ?_, by simp, ?_, ?_, ?_, by rw [hH]⟩,
      ⟨?_, ?_, ?_, ?_, ?_, ?_, ?_⟩, by simp, by simp, ?_, ?_, ?_, ?_, ?_, ?_⟩
    · intro i hi; rw [hsl, if_neg hi]
    · rw [hsl, if_pos rfl]
      exact editData_frozen _ _ _
    · intro _; rw [hsl, if_pos rfl]; simp [g]
    · intro h; rw [hh'] at h; exact absurd h (by decide)
    · intro k _; simp [State.uni, hh']
    · intro p _ th; simp [State.pred, hh']
    · intro _ m _; simp
    · intro _ m q hmn h1 h2
      simp only [me_updSlice] at h2
      rw [h1] at h2
      exact absurd h2 (by simp)
    · intro _ q hq
      have hne : q ≠ r := fun e => by
        have := hq n (by simp)
        simp only [me_updSlice] at this
        exact this (e ▸ hr)
      rw [hsl, if_pos rfl]
      exact row?_editData_ne _ _ hne
    · intro q hq
      rw [hsl, if_pos rfl]
      by_cases hqr : q = r
      · subst hqr
        obtain ⟨y, hy, _⟩ := row?_editData (s.slice (sliceOfLoc s.cur.loc)) q (fun d => putNth 0 d t v)
        simp only [g, hy, Option.isSome_some]
      · simp only [g]
        rw [row?_editData_ne _ _ hqr]; exact hq
    · intro h; rw [hh'] at h; exact absurd h (by decide)
    · intro th _; simp [hh']
    · simp [State.openWaits, hh']
    · intro k; simp [State.flagCount, hh']
    · simp [State.ops, hh']
    · rw [hH]; exact ⟨rfl, rfl⟩
    · obtain ⟨x, hx⟩ := live_warp hl hh'
      unfold Live
      simp only [updSlice_cur, hh', Bool.false_eq_true, if_false]
      exact ⟨x, by rw [warp?_updSlice, hx]⟩

/-- Names n and m of the issuing bank hold the same row. -/
def SameRow (s : State) (n m : Nat) : Prop := if s.cur.handler then n = m else s.me.mapOf n = s.me.mapOf m

/-- The element written, of the name and of every name of the same row. -/
theorem elem_setElem {s : State} (n t : Nat) (v : Word) (hm : s.isMapped n = true) (m u : Nat) :
    (SameRow s m n → (s.setElem n t v).elem m u = if u = t then v else s.elem m u)
    ∧ (¬ SameRow s m n → (s.setElem n t v).elem m u = s.elem m u) := by
  unfold State.setElem SameRow
  by_cases hh : s.cur.handler = true
  · rw [if_pos hh, if_pos hh]
    have hsl := slice_updSlice s (sliceOfLoc s.cur.loc) (sliceOfLoc s.cur.loc)
      (fun x => { x with hrows := tweakNth [] x.hrows n (fun d => putNth 0 d t v) }) (by simp)
    simp only [State.elem, updSlice_cur, hh, if_true]
    rw [hsl, if_pos rfl]
    constructor
    · rintro rfl
      simp only [nth_tweakNth, if_true, nth_putNth]
    · intro hne
      simp only [nth_tweakNth, hne, if_false]
  · have hh' : s.cur.handler = false := by simpa using hh
    rw [if_neg hh, if_neg hh]
    obtain ⟨r, hr⟩ := Option.isSome_iff_exists.1 (show (s.me.mapOf n).isSome = true by simpa [State.isMapped, hh'] using hm)
    rw [hr]
    have hsl := slice_updSlice s (sliceOfLoc s.cur.loc) (sliceOfLoc s.cur.loc)
      (fun x => x.editData r (fun d => putNth 0 d t v)) (by simp)
    simp only [State.elem, updSlice_cur, hh', Bool.false_eq_true, if_false, me_updSlice]
    rw [hsl, if_pos rfl]
    constructor
    · intro e
      rw [e]
      simp only []
      rw [elem_editData]
      simp
    · intro hne
      cases hmr : s.me.mapOf m with
      | none => rfl
      | some q =>
        have : q ≠ r := fun e => hne (by rw [hmr, e])
        simp only []
        rw [elem_editData]
        simp [this]

theorem isMapped_congr {s t : State} {w : Writes} (h : Edit s t w) {n : Nat} (hn : s.isMapped n = true) : t.isMapped n = true := by
  unfold State.isMapped at hn ⊢
  rw [h.cur]
  cases hh : s.cur.handler with
  | true => rfl
  | false =>
    have := h.bank.maps hh n (.inr (by simpa [State.isMapped, hh] using hn))
    rw [this]
    simpa [hh] using hn

theorem sameRow_congr {s t : State} {w : Writes} (h : Edit s t w) {n m : Nat} (hn : s.isMapped n = true)
    (hm : s.isMapped m = true ∨ m ∉ w.names) : SameRow t m n ↔ SameRow s m n := by
  unfold SameRow
  rw [h.cur]
  cases hh : s.cur.handler with
  | true => simp
  | false =>
    simp only [Bool.false_eq_true, if_false]
    rw [h.bank.maps hh n (.inr hn), h.bank.maps hh m (hm.symm.imp id id)]

/-- Several elements of a mapped name are written. -/
theorem edit_setElems {s : State} (hl : Live s) (n : Nat) (l : List (Nat × Word)) (hm : s.isMapped n = true) :
    Edit s (s.setElems n l) { names := [n] } := by
  induction l generalizing s with
  | nil =>
    exact (Edit.refl hl).weaken (fun _ h => absurd h (by simp)) (fun _ h => h) (fun _ h => h) (fun _ => rfl)
  | cons p l ih =>
    have h1 := edit_setElem hl n p.1 p.2 hm
    have h2 := ih h1.live (isMapped_congr h1 hm)
    exact (h1.trans h2).weaken (by simp [Writes.and]) (by simp [Writes.and]) (by simp [Writes.and]) (by simp [Writes.and])

/-- The elements of a name of which several are written, one value for each thread listed. -/
theorem elem_setElems {s : State} (hl : Live s) (n : Nat) (l : List (Nat × Word)) (hm : s.isMapped n = true)
    (hnd : (l.map (·.1)).Nodup) (m u : Nat) :
    (SameRow s m n → (s.setElems n l).elem m u = (lookupKey l u).getD (s.elem m u))
    ∧ (¬ SameRow s m n → (s.setElems n l).elem m u = s.elem m u) := by
  induction l generalizing s with
  | nil => exact ⟨fun _ => rfl, fun _ => rfl⟩
  | cons p l ih =>
    obtain ⟨t, v⟩ := p
    have h1 := edit_setElem hl n t v hm
    simp only [List.map_cons, List.nodup_cons] at hnd
    obtain ⟨i1, i2⟩ := ih h1.live (isMapped_congr h1 hm) hnd.2
    obtain ⟨e1, e2⟩ := elem_setElem n t v hm m u
    have hsr : SameRow (s.setElem n t v) m n ↔ SameRow s m n := by
      by_cases hmn : m = n
      · subst hmn; unfold SameRow; simp
      · exact sameRow_congr h1 hm (.inr (by simpa using hmn))
    constructor
    · intro hs
      show ((s.setElem n t v).setElems n l).elem m u = _
      rw [i1 (hsr.2 hs), e1 hs]
      simp only [lookupKey]
      by_cases hut : u = t
      · subst hut
        simp [lookupKey_none hnd.1]
      · have : (t == u) = false := by simpa using fun e => hut e.symm
        simp [this, hut]
    · intro hs
      show ((s.setElem n t v).setElems n l).elem m u = _
      rw [i2 (fun c => hs (hsr.1 c)), e2 hs]

/-! ### Allocation -/

theorem freeRow_none (x : Slice) (h : x.freeRow < 128) : x.row? x.freeRow = none := by
  unfold Slice.freeRow at h ⊢
  cases hf : (List.range 128).find? (fun r => (x.row? r).isNone) with
  | none => rw [hf] at h; exact absurd h (by decide)
  | some r => simpa using List.find?_some hf

theorem nth_replicate (n t : Nat) (d : α) : nth (List.replicate n d) t d = d := by
  unfold nth
  rw [List.getD_eq_getElem?_getD, List.getElem?_replicate]
  split <;> rfl

/-- One name is mapped to a fresh row of zeros. -/
theorem edit_allocOne {s u : State} (hl : Live s) (hh : s.cur.handler = false) {n r : Nat} (hn : s.me.mapOf n = none)
    (ha : s.allocRow s.cur.loc = some (r, u)) :
    Edit s (u.setMap s.cur.loc n (some r)) { names := [n] } ∧ (u.setMap s.cur.loc n (some r)).me.mapOf n = some r
    ∧ (∀ m th, (u.setMap s.cur.loc n (some r)).elem m th = s.elem m th) := by
  obtain ⟨w, hw⟩ := live_warp hl hh
  unfold State.allocRow at ha
  rw [hw] at ha
  simp only [] at ha
  split at ha
  rotate_left
  · exact absurd ha (by simp)
  rename_i hc
  simp only [Bool.and_eq_true, decide_eq_true_eq] at hc
  simp only [Option.some.injEq, Prod.mk.injEq] at ha
  obtain ⟨hr, hu⟩ := ha
  have hfree : (s.slice (sliceOfLoc s.cur.loc)).row? r = none := by rw [← hr]; exact freeRow_none _ hc.2
  rw [hr] at hu
  let row : Row := { no := r, holders := 1, charge := s.cur.loc.slot, data := List.replicate 32 0 }
  let g : Slice → Slice := fun x => { x with rows := x.rows ++ [row] }
  let f : Warp → Warp := fun w => { w with balance := w.balance + 1, map := putNth none w.map n (some r) }
  have ht : u.setMap s.cur.loc n (some r) = (s.updSlice (sliceOfLoc s.cur.loc) g).updWarp s.cur.loc f := by
    rw [← hu]
    exact updWarp_updWarp _ _ _ _ (fun _ h => h)
  rw [ht]
  have hfl : ∀ x : Warp, x.loc = s.cur.loc → (f x).loc = s.cur.loc := fun _ h => h
  have hw' : ∃ x, (s.updSlice (sliceOfLoc s.cur.loc) g).warp? (s.updSlice (sliceOfLoc s.cur.loc) g).cur.loc = some x :=
    ⟨w, by simp [hw]⟩
  have hme : ((s.updSlice (sliceOfLoc s.cur.loc) g).updWarp s.cur.loc f).me = f s.me := by
    have := me_updWarp hw' f (fun _ h => h)
    simpa using this
  have hsl : ∀ i, ((s.updSlice (sliceOfLoc s.cur.loc) g).updWarp s.cur.loc f).slice i =
      if i = sliceOfLoc s.cur.loc then g (s.slice (sliceOfLoc s.cur.loc)) else s.slice i := fun i => by
    rw [slice_updWarp]; exact slice_updSlice s _ i g (by simp [g])
  have hH : ((s.updSlice (sliceOfLoc s.cur.loc) g).updWarp s.cur.loc f).myH = s.myH := by
    rw [myH_updWarp]; exact myH_updSlice _ _ _ (by simp [g]) rfl
  have hrow : ∀ q, (g (s.slice (sliceOfLoc s.cur.loc))).row? q =
      if q = r then some row else (s.slice (sliceOfLoc s.cur.loc)).row? q := by
    intro q
    unfold Slice.row? at hfree ⊢
    simp only [g, List.find?_append]
    by_cases hq : q = r
    · subst hq; simp [hfree, row]
    · have : (r == q) = false := by simpa using fun e => hq e.symm
      simp [hq, row, this]
  have hmap : ∀ m, (f s.me).mapOf m = if m = n then some r else s.me.mapOf m := fun m => nth_putNth _ _ _ _ _
  refine ⟨⟨⟨?_, ?_, ?_, ?_, ?_, ?_, ?_, by rw [hH]⟩, ⟨?_, ?_, ?_, ?_, ?_, ?_, ?_⟩, by simp, ?_, ?_, ?_, ?_, ?_, ?_, ?_⟩, ?_, ?_⟩
  · unfold State.frozen; simp
  · intro l hlo
    rw [warp?_updWarp _ _ _ f hfl, if_neg (by simpa [hh] using hlo), warp?_updSlice]
  · intro i hi; rw [hsl, if_neg hi]
  · rw [hme]; rfl
  · rw [hsl, if_pos rfl]; rfl
  · intro _; rw [hsl, if_pos rfl]; exact ⟨rfl, rfl⟩
  · intro h; rw [hh] at h; exact absurd h (by decide)
  · intro k _; simp [State.uni, hh, hme, f]
  · intro p _ th; simp [State.pred, hh, hme, f]
  · intro _ m hm
    rw [hme, hmap]
    by_cases hmn : m = n
    · subst hmn; simp [State.isMapped, hh, hn] at hm
    · rw [if_neg hmn]
  · intro _ m q hm h1 h2
    have hmn : m = n := by simpa using hm
    rw [hme, hmap, if_pos hmn] at h2
    cases h2
    exact hfree
  · intro _ q hq
    have := hq n (by simp)
    rw [hme, hmap, if_pos rfl] at this
    rw [hsl, if_pos rfl, hrow, if_neg (fun e => this (by rw [e]))]
  · intro q hq
    rw [hsl, if_pos rfl, hrow]
    by_cases hqr : q = r
    · rw [if_pos hqr]; rfl
    · rw [if_neg hqr]; exact hq
  · intro h; rw [hh] at h; exact absurd h (by decide)
  · intro th _; rw [hme]
  · intro th _; rw [hme]; simp; rfl
  · simp [State.openWaits, hh, hme, f]
  · intro k; simp [State.flagCount, hh, hme, f]
  · simp [State.ops, hh, hme, f]
  · rw [hH]; exact ⟨rfl, rfl⟩
  · unfold Live
    simp only [updWarp_cur, updSlice_cur, hh, Bool.false_eq_true, if_false]
    exact ⟨f w, by rw [warp?_updWarp _ _ _ f hfl, if_pos rfl, warp?_updSlice, hw]; rfl⟩
  · rw [hme, hmap, if_pos rfl]
  · intro m th
    simp only [State.elem, updWarp_cur, updSlice_cur, hh, Bool.false_eq_true, if_false, hme, hmap]
    rw [hsl, if_pos rfl]
    have hz : nth row.data th 0 = 0 := nth_replicate 32 th 0
    by_cases hmn : m = n
    · subst hmn
      rw [if_pos rfl, hn]
      simp only [Slice.elem, hrow, if_true]
      exact hz
    · rw [if_neg hmn]
      cases hmm : s.me.mapOf m with
      | none => rfl
      | some q =>
        simp only [Slice.elem, hrow]
        by_cases hq : q = r
        · subst hq
          rw [if_pos rfl, hfree]
          exact hz
        · rw [if_neg hq]

/-- The names of a destination are mapped, with fresh rows of zeros for those that were not. -/
theorem edit_allocNames {s t : State} (hl : Live s) (hh : s.cur.handler = false) (ns : List Nat)
    (ha : s.allocNames s.cur.loc ns = some t) :
    Edit s t { names := ns } ∧ (∀ n ∈ ns, t.isMapped n = true) ∧ (∀ m th, t.elem m th = s.elem m th) := by
  induction ns generalizing s with
  | nil =>
    simp only [State.allocNames, Option.some.injEq] at ha
    subst ha
    exact ⟨(Edit.refl hl).weaken (fun _ h => absurd h (by simp)) (fun _ h => h) (fun _ h => h) (fun _ => rfl),
      fun n hn => absurd hn (by simp), fun _ _ => rfl⟩
  | cons n ns ih =>
    obtain ⟨w, hw⟩ := live_warp hl hh
    rw [State.allocNames, hw] at ha
    simp only [] at ha
    rw [← me_eq hw] at ha
    cases hn : s.me.mapOf n with
    | some r =>
      rw [hn] at ha
      simp only [] at ha
      obtain ⟨i1, i2, i3⟩ := ih hl hh ha
      have hmn : s.isMapped n = true := by simp [State.isMapped, hh, hn]
      refine ⟨i1.weaken (fun m hm => List.mem_cons_of_mem _ hm) (fun _ h => h) (fun _ h => h) (fun _ => rfl), ?_, i3⟩
      intro m hm
      rcases List.mem_cons.1 hm with rfl | hm
      · exact isMapped_congr i1 hmn
      · exact i2 m hm
    | none =>
      rw [hn] at ha
      simp only [] at ha
      cases har : s.allocRow s.cur.loc with
      | none => rw [har] at ha; exact absurd ha (by simp)
      | some p =>
        obtain ⟨r, u⟩ := p
        rw [har] at ha
        simp only [] at ha
        obtain ⟨a1, a2, a3⟩ := edit_allocOne hl hh hn har
        have hc := a1.cur
        have ha' : (u.setMap s.cur.loc n (some r)).allocNames (u.setMap s.cur.loc n (some r)).cur.loc ns = some t := by
          rw [hc]; exact ha
        obtain ⟨i1, i2, i3⟩ := ih a1.live (by rw [hc]; exact hh) ha'
        refine ⟨(a1.trans i1).weaken ?_ (by simp [Writes.and]) (by simp [Writes.and]) (by simp [Writes.and]), ?_,
          fun m th => (i3 m th).trans (a3 m th)⟩
        · intro m hm; simpa [Writes.and] using hm
        · intro m hm
          rcases List.mem_cons.1 hm with rfl | hm
          · exact isMapped_congr i1 (by simp [State.isMapped, a2])
          · exact i2 m hm

end Sys2Proof.Laws
end

