-- ==== Sys2Proof/Laws/Issue.lean ====
section
/-!
SUPPORT. The course of an instruction of a slot: when it executes, what its end does, and the frame of an instruction whose operations
are edits of the issuing bank.
-/
namespace Sys2Proof.Laws
open Sys2Proof Sys2Proof.Machine

/-! ### The course up to the execution -/

theorem ready_run {s : State} {g : Guard} {cf : Attach} {ts : List Touch} (h : s.ready g cf ts = true) : s.run ≠ 0 := by
  simp only [State.ready, Bool.and_eq_true, bne_iff_ne] at h; exact h.1.1.1.1.1.1

theorem ready_live {s : State} {g : Guard} {cf : Attach} {ts : List Touch} (h : s.ready g cf ts = true) : Live s :=
  live_of_run (ready_run h)

theorem ready_ex {s : State} {g : Guard} {cf : Attach} {ts : List Touch} (h : s.ready g cf ts = true) : s.ex g ≠ 0 := by
  simp only [State.ready, Bool.and_eq_true, bne_iff_ne] at h; exact h.1.1.1.2

/-- An instruction that is ready executes its body. -/
theorem issue_ready {s : State} {g : Guard} {cf : Attach} {ts : List Touch} (h : s.ready g cf ts = true)
    (body : Mask → Mask → State) : s.issue true g cf ts body = .next (body s.run (s.ex g)) := by
  simp only [State.ready, Bool.and_eq_true, bne_iff_ne] at h
  obtain ⟨⟨⟨⟨⟨⟨h1, h2⟩, h3⟩, h4⟩, h5⟩, h6⟩, h7⟩ := h
  unfold State.issue State.onRun
  rw [if_neg h1]
  have hf : (s.flagOf cf).isNone = false := by
    rw [← Option.not_isSome, h2]; rfl
  have hb : (s.cur.handler && !ts.all Touch.inBank) = false := by
    cases hh : s.cur.handler <;> simp [hh] at h3 ⊢
    exact h3
  simp only [Bool.not_true, hf, hb, Bool.or_self, Bool.false_eq_true, if_false, h4, h5, h6, h7, State.ex]

/-- Names that are mapped are read. -/
theorem reading_mapped {s : State} {ts : List Touch} (h : s.mapped ts = true) (run ex : Mask) (k : State) :
    s.reading run ex ts k = k := by
  have : s.firstUnmapped ts = none := by
    unfold State.firstUnmapped
    rw [List.findSome?_eq_none_iff]
    intro x hx
    have := List.all_eq_true.1 h x hx
    cases x with
    | name n => simp only [] at this ⊢; rw [if_pos this]
    | uni k => rfl
    | pred p => rfl
  simp [State.reading, this]

/-! ### The end of an instruction -/

@[simp] theorem raise_nil (s : State) : s.raise [] = s := rfl

theorem thread_congr {s u : State} {w : Writes} (h : Edit s u w) {th : Nat} (ht : th < 32) :
    (u.me.thread th).st = (s.me.thread th).st ∧ (u.me.thread th).pc = (s.me.thread th).pc
    ∧ (u.me.thread th).hdr = (s.me.thread th).hdr := by
  rw [h.threads th ht]; exact ⟨rfl, rfl, rfl⟩

theorem runAt_congr {a b : Warp} (h : ∀ th, th < 32 → (a.thread th).st = (b.thread th).st ∧ (a.thread th).pc = (b.thread th).pc)
    (pc : Word) : a.runAt pc = b.runAt pc := by
  apply mask_ext
  intro t ht
  simp only [Warp.runAt, bitAt_maskOf]
  rw [(h t ht).1, (h t ht).2]

theorem run_of_live {s : State} (hl : Live s) (hh : s.cur.handler = false) : s.run = s.me.runAt s.cur.pc := by
  obtain ⟨w, hw⟩ := live_warp hl hh
  rw [run_eq_runAt hh hw, me_eq hw]

theorem run_of_hrun {s : State} (hl : Live s) (hh : s.cur.handler = true) :
    s.run = if s.myH.pc == s.cur.pc then listMask [s.myH.thread] else 0 := by
  obtain ⟨x, hx⟩ := live_hrun hl hh
  simp [State.run, hh, hx, myH_eq hx]

theorem frozen_myH {s u : State} (h : u.myH.frozen = s.myH.frozen) :
    u.myH.thread = s.myH.thread ∧ u.myH.hdr = s.myH.hdr := by
  have h1 := congrArg HRun.thread h
  have h2 := congrArg HRun.hdr h
  simp only [HRun.frozen] at h1 h2
  exact ⟨h1, h2⟩

/-- An edit of the bank does not change the run. -/
theorem Edit.run {s u : State} {w : Writes} (hl : Live s) (h : Edit s u w) : u.run = s.run := by
  cases hh : s.cur.handler with
  | false =>
    have hc := h.cur
    rw [run_of_live hl hh, run_of_live h.live (by rw [hc]; exact hh), hc]
    exact runAt_congr (fun th ht => ⟨(thread_congr h ht).1, (thread_congr h ht).2.1⟩) _
  | true =>
    have hc := h.cur
    rw [run_of_hrun hl hh, run_of_hrun h.live (by rw [hc]; exact hh), hc, h.hpc.1, (frozen_myH h.same.handler).1]

/-- An edit of the bank does not change which flag CF names. -/
theorem Edit.flagOf {s u : State} {w : Writes} (hl : Live s) (h : Edit s u w) (cf : Attach) : u.flagOf cf = s.flagOf cf := by
  have hlast : u.lastHdr = s.lastHdr := by
    unfold State.lastHdr
    rw [h.cur, h.run hl]
    cases hh : s.cur.handler with
    | true => simp [(frozen_myH h.same.handler).2]
    | false =>
      simp only [Bool.false_eq_true, if_false]
      cases hm : maskList s.run with
      | nil => rfl
      | cons t ts => exact (thread_congr h (maskList_lt (by rw [hm]; simp))).2.2
  unfold State.flagOf
  rw [hlast]

/-- The frame of a passage by a run of the program: the bank was edited, a flag may have been taken, and the run advances. -/
theorem passed_warp {s u : State} {w : Writes} (cf : Attach) (hl : Live s) (hh : s.cur.handler = false) (he : Edit s u w)
    (hst : ∀ th, bitAt s.run th = false → w.sticky th = 0) (n : Nat) (fl : List Nat) (inf : List Flight)
    (ha : match s.flagOf cf with
      | some (some k) => fl = tweakNth 0 u.me.flags k (· + 1)
          ∧ inf = u.me.inflight ++ [{ id := s.nextUid, flag := some k, load := false, writes := [], since := s.clk }]
          ∧ n = s.nextUid + 1
      | _ => fl = u.me.flags ∧ inf = u.me.inflight ∧ n = s.nextUid)
    {t : State} (hframe : t.frozen = u.frozen) (hn : t.nextUid = n) (hsl : t.slices = u.slices)
    (hw : ∀ l, l ≠ s.cur.loc → t.warp? l = u.warp? l)
    (hme : t.me = (({ u.me with flags := fl, inflight := inf } : Warp).updThreads s.run
      (fun _ x => { x with pc := succPc s.cur.pc, pos := x.pos + 1, pass := false, arrived := false })).tidyWaits) :
    s.Passed t cf w := by
  have hslice : ∀ i, t.slice i = u.slice i := fun i => by simp only [State.slice, hsl]
  have hcu := he.cur
  have hct : t.cur = s.cur := (frozen_cur hframe).trans hcu
  have hH : t.myH = u.myH := by unfold State.myH State.hrun?; rw [hct, hcu, hslice]
  have hHs : t.myH.frozen = s.myH.frozen := by rw [hH]; exact he.same.handler
  have hb := he.bank
  have hops := he.ops
  have hflags := he.flags
  simp only [State.ops, State.flagCount, hcu, hh, Bool.false_eq_true, if_false] at hops hflags
  refine ⟨⟨⟨hframe.trans he.same.rest, ?_, ?_, ?_, ?_, ?_, ?_, hHs⟩, ⟨?_, ?_, ?_, ?_, ?_, ?_, ?_⟩, ?_, ?_, ?_⟩, ?_⟩
  · intro l hlo
    have hlo : l ≠ s.cur.loc := by simpa [hh] using hlo
    exact (hw l hlo).trans (he.same.warps l (.inl hlo))
  · intro i hi; rw [hslice]; exact he.same.slices i hi
  · rw [hme]; exact he.same.warp
  · rw [hslice]; exact he.same.slice
  · intro h; rw [hslice]; exact he.same.program h
  · intro h; rw [hh] at h; exact absurd h (by decide)
  · intro k hk
    have := hb.unis k hk
    simp only [State.uni, hct, hcu, hh, Bool.false_eq_true, if_false, hme] at this ⊢
    exact this
  · intro p hp th
    have := hb.preds p hp th
    simp only [State.pred, hct, hcu, hh, Bool.false_eq_true, if_false, hme] at this ⊢
    exact this
  · intro h m hm; rw [hme]; exact hb.maps h m hm
  · intro h m r hm h1 h2; rw [hme] at h2; exact hb.fresh h m r hm h1 h2
  · intro h r hr
    rw [hslice]
    refine hb.rows h r (fun m hm => ?_)
    have := hr m hm
    rw [hme] at this
    exact this
  · intro r hr; rw [hslice]; exact hb.kept r hr
  · intro h; rw [hh] at h; exact absurd h (by decide)
  rotate_right 1
  · unfold State.Attached
    cases hf : s.flagOf cf with
    | none =>
      rw [hf] at ha
      obtain ⟨h1, h2, h3⟩ := ha
      refine ⟨fun j => ?_, ?_, hn.trans h3⟩
      · simp only [State.flagCount, hct, hh, Bool.false_eq_true, if_false, hme, Warp.tidyWaits, Warp.updThreads, h1]
        exact hflags j
      · simp only [State.ops, hct, hh, Bool.false_eq_true, if_false, hme, Warp.tidyWaits, Warp.updThreads, h2]
        exact hops
    | some o =>
      rw [hf] at ha
      cases o with
      | none =>
        obtain ⟨h1, h2, h3⟩ := ha
        refine ⟨fun j => ?_, ?_, hn.trans h3⟩
        · simp only [State.flagCount, hct, hh, Bool.false_eq_true, if_false, hme, Warp.tidyWaits, Warp.updThreads, h1]
          exact hflags j
        · simp only [State.ops, hct, hh, Bool.false_eq_true, if_false, hme, Warp.tidyWaits, Warp.updThreads, h2]
          exact hops
      | some k =>
        obtain ⟨h1, h2, h3⟩ := ha
        refine ⟨?_, fun j hj => ?_, ?_, hn.trans h3⟩
        · simp only [State.flagCount, hct, hh, Bool.false_eq_true, if_false, hme, Warp.tidyWaits, Warp.updThreads, h1,
            nth_tweakNth, if_true, hflags]
        · simp only [State.flagCount, hct, hh, Bool.false_eq_true, if_false, hme, Warp.tidyWaits, Warp.updThreads, h1,
            nth_tweakNth, hj, hflags]
        · simp only [State.ops, hct, hh, Bool.false_eq_true, if_false, hme, Warp.tidyWaits, Warp.updThreads, h2, hops]
  · intro _ th ht
    rw [hme, tidyWaits_thread, thread_updThreads _ _ _ _ ht]
    have hthr : ({ u.me with flags := fl, inflight := inf } : Warp).thread th = u.me.thread th := rfl
    rw [hthr, he.threads th ht]
    by_cases hr : bitAt s.run th = true
    · have hlt : th < u.me.threads.length := by
        apply running_lt
        rw [(thread_congr he ht).1]
        rw [run_of_live hl hh] at hr
        exact (runAt_spec hr).2.1
      rw [if_pos ⟨hr, hlt⟩, if_pos hr, hh]
      rfl
    · rw [if_neg (fun c => hr c.1), if_neg hr, hst th (by simpa using hr)]
      simp
  · intro _
    have hwt := he.waits
    simp only [State.openWaits, hcu, hh, Bool.false_eq_true, if_false] at hwt
    rw [hme]
    simp only [Warp.tidyWaits, Warp.updThreads, hwt]
    rfl
  · intro h; rw [hh] at h; exact absurd h (by decide)

/-- The frame of a passage by a handler run. -/
theorem passed_hrun {s u : State} {w : Writes} (cf : Attach) (hh : s.cur.handler = true) (he : Edit s u w)
    (n : Nat) (fl : List Nat) (inf : List Flight)
    (ha : match s.flagOf cf with
      | some (some k) => fl = tweakNth 0 u.myH.flags k (· + 1)
          ∧ inf = u.myH.inflight ++ [{ id := s.nextUid, flag := some k, load := false, writes := [], since := s.clk }]
          ∧ n = s.nextUid + 1
      | _ => fl = u.myH.flags ∧ inf = u.myH.inflight ∧ n = s.nextUid)
    {t : State} (g : HRun → HRun)
    (hg : ∀ x, g x = { x with flags := (g x).flags, inflight := (g x).inflight, pc := succPc s.cur.pc, pos := x.pos + 1, arrived := false,
                              waits := x.waits.filter (fun y => y.pc != s.cur.pc) })
    (hgf : (g u.myH).flags = fl) (hgi : (g u.myH).inflight = inf)
    (ht : t = ({ u with nextUid := n } : State).updHrun s.cur.loc g) : s.Passed t cf w := by
  have hcu := he.cur
  have hct : t.cur = s.cur := by rw [ht, updHrun_cur]; exact hcu
  have hslice : ∀ i, t.slice i = if i = sliceOfLoc s.cur.loc then
      { u.slice i with handler := (u.slice i).handler.map g } else u.slice i := by
    intro i; rw [ht]; exact slice_updHrun _ _ g i
  have hH : t.myH = g u.myH := by
    rw [ht]
    have hl := live_hrun he.live (by rw [hcu]; exact hh)
    rw [hcu] at hl
    exact myH_updHrun_at (s := { u with nextUid := n }) (congrArg Cur.loc hcu) hl g (fun x => by rw [hg x])
  have hHg := hg u.myH
  have hwarp : ∀ l, t.warp? l = u.warp? l := by intro l; rw [ht, warp?_updHrun]; rfl
  have hme : t.me = u.me := by unfold State.me; rw [hct, hcu, hwarp]
  have hfr : t.frozen = u.frozen := by rw [ht]; unfold State.frozen; simp
  have hn : t.nextUid = n := by rw [ht]; simp
  have hb := he.bank
  have hops := he.ops
  have hflags := he.flags
  have hwt := he.waits
  simp only [State.ops, State.flagCount, State.openWaits, hcu, hh, if_true] at hops hflags hwt
  refine ⟨⟨⟨hfr.trans he.same.rest, ?_, ?_, ?_, ?_, ?_, ?_, ?_⟩, ⟨?_, ?_, ?_, ?_, ?_, ?_, ?_⟩, ?_, ?_, ?_⟩, ?_⟩
  · intro l hlo; rw [hwarp]; exact he.same.warps l hlo
  · intro i hi; rw [hslice, if_neg hi]; exact he.same.slices i hi
  · rw [hme]; exact he.same.warp
  · rw [hslice, if_pos rfl]; exact he.same.slice
  · intro h; rw [hh] at h; exact absurd h (by decide)
  · intro h; rw [hslice, if_pos rfl]; exact he.same.rows h
  · rw [hH, hHg]; exact he.same.handler
  · intro k hk
    have := hb.unis k hk
    simp only [State.uni, hct, hcu, hh, if_true] at this ⊢
    rw [hH, hHg]; exact this
  · intro p hp th
    have := hb.preds p hp th
    simp only [State.pred, hct, hcu, hh, if_true] at this ⊢
    rw [hH, hHg]; exact this
  · intro h; rw [hh] at h; exact absurd h (by decide)
  · intro h; rw [hh] at h; exact absurd h (by decide)
  · intro h; rw [hh] at h; exact absurd h (by decide)
  · intro r hr; rw [hslice, if_pos rfl]; exact hb.kept r hr
  · intro h m hm th
    have := hb.elems h m hm th
    simp only [State.elem, hct, hcu, hh, if_true] at this ⊢
    rw [hslice, if_pos rfl]; exact this
  rotate_right 1
  · unfold State.Attached
    cases hf : s.flagOf cf with
    | none =>
      rw [hf] at ha
      obtain ⟨h1, h2, h3⟩ := ha
      refine ⟨fun j => ?_, ?_, hn.trans h3⟩
      · simp only [State.flagCount, hct, hh, if_true, hH, hgf, h1]; exact hflags j
      · simp only [State.ops, hct, hh, if_true, hH, hgi, h2]; exact hops
    | some o =>
      rw [hf] at ha
      cases o with
      | none =>
        obtain ⟨h1, h2, h3⟩ := ha
        refine ⟨fun j => ?_, ?_, hn.trans h3⟩
        · simp only [State.flagCount, hct, hh, if_true, hH, hgf, h1]; exact hflags j
        · simp only [State.ops, hct, hh, if_true, hH, hgi, h2]; exact hops
      | some k =>
        obtain ⟨h1, h2, h3⟩ := ha
        refine ⟨?_, fun j hj => ?_, ?_, hn.trans h3⟩
        · simp only [State.flagCount, hct, hh, if_true, hH, hgf, h1, nth_tweakNth, hflags]
        · simp only [State.flagCount, hct, hh, if_true, hH, hgf, h1, nth_tweakNth, hj, if_false, hflags]
        · simp only [State.ops, hct, hh, if_true, hH, hgi, h2, hops]
  · intro h; rw [hh] at h; exact absurd h (by decide)
  · intro h; rw [hh] at h; exact absurd h (by decide)
  · intro _
    rw [hH, hHg]
    exact ⟨rfl, by simp only [he.hpc.2], rfl, by simp only [hwt]⟩

/-- AN INSTRUCTION PASSES ITS SLOT: after edits of the issuing bank, its end has the frame of the instruction. -/
theorem complete_passed {s u : State} {w : Writes} {run ex : Mask} (cf : Attach) (hrun : run = s.run) (hr : s.run ≠ 0)
    (hex : ex ≠ 0) (he : Edit s u w) (hst : ∀ th, bitAt s.run th = false → w.sticky th = 0) :
    s.Passed (u.complete run ex cf []) cf w ∧ (∀ n th, (u.complete run ex cf []).elem n th = u.elem n th)
    ∧ (∀ k, (u.complete run ex cf []).uni k = u.uni k) ∧ (∀ p th, (u.complete run ex cf []).pred p th = u.pred p th)
    ∧ (∀ n, (u.complete run ex cf []).me.mapOf n = u.me.mapOf n) := by
  subst hrun
  have hl := live_of_run hr
  have hcu := he.cur
  have hall : ex &&& ~~~(listMask []) = ex := mask_ext (fun t ht => by rw [listMask_nil, bitAt_and, bitAt_not _ ht, bitAt_zero]; simp)
  have hall2 : s.run &&& ~~~(listMask []) = s.run := mask_ext (fun t ht => by rw [listMask_nil, bitAt_and, bitAt_not _ ht, bitAt_zero]; simp)
  have hcomp : u.complete s.run ex cf [] = (u.attach cf).advance s.run := by
    simp only [State.complete, List.map_nil, hall, hall2, hex, if_false, raise_nil]
  rw [hcomp]
  cases hh : s.cur.handler with
  | false =>
    have hhu : u.cur.handler = false := by rw [hcu]; exact hh
    -- the state before the advance differs from `u` in a flag and an operation in flight
    have hpre : ∃ (n : Nat) (fl : Warp → List Nat) (inf : Warp → List Flight), (u.attach cf) = ({ u with nextUid := n } : State).updWarp s.cur.loc
          (fun x => { x with flags := fl x, inflight := inf x }) ∧
        (match s.flagOf cf with
          | some (some k) => fl u.me = tweakNth 0 u.me.flags k (· + 1)
              ∧ inf u.me = u.me.inflight ++ [{ id := s.nextUid, flag := some k, load := false, writes := [], since := s.clk }]
              ∧ n = s.nextUid + 1
          | _ => fl u.me = u.me.flags ∧ inf u.me = u.me.inflight ∧ n = s.nextUid) := by
      have hid : ∀ v : State, v.updWarp s.cur.loc (fun x => { x with flags := x.flags, inflight := x.inflight }) = v := by
        intro v
        have : v.warps.map (fun w => if w.loc == s.cur.loc then w else w) = v.warps := by simp
        show ({ v with warps := v.warps.map (fun w => if w.loc == s.cur.loc then w else w) } : State) = v
        rw [this]
      have hclk : u.clk = s.clk := by have := congrArg State.clk he.same.rest; exact this
      unfold State.attach
      rw [he.flagOf hl]
      cases s.flagOf cf with
      | none => exact ⟨u.nextUid, fun x => x.flags, fun x => x.inflight, (hid u).symm, rfl, rfl, he.uid⟩
      | some o =>
        cases o with
        | none => exact ⟨u.nextUid, fun x => x.flags, fun x => x.inflight, (hid u).symm, rfl, rfl, he.uid⟩
        | some k =>
          refine ⟨u.nextUid + 1, fun x => tweakNth 0 x.flags k (· + 1), fun x => x.inflight ++
            [{ id := u.nextUid, flag := some k, load := false, writes := [], since := u.clk }], ?_, rfl,
            by rw [he.uid, hclk], by rw [he.uid]⟩
          simp only [State.launchFlight, State.fresh, State.flagUp, Bool.false_eq_true, if_false, hcu, updWarp_cur, hh]
          exact updWarp_updWarp _ _ _ _ (fun _ h => h)
    obtain ⟨n, fl, inf, hatt, ha⟩ := hpre
    rw [hatt]
    have hlw : ∃ w, u.warp? s.cur.loc = some w := by have := live_warp he.live hhu; rwa [hcu] at this
    let f : Warp → Warp := fun x => (({ x with flags := fl x, inflight := inf x } : Warp).updThreads s.run
      (fun _ y => { y with pc := succPc s.cur.pc, pos := y.pos + 1, pass := false, arrived := false })).tidyWaits
    have hadv : (({ u with nextUid := n } : State).updWarp s.cur.loc (fun x => { x with flags := fl x, inflight := inf x })).advance
        s.run = ({ u with nextUid := n } : State).updWarp s.cur.loc f := by
      simp only [State.advance, State.advanceTo, updWarp_cur, hhu, Bool.false_eq_true, if_false]
      rw [hcu]
      exact updWarp_updWarp _ _ _ _ (fun _ h => h)
    rw [hadv]
    have hfl : ∀ x : Warp, x.loc = s.cur.loc → (f x).loc = s.cur.loc := fun _ h => h
    have hme : (({ u with nextUid := n } : State).updWarp s.cur.loc f).me = f u.me :=
      me_updWarp_at (s := { u with nextUid := n }) (congrArg Cur.loc hcu) hlw f hfl
    refine ⟨passed_warp (u := u) cf hl hh he hst n (fl u.me) (inf u.me) ha rfl rfl rfl ?_ hme, ?_, ?_, ?_, ?_⟩
    · intro l hlo
      rw [warp?_updWarp _ _ _ f hfl, if_neg hlo]
      rfl
    · intro m th
      simp only [State.elem, updWarp_cur, hhu, Bool.false_eq_true, if_false, hme]
      rfl
    · intro k; simp only [State.uni, updWarp_cur, hhu, Bool.false_eq_true, if_false, hme]; rfl
    · intro p th; simp only [State.pred, updWarp_cur, hhu, Bool.false_eq_true, if_false, hme]; rfl
    · intro m; rw [hme]; rfl
  | true =>
    have hhu : u.cur.handler = true := by rw [hcu]; exact hh
    -- the state after the advance differs from `u` in the handler run and in the count of uids
    have hpre : ∃ (n : Nat) (fl : HRun → List Nat) (inf : HRun → List Flight),
        (u.attach cf).advance s.run = ({ u with nextUid := n } : State).updHrun s.cur.loc
          (fun x => { x with flags := fl x, inflight := inf x, pc := succPc s.cur.pc, pos := x.pos + 1, arrived := false,
                             waits := x.waits.filter (fun y => y.pc != s.cur.pc) }) ∧
        (match s.flagOf cf with
          | some (some k) => fl u.myH = tweakNth 0 u.myH.flags k (· + 1)
              ∧ inf u.myH = u.myH.inflight ++ [{ id := s.nextUid, flag := some k, load := false, writes := [], since := s.clk }]
              ∧ n = s.nextUid + 1
          | _ => fl u.myH = u.myH.flags ∧ inf u.myH = u.myH.inflight ∧ n = s.nextUid) := by
      have hclk : u.clk = s.clk := by have := congrArg State.clk he.same.rest; exact this
      unfold State.attach
      rw [he.flagOf hl]
      have hnone : u.advance s.run = ({ u with nextUid := u.nextUid } : State).updHrun s.cur.loc
          (fun x => { x with flags := x.flags, inflight := x.inflight, pc := succPc s.cur.pc, pos := x.pos + 1, arrived := false,
                             waits := x.waits.filter (fun y => y.pc != s.cur.pc) }) := by
        simp only [State.advance, State.advanceTo, hcu, hh, if_true]
      cases s.flagOf cf with
      | none => exact ⟨u.nextUid, fun x => x.flags, fun x => x.inflight, hnone, rfl, rfl, he.uid⟩
      | some o =>
        cases o with
        | none => exact ⟨u.nextUid, fun x => x.flags, fun x => x.inflight, hnone, rfl, rfl, he.uid⟩
        | some k =>
          refine ⟨u.nextUid + 1, fun x => tweakNth 0 x.flags k (· + 1), fun x => x.inflight ++
            [{ id := u.nextUid, flag := some k, load := false, writes := [], since := u.clk }], ?_, rfl,
            by rw [he.uid, hclk], by rw [he.uid]⟩
          simp only [State.launchFlight, State.fresh, State.flagUp, if_true, hcu, updHrun_cur, hh, State.advance,
            State.advanceTo, updHrun_updHrun]
    obtain ⟨n, fl, inf, hatt, ha⟩ := hpre
    rw [hatt]
    let g : HRun → HRun := fun x => { x with flags := fl x, inflight := inf x, pc := succPc s.cur.pc, pos := x.pos + 1, arrived := false,
                                             waits := x.waits.filter (fun y => y.pc != s.cur.pc) }
    have hlw : ∃ w, u.hrun? s.cur.loc = some w := by have := live_hrun he.live hhu; rwa [hcu] at this
    have hH : (({ u with nextUid := n } : State).updHrun s.cur.loc g).myH = g u.myH :=
      myH_updHrun_at (s := { u with nextUid := n }) (congrArg Cur.loc hcu) hlw g (fun _ => rfl)
    refine ⟨passed_hrun (u := u) cf hh he n (fl u.myH) (inf u.myH) ha g (fun _ => rfl) rfl rfl rfl, ?_, ?_, ?_, ?_⟩
    · intro m th
      simp only [State.elem, updHrun_cur, hhu, if_true]
      rw [slice_updHrun, hcu, if_pos rfl]
      rfl
    · intro k; simp only [State.uni, updHrun_cur, hhu, if_true]; rw [hH]
    · intro p th; simp only [State.pred, updHrun_cur, hhu, if_true]; rw [hH]
    · intro m; simp only [me_updHrun]; rfl

end Sys2Proof.Laws
end

