-- ==== Sys2Proof/Laws/Compute.lean ====
section
/-!
SUPPORT. What an instruction does that computes a result for each executing thread, or a verdict, or a predicate.
-/
namespace Sys2Proof.Laws
open Sys2Proof Sys2Proof.Machine

theorem lookupKey_map (l : List Nat) (g : Nat → α) (t : Nat) :
    lookupKey (l.map (fun t => (t, g t))) t = if t ∈ l then some (g t) else none := by
  induction l with
  | nil => rfl
  | cons a l ih =>
    simp only [List.map_cons, lookupKey, List.mem_cons]
    by_cases h : a = t
    · subst h; simp
    · have : (a == t) = false := by simpa using h
      rw [this]
      simp only [Bool.false_eq_true, if_false, ih]
      have h' : ¬ t = a := fun e => h e.symm
      simp [h']

theorem lookupKey_maskList (m : Mask) (g : Nat → α) (t : Nat) :
    lookupKey ((maskList m).map (fun t => (t, g t))) t = if bitAt m t = true then some (g t) else none := by
  rw [lookupKey_map]; simp only [mem_maskList]

theorem lowest_mem {m : Mask} (h : m ≠ 0) : bitAt m (lowest m) = true := by
  have := maskList_ne_nil h
  unfold lowest
  cases hm : maskList m with
  | nil => exact absurd hm this
  | cons a l =>
    have : a ∈ maskList m := by rw [hm]; simp
    simpa using mem_maskList.1 this

/-- The threads that execute are in the table of the issuing warp. -/
theorem ex_lt {s : State} (hl : Live s) (hh : s.cur.handler = false) (g : Guard) {t : Nat} (h : bitAt (s.ex g) t = true) :
    t < s.me.threads.length := by
  have := executing_sub s g s.run h
  rw [run_of_live hl hh] at this
  exact running_lt (runAt_spec this).2.1

/-- Every executing thread has a result: the outcomes are those results, and no fault. -/
theorem outcomes_done (u : Bool) (ex : Mask) (hex : ex ≠ 0) (out : Nat → ThreadOut) (lo hi : Nat → Word) (fl : Nat → BitVec 8)
    (h : ∀ th, bitAt ex th = true → out th = .done (lo th) (hi th) (fl th)) :
    let pick := fun (t : Nat) => if u then lowest ex else t
    faultsOf (outcomes u ex out) = []
    ∧ donesOf (outcomes u ex out) = (maskList ex).map (fun t => (t, lo (pick t), hi (pick t), fl (pick t))) := by
  have aux : ∀ l : List Nat, (∀ t ∈ l, bitAt ex t = true) → ∀ pick : Nat → Nat, (∀ t, bitAt ex t = true → bitAt ex (pick t) = true) →
      faultsOf (l.map (fun t => (t, out (pick t)))) = []
      ∧ donesOf (l.map (fun t => (t, out (pick t)))) = l.map (fun t => (t, lo (pick t), hi (pick t), fl (pick t))) := by
    intro l hl pick hp
    induction l with
    | nil => exact ⟨rfl, rfl⟩
    | cons a l ih =>
      obtain ⟨i1, i2⟩ := ih (fun t ht => hl t (List.mem_cons_of_mem _ ht))
      have ha := h (pick a) (hp a (hl a (by simp)))
      simp only [faultsOf, donesOf, List.map_cons, List.filterMap_cons, ha] at i1 i2 ⊢
      exact ⟨i1, by rw [i2]⟩
  intro pick
  have hpick : ∀ t, bitAt ex t = true → bitAt ex (pick t) = true := by
    intro t ht
    simp only [pick]
    split
    · exact lowest_mem hex
    · exact ht
  have hall : ∀ t ∈ maskList ex, bitAt ex t = true := fun t ht => mem_maskList.1 ht
  have : outcomes u ex out = (maskList ex).map (fun t => (t, out (pick t))) := by
    unfold outcomes
    cases u with
    | false => simp [pick]
    | true =>
      simp only [if_true, pick]
      rw [h _ (lowest_mem hex)]
  rw [this]
  exact aux _ hall _ hpick

theorem mem_names {d : Dst} {wide : Bool} {n : Nat} : n ∈ d.names wide ↔
    ∃ k : Fin 128, d = .name k ∧ (n = k.val ∨ (wide = true ∧ n = k.val + 1)) := by
  cases d with
  | name k => cases wide <;> simp [Dst.names]
  | uni k => simp [Dst.names]

/-- The names of a destination are mapped: by earlier rows, or by fresh rows of zeros. -/
theorem allocating_room {s : State} (hl : Live s) (ns : List Nat) (hr : s.roomFor ns = true) :
    ∃ u, (∀ k, s.allocating ns k = k u) ∧ Edit s u { names := ns } ∧ (∀ n ∈ ns, u.isMapped n = true)
      ∧ (∀ m th, u.elem m th = s.elem m th) := by
  unfold State.roomFor at hr
  cases hh : s.cur.handler with
  | true =>
    refine ⟨s, fun k => by simp [State.allocating, hh], ?_, fun n _ => by simp [State.isMapped, hh], fun _ _ => rfl⟩
    exact (Edit.refl hl).weaken (fun _ h => absurd h (by simp)) (fun _ h => h) (fun _ h => h) (fun _ => rfl)
  | false =>
    rw [hh, Bool.false_or] at hr
    obtain ⟨u, hu⟩ := Option.isSome_iff_exists.1 hr
    obtain ⟨a1, a2, a3⟩ := edit_allocNames hl hh ns hu
    exact ⟨u, fun k => by simp [State.allocating, hh, hu], a1, a2, a3⟩

/-- A destination whose names are mapped is written. -/
theorem writeDst_spec {s : State} (hl : Live s) (d : Dst) (wide : Bool) (ex : Mask) (hex : ex ≠ 0) (lo hi : Nat → Word)
    (fl : Nat → BitVec 8) (hm : ∀ n ∈ d.names wide, s.isMapped n = true) (hu : ∀ k, d = .uni k → ∀ t, lo t = lo (lowest ex) ∧ hi t = hi (lowest ex)) :
    Edit s (s.writeDst d wide ((maskList ex).map (fun t => (t, lo t, hi t, fl t))))
      { names := d.names wide, unis := d.unis wide }
    ∧ s.Holds (s.writeDst d wide ((maskList ex).map (fun t => (t, lo t, hi t, fl t)))) ex d wide lo hi := by
  cases d with
  | name n =>
    have hn : s.isMapped n.val = true := hm _ (mem_names.2 ⟨n, rfl, .inl rfl⟩)
    have e0 : ((maskList ex).map (fun t => (t, lo t, hi t, fl t))).map (fun p => (p.1, p.2.1)) = (maskList ex).map (fun t => (t, lo t)) := by
      simp [List.map_map, Function.comp_def]
    have e1 : ((maskList ex).map (fun t => (t, lo t, hi t, fl t))).map (fun p => (p.1, p.2.2.1)) = (maskList ex).map (fun t => (t, hi t)) := by
      simp [List.map_map, Function.comp_def]
    have hnd : ∀ g : Nat → Word, (((maskList ex).map (fun t => (t, g t))).map (·.1)).Nodup := by
      intro g; simpa [List.map_map, Function.comp_def] using maskList_nodup ex
    unfold State.writeDst
    simp only [e0, e1]
    have h1 := edit_setElems hl n.val ((maskList ex).map (fun t => (t, lo t))) hn
    have hself : SameRow s n.val n.val := by unfold SameRow; simp
    cases wide with
    | false =>
      simp only [Bool.false_eq_true, if_false]
      refine ⟨h1.weaken (by simp [Dst.names]) (fun _ h => absurd h (by simp)) (fun _ h => h) (fun _ => rfl), ?_⟩
      unfold State.Holds
      refine ⟨fun th _ => ?_, fun h => absurd h (by decide)⟩
      rw [(elem_setElems hl n.val _ hn (hnd lo) n.val th).1 hself, lookupKey_maskList]
      simp only [Bool.false_and, Bool.false_eq_true, if_false]
      split <;> rfl
    | true =>
      simp only [if_true]
      have hn1 : s.isMapped (n.val + 1) = true := hm _ (mem_names.2 ⟨n, rfl, .inr ⟨rfl, rfl⟩⟩)
      have hn1' := isMapped_congr h1 hn1
      have h2 := edit_setElems h1.live (n.val + 1) ((maskList ex).map (fun t => (t, hi t))) hn1'
      refine ⟨(h1.trans h2).weaken (by simp [Writes.and, Dst.names]) (by simp [Writes.and]) (by simp [Writes.and])
        (by simp [Writes.and]), ?_⟩
      have hb := (h1.trans h2).bank
      have hc := (h1.trans h2).cur
      unfold State.Holds
      have hs2 : SameRow ((s.setElems n.val ((maskList ex).map (fun t => (t, lo t))))) (n.val + 1) (n.val + 1) := by unfold SameRow; simp
      have hsr : SameRow (s.setElems n.val ((maskList ex).map (fun t => (t, lo t)))) n.val (n.val + 1) ↔ SameRow s n.val (n.val + 1) :=
        sameRow_congr h1 hn1 (.inl hn)
      have hsr2 : SameRow s (n.val + 1) n.val ↔ SameRow s n.val (n.val + 1) := by
        unfold SameRow; split <;> exact ⟨Eq.symm, Eq.symm⟩
      -- whether the two names hold one row
      have hrow : ((s.setElems n.val ((maskList ex).map (fun t => (t, lo t)))).setElems (n.val + 1)
          ((maskList ex).map (fun t => (t, hi t)))).sameRow n.val (n.val + 1) = true ↔ SameRow s n.val (n.val + 1) := by
        unfold State.sameRow SameRow
        rw [hc]
        cases hh : s.cur.handler with
        | true => simp
        | false =>
          simp only [Bool.not_false, Bool.true_and, Bool.false_eq_true, if_false, beq_iff_eq]
          rw [hb.maps hh _ (.inr hn), hb.maps hh _ (.inr hn1)]
      refine ⟨fun th _ => ?_, fun _ th _ => ?_⟩
      · obtain ⟨p1, p2⟩ := elem_setElems h1.live (n.val + 1) ((maskList ex).map (fun t => (t, hi t))) hn1' (hnd hi) n.val th
        have q := (elem_setElems hl n.val ((maskList ex).map (fun t => (t, lo t))) hn (hnd lo) n.val th).1 hself
        rw [lookupKey_maskList] at p1 q
        by_cases hS : SameRow s n.val (n.val + 1)
        · rw [p1 (hsr.2 hS), hrow.2 hS, q]
          simp only [Bool.true_and, if_true]
          by_cases hb : bitAt ex th = true <;> simp [hb]
        · rw [p2 (fun c => hS (hsr.1 c)), q]
          have : ((s.setElems n.val ((maskList ex).map (fun t => (t, lo t)))).setElems (n.val + 1)
            ((maskList ex).map (fun t => (t, hi t)))).sameRow n.val (n.val + 1) = false := by
            rw [Bool.eq_false_iff]; exact fun c => hS (hrow.1 c)
          rw [this]
          by_cases hb : bitAt ex th = true <;> simp [hb]
      · obtain ⟨p1, _⟩ := elem_setElems h1.live (n.val + 1) ((maskList ex).map (fun t => (t, hi t))) hn1' (hnd hi) (n.val + 1) th
        rw [lookupKey_maskList] at p1
        obtain ⟨q1, q2⟩ := elem_setElems hl n.val ((maskList ex).map (fun t => (t, lo t))) hn (hnd lo) (n.val + 1) th
        rw [lookupKey_maskList] at q1
        rw [p1 hs2]
        by_cases hb : bitAt ex th = true
        · simp [hb]
        · simp only [hb, Bool.false_eq_true, if_false, Option.getD_none] at q1 ⊢
          by_cases hS : SameRow s (n.val + 1) n.val
          · exact q1 hS
          · exact q2 hS
  | uni k =>
    obtain ⟨a, l, hal⟩ : ∃ a l, maskList ex = a :: l := by
      cases h : maskList ex with
      | nil => exact absurd h (maskList_ne_nil hex)
      | cons a l => exact ⟨a, l, rfl⟩
    have hlow : lowest ex = a := by simp [lowest, hal]
    unfold State.writeDst
    simp only [hal, List.map_cons]
    have h1 := edit_setUni hl k.val (lo a)
    cases wide with
    | false =>
      simp only [Bool.false_eq_true, if_false]
      refine ⟨h1.weaken (by simp) (by simp [Dst.unis]) (fun _ h => h) (fun _ => rfl), ?_⟩
      unfold State.Holds
      refine ⟨?_, fun h => absurd h (by decide)⟩
      rw [uni_setUni hl, if_pos rfl, hlow]
    | true =>
      simp only [if_true]
      have h2 := edit_setUni h1.live (k.val + 1) (hi a)
      refine ⟨(h1.trans h2).weaken (by simp [Writes.and]) (by simp [Writes.and, Dst.unis]) (by simp [Writes.and]) (by simp [Writes.and]), ?_⟩
      unfold State.Holds
      refine ⟨?_, fun _ => ?_⟩
      · rw [uni_setUni h1.live, if_neg (by omega), uni_setUni hl, if_pos rfl, hlow]
      · rw [uni_setUni h1.live, if_pos rfl, hlow]

/-- An edit that writes no name leaves every element. -/
theorem Edit.elem_eq {s t : State} {w : Writes} (h : Edit s t w) (hn : w.names = []) (n th : Nat) : t.elem n th = s.elem n th := by
  cases hh : s.cur.handler with
  | true => exact h.bank.elems hh n (by rw [hn]; simp) th
  | false =>
    have hm := h.bank.maps hh n (.inl (by rw [hn]; simp))
    have hrow := fun r => h.bank.rows hh r (by rw [hn]; simp)
    simp only [State.elem, h.cur, hh, Bool.false_eq_true, if_false, hm]
    cases s.me.mapOf n with
    | none => rfl
    | some r => simp only [Slice.elem, hrow]

/-- Two states read alike: elements, uniform registers, and which names share rows. -/
theorem holds_congr {s s' t t' : State} {ex : Mask} {d : Dst} {wide : Bool} {lo hi : Nat → Word}
    (h1 : ∀ n th, t'.elem n th = t.elem n th) (h2 : ∀ k, t'.uni k = t.uni k) (h3 : ∀ n, t'.me.mapOf n = t.me.mapOf n)
    (h4 : t'.cur = t.cur) (h5 : ∀ n th, s'.elem n th = s.elem n th) (h : s.Holds t ex d wide lo hi) :
    s'.Holds t' ex d wide lo hi := by
  unfold State.Holds State.sameRow at h ⊢
  cases d with
  | name n => simpa only [h1, h3, h4, h5] using h
  | uni k => simpa only [h2] using h

/-- A COMPUTATION whose executing threads all have a result passes its slot with its frame, and its destination holds the results. -/
theorem compute_spec {s : State} {f : FmtA} {ts : List Touch} (reads : List Touch) (wide : Bool) (out : Nat → ThreadOut)
    (lo hi : Nat → Word) (fl : Nat → BitVec 8) (hr : s.ready f.guard f.cf ts = true) (hm : s.mapped reads = true)
    (hroom : s.roomFor (f.dst.names wide) = true)
    (h : ∀ th, bitAt (s.ex f.guard) th = true → out th = .done (lo th) (hi th) (fl th)) :
    s.Passed (s.compute f reads f.dst wide out s.run (s.ex f.guard)) f.cf (writesA f wide (s.ex f.guard) fl)
    ∧ s.Holds (s.compute f reads f.dst wide out s.run (s.ex f.guard)) (s.ex f.guard) f.dst wide lo hi := by
  have hl := ready_live hr
  have hex := ready_ex hr
  unfold State.compute
  rw [reading_mapped hm]
  obtain ⟨hf, hd0⟩ := outcomes_done f.dst.isUni (s.ex f.guard) hex out lo hi fl h
  obtain ⟨pick, hpk⟩ : ∃ p : Nat → Nat, (fun t => if f.dst.isUni = true then lowest (s.ex f.guard) else t) = p := ⟨_, rfl⟩
  have hd : donesOf (outcomes f.dst.isUni (s.ex f.guard) out)
      = (maskList (s.ex f.guard)).map (fun t => (t, lo (pick t), hi (pick t), fl (pick t))) := by rw [← hpk]; exact hd0
  simp only [hf, hd]
  have hne : ((maskList (s.ex f.guard)).map (fun t => (t, lo (pick t), hi (pick t), fl (pick t)))).isEmpty = false := by
    rw [List.isEmpty_eq_false_iff]
    simpa using maskList_ne_nil hex
  rw [hne]
  simp only [Bool.false_eq_true, if_false]
  obtain ⟨u, hk, hu, hum, hue⟩ := allocating_room hl _ hroom
  rw [hk]
  obtain ⟨w1, w2⟩ := writeDst_spec hu.live f.dst wide (s.ex f.guard) hex (fun t => lo (pick t)) (fun t => hi (pick t))
    (fun t => fl (pick t)) hum (by
      intro k hk t
      have : f.dst.isUni = true := by rw [hk]; rfl
      rw [← hpk]
      simp [this])
  have h12 := hu.trans w1
  generalize hv : u.writeDst f.dst wide ((maskList (s.ex f.guard)).map (fun t => (t, lo (pick t), hi (pick t), fl (pick t)))) = v
    at w1 w2 h12 ⊢
  have e3 : ((maskList (s.ex f.guard)).map (fun t => (t, lo (pick t), hi (pick t), fl (pick t)))).map (fun p => (p.1, p.2.2.2))
      = (maskList (s.ex f.guard)).map (fun t => (t, fl (pick t))) := by simp [List.map_map, Function.comp_def]
  rw [e3]
  have h3 := edit_orFlags w1.live f.nf ((maskList (s.ex f.guard)).map (fun t => (t, fl (pick t)))) (by
      intro hh t ht
      have hb : bitAt (s.ex f.guard) t = true := by
        rw [List.map_map] at ht
        obtain ⟨a, ha, rfl⟩ := List.mem_map.1 ht
        exact mem_maskList.1 ha
      have hhs : s.cur.handler = false := by rw [← h12.cur]; exact hh
      exact (h12.length t (bitAt_lt hb)).2 (ex_lt hl hhs f.guard hb))
  have htot := (h12.trans h3).weaken (b := writesA f wide (s.ex f.guard) fl) (by simp [Writes.and, writesA]) (by simp [Writes.and, writesA])
    (by simp [Writes.and]) (by
      intro t
      simp only [Writes.and, writesA, lookupKey_maskList, ← hpk]
      cases f.nf with
      | true => simp
      | false =>
        by_cases hb : bitAt (s.ex f.guard) t = true
        · by_cases hu' : f.dst.isUni = true <;> simp [hb, hu']
        · simp [hb])
  obtain ⟨c1, c2, c3, _, c5⟩ := complete_passed (s := s) (run := s.run) (ex := s.ex f.guard) f.cf rfl (ready_run hr) hex htot (by
    intro th hth
    have : bitAt (s.ex f.guard) th = false := by
      rw [Bool.eq_false_iff]; exact fun c => by rw [executing_sub s f.guard s.run c] at hth; exact absurd hth (by decide)
    simp [writesA, this])
  refine ⟨c1, ?_⟩
  -- the destination reads as right after its write
  have hw2 : s.Holds v (s.ex f.guard) f.dst wide lo hi := by
    have := holds_congr (s' := s) (t' := v) (fun _ _ => rfl) (fun _ => rfl) (fun _ => rfl) rfl (fun n th => (hue n th).symm) w2
    unfold State.Holds at this ⊢
    cases hd' : f.dst with
    | name n =>
      have hp : pick = fun t => t := by rw [← hpk]; simp [hd', Dst.isUni]
      simpa only [hd', hp] using this
    | uni k =>
      have hp : pick (lowest (s.ex f.guard)) = lowest (s.ex f.guard) := by rw [← hpk]; simp
      simpa only [hd', hp] using this
  refine holds_congr (t := v) (fun n th => (c2 n th).trans (h3.elem_eq rfl n th))
    (fun k => (c3 k).trans (h3.bank.unis k (by simp))) (fun n => (c5 n).trans ?_)
    ((frozen_cur c1.same.rest).trans h12.cur.symm) (fun _ _ => rfl) hw2
  cases hh : v.cur.handler with
  | false => exact h3.bank.maps hh n (.inl (by simp))
  | true => unfold State.orFlags; rw [hh]; simp

/-- The whole of a format-A computation. -/
theorem execA_spec {s : State} {f : FmtA} (reads : List Touch) (wide : Bool) (out : Nat → ThreadOut)
    (lo hi : Nat → Word) (fl : Nat → BitVec 8) (hr : s.ready f.guard f.cf (reads ++ f.dst.touch wide) = true)
    (hm : s.mapped reads = true) (hroom : s.roomFor (f.dst.names wide) = true)
    (h : ∀ th, bitAt (s.ex f.guard) th = true → out th = .done (lo th) (hi th) (fl th)) :
    ∃ t, s.execA f reads wide out = .next t ∧ s.Passed t f.cf (writesA f wide (s.ex f.guard) fl)
      ∧ s.Holds t (s.ex f.guard) f.dst wide lo hi := by
  unfold State.execA
  rw [issue_ready hr]
  obtain ⟨a, b⟩ := compute_spec reads wide out lo hi fl hr hm hroom h
  exact ⟨_, rfl, a, b⟩

/-- A computation that `execA` performs completes. -/
theorem computes_of {i : Instr} {f : FmtA} {reads : List Touch} {wide : Bool} {ok : State → Nat → Prop} {fl : State → Nat → BitVec 8}
    {res : State → Nat → Word → Word → Prop} (out : State → Nat → ThreadOut) (lo hi : State → Nat → Word)
    (he : ∀ s, exec i s = s.execA f reads wide (out s)) (ho : ∀ s th, ok s th → out s th = .done (lo s th) (hi s th) (fl s th))
    (hr : ∀ s th, ok s th → res s th (lo s th) (hi s th)) : Computes i f reads wide ok fl res := by
  intro s h1 h2 h3 h4
  obtain ⟨t, ht, hp, hh⟩ := execA_spec (s := s) (f := f) reads wide (out s) (lo s) (hi s) (fl s) h1 h2 h3 (fun th hth => ho s th (h4 th hth))
  exact ⟨t, lo s, hi s, by rw [he]; exact ht, hp, hh, fun th hth => hr s th (h4 th hth)⟩

/-- An integer instruction of two sources completes. -/
theorem int2_computes {i : Instr} {f : FmtA} (g : Word → Word → Word) {res : State → Nat → Word → Word → Prop}
    (he : ∀ s, exec i s = s.int2 f g) (hr : ∀ s th, res s th (g (s.srcA f f.sa th) (s.srcA f f.sb th)) 0) :
    Computes i f (f.sa.touch ++ f.sb.touch) false (fun _ _ => True) (fun _ _ => 0) res :=
  computes_of (fun s th => .done (g (s.srcA f f.sa th) (s.srcA f f.sb th)) 0 0) (fun s th => g (s.srcA f f.sa th) (s.srcA f f.sb th))
    (fun _ _ => 0) he (fun _ _ _ => rfl) (fun s th _ => hr s th)

/-- An integer instruction of one source completes. -/
theorem int1_computes {i : Instr} {f : FmtA} (g : Word → Word) {res : State → Nat → Word → Word → Prop}
    (he : ∀ s, exec i s = s.int1 f g) (hr : ∀ s th, res s th (g (s.srcA f f.sa th)) 0) :
    Computes i f f.sa.touch false (fun _ _ => True) (fun _ _ => 0) res :=
  computes_of (fun s th => .done (g (s.srcA f f.sa th)) 0 0) (fun s th => g (s.srcA f f.sa th))
    (fun _ _ => 0) he (fun _ _ _ => rfl) (fun s th _ => hr s th)

/-- An integer instruction of three sources completes. -/
theorem int3_computes {i : Instr} {f : FmtA} (g : Word → Word → Word → Word) {res : State → Nat → Word → Word → Prop}
    (he : ∀ s, exec i s = s.int3 f g) (hr : ∀ s th, res s th (g (s.srcA f f.sa th) (s.srcA f f.sb th) (s.srcA f f.sc th)) 0) :
    Computes i f (f.sa.touch ++ f.sb.touch ++ f.sc.touch) false (fun _ _ => True) (fun _ _ => 0) res :=
  computes_of (fun s th => .done (g (s.srcA f f.sa th) (s.srcA f f.sb th) (s.srcA f f.sc th)) 0 0)
    (fun s th => g (s.srcA f f.sa th) (s.srcA f f.sb th) (s.srcA f f.sc th))
    (fun _ _ => 0) he (fun _ _ _ => rfl) (fun s th _ => hr s th)


end Sys2Proof.Laws
end

