-- ==== Sys2Proof/Laws/Elems.lean ====
section
/-!
SUPPORT. Lemmas about the elements of a word: a packed word gives each element back.
-/
namespace Sys2Proof.Laws
open Sys2Proof Sys2Proof.Machine

/-- The number that packs a list of elements of width w. -/
def packNat (w : Nat) (l : List Nat) : Nat :=
  (List.zip (List.range l.length) l).foldl (fun acc p => acc + p.2 % 2 ^ w * 2 ^ (w * p.1)) 0

theorem packNat_append (w : Nat) (l : List Nat) (a : Nat) :
    packNat w (l ++ [a]) = packNat w l + a % 2 ^ w * 2 ^ (w * l.length) := by
  unfold packNat
  rw [List.length_append, List.length_singleton, List.range_succ, List.zip_append (by simp)]
  simp

theorem snoc_induction {P : List Nat → Prop} (l : List Nat) (h0 : P []) (h1 : ∀ l a, P l → P (l ++ [a])) : P l := by
  have : ∀ r : List Nat, P r.reverse := by
    intro r
    induction r with
    | nil => exact h0
    | cons a r ih => rw [List.reverse_cons]; exact h1 _ _ ih
  have h := this l.reverse
  rwa [List.reverse_reverse] at h

theorem packNat_lt (w : Nat) (l : List Nat) : packNat w l < 2 ^ (w * l.length) := by
  refine snoc_induction (P := fun l => packNat w l < 2 ^ (w * l.length)) l (by simp [packNat]) ?_
  intro l a ih
  rw [packNat_append, List.length_append, List.length_singleton, Nat.mul_add, Nat.mul_one, Nat.pow_add]
  have h1 : a % 2 ^ w < 2 ^ w := Nat.mod_lt _ (Nat.two_pow_pos w)
  have h2 : a % 2 ^ w * 2 ^ (w * l.length) + 2 ^ (w * l.length) ≤ 2 ^ w * 2 ^ (w * l.length) := by
    rw [← Nat.succ_mul]; exact Nat.mul_le_mul_right _ h1
  rw [Nat.mul_comm (2 ^ (w * l.length))]
  omega

theorem packNat_field (w : Nat) (l : List Nat) : ∀ k, (h : k < l.length) → packNat w l / 2 ^ (w * k) % 2 ^ w = l[k] % 2 ^ w := by
  refine snoc_induction (P := fun l => ∀ k, (h : k < l.length) → packNat w l / 2 ^ (w * k) % 2 ^ w = l[k] % 2 ^ w) l
    (by simp) ?_
  intro l a ih k h
  rw [List.length_append, List.length_singleton] at h
  rw [packNat_append]
  by_cases hk : k = l.length
  · subst hk
    rw [Nat.add_mul_div_right _ _ (Nat.two_pow_pos _), Nat.div_eq_of_lt (packNat_lt w l)]
    simp
  · have hk' : k < l.length := by omega
    have hs : w * l.length = w * k + (w + w * (l.length - k - 1)) := by
      have : l.length = k + (1 + (l.length - k - 1)) := by omega
      rw [← Nat.mul_one w, Nat.mul_assoc, Nat.mul_assoc, Nat.one_mul, Nat.one_mul]
      conv => lhs; rw [this, Nat.mul_add, Nat.mul_add, Nat.mul_one]
      simp
    have : a % 2 ^ w * 2 ^ (w * l.length) = 2 ^ (w * k) * (2 ^ w * (a % 2 ^ w * 2 ^ (w * (l.length - k - 1)))) := by
      rw [hs, Nat.pow_add, Nat.pow_add]; ac_rfl
    rw [this, Nat.add_mul_div_left _ _ (Nat.two_pow_pos _), Nat.add_mul_mod_self_left, ih k hk']
    simp [List.getElem_append_left hk']

theorem packElems_toNat (w : Nat) (l : List Nat) (h : w * l.length ≤ 64) : (packElems w l).toNat = packNat w l := by
  unfold packElems word
  change (BitVec.ofNat 64 (packNat w l)).toNat = _
  rw [BitVec.toNat_ofNat]
  exact Nat.mod_eq_of_lt (Nat.lt_of_lt_of_le (packNat_lt w l) (Nat.pow_le_pow_right (by decide) h))

/-- Element k of a packed word. -/
theorem elemOf_packElems (w : Nat) (l : List Nat) (h : w * l.length ≤ 64) (k : Nat) (hk : k < l.length) :
    elemOf w (packElems w l) k = l[k] % 2 ^ w := by
  unfold elemOf fieldNat
  rw [packElems_toNat w l h, Nat.shiftRight_eq_div_pow]
  exact packNat_field w l k hk

/-- A packed word has no bit above its elements. -/
theorem packElems_lt (w : Nat) (l : List Nat) (h : w * l.length ≤ 64) : (packElems w l).toNat < 2 ^ (w * l.length) := by
  rw [packElems_toNat w l h]; exact packNat_lt w l

/-- The elements of an integer type fit in a word. -/
theorem intShape_fits (ty : Ty) : (intShape ty).1 * (intShape ty).2 ≤ 64 := by cases ty <;> decide

/-- Element k of an operation on the elements of one word. -/
theorem elemOf_map1 (ty : Ty) (g : Nat → Nat) (a : Word) (k : Nat) (hk : k < (intShape ty).2) :
    elemOf (intShape ty).1 (map1 ty g a) k = g (elemOf (intShape ty).1 a k) % 2 ^ (intShape ty).1 := by
  unfold map1
  rw [elemOf_packElems _ _ (by simpa using intShape_fits ty) k (by simpa using hk)]
  simp

/-- Element k of an operation on the elements of two words. -/
theorem elemOf_map2 (ty : Ty) (g : Nat → Nat → Nat) (a b : Word) (k : Nat) (hk : k < (intShape ty).2) :
    elemOf (intShape ty).1 (map2 ty g a b) k
      = g (elemOf (intShape ty).1 a k) (elemOf (intShape ty).1 b k) % 2 ^ (intShape ty).1 := by
  unfold map2
  rw [elemOf_packElems _ _ (by simpa using intShape_fits ty) k (by simpa using hk)]
  simp

/-- Element k of an operation on the elements of three words. -/
theorem elemOf_map3 (ty : Ty) (g : Nat → Nat → Nat → Nat) (a b c : Word) (k : Nat) (hk : k < (intShape ty).2) :
    elemOf (intShape ty).1 (map3 ty g a b c) k
      = g (elemOf (intShape ty).1 a k) (elemOf (intShape ty).1 b k) (elemOf (intShape ty).1 c k) % 2 ^ (intShape ty).1 := by
  unfold map3
  rw [elemOf_packElems _ _ (by simpa using intShape_fits ty) k (by simpa using hk)]
  simp

/-- A word that an element operation builds has no bit above its elements. -/
theorem map1_lt (ty : Ty) (g : Nat → Nat) (a : Word) : (map1 ty g a).toNat < 2 ^ ((intShape ty).1 * (intShape ty).2) := by
  unfold map1
  have := packElems_lt (intShape ty).1 ((List.range (intShape ty).2).map (fun k => g (elemOf (intShape ty).1 a k)))
    (by simpa using intShape_fits ty)
  simpa using this

theorem map2_lt (ty : Ty) (g : Nat → Nat → Nat) (a b : Word) :
    (map2 ty g a b).toNat < 2 ^ ((intShape ty).1 * (intShape ty).2) := by
  unfold map2
  have := packElems_lt (intShape ty).1
    ((List.range (intShape ty).2).map (fun k => g (elemOf (intShape ty).1 a k) (elemOf (intShape ty).1 b k)))
    (by simpa using intShape_fits ty)
  simpa using this

theorem map3_lt (ty : Ty) (g : Nat → Nat → Nat → Nat) (a b c : Word) :
    (map3 ty g a b c).toNat < 2 ^ ((intShape ty).1 * (intShape ty).2) := by
  unfold map3
  have := packElems_lt (intShape ty).1
    ((List.range (intShape ty).2).map (fun k => g (elemOf (intShape ty).1 a k) (elemOf (intShape ty).1 b k)
      (elemOf (intShape ty).1 c k)))
    (by simpa using intShape_fits ty)
  simpa using this

/-! ### Narrowing -/

theorem wrapInt_lt (W : Nat) (v : Int) : wrapInt W v < 2 ^ W := by
  unfold wrapInt
  have hp := Nat.two_pow_pos W
  have hc : (2 : Int) ^ W = ((2 ^ W : Nat) : Int) := by norm_cast
  rw [hc]
  have h0 : (0 : Int) < ((2 ^ W : Nat) : Int) := by omega
  have h1 := Int.emod_lt_of_pos v h0
  have h2 := Int.emod_nonneg v (Int.ne_of_gt h0)
  omega

theorem satInt_lt (b : Bool) (W : Nat) (v : Int) : satInt b W v < 2 ^ W := by
  unfold satInt
  have hp := Nat.two_pow_pos W
  have hc : (2 : Int) ^ W = ((2 ^ W : Nat) : Int) := by norm_cast
  rw [hc]
  split
  · exact wrapInt_lt _ _
  · split
    · omega
    · split
      · omega
      · omega

/-- An operation on integer elements that narrows to the type. -/
theorem hasElems_map2 (f : FmtA) (h : Int → Int → Nat) (g : Nat → Nat → Nat) (a b : Word)
    (hg : ∀ x y, g x y = h (intVal f.ty.isI (intShape f.ty).1 x) (intVal f.ty.isI (intShape f.ty).1 y))
    (hlt : ∀ x y, h x y < 2 ^ (intShape f.ty).1) :
    HasElems f.ty (map2 f.ty g a b) (fun k => h (intVal f.ty.isI (intShape f.ty).1 (elemOf (intShape f.ty).1 a k))
      (intVal f.ty.isI (intShape f.ty).1 (elemOf (intShape f.ty).1 b k))) :=
  ⟨map2_lt _ _ _ _, fun k hk => by rw [elemOf_map2 _ _ _ _ _ hk, hg, Nat.mod_eq_of_lt (hlt _ _)]⟩


end Sys2Proof.Laws
end

