-- ==== Sys2Proof/Laws/Memory.lean ====
section
/-!
SUPPORT. The laws of memory: a byte read after a write, and that every operation that writes memory keeps its canonical form (log 5).
-/
namespace Sys2Proof.Laws
open Sys2Proof Sys2Proof.Machine

/-! ### Sparse memories -/

theorem sparseGet_cons (k : Nat) (c : Byte) (r : List Host.Cell) (b : Nat) :
    sparseGet ((k, c) :: r) b = if b = k then c else sparseGet r b := by
  by_cases h : b = k
  · simp [sparseGet, h]
  · have : ¬ k = b := fun e => h e.symm
    simp [sparseGet, h, this]

theorem sparseGet_drop (l : List Host.Cell) (a b : Nat) : sparseGet (sparseDrop l a) b = if b = a then 0 else sparseGet l b := by
  induction l with
  | nil => simp [sparseDrop, sparseGet]
  | cons p r ih =>
    obtain ⟨k, c⟩ := p
    simp only [sparseDrop] at ih
    by_cases h : k = a
    · subst h
      simp only [sparseDrop, List.filter_cons, bne_self_eq_false, Bool.false_eq_true, ↓reduceIte, ih, sparseGet_cons]
      split <;> rfl
    · have hne : (k != a) = true := by simpa using h
      simp only [sparseDrop, List.filter_cons, hne, ↓reduceIte, sparseGet_cons, ih]
      by_cases hb : b = k
      · subst hb; simp [h]
      · simp [hb]

/-- A byte after a byte was written: the byte written at its address, and the byte before at every other. -/
theorem sparseGet_set (l : List Host.Cell) (a b : Nat) (v : Byte) :
    sparseGet (sparseSet l a v) b = if b = a then v else sparseGet l b := by
  induction l with
  | nil =>
    unfold sparseSet
    split
    · rename_i hv
      have hv : v = 0 := by simpa using hv
      simp [sparseGet, hv]
    · rw [sparseGet_cons]
  | cons p r ih =>
    obtain ⟨k, c⟩ := p
    unfold sparseSet
    split
    · rename_i hk
      have hk : k = a := by simpa using hk
      subst hk
      split
      · rename_i hv
        have hv : v = 0 := by simpa using hv
        rw [sparseGet_drop, sparseGet_cons, hv]
        split <;> rfl
      · rw [sparseGet_cons, sparseGet_drop, sparseGet_cons]
        split <;> rfl
    · rename_i hk
      have hk : ¬ k = a := by simpa using hk
      split
      · rw [sparseGet_cons, ih, sparseGet_cons]
        by_cases h : b = a
        · rw [if_neg (fun e => hk (e.symm.trans h)), if_pos h, if_pos h]
        · rw [if_neg h, if_neg h]
      · split
        · rename_i hv
          have hv : v = 0 := by simpa using hv
          rw [sparseGet_cons, sparseGet_drop, sparseGet_cons, hv]
          by_cases h : b = a
          · rw [if_neg (fun e => hk (e.symm.trans h)), if_pos h, if_pos h]
          · rw [if_neg h, if_neg h]
        · rw [sparseGet_cons, sparseGet_cons, sparseGet_drop, sparseGet_cons]
          by_cases h : b = a
          · rw [if_pos h, if_pos h]
          · rw [if_neg h, if_neg h, if_neg h]

/-- The smallest address of a memory in canonical form lies above a bound. -/
def Above (a : Nat) (l : List Host.Cell) : Prop := ∀ p, p ∈ l → a < p.1

theorem sparseWf_cons {k : Nat} {b : Byte} {r : List Host.Cell} :
    sparseWf ((k, b) :: r) = true ↔ b ≠ 0 ∧ Above k r ∧ sparseWf r = true := by
  induction r generalizing k b with
  | nil => simp [sparseWf, Above]
  | cons p r ih =>
    obtain ⟨k', b'⟩ := p
    constructor
    · intro h
      simp only [sparseWf, Bool.and_eq_true, bne_iff_ne, ne_eq, decide_eq_true_eq] at h
      obtain ⟨⟨h1, h2⟩, h3⟩ := h
      refine ⟨h1, ?_, h3⟩
      have := (ih.1 h3).2.1
      intro p hp
      rcases List.mem_cons.1 hp with rfl | hp
      · exact h2
      · exact Nat.lt_trans h2 (this p hp)
    · rintro ⟨h1, h2, h3⟩
      have hk : k < k' := h2 (k', b') List.mem_cons_self
      simp only [sparseWf, Bool.and_eq_true, bne_iff_ne, ne_eq, decide_eq_true_eq]
      exact ⟨⟨h1, hk⟩, h3⟩

/-- A part of a memory in canonical form is in canonical form. -/
theorem sparseWf_filter (l : List Host.Cell) (p : Host.Cell → Bool) (h : sparseWf l = true) : sparseWf (l.filter p) = true := by
  induction l with
  | nil => exact h
  | cons x r ih =>
    obtain ⟨k, b⟩ := x
    obtain ⟨h1, h2, h3⟩ := sparseWf_cons.1 h
    simp only [List.filter_cons]
    split
    · exact sparseWf_cons.2 ⟨h1, fun q hq => h2 q ((List.mem_filter.1 hq).1), ih h3⟩
    · exact ih h3

theorem mem_sparseSet {l : List Host.Cell} {a : Nat} {v : Byte} {p : Host.Cell} (h : p ∈ sparseSet l a v) : p.1 = a ∨ p ∈ l := by
  induction l with
  | nil =>
    simp only [sparseSet] at h
    split at h <;> simp_all
  | cons q r ih =>
    obtain ⟨k, c⟩ := q
    have hd : ∀ {x : Host.Cell}, x ∈ sparseDrop r a → x ∈ r := fun hx => (List.mem_filter.1 hx).1
    simp only [sparseSet] at h
    split at h
    · split at h
      · exact .inr (List.mem_cons_of_mem _ (hd h))
      · rcases List.mem_cons.1 h with rfl | h
        · exact .inl rfl
        · exact .inr (List.mem_cons_of_mem _ (hd h))
    · split at h
      · rcases List.mem_cons.1 h with rfl | h
        · exact .inr List.mem_cons_self
        · exact (ih h).imp_right (List.mem_cons_of_mem _)
      · split at h
        · rcases List.mem_cons.1 h with rfl | h
          · exact .inr List.mem_cons_self
          · exact .inr (List.mem_cons_of_mem _ (hd h))
        · rcases List.mem_cons.1 h with rfl | h
          · exact .inl rfl
          · rcases List.mem_cons.1 h with rfl | h
            · exact .inr List.mem_cons_self
            · exact .inr (List.mem_cons_of_mem _ (hd h))

/-- Writing a byte keeps the canonical form. -/
theorem sparseWf_set (l : List Host.Cell) (a : Nat) (v : Byte) (h : sparseWf l = true) : sparseWf (sparseSet l a v) = true := by
  induction l with
  | nil =>
    unfold sparseSet
    split
    · rfl
    · rename_i hv
      simpa [sparseWf] using hv
  | cons p r ih =>
    obtain ⟨k, c⟩ := p
    obtain ⟨h1, h2, h3⟩ := sparseWf_cons.1 h
    have hd : sparseWf (sparseDrop r a) = true := sparseWf_filter r _ h3
    have hab : ∀ {j : Nat}, Above j r → Above j (sparseDrop r a) := fun hj q hq => hj q ((List.mem_filter.1 hq).1)
    simp only [sparseSet]
    by_cases hk : k = a
    · subst hk
      by_cases hv : v = 0
      · simpa [hv] using hd
      · simp only [beq_self_eq_true, ↓reduceIte, beq_iff_eq, hv]
        exact sparseWf_cons.2 ⟨hv, hab h2, hd⟩
    · by_cases hl : k < a
      · simp only [beq_iff_eq, hk, hl, ↓reduceIte]
        refine sparseWf_cons.2 ⟨h1, fun q hq => ?_, ih h3⟩
        rcases mem_sparseSet hq with hq | hq
        · omega
        · exact h2 q hq
      · have hak : a < k := by omega
        by_cases hv : v = 0
        · simp only [beq_iff_eq, hk, hl, hv, ↓reduceIte]
          exact sparseWf_cons.2 ⟨h1, hab h2, hd⟩
        · simp only [beq_iff_eq, hk, hl, hv, ↓reduceIte]
          refine sparseWf_cons.2 ⟨hv, fun q hq => ?_, sparseWf_cons.2 ⟨h1, hab h2, hd⟩⟩
          rcases List.mem_cons.1 hq with rfl | hq
          · exact hak
          · exact Nat.lt_trans hak (hab h2 q hq)

/-- A byte after several bytes were written. -/
theorem sparseGet_write (l : List Host.Cell) (a b : Nat) (v : List Byte) :
    sparseGet (sparseWrite l a v) b = if a ≤ b ∧ b < a + v.length then nth v (b - a) 0 else sparseGet l b := by
  induction v generalizing l a with
  | nil => simp only [sparseWrite, List.length_nil, Nat.add_zero]; rw [if_neg (by omega)]
  | cons x r ih =>
    simp only [sparseWrite, ih, sparseGet_set, List.length_cons]
    by_cases h : b = a
    · subst h
      rw [if_neg (by omega), if_pos rfl, if_pos (by omega), Nat.sub_self]; simp [nth]
    · by_cases h1 : a + 1 ≤ b ∧ b < a + 1 + r.length
      · rw [if_pos h1, if_pos (by omega)]
        obtain ⟨j, rfl⟩ : ∃ j, b = a + 1 + j := ⟨b - (a + 1), by omega⟩
        rw [show a + 1 + j - a = j + 1 by omega, show a + 1 + j - (a + 1) = j by omega]; simp [nth]
      · rw [if_neg h1, if_neg h, if_neg (by omega)]

/-- Writing several bytes keeps the canonical form. -/
theorem sparseWf_write (l : List Host.Cell) (a : Nat) (v : List Byte) (h : sparseWf l = true) :
    sparseWf (sparseWrite l a v) = true := by
  induction v generalizing l a with
  | nil => exact h
  | cons x r ih => exact ih _ _ (sparseWf_set l a x h)

/-! ### What the operations over memory keep

Every operation of the memory system is built of a few updates: a raw write, and the replacement of one field of the caches, the check
registers and what waits on the fabric. A property that these keep is kept by all of them. -/

/-- A property of states that the updates of the memory system keep. -/
structure MemClosed (P : State → Prop) : Prop where
  raw        : ∀ s a l, P s → P (s.rawWrite a l)
  ctxs       : ∀ (s : State) x, P s → P { s with ctxs := x }
  poison     : ∀ (s : State) x, P s → P { s with poison := x }
  l1         : ∀ (s : State) x, P s → P { s with l1 := x }
  l2         : ∀ (s : State) x, P s → P { s with l2 := x }
  dailies    : ∀ (s : State) x, P s → P { s with dailies := x }
  migrations : ∀ (s : State) x, P s → P { s with migrations := x }
  refusals   : ∀ (s : State) x, P s → P { s with refusals := x }
  undeliv    : ∀ (s : State) x, P s → P { s with undeliv := x }
  cut        : ∀ (s : State) x, P s → P { s with cut := x }
  uid        : ∀ (s : State) x, P s → P { s with nextUid := x }

theorem keeps_foldl {P : State → Prop} {s : State} (l : List α) (f : State → α → State) (h : ∀ s a, P s → P (f s a)) (hs : P s) :
    P (l.foldl f s) := by
  induction l generalizing s with
  | nil => exact hs
  | cons a l ih => exact ih (h s a hs)

/-- The memory of a state is in canonical form. -/
def MemCanon (s : State) : Prop := Memory.wf s.mem = true

/-- A byte at home after a raw write. -/
theorem byteAt_rawWrite (s : State) (a b : Nat) (l : List Byte) :
    (s.rawWrite a l).byteAt b = if a ≤ b ∧ b < a + l.length then nth l (b - a) 0 else s.byteAt b :=
  sparseGet_write s.mem a b l

/-- The canonical form is such a property. -/
theorem canon_closed : MemClosed MemCanon :=
  ⟨fun s a l h => sparseWf_write s.mem a l h, fun _ _ h => h, fun _ _ h => h, fun _ _ h => h, fun _ _ h => h, fun _ _ h => h,
   fun _ _ h => h, fun _ _ h => h, fun _ _ h => h, fun _ _ h => h, fun _ _ h => h⟩

section keeps
variable {P : State → Prop} (hP : MemClosed P)
include hP

theorem setChk_keeps {s : State} (n : Nat) (m : BitVec 5) (h : P s) : P (s.setChk n m) := hP.ctxs s _ h

theorem countTile_keeps {s : State} (a : Nat) (h : P s) : P (s.countTile a) := by
  simp only [State.countTile]
  split
  · split
    · exact hP.dailies s _ h
    · exact h
  · exact h

theorem countTiles_keeps {s : State} (a n : Nat) (h : P s) : P (s.countTiles a n) :=
  keeps_foldl _ _ (fun _ _ hs => countTile_keeps hP _ hs) h

theorem logTile_keeps {s : State} (ctx t : Nat) (h : P s) : P (s.logTile ctx t) := by
  unfold State.logTile
  split
  · exact h
  · split
    · exact h
    · split
      · exact h
      · dsimp only
        split
        · exact hP.ctxs _ _ (hP.ctxs s _ h)
        · exact hP.raw _ _ _ (hP.ctxs s _ h)

theorem landWrite_keeps {s : State} (ctx a : Nat) (l : List Byte) (h : P s) : P (s.landWrite ctx a l) := by
  unfold State.landWrite
  refine hP.raw _ _ _ (hP.migrations _ _ (hP.poison _ _ ?_))
  show P (if isLocal a then _ else s)
  split
  · exact keeps_foldl _ _ (fun s t hs => logTile_keeps hP ctx t hs) h
  · exact h

theorem arriveWrite_keeps {s : State} (ctx a : Nat) (l : List Byte) (h : P s) : P (s.arriveWrite ctx a l) := by
  unfold State.arriveWrite
  split
  · split
    · exact hP.migrations s _ h
    · exact landWrite_keeps hP _ _ _ h
  · exact landWrite_keeps hP _ _ _ h

theorem homeWrite_keeps {s : State} (ctx a : Nat) (l : List Byte) (h : P s) : P (s.homeWrite ctx a l) :=
  keeps_foldl _ _ (fun _ _ hs => arriveWrite_keeps hP _ _ _ hs) (countTiles_keeps hP _ _ h)

theorem homeMerge_keeps {s : State} (ctx tile : Nat) (cells : List Host.Cell) (h : P s) : P (s.homeMerge ctx tile cells) := by
  have hc : P (s.countTile (s.fabricTarget (tile * 256))) := countTile_keeps hP _ h
  unfold State.homeMerge
  dsimp only
  split
  · exact arriveWrite_keeps hP _ _ _ hc
  · exact hP.poison _ _ (keeps_foldl (l := cells) _ (fun _ _ hs => arriveWrite_keeps hP _ _ _ hs) hc)

theorem refuse_keeps {s : State} (ctx a kind reason : Nat) (h : P s) : P (s.refuse ctx a kind reason) := by
  unfold State.refuse
  split
  · exact hP.cut s _ h
  · show P (if _ then _ else _)
    split
    · exact hP.refusals _ _ (setChk_keeps hP _ _ h)
    · exact setChk_keeps hP _ _ h

theorem holdRequest_keeps {s : State} (ctx : Nat) (w : Waiter) (h : P s) : P (s.holdRequest ctx w) := by
  unfold State.holdRequest
  split
  · exact h
  · exact hP.undeliv _ _ (hP.uid s _ h)

theorem sendBytes_keeps {s : State} (ctx tile : Nat) (cells : List Host.Cell) (h : P s) : P (s.sendBytes ctx tile cells) := by
  unfold State.sendBytes
  split
  · exact holdRequest_keeps hP _ _ h
  · exact refuse_keeps hP _ _ _ _ h
  · exact homeMerge_keeps hP _ _ _ h

theorem setL2_keeps {s : State} (l : L2Line) (h : P s) : P (s.setL2 l) := by
  unfold State.setL2
  refine hP.l2 _ _ ?_
  show P (if _ then _ else _)
  split
  · exact h
  · split
    · refine hP.l2 _ _ ?_
      split
      · exact h
      · exact sendBytes_keeps hP _ _ _ h
    · exact h

theorem holdL2_keeps {s : State} (c : CoreId) (v : View) (t : Nat) (h : P s) : P (s.holdL2 c v t) := by
  unfold State.holdL2
  split
  · exact h
  · exact setL2_keeps hP _ h

theorem fetchTile_keeps {s : State} (c : CoreId) (v : View) (t : Nat) (h : P s) : P (s.fetchTile c v t).2 := by
  unfold State.fetchTile
  split
  · exact holdL2_keeps hP _ _ _ (countTile_keeps hP _ h)
  · dsimp only
    split
    · exact h
    · split
      · exact refuse_keeps hP _ _ _ _ h
      · exact setL2_keeps hP _ (countTile_keeps hP _ h)

theorem mergeTile_keeps {s : State} (c : CoreId) (v : View) (t : Nat) (cells : List Host.Cell) (h : P s) :
    P (s.mergeTile c v t cells) := by
  unfold State.mergeTile
  split
  · exact h
  · split
    · exact holdL2_keeps hP _ _ _ (homeMerge_keeps hP _ _ _ h)
    · refine setL2_keeps hP _ ?_
      split
      · exact sendBytes_keeps hP _ _ _ h
      · exact h

theorem cleanL2_keeps {s : State} (l : L2Line) (h : P s) : P (s.cleanL2 l) := by
  unfold State.cleanL2
  refine hP.l2 _ _ ?_
  split
  · exact h
  · exact sendBytes_keeps hP _ _ _ h

theorem flushL2_keeps {s : State} (t : Nat) (h : P s) : P (s.flushL2 t) := by
  unfold State.flushL2
  split
  · split
    · exact h
    · exact hP.l2 _ _ (cleanL2_keeps hP _ h)
  · exact h

theorem writeBackLine_keeps {s : State} (l : L1Line) (h : P s) : P (s.writeBackLine l) := mergeTile_keeps hP _ _ _ _ h

theorem cleanLine_keeps {s : State} (l : L1Line) (h : P s) : P (s.cleanLine l) := hP.l1 _ _ (writeBackLine_keeps hP l h)

theorem flushLine_keeps {s : State} (o : CoreId) (t : Nat) (h : P s) : P (s.flushLine o t) := by
  unfold State.flushLine
  split
  · exact h
  · exact hP.l1 _ _ (writeBackLine_keeps hP _ h)

theorem setLine_keeps {s : State} (l : L1Line) (h : P s) : P (s.setLine l) := by
  unfold State.setLine
  refine hP.l1 _ _ ?_
  show P (if _ then _ else _)
  split
  · exact h
  · split
    · exact flushLine_keeps hP _ _ h
    · exact h

theorem ownLine_keeps {s : State} (o : CoreId) (v : View) (t : Nat) (h : P s) : P (s.ownLine o v t) := by
  unfold State.ownLine
  split
  · split
    · exact h
    · split
      · exact setLine_keeps hP _ h
      · exact flushLine_keeps hP _ _ h
  · exact h

theorem threadWrite_keeps {s : State} (c : CoreId) (v : View) (a : Nat) (b : List Byte) (h : P s) : P (s.threadWrite c v a b) :=
  setLine_keeps hP _ (ownLine_keeps hP _ _ _ h)

theorem threadRead_keeps {s : State} (c : CoreId) (v : View) (a n : Nat) (h : P s) : P (s.threadRead c v a n).2 := by
  have hs : P (s.ownLine (s.l1Owner c) v (a / 256)) := ownLine_keeps hP _ _ _ h
  have key : ∀ u : State, P u → ∀ (o : Option (List Byte)) (k : Bool) (l : L1Line) (f : List Byte), P
      (if o.isSome then (if k then u.setChk v.ctx chkPoison else u) else (if k then u.setChk v.ctx chkPoison else u).setLine { l with fill := some f }) := by
    intro u hu o k l f
    have : P (if k then u.setChk v.ctx chkPoison else u) := by
      split
      · exact setChk_keeps hP _ _ hu
      · exact hu
    split
    · exact this
    · exact setLine_keeps hP _ this
  unfold State.threadRead
  dsimp only
  split
  · rename_i u heq
    split at heq
    · cases heq
    · split at heq
      · cases heq; exact hs
      · have := fetchTile_keeps hP c v (a / 256) hs
        rw [heq] at this
        exact this
  · rename_i f u heq
    refine key u ?_ _ _ _ _
    split at heq
    · cases heq; exact hs
    · split at heq
      · cases heq
      · have := fetchTile_keeps hP c v (a / 256) hs
        rw [heq] at this
        exact this

theorem release_keeps {s : State} (c : CoreId) (sc : Scope) (h : P s) : P (s.release c sc) := by
  unfold State.release
  split
  · exact keeps_foldl _ _ (fun _ _ hs => cleanL2_keeps hP _ hs) (keeps_foldl _ _ (fun _ _ hs => cleanLine_keeps hP _ hs) h)
  · exact h

theorem acquire_keeps {s : State} (c : CoreId) (sc : Scope) (h : P s) : P (s.acquire c sc) := by
  unfold State.acquire
  split
  · exact hP.l2 _ _ (hP.l1 s _ h)
  · exact h

theorem flushL1_keeps {s : State} (c : CoreId) (h : P s) : P (s.flushL1 c) :=
  keeps_foldl _ _ (fun _ _ hs => flushLine_keeps hP _ _ hs) h

theorem evictTile_keeps {s : State} (c : CoreId) (t : Nat) (h : P s) : P (s.evictTile c t) :=
  flushL2_keeps hP _ (flushLine_keeps hP _ _ h)

theorem engineWrite_keeps {s : State} (c : CoreId) (ctx a : Nat) (b : List Byte) (h : P s) : P (s.engineWrite c ctx a b) := by
  unfold State.engineWrite
  split
  · exact refuse_keeps hP _ _ _ _ h
  · exact homeWrite_keeps hP _ _ _ (keeps_foldl _ _ (fun _ _ hs => evictTile_keeps hP _ _ hs) h)

theorem homeAtomic_keeps {s : State} (c : CoreId) (ctx a n : Nat) (op : Word → Word) (h : P s) : P (s.homeAtomic c ctx a n op).2 := by
  unfold State.homeAtomic
  split
  · exact refuse_keeps hP _ _ _ _ h
  · dsimp only
    refine homeWrite_keeps hP _ _ _ ?_
    split
    · exact setChk_keeps hP _ _ (evictTile_keeps hP _ _ h)
    · exact evictTile_keeps hP _ _ h

theorem sendRemote_keeps {s : State} (h : P s) : P s.sendRemote :=
  keeps_foldl _ _ (fun _ _ hs => cleanL2_keeps hP _ hs) (keeps_foldl _ _ (fun _ _ hs => cleanLine_keeps hP _ hs) h)

theorem cleanCaches_keeps {s : State} (h : P s) : P s.cleanCaches :=
  keeps_foldl _ _ (fun _ _ hs => cleanL2_keeps hP _ hs) (keeps_foldl _ _ (fun _ _ hs => cleanLine_keeps hP _ hs) h)

end keeps

theorem freeBytes_canon {s : State} (n : Nat) (h : MemCanon s) : MemCanon (s.freeBytes n).2 := by
  induction n generalizing s with
  | zero => exact h
  | succ n ih => exact ih (s := s.freeValue.2) h

theorem writeFree_canon {s : State} (a n : Nat) (h : MemCanon s) : MemCanon (s.writeFree a n) :=
  canon_closed.raw _ _ _ (freeBytes_canon n h)

theorem zeroRun_canon {s : State} (d ctx : Nat) (p : Nat × Nat) (h : MemCanon s) : MemCanon (s.zeroRun d ctx p) :=
  keeps_foldl _ _ (fun _ _ hu => writeFree_canon _ _ hu) (sparseWf_filter s.mem _ h)

/-- The memory after reset is in canonical form. -/
theorem reset_canon : MemCanon State.reset := rfl

end Sys2Proof.Laws
end

