-- ==== Sys2Proof/Laws/PerInstr.lean ====
section
/-!
SUPPORT. A family of statements with one lemma for each instruction: the decoder's table and the encoder's table agree. An instruction's
opcode has its format (05 Table 5.13), and the decoder's table gives the instruction back for that opcode and its fields. What it leaves to
the statement of the round trip is that the fields are read from where they are written, and that they are legal.
-/
namespace Sys2Proof.Laws
open Sys2Proof

/-- The decoder's table gives an instruction back for its opcode and its fields. -/
def Table.Statement (i : Instr) : Prop :=
  ∀ op b, i.body = some (op, b) → match b with
    | .a f => fmtOf op = .a ∧ mkA op f = some i
    | .m f => fmtOf op = .m ∧ mkM op f = some i
    | .e f => fmtOf op = .e ∧ mkE op f = some i
    | .b f => fmtOf op = .b ∧ i = .brm f
    | .h f => fmtOf op = .h ∧ i = .hdr f
    | .x f => fmtOf op = .x ∧ i = .ext f

/-- The opcodes of the extension space have its format (R94). -/
theorem fmtOf_ext : ∀ x : BitVec 4, fmtOf (0xF0 + x.toNat) = .x := by decide

theorem Table.hdr x0 : Table.Statement (.hdr x0) := by intro _ _ h; cases h; exact ⟨rfl, rfl⟩
theorem Table.clauseStart x0 : Table.Statement (.clauseStart x0) := by intro _ _ h; cases h
theorem Table.fairnessYield x0 : Table.Statement (.fairnessYield x0) := by intro _ _ h; cases h
theorem Table.instructionFetch x0 : Table.Statement (.instructionFetch x0) := by intro _ _ h; cases h
theorem Table.ext x0 : Table.Statement (.ext x0) := by intro _ _ h; cases h; exact ⟨fmtOf_ext _, rfl⟩
theorem Table.nop x0 : Table.Statement (.nop x0) := by intro _ _ h; cases h; exact ⟨rfl, rfl⟩
theorem Table.bra x0 : Table.Statement (.bra x0) := by intro _ _ h; cases h; exact ⟨rfl, rfl⟩
theorem Table.brm x0 : Table.Statement (.brm x0) := by intro _ _ h; cases h; exact ⟨rfl, rfl⟩
theorem Table.call x0 : Table.Statement (.call x0) := by intro _ _ h; cases h; exact ⟨rfl, rfl⟩
theorem Table.ret x0 : Table.Statement (.ret x0) := by intro _ _ h; cases h; exact ⟨rfl, rfl⟩
theorem Table.jmpi x0 : Table.Statement (.jmpi x0) := by intro _ _ h; cases h; exact ⟨rfl, rfl⟩
theorem Table.exit x0 : Table.Statement (.exit x0) := by intro _ _ h; cases h; exact ⟨rfl, rfl⟩
theorem Table.exitProceed x0 x1 : Table.Statement (.exitProceed x0 x1) := by intro _ _ h; cases h
theorem Table.warpRetire x0 : Table.Statement (.warpRetire x0) := by intro _ _ h; cases h
theorem Table.yield x0 : Table.Statement (.yield x0) := by intro _ _ h; cases h; exact ⟨rfl, rfl⟩
theorem Table.wsync x0 : Table.Statement (.wsync x0) := by intro _ _ h; cases h; exact ⟨rfl, rfl⟩
theorem Table.wsyncComplete x0 x1 : Table.Statement (.wsyncComplete x0 x1) := by intro _ _ h; cases h
theorem Table.elect x0 : Table.Statement (.elect x0) := by intro _ _ h; cases h; exact ⟨rfl, rfl⟩
theorem Table.vote x0 : Table.Statement (.vote x0) := by intro _ _ h; cases h; exact ⟨rfl, rfl⟩
theorem Table.icmp x0 : Table.Statement (.icmp x0) := by intro _ _ h; cases h; exact ⟨rfl, rfl⟩
theorem Table.plop x0 : Table.Statement (.plop x0) := by intro _ _ h; cases h; exact ⟨rfl, rfl⟩
theorem Table.p2s x0 : Table.Statement (.p2s x0) := by intro _ _ h; cases h; exact ⟨rfl, rfl⟩
theorem Table.s2p x0 : Table.Statement (.s2p x0) := by intro _ _ h; cases h; exact ⟨rfl, rfl⟩
theorem Table.brk x0 : Table.Statement (.brk x0) := by intro _ _ h; cases h; exact ⟨rfl, rfl⟩
theorem Table.trap x0 : Table.Statement (.trap x0) := by intro _ _ h; cases h; exact ⟨rfl, rfl⟩
theorem Table.move x0 : Table.Statement (.move x0) := by intro _ _ h; cases h; exact ⟨rfl, rfl⟩
theorem Table.mapEditWaitEnd x0 x1 : Table.Statement (.mapEditWaitEnd x0 x1) := by intro _ _ h; cases h
theorem Table.cpy x0 : Table.Statement (.cpy x0) := by intro _ _ h; cases h; exact ⟨rfl, rfl⟩
theorem Table.give x0 : Table.Statement (.give x0) := by intro _ _ h; cases h; exact ⟨rfl, rfl⟩
theorem Table.take x0 : Table.Statement (.take x0) := by intro _ _ h; cases h; exact ⟨rfl, rfl⟩
theorem Table.mailboxWaitServed x0 x1 : Table.Statement (.mailboxWaitServed x0 x1) := by intro _ _ h; cases h
theorem Table.aliasName x0 : Table.Statement (.aliasName x0) := by intro _ _ h; cases h; exact ⟨rfl, rfl⟩
theorem Table.unmap x0 : Table.Statement (.unmap x0) := by intro _ _ h; cases h; exact ⟨rfl, rfl⟩
theorem Table.perm x0 : Table.Statement (.perm x0) := by intro _ _ h; cases h; exact ⟨rfl, rfl⟩
theorem Table.swapn x0 : Table.Statement (.swapn x0) := by intro _ _ h; cases h; exact ⟨rfl, rfl⟩
theorem Table.mapq x0 : Table.Statement (.mapq x0) := by intro _ _ h; cases h; exact ⟨rfl, rfl⟩
theorem Table.mbxq x0 : Table.Statement (.mbxq x0) := by intro _ _ h; cases h; exact ⟨rfl, rfl⟩
theorem Table.allocationResume x0 x1 : Table.Statement (.allocationResume x0 x1) := by intro _ _ h; cases h
theorem Table.rowStarvation x0 : Table.Statement (.rowStarvation x0) := by intro _ _ h; cases h
theorem Table.iadd x0 : Table.Statement (.iadd x0) := by intro _ _ h; cases h; exact ⟨rfl, rfl⟩
theorem Table.iaddc x0 : Table.Statement (.iaddc x0) := by intro _ _ h; cases h; exact ⟨rfl, rfl⟩
theorem Table.isub x0 : Table.Statement (.isub x0) := by intro _ _ h; cases h; exact ⟨rfl, rfl⟩
theorem Table.imul x0 : Table.Statement (.imul x0) := by intro _ _ h; cases h; exact ⟨rfl, rfl⟩
theorem Table.imulh x0 : Table.Statement (.imulh x0) := by intro _ _ h; cases h; exact ⟨rfl, rfl⟩
theorem Table.imad x0 : Table.Statement (.imad x0) := by intro _ _ h; cases h; exact ⟨rfl, rfl⟩
theorem Table.idiv x0 : Table.Statement (.idiv x0) := by intro _ _ h; cases h; exact ⟨rfl, rfl⟩
theorem Table.irem x0 : Table.Statement (.irem x0) := by intro _ _ h; cases h; exact ⟨rfl, rfl⟩
theorem Table.imin x0 : Table.Statement (.imin x0) := by intro _ _ h; cases h; exact ⟨rfl, rfl⟩
theorem Table.imax x0 : Table.Statement (.imax x0) := by intro _ _ h; cases h; exact ⟨rfl, rfl⟩
theorem Table.iabs x0 : Table.Statement (.iabs x0) := by intro _ _ h; cases h; exact ⟨rfl, rfl⟩
theorem Table.bfn x0 : Table.Statement (.bfn x0) := by intro _ _ h; cases h; exact ⟨rfl, rfl⟩
theorem Table.shl x0 : Table.Statement (.shl x0) := by intro _ _ h; cases h; exact ⟨rfl, rfl⟩
theorem Table.shr x0 : Table.Statement (.shr x0) := by intro _ _ h; cases h; exact ⟨rfl, rfl⟩
theorem Table.sar x0 : Table.Statement (.sar x0) := by intro _ _ h; cases h; exact ⟨rfl, rfl⟩
theorem Table.rotl x0 : Table.Statement (.rotl x0) := by intro _ _ h; cases h; exact ⟨rfl, rfl⟩
theorem Table.bfe x0 : Table.Statement (.bfe x0) := by intro _ _ h; cases h; exact ⟨rfl, rfl⟩
theorem Table.bfi x0 : Table.Statement (.bfi x0) := by intro _ _ h; cases h; exact ⟨rfl, rfl⟩
theorem Table.popc x0 : Table.Statement (.popc x0) := by intro _ _ h; cases h; exact ⟨rfl, rfl⟩
theorem Table.clz x0 : Table.Statement (.clz x0) := by intro _ _ h; cases h; exact ⟨rfl, rfl⟩
theorem Table.brev x0 : Table.Statement (.brev x0) := by intro _ _ h; cases h; exact ⟨rfl, rfl⟩
theorem Table.sel x0 : Table.Statement (.sel x0) := by intro _ _ h; cases h; exact ⟨rfl, rfl⟩
theorem Table.lea x0 : Table.Statement (.lea x0) := by intro _ _ h; cases h; exact ⟨rfl, rfl⟩
theorem Table.movi x0 : Table.Statement (.movi x0) := by intro _ _ h; cases h; exact ⟨rfl, rfl⟩
theorem Table.vread x0 : Table.Statement (.vread x0) := by intro _ _ h; cases h; exact ⟨rfl, rfl⟩
theorem Table.redux x0 : Table.Statement (.redux x0) := by intro _ _ h; cases h; exact ⟨rfl, rfl⟩
theorem Table.shfl x0 : Table.Statement (.shfl x0) := by intro _ _ h; cases h; exact ⟨rfl, rfl⟩
theorem Table.srd x0 : Table.Statement (.srd x0) := by intro _ _ h; cases h; exact ⟨rfl, rfl⟩
theorem Table.swr x0 : Table.Statement (.swr x0) := by intro _ _ h; cases h; exact ⟨rfl, rfl⟩
theorem Table.fadd x0 : Table.Statement (.fadd x0) := by intro _ _ h; cases h; exact ⟨rfl, rfl⟩
theorem Table.fsub x0 : Table.Statement (.fsub x0) := by intro _ _ h; cases h; exact ⟨rfl, rfl⟩
theorem Table.fmul x0 : Table.Statement (.fmul x0) := by intro _ _ h; cases h; exact ⟨rfl, rfl⟩
theorem Table.ffma x0 : Table.Statement (.ffma x0) := by intro _ _ h; cases h; exact ⟨rfl, rfl⟩
theorem Table.fdiv x0 : Table.Statement (.fdiv x0) := by intro _ _ h; cases h; exact ⟨rfl, rfl⟩
theorem Table.fsqrt x0 : Table.Statement (.fsqrt x0) := by intro _ _ h; cases h; exact ⟨rfl, rfl⟩
theorem Table.frcp x0 : Table.Statement (.frcp x0) := by intro _ _ h; cases h; exact ⟨rfl, rfl⟩
theorem Table.frsq x0 : Table.Statement (.frsq x0) := by intro _ _ h; cases h; exact ⟨rfl, rfl⟩
theorem Table.fexp2 x0 : Table.Statement (.fexp2 x0) := by intro _ _ h; cases h; exact ⟨rfl, rfl⟩
theorem Table.flog2 x0 : Table.Statement (.flog2 x0) := by intro _ _ h; cases h; exact ⟨rfl, rfl⟩
theorem Table.fsin x0 : Table.Statement (.fsin x0) := by intro _ _ h; cases h; exact ⟨rfl, rfl⟩
theorem Table.fcos x0 : Table.Statement (.fcos x0) := by intro _ _ h; cases h; exact ⟨rfl, rfl⟩
theorem Table.fmin x0 : Table.Statement (.fmin x0) := by intro _ _ h; cases h; exact ⟨rfl, rfl⟩
theorem Table.fmax x0 : Table.Statement (.fmax x0) := by intro _ _ h; cases h; exact ⟨rfl, rfl⟩
theorem Table.fabs x0 : Table.Statement (.fabs x0) := by intro _ _ h; cases h; exact ⟨rfl, rfl⟩
theorem Table.fneg x0 : Table.Statement (.fneg x0) := by intro _ _ h; cases h; exact ⟨rfl, rfl⟩
theorem Table.fcmp x0 : Table.Statement (.fcmp x0) := by intro _ _ h; cases h; exact ⟨rfl, rfl⟩
theorem Table.fclass x0 : Table.Statement (.fclass x0) := by intro _ _ h; cases h; exact ⟨rfl, rfl⟩
theorem Table.fcvt x0 : Table.Statement (.fcvt x0) := by intro _ _ h; cases h; exact ⟨rfl, rfl⟩
theorem Table.f2i x0 : Table.Statement (.f2i x0) := by intro _ _ h; cases h; exact ⟨rfl, rfl⟩
theorem Table.i2f x0 : Table.Statement (.i2f x0) := by intro _ _ h; cases h; exact ⟨rfl, rfl⟩
theorem Table.frnd x0 : Table.Statement (.frnd x0) := by intro _ _ h; cases h; exact ⟨rfl, rfl⟩
theorem Table.fscale x0 : Table.Statement (.fscale x0) := by intro _ _ h; cases h; exact ⟨rfl, rfl⟩
theorem Table.fdot x0 : Table.Statement (.fdot x0) := by intro _ _ h; cases h; exact ⟨rfl, rfl⟩
theorem Table.ivmk x0 : Table.Statement (.ivmk x0) := by intro _ _ h; cases h; exact ⟨rfl, rfl⟩
theorem Table.ivlo x0 : Table.Statement (.ivlo x0) := by intro _ _ h; cases h; exact ⟨rfl, rfl⟩
theorem Table.ivhi x0 : Table.Statement (.ivhi x0) := by intro _ _ h; cases h; exact ⟨rfl, rfl⟩
theorem Table.ivhull x0 : Table.Statement (.ivhull x0) := by intro _ _ h; cases h; exact ⟨rfl, rfl⟩
theorem Table.ivmeet x0 : Table.Statement (.ivmeet x0) := by intro _ _ h; cases h; exact ⟨rfl, rfl⟩
theorem Table.ivmid x0 : Table.Statement (.ivmid x0) := by intro _ _ h; cases h; exact ⟨rfl, rfl⟩
theorem Table.ivwid x0 : Table.Statement (.ivwid x0) := by intro _ _ h; cases h; exact ⟨rfl, rfl⟩
theorem Table.ivin x0 : Table.Statement (.ivin x0) := by intro _ _ h; cases h; exact ⟨rfl, rfl⟩
theorem Table.bisect x0 : Table.Statement (.bisect x0) := by intro _ _ h; cases h; exact ⟨rfl, rfl⟩
theorem Table.ld x0 : Table.Statement (.ld x0) := by intro _ _ h; cases h; exact ⟨rfl, rfl⟩
theorem Table.st x0 : Table.Statement (.st x0) := by intro _ _ h; cases h; exact ⟨rfl, rfl⟩
theorem Table.ldl x0 : Table.Statement (.ldl x0) := by intro _ _ h; cases h; exact ⟨rfl, rfl⟩
theorem Table.stl x0 : Table.Statement (.stl x0) := by intro _ _ h; cases h; exact ⟨rfl, rfl⟩
theorem Table.ldt x0 : Table.Statement (.ldt x0) := by intro _ _ h; cases h; exact ⟨rfl, rfl⟩
theorem Table.stt x0 : Table.Statement (.stt x0) := by intro _ _ h; cases h; exact ⟨rfl, rfl⟩
theorem Table.ldu x0 : Table.Statement (.ldu x0) := by intro _ _ h; cases h; exact ⟨rfl, rfl⟩
theorem Table.atom x0 : Table.Statement (.atom x0) := by intro _ _ h; cases h; exact ⟨rfl, rfl⟩
theorem Table.atomc x0 : Table.Statement (.atomc x0) := by intro _ _ h; cases h; exact ⟨rfl, rfl⟩
theorem Table.red x0 : Table.Statement (.red x0) := by intro _ _ h; cases h; exact ⟨rfl, rfl⟩
theorem Table.pref x0 : Table.Statement (.pref x0) := by intro _ _ h; cases h; exact ⟨rfl, rfl⟩
theorem Table.cctl x0 : Table.Statement (.cctl x0) := by intro _ _ h; cases h; exact ⟨rfl, rfl⟩
theorem Table.fence x0 : Table.Statement (.fence x0) := by intro _ _ h; cases h; exact ⟨rfl, rfl⟩
theorem Table.chkerr x0 : Table.Statement (.chkerr x0) := by intro _ _ h; cases h; exact ⟨rfl, rfl⟩
theorem Table.flagOperationComplete x0 x1 : Table.Statement (.flagOperationComplete x0 x1) := by intro _ _ h; cases h
theorem Table.loadReturn x0 x1 : Table.Statement (.loadReturn x0 x1) := by intro _ _ h; cases h
theorem Table.fabricRequest x0 : Table.Statement (.fabricRequest x0) := by intro _ _ h; cases h
theorem Table.requestUndeliverable x0 : Table.Statement (.requestUndeliverable x0) := by intro _ _ h; cases h
theorem Table.linkRetry x0 x1 : Table.Statement (.linkRetry x0 x1) := by intro _ _ h; cases h
theorem Table.cpya x0 : Table.Statement (.cpya x0) := by intro _ _ h; cases h; exact ⟨rfl, rfl⟩
theorem Table.cpyt x0 : Table.Statement (.cpyt x0) := by intro _ _ h; cases h; exact ⟨rfl, rfl⟩
theorem Table.cpyg x0 : Table.Statement (.cpyg x0) := by intro _ _ h; cases h; exact ⟨rfl, rfl⟩
theorem Table.queueEntryAdmit x0 x1 : Table.Statement (.queueEntryAdmit x0 x1) := by intro _ _ h; cases h
theorem Table.engineEntryStart x0 : Table.Statement (.engineEntryStart x0) := by intro _ _ h; cases h
theorem Table.guardHoldResolved x0 : Table.Statement (.guardHoldResolved x0) := by intro _ _ h; cases h
theorem Table.copyChunk x0 : Table.Statement (.copyChunk x0) := by intro _ _ h; cases h
theorem Table.engineEntryComplete x0 : Table.Statement (.engineEntryComplete x0) := by intro _ _ h; cases h
theorem Table.tagwa x0 : Table.Statement (.tagwa x0) := by intro _ _ h; cases h; exact ⟨rfl, rfl⟩
theorem Table.tagwy x0 : Table.Statement (.tagwy x0) := by intro _ _ h; cases h; exact ⟨rfl, rfl⟩
theorem Table.tagWaitComplete x0 : Table.Statement (.tagWaitComplete x0) := by intro _ _ h; cases h
theorem Table.tagff x0 : Table.Statement (.tagff x0) := by intro _ _ h; cases h; exact ⟨rfl, rfl⟩
theorem Table.tagst x0 : Table.Statement (.tagst x0) := by intro _ _ h; cases h; exact ⟨rfl, rfl⟩
theorem Table.tagclr x0 : Table.Statement (.tagclr x0) := by intro _ _ h; cases h; exact ⟨rfl, rfl⟩
theorem Table.gset x0 : Table.Statement (.gset x0) := by intro _ _ h; cases h; exact ⟨rfl, rfl⟩
theorem Table.gclr x0 : Table.Statement (.gclr x0) := by intro _ _ h; cases h; exact ⟨rfl, rfl⟩
theorem Table.qfence x0 : Table.Statement (.qfence x0) := by intro _ _ h; cases h; exact ⟨rfl, rfl⟩
theorem Table.mma x0 : Table.Statement (.mma x0) := by intro _ _ h; cases h; exact ⟨rfl, rfl⟩
theorem Table.mmar x0 : Table.Statement (.mmar x0) := by intro _ _ h; cases h; exact ⟨rfl, rfl⟩
theorem Table.mzero x0 : Table.Statement (.mzero x0) := by intro _ _ h; cases h; exact ⟨rfl, rfl⟩
theorem Table.mldacc x0 : Table.Statement (.mldacc x0) := by intro _ _ h; cases h; exact ⟨rfl, rfl⟩
theorem Table.mdrain x0 : Table.Statement (.mdrain x0) := by intro _ _ h; cases h; exact ⟨rfl, rfl⟩
theorem Table.mchk x0 : Table.Statement (.mchk x0) := by intro _ _ h; cases h; exact ⟨rfl, rfl⟩
theorem Table.mtrn x0 : Table.Statement (.mtrn x0) := by intro _ _ h; cases h; exact ⟨rfl, rfl⟩
theorem Table.bar x0 : Table.Statement (.bar x0) := by intro _ _ h; cases h; exact ⟨rfl, rfl⟩
theorem Table.cbar x0 : Table.Statement (.cbar x0) := by intro _ _ h; cases h; exact ⟨rfl, rfl⟩
theorem Table.barrierComplete x0 x1 : Table.Statement (.barrierComplete x0 x1) := by intro _ _ h; cases h
theorem Table.arrive x0 : Table.Statement (.arrive x0) := by intro _ _ h; cases h; exact ⟨rfl, rfl⟩
theorem Table.await x0 : Table.Statement (.await x0) := by intro _ _ h; cases h; exact ⟨rfl, rfl⟩
theorem Table.awaitComplete x0 x1 : Table.Statement (.awaitComplete x0 x1) := by intro _ _ h; cases h
theorem Table.spawn x0 : Table.Statement (.spawn x0) := by intro _ _ h; cases h; exact ⟨rfl, rfl⟩
theorem Table.join x0 : Table.Statement (.join x0) := by intro _ _ h; cases h; exact ⟨rfl, rfl⟩
theorem Table.joinComplete x0 x1 : Table.Statement (.joinComplete x0 x1) := by intro _ _ h; cases h
theorem Table.childEnd x0 : Table.Statement (.childEnd x0) := by intro _ _ h; cases h
theorem Table.signal x0 : Table.Statement (.signal x0) := by intro _ _ h; cases h; exact ⟨rfl, rfl⟩
theorem Table.qpush x0 : Table.Statement (.qpush x0) := by intro _ _ h; cases h; exact ⟨rfl, rfl⟩
theorem Table.qpop x0 : Table.Statement (.qpop x0) := by intro _ _ h; cases h; exact ⟨rfl, rfl⟩
theorem Table.ringWaitServed x0 x1 : Table.Statement (.ringWaitServed x0 x1) := by intro _ _ h; cases h
theorem Table.vbuf x0 : Table.Statement (.vbuf x0) := by intro _ _ h; cases h; exact ⟨rfl, rfl⟩
theorem Table.pubv x0 : Table.Statement (.pubv x0) := by intro _ _ h; cases h; exact ⟨rfl, rfl⟩
theorem Table.vpin x0 : Table.Statement (.vpin x0) := by intro _ _ h; cases h; exact ⟨rfl, rfl⟩
theorem Table.vunpin x0 : Table.Statement (.vunpin x0) := by intro _ _ h; cases h; exact ⟨rfl, rfl⟩
theorem Table.rfstop x0 : Table.Statement (.rfstop x0) := by intro _ _ h; cases h; exact ⟨rfl, rfl⟩
theorem Table.vqry x0 : Table.Statement (.vqry x0) := by intro _ _ h; cases h; exact ⟨rfl, rfl⟩
theorem Table.instanceCancelStop x0 : Table.Statement (.instanceCancelStop x0) := by intro _ _ h; cases h
theorem Table.instanceEnd x0 : Table.Statement (.instanceEnd x0) := by intro _ _ h; cases h
theorem Table.coll x0 : Table.Statement (.coll x0) := by intro _ _ h; cases h; exact ⟨rfl, rfl⟩
theorem Table.collx x0 : Table.Statement (.collx x0) := by intro _ _ h; cases h; exact ⟨rfl, rfl⟩
theorem Table.slateq x0 : Table.Statement (.slateq x0) := by intro _ _ h; cases h; exact ⟨rfl, rfl⟩
theorem Table.collAccept x0 : Table.Statement (.collAccept x0) := by intro _ _ h; cases h
theorem Table.slateRequest x0 x1 x2 x3 : Table.Statement (.slateRequest x0 x1 x2 x3) := by intro _ _ h; cases h
theorem Table.slateNotify x0 x1 x2 x3 : Table.Statement (.slateNotify x0 x1 x2 x3) := by intro _ _ h; cases h
theorem Table.collReady x0 : Table.Statement (.collReady x0) := by intro _ _ h; cases h
theorem Table.seqReady x0 x1 x2 x3 : Table.Statement (.seqReady x0 x1 x2 x3) := by intro _ _ h; cases h
theorem Table.collGo x0 x1 x2 x3 x4 : Table.Statement (.collGo x0 x1 x2 x3 x4) := by intro _ _ h; cases h
theorem Table.collCancel x0 x1 x2 x3 x4 : Table.Statement (.collCancel x0 x1 x2 x3 x4) := by intro _ _ h; cases h
theorem Table.collSkip x0 x1 x2 x3 : Table.Statement (.collSkip x0 x1 x2 x3) := by intro _ _ h; cases h
theorem Table.seqHeartbeat x0 : Table.Statement (.seqHeartbeat x0) := by intro _ _ h; cases h
theorem Table.seqFailover x0 : Table.Statement (.seqFailover x0) := by intro _ _ h; cases h
theorem Table.collResend x0 x1 : Table.Statement (.collResend x0 x1) := by intro _ _ h; cases h
theorem Table.slateGap x0 : Table.Statement (.slateGap x0) := by intro _ _ h; cases h
theorem Table.tret x0 : Table.Statement (.tret x0) := by intro _ _ h; cases h; exact ⟨rfl, rfl⟩
theorem Table.trd x0 : Table.Statement (.trd x0) := by intro _ _ h; cases h; exact ⟨rfl, rfl⟩
theorem Table.twr x0 : Table.Statement (.twr x0) := by intro _ _ h; cases h; exact ⟨rfl, rfl⟩
theorem Table.tresume x0 : Table.Statement (.tresume x0) := by intro _ _ h; cases h; exact ⟨rfl, rfl⟩
theorem Table.tkill x0 : Table.Statement (.tkill x0) := by intro _ _ h; cases h; exact ⟨rfl, rfl⟩
theorem Table.temu x0 : Table.Statement (.temu x0) := by intro _ _ h; cases h; exact ⟨rfl, rfl⟩
theorem Table.icinv x0 : Table.Statement (.icinv x0) := by intro _ _ h; cases h; exact ⟨rfl, rfl⟩
theorem Table.fflags x0 : Table.Statement (.fflags x0) := by intro _ _ h; cases h; exact ⟨rfl, rfl⟩
theorem Table.handlerRunStart x0 : Table.Statement (.handlerRunStart x0) := by intro _ _ h; cases h
theorem Table.handlerTimeout x0 : Table.Statement (.handlerTimeout x0) := by intro _ _ h; cases h
theorem Table.watchdog x0 : Table.Statement (.watchdog x0) := by intro _ _ h; cases h
theorem Table.runtimeLimit x0 : Table.Statement (.runtimeLimit x0) := by intro _ _ h; cases h
theorem Table.dbwp x0 x1 : Table.Statement (.dbwp x0 x1) := by intro _ _ h; cases h
theorem Table.commandFetch x0 : Table.Statement (.commandFetch x0) := by intro _ _ h; cases h
theorem Table.queueEnable x0 x1 : Table.Statement (.queueEnable x0 x1) := by intro _ _ h; cases h
theorem Table.queueDisable x0 : Table.Statement (.queueDisable x0) := by intro _ _ h; cases h
theorem Table.prioWrite x0 x1 : Table.Statement (.prioWrite x0 x1) := by intro _ _ h; cases h
theorem Table.mqWptr x0 x1 : Table.Statement (.mqWptr x0 x1) := by intro _ _ h; cases h
theorem Table.mqctl x0 x1 : Table.Statement (.mqctl x0 x1) := by intro _ _ h; cases h
theorem Table.launch x0 : Table.Statement (.launch x0) := by intro _ _ h; cases h
theorem Table.graph x0 : Table.Statement (.graph x0) := by intro _ _ h; cases h
theorem Table.graphNodeComplete x0 x1 : Table.Statement (.graphNodeComplete x0 x1) := by intro _ _ h; cases h
theorem Table.pipe x0 : Table.Statement (.pipe x0) := by intro _ _ h; cases h
theorem Table.copy x0 : Table.Statement (.copy x0) := by intro _ _ h; cases h
theorem Table.waitsig x0 : Table.Statement (.waitsig x0) := by intro _ _ h; cases h
theorem Table.waitsigSatisfied x0 : Table.Statement (.waitsigSatisfied x0) := by intro _ _ h; cases h
theorem Table.cmdSignal x0 : Table.Statement (.cmdSignal x0) := by intro _ _ h; cases h
theorem Table.cellwait x0 : Table.Statement (.cellwait x0) := by intro _ _ h; cases h
theorem Table.cmdNop x0 : Table.Statement (.cmdNop x0) := by intro _ _ h; cases h
theorem Table.prologueComplete x0 : Table.Statement (.prologueComplete x0) := by intro _ _ h; cases h
theorem Table.bundleEnd x0 : Table.Statement (.bundleEnd x0) := by intro _ _ h; cases h
theorem Table.batchAccept x0 : Table.Statement (.batchAccept x0) := by intro _ _ h; cases h
theorem Table.placement x0 : Table.Statement (.placement x0) := by intro _ _ h; cases h
theorem Table.placementStop x0 : Table.Statement (.placementStop x0) := by intro _ _ h; cases h
theorem Table.coreGate x0 : Table.Statement (.coreGate x0) := by intro _ _ h; cases h
theorem Table.coreActivate x0 : Table.Statement (.coreActivate x0) := by intro _ _ h; cases h
theorem Table.workgroupRetire x0 : Table.Statement (.workgroupRetire x0) := by intro _ _ h; cases h
theorem Table.schedHeartbeat x0 : Table.Statement (.schedHeartbeat x0) := by intro _ _ h; cases h
theorem Table.schedulerAdoption x0 : Table.Statement (.schedulerAdoption x0) := by intro _ _ h; cases h
theorem Table.preempt x0 : Table.Statement (.preempt x0) := by intro _ _ h; cases h
theorem Table.preemptSave x0 : Table.Statement (.preemptSave x0) := by intro _ _ h; cases h
theorem Table.resume x0 : Table.Statement (.resume x0) := by intro _ _ h; cases h
theorem Table.destroy x0 : Table.Statement (.destroy x0) := by intro _ _ h; cases h
theorem Table.scrubPhase x0 : Table.Statement (.scrubPhase x0) := by intro _ _ h; cases h
theorem Table.partition x0 : Table.Statement (.partition x0) := by intro _ _ h; cases h
theorem Table.shootdown x0 : Table.Statement (.shootdown x0) := by intro _ _ h; cases h
theorem Table.migrationStart x0 x1 x2 : Table.Statement (.migrationStart x0 x1 x2) := by intro _ _ h; cases h
theorem Table.migrationCopyPass x0 : Table.Statement (.migrationCopyPass x0) := by intro _ _ h; cases h
theorem Table.migrationFinalPass x0 : Table.Statement (.migrationFinalPass x0) := by intro _ _ h; cases h
theorem Table.migrationRelease x0 : Table.Statement (.migrationRelease x0) := by intro _ _ h; cases h
theorem Table.dlyctl x0 x1 : Table.Statement (.dlyctl x0 x1) := by intro _ _ h; cases h
theorem Table.dailiesIntervalEnd x0 : Table.Statement (.dailiesIntervalEnd x0) := by intro _ _ h; cases h
theorem Table.bpaddr x0 x1 x2 : Table.Statement (.bpaddr x0 x1 x2) := by intro _ _ h; cases h
theorem Table.bpmask x0 x1 x2 : Table.Statement (.bpmask x0 x1 x2) := by intro _ _ h; cases h
theorem Table.monitorClear x0 x1 : Table.Statement (.monitorClear x0 x1) := by intro _ _ h; cases h
theorem Table.thermalStep x0 x1 x2 : Table.Statement (.thermalStep x0 x1 x2) := by intro _ _ h; cases h
theorem Table.thermalShutdown x0 x1 x2 : Table.Statement (.thermalShutdown x0 x1 x2) := by intro _ _ h; cases h
theorem Table.registerWrite x0 x1 : Table.Statement (.registerWrite x0 x1) := by intro _ _ h; cases h
theorem Table.atsInvalidation x0 x1 x2 : Table.Statement (.atsInvalidation x0 x1 x2) := by intro _ _ h; cases h
theorem Table.lockInterface x0 x1 : Table.Statement (.lockInterface x0 x1) := by intro _ _ h; cases h
theorem Table.stopInterface x0 : Table.Statement (.stopInterface x0) := by intro _ _ h; cases h
theorem Table.tdispError x0 : Table.Statement (.tdispError x0) := by intro _ _ h; cases h
theorem Table.reset x0 : Table.Statement (.reset x0) := by intro _ _ h; cases h
theorem Table.resetScrub x0 : Table.Statement (.resetScrub x0) := by intro _ _ h; cases h
theorem Table.spdmSign : Table.Statement .spdmSign := by intro _ _ h; cases h
theorem Table.hostMemoryAccess x0 x1 x2 : Table.Statement (.hostMemoryAccess x0 x1 x2) := by intro _ _ h; cases h
theorem Table.managementFirmwareRequest x0 : Table.Statement (.managementFirmwareRequest x0) := by intro _ _ h; cases h
theorem Table.uncorrectableError x0 : Table.Statement (.uncorrectableError x0) := by intro _ _ h; cases h
theorem Table.partitionWaitExpiry x0 : Table.Statement (.partitionWaitExpiry x0) := by intro _ _ h; cases h
theorem Table.tdispMessage x0 x1 : Table.Statement (.tdispMessage x0 x1) := by intro _ _ h; cases h

end Sys2Proof.Laws
end

