-- ==== Sys2Proof/Laws/Traps.lean ====
section
/-!
SUPPORT. What taking an exception does, said once (22 R362 to R370): the frame of a fault of a whole run, and of one that some threads of
it raise; and the inversion of a step.
-/
namespace Sys2Proof.Laws
open Sys2Proof Sys2Proof.Machine

/-! ### A step -/

theorem mapNext_next {f : State → State} {o : Host.Outcome State Fault Refusal} {t : State} (h : mapNext f o = .next t) :
    ∃ u, o = .next u ∧ t = f u := by
  cases o with
  | next u => exact ⟨u, rfl, by simpa [mapNext] using h.symm⟩
  | fault e => simp [mapNext] at h
  | refused e => simp [mapNext] at h

/-- A step is an act and one clk. -/
theorem step_next {s t : State} (h : step s = .next t) : ∃ u, s.act = .next u ∧ t = u.tick := mapNext_next h

/-- EVERYTHING THAT AN ACT CAN BE: the event that the agenda names, the issue of the warp that it names, the step of an agent, the issue
of the warp whose turn it is, or nothing. -/
theorem act_cases (s : State) :
    (∃ i rest, s.agenda = .event i :: rest ∧ s.act = ({ s with agenda := rest } : State).event i)
    ∨ (∃ l rest, s.agenda = .warp l :: rest ∧ s.act = ({ s with agenda := rest, last := l } : State).issueWarp l)
    ∨ (s.agenda = [] ∧ ∃ t, s.nextEvent = some t ∧ s.act = .next t)
    ∨ (s.agenda = [] ∧ s.nextEvent = none ∧ ∃ l, s.nextWarp = some l ∧ s.act = ({ s with last := l } : State).issueWarp l)
    ∨ (s.agenda = [] ∧ s.nextEvent = none ∧ s.nextWarp = none ∧ s.act = .next s) := by
  cases ha : s.agenda with
  | cons x rest =>
    cases x with
    | event i => exact .inl ⟨i, rest, rfl, by simp only [State.act, ha]⟩
    | warp l => exact .inr (.inl ⟨l, rest, rfl, by simp only [State.act, ha]⟩)
  | nil =>
    cases he : s.nextEvent with
    | some t => exact .inr (.inr (.inl ⟨rfl, t, rfl, by simp only [State.act, ha, he]⟩))
    | none =>
      cases hw : s.nextWarp with
      | some l => exact .inr (.inr (.inr (.inl ⟨rfl, rfl, l, rfl, by simp only [State.act, ha, he, hw]⟩)))
      | none => exact .inr (.inr (.inr (.inr ⟨rfl, rfl, rfl, by simp only [State.act, ha, he, hw]⟩)))

/-! ### A clk -/

/-- A property of states that what a clk does keeps: the updates of the memory system, and of what else a clk changes. -/
structure TickClosed (P : State → Prop) : Prop extends MemClosed P where
  warps  : ∀ (s : State) x, P s → P { s with warps := x }
  slices : ∀ (s : State) x, P s → P { s with slices := x }
  wgs    : ∀ (s : State) x, P s → P { s with wgs := x }
  dies   : ∀ (s : State) x, P s → P { s with dies := x }
  links  : ∀ (s : State) x, P s → P { s with links := x }
  mail   : ∀ (s : State) x, P s → P { s with mail := x }

section tick
variable {P : State → Prop} (hP : TickClosed P)
include hP

theorem raisePort_keeps {s : State} (d : Nat) (h : P s) : P (s.raisePort d) := by
  unfold State.raisePort
  dsimp only
  split
  · exact h
  · split
    · exact hP.dies _ _ (hP.links s _ h)
    · exact hP.dies s _ h

theorem wakeStalled_keeps {s : State} (h : P s) : P s.wakeStalled := hP.slices _ _ (hP.warps s _ h)

theorem send_keeps {s : State} (ctx m : Nat) (i : Instr) (h : P s) : P (s.send ctx m i) := by
  unfold State.send
  split
  · exact hP.mail s _ h
  · exact hP.undeliv _ _ (hP.uid s _ h)

theorem pumpFabric_keeps {s : State} (h : P s) : P s.pumpFabric := by
  unfold State.pumpFabric
  split
  · split
    · exact h
    · refine wakeStalled_keeps hP (keeps_foldl _ _ (fun u a hu => ?_) (hP.undeliv s _ h))
      split
      · exact sendBytes_keeps hP.toMemClosed _ _ _ hu
      · exact send_keeps hP _ _ _ hu
      · exact hu
  · exact hP.undeliv _ _ (sendRemote_keeps hP.toMemClosed h)

/-- What a clk keeps: every property that its updates keep, of the state whose clk has advanced. -/
theorem tick_keeps {s : State} (h : P { s with clk := s.clk + 1 }) : P s.tick := by
  have hp : P (((List.range 6).foldl (fun (s : State) d => s.raisePort d) { s with clk := s.clk + 1 }).pumpFabric) :=
    pumpFabric_keeps hP (keeps_foldl _ _ (fun _ _ hs => raisePort_keeps hP _ hs) h)
  refine hP.wgs _ _ (hP.warps _ _ ?_)
  unfold State.tickModule
  dsimp only
  split
  · exact cleanCaches_keeps hP.toMemClosed hp
  · exact hp

end tick

/-- A clk keeps the canonical form of memory. -/
theorem tick_canon {s : State} (h : MemCanon s) : MemCanon s.tick :=
  tick_keeps (P := MemCanon) ⟨canon_closed, fun _ _ h => h, fun _ _ h => h, fun _ _ h => h, fun _ _ h => h, fun _ _ h => h,
    fun _ _ h => h⟩ h

/-- A field that none of a clk's updates changes is as the clk's count alone leaves it. -/
theorem tick_same {α : Type} (f : State → α)
    (hP : ∀ a, TickClosed (fun t => f t = a)) (s : State) : f s.tick = f { s with clk := s.clk + 1 } :=
  tick_keeps (hP _) rfl

@[simp] theorem tick_clk (s : State) : s.tick.clk = s.clk + 1 :=
  tick_same (·.clk) (fun _ => ⟨⟨fun _ _ _ h => h, fun _ _ h => h, fun _ _ h => h, fun _ _ h => h, fun _ _ h => h, fun _ _ h => h,
    fun _ _ h => h, fun _ _ h => h, fun _ _ h => h, fun _ _ h => h, fun _ _ h => h⟩, fun _ _ h => h, fun _ _ h => h, fun _ _ h => h,
    fun _ _ h => h, fun _ _ h => h, fun _ _ h => h⟩) s

@[simp] theorem tick_cur (s : State) : s.tick.cur = s.cur :=
  tick_same (·.cur) (fun _ => ⟨⟨fun _ _ _ h => h, fun _ _ h => h, fun _ _ h => h, fun _ _ h => h, fun _ _ h => h, fun _ _ h => h,
    fun _ _ h => h, fun _ _ h => h, fun _ _ h => h, fun _ _ h => h, fun _ _ h => h⟩, fun _ _ h => h, fun _ _ h => h, fun _ _ h => h,
    fun _ _ h => h, fun _ _ h => h, fun _ _ h => h⟩) s

@[simp] theorem tick_agenda (s : State) : s.tick.agenda = s.agenda :=
  tick_same (·.agenda) (fun _ => ⟨⟨fun _ _ _ h => h, fun _ _ h => h, fun _ _ h => h, fun _ _ h => h, fun _ _ h => h, fun _ _ h => h,
    fun _ _ h => h, fun _ _ h => h, fun _ _ h => h, fun _ _ h => h, fun _ _ h => h⟩, fun _ _ h => h, fun _ _ h => h, fun _ _ h => h,
    fun _ _ h => h, fun _ _ h => h, fun _ _ h => h⟩) s

@[simp] theorem tick_queues (s : State) : s.tick.queues = s.queues :=
  tick_same (·.queues) (fun _ => ⟨⟨fun _ _ _ h => h, fun _ _ h => h, fun _ _ h => h, fun _ _ h => h, fun _ _ h => h, fun _ _ h => h,
    fun _ _ h => h, fun _ _ h => h, fun _ _ h => h, fun _ _ h => h, fun _ _ h => h⟩, fun _ _ h => h, fun _ _ h => h, fun _ _ h => h,
    fun _ _ h => h, fun _ _ h => h, fun _ _ h => h⟩) s

/-! ### Raising -/

theorem raise_handler {s : State} (hh : s.cur.handler = true) {l : List (Nat × Raise)} (hl : l ≠ []) :
    s.raise l = s.doubleFault s.cur.loc := by
  unfold State.raise
  cases l with
  | nil => exact absurd rfl hl
  | cons p l => simp [hh]

theorem codesOf_same (l : List Nat) (r : Raise) (hl : l ≠ []) : codesOf (l.map (fun t => (t, r))) = [r.code] := by
  have step : ∀ (k : List Nat) (acc : List Nat), r.code ∈ acc →
      (k.map (fun t => (t, r))).foldl (fun (acc : List Nat) (p : Nat × Raise) =>
        if acc.contains p.2.code then acc else acc ++ [p.2.code]) acc = acc := by
    intro k
    induction k with
    | nil => intro acc _; rfl
    | cons t k ih =>
      intro acc h
      rw [List.map_cons, List.foldl_cons, if_pos (by simpa using h)]
      exact ih acc h
  cases l with
  | nil => exact absurd rfl hl
  | cons t l =>
    unfold codesOf
    rw [List.map_cons, List.foldl_cons, if_neg (by simp)]
    exact step l _ (by simp)

/-- A fault that every thread of a mask raises in a run of the program parks them with one record. -/
theorem raiseAll_program {s : State} (hh : s.cur.handler = false) {m : Mask} (hm : m ≠ 0) (r : Raise) :
    s.raiseAll m r = s.parkOne s.cur.loc m s.cur.pc s.cur.bits r := by
  have hl := maskList_ne_nil hm
  unfold State.raiseAll State.raise
  rw [codesOf_same _ _ hl]
  have hf : ((maskList m).map (fun t => (t, r))).filter (fun p => p.2.code == r.code) = (maskList m).map (fun t => (t, r)) := by
    rw [List.filter_eq_self]
    intro p hp
    obtain ⟨t, _, rfl⟩ := List.mem_map.1 hp
    simp
  have hne : ((maskList m).map (fun t => (t, r))).isEmpty = false := by
    cases h : maskList m with
    | nil => exact absurd h hl
    | cons t l => rfl
  have hid : ((maskList m).map (fun t => (t, r))).map (·.1) = maskList m := by rw [List.map_map]; exact List.map_id _
  simp only [hne, Bool.false_eq_true, if_false, hh, List.foldl_cons, List.foldl_nil, hf]
  have hmask := listMask_maskList m
  cases h : (maskList m).map (fun t => (t, r)) with
  | nil => rw [h] at hne; cases hne
  | cons p ps =>
    have hp : p.2 = r := by
      have : p ∈ (maskList m).map (fun t => (t, r)) := by rw [h]; exact List.mem_cons_self
      obtain ⟨t, _, rfl⟩ := List.mem_map.1 this
      rfl
    simp only []
    rw [← h, hid, hmask, hp, List.map_map]
    rfl

/-- The frame of one record's parking: the warp's threads of the mask are parked, its record is queued last, and no other warp changes. -/
theorem parkOne_spec {s : State} {l : Loc} {w : Warp} (hw : s.warp? l = some w) (m : Mask) (fpc : Word) (bits : Slot) (r : Raise) :
    ∃ v, (s.parkOne l m fpc bits r).warp? l = some v
      ∧ (∀ k, k ≠ l → (s.parkOne l m fpc bits r).warp? k = s.warp? k)
      ∧ v.records = w.records ++ [{ mask := m, code := r.code, fpc := fpc, ppc := r.ppc, bits := bits,
                                    vals := (maskList m).map (fun t => (t, r.info0, r.info1)) }]
      ∧ { v with threads := [], waits := [], records := [] } = { w with threads := [], waits := [], records := [] }
      ∧ ∀ t, t < 32 → t < w.threads.length → v.thread t = if bitAt m t then
          { w.thread t with st := .parked, pc := r.ppc, pos := if r.ppc == fpc then (w.thread t).pos else (w.thread t).pos + 1
                            pass := if r.ppc == fpc then (w.thread t).pass else false, arrived := false }
          else w.thread t := by
  let park : Nat → Thread → Thread := fun _ x =>
    { x with st := .parked, pc := r.ppc, pos := if r.ppc == fpc then x.pos else x.pos + 1
             pass := if r.ppc == fpc then x.pass else false, arrived := false }
  let x := (w.updThreads m park).tidyWaits
  refine ⟨{ x with records := x.records ++ [{ mask := m, code := r.code, fpc := fpc, ppc := r.ppc, bits := bits,
                                              vals := (maskList m).map (fun t => (t, r.info0, r.info1)) }] }, ?_, ?_, rfl, rfl, ?_⟩
  · refine (warp?_updWarp s l l _ ?_).trans ?_
    · exact fun _ h => h
    · rw [if_pos rfl, hw]; rfl
  · intro k hk
    refine (warp?_updWarp s l k _ ?_).trans ?_
    · exact fun _ h => h
    · rw [if_neg hk]
  · intro t ht hl
    have h := thread_updThreads w m park t ht
    simp only [hl, and_true] at h
    exact h

end Sys2Proof.Laws
end

