-- ==== Sys2Proof/Tests/Slice0.lean ====
section
/-!
SUPPORT. Tests: the words of the manual decode to its instructions, each check of well-formedness refuses an ill-formed term, what the
hypotheses of each statement ask can be met, and the values that the manual works out are those of the model.
-/
namespace Sys2Proof.Tests
open Sys2Proof Sys2Proof.Machine Sys2Proof.Laws

set_option maxRecDepth 100000

/-! ### Decoding: words of the manual, and words written from Tables 5.4 to 5.12 where it gives none -/

/-- Format A with every field zero, unguarded. -/
def a0 : FmtA := { guard := .always, cf := .none, ru := false, dst := .name 0, sa := .name 0, sb := .name 0, sc := .name 0, ty := .i8x8,
                   fn := 0, rm := .rn, nf := false, imm := 0 }

/-- Format M with every field zero, unguarded. -/
def m0 : FmtM := { guard := .always, cf := .none, ru := false, dst := .name 0, base := .name 0, data := .name 0, index := .name 0,
                   ty := .n8, ord := .plain, scope := .thread, st := false, offset := 0 }

/-- Format E with every field zero, unguarded. -/
def e0 : FmtE := { guard := .always, cf := .none, ru := false, tag := none, slot := none, queue := .mq, sa := .uni 0, sb := .uni 0,
                   sc := .uni 0, sub := 0, imm := 0 }

/-- A word of a slot decodes to an instruction, and is its encoding. -/
def reads (w : Nat) (i : Instr) : Bool := decodeTableWord 96 w == some i && encode i == some (BitVec.ofNat 96 w)

theorem test_words_control_0 :
    reads 0x000000000000000301100101 (.hdr { wait := 1, fa := some 1, fb := none, yh := false, live := 3 })
    && reads 0x000000000C10004880008204 (.brm { p0 := { test := .pred 0 false, offset := 1 }, more :=
      [{ test := .pred 1 true, offset := 4 }, { test := .pred 1 false, offset := 6 }] })
    && reads 0x000000000000000000000F02 (.nop a0)
    && reads 0xFFFFFFFC0000000000000003 (.bra { a0 with guard := .pred 0 false, imm := -4 })
    && reads 0x000000140000000000080F05 (.call { a0 with dst := .name 8, imm := 0x14 })
    && reads 0x000000000000000010000F06 (.ret { a0 with sa := .name 8 })
    && reads 0x000000000000000006000F07 (.jmpi { a0 with sa := .name 3 })
    && reads 0x000000000000000000000F08 (.exit a0)
    && reads 0x000000000000000000000F09 (.yield a0) := by decide

theorem test_words_control_1 :
    reads 0x000000000000000000000F0A (.wsync a0)
    && reads 0x000000000000000000000F0B (.elect { a0 with dst := .name 0 })
    && reads 0x000000000300000007070F0C (.vote { a0 with dst := .uni 7, sa := .name 3, fn := 0x3 })
    && reads 0x000000000400000007080F0C (.vote { a0 with dst := .uni 8, sa := .name 3, fn := 0x4 })
    && reads 0x00000008024007FC00000F0D (.icmp { a0 with dst := .name 0, sa := .name 0, sb := .imm, ty := .i32, fn := 0x2, imm := 0x8 })
    && reads 0x000000220000780400040F0E (.plop { a0 with dst := .name 4, sa := .name 0, sb := .name 1, sc := .name 15, imm := 0x22 })
    && reads 0x00000FFF0000000000060F0F (.p2s { a0 with dst := .name 6, imm := 0xfff })
    && reads 0x0000000C000000000C000F10 (.s2p { a0 with sa := .name 6, imm := 0xc })
    && reads 0x000000050000000000000F11 (.brk { a0 with imm := 0x5 }) := by decide

theorem test_words_control_2 :
    reads 0x0000002A0000000000000F12 (.trap { a0 with imm := 0x2a }) := by decide

theorem test_words_names_0 :
    reads 0x000000000000000000040F20 (.move { a0 with dst := .name 4, sa := .name 0 })
    && reads 0x000000000000000006060F21 (.cpy { a0 with dst := .name 6, sa := .name 3 })
    && reads 0x00000000000000000A000F22 (.give { a0 with sa := .name 5 })
    && reads 0x00000103010000000A000F22 (.give { a0 with sa := .name 5, fn := 0x1, imm := 0x103 })
    && reads 0x000000000000000000020F23 (.take { a0 with dst := .name 2 })
    && reads 0x000000000000000000010F24 (.aliasName { a0 with dst := .name 1, sa := .name 0 })
    && reads 0x000000000000000000090F25 (.unmap { a0 with dst := .name 9 })
    && reads 0x000000000200180802000F26 (.perm { a0 with dst := .name 0, sa := .name 1, sb := .name 2, sc := .name 3, fn := 0x2 })
    && reads 0x00000000000000000A040F27 (.swapn { a0 with dst := .name 4, sa := .name 5 }) := by decide

theorem test_words_names_1 :
    reads 0x000000000100000003080F28 (.mapq { a0 with dst := .uni 8, sa := .name 1, fn := 0x1 })
    && reads 0x000000030000000001080F29 (.mbxq { a0 with dst := .uni 8, imm := 0x3 }) := by decide

theorem test_words_integer_0 :
    reads 0x00000005004007FC00010230 (.iadd { a0 with guard := .pred 2 false, dst := .name 1, sa := .name 0, sb := .imm, ty := .i32, imm := 0x5 })
    && reads 0x000000000120000802030F30 (.iadd { a0 with dst := .name 3, sa := .name 1, sb := .name 2, ty := .i16x4, fn := 0x1 })
    && reads 0x000000000170001006050F31 (.iaddc { a0 with dst := .name 5, sa := .name 3, sb := .name 4, ty := .n64, fn := 0x1 })
    && reads 0x000000000040042004020F32 (.isub { a0 with dst := .name 2, sa := .name 2, sb := .uni 8, ty := .i32 })
    && reads 0x000000000250000400060F33 (.imul { a0 with dst := .name 6, sa := .name 0, sb := .name 1, ty := .n32, fn := 0x2 })
    && reads 0x00000000006000180A070F34 (.imulh { a0 with dst := .name 7, sa := .name 5, sb := .name 6, ty := .i64 })
    && reads 0x000000000040180802040F35 (.imad { a0 with dst := .name 4, sa := .name 1, sb := .name 2, sc := .name 3, ty := .i32 })
    && reads 0x00000007005007FC00020F36 (.idiv { a0 with dst := .name 2, sa := .name 0, sb := .imm, ty := .n32, imm := 0x7 })
    && reads 0x00000007004007FC00030F37 (.irem { a0 with dst := .name 3, sa := .name 0, sb := .imm, ty := .i32, imm := 0x7 }) := by decide

theorem test_words_integer_1 :
    reads 0x000000000000001006050F38 (.imin { a0 with dst := .name 5, sa := .name 3, sb := .name 4, ty := .i8x8 })
    && reads 0x000000000070042A13090F39 (.imax { a0 with dst := .uni 9, sa := .uni 9, sb := .uni 10, ty := .n64 })
    && reads 0x000000000140000002020F3A (.iabs { a0 with dst := .name 2, sa := .name 1, ty := .i32, fn := 0x1 })
    && reads 0x000000960070180802040F3B (.bfn { a0 with dst := .name 4, sa := .name 1, sb := .name 2, sc := .name 3, ty := .n64, imm := 0x96 })
    && reads 0x00000002007007FC00010F3C (.shl { a0 with dst := .name 1, sa := .name 0, sb := .imm, ty := .n64, imm := 0x2 })
    && reads 0x00000003005007FC00010F3D (.shr { a0 with dst := .name 1, sa := .name 0, sb := .imm, ty := .n32, imm := 0x3 })
    && reads 0x000000000020040C02020F3E (.sar { a0 with dst := .name 2, sa := .name 1, sb := .uni 3, ty := .i16x4 })
    && reads 0x00000008005007FC02020F3F (.rotl { a0 with dst := .name 2, sa := .name 1, sb := .imm, ty := .n32, imm := 0x8 })
    && reads 0x00000810004007FC02020F40 (.bfe { a0 with dst := .name 2, sa := .name 1, sb := .imm, ty := .i32, imm := 0x810 }) := by decide

theorem test_words_integer_2 :
    reads 0x00000408007FF80404030F41 (.bfi { a0 with dst := .name 3, sa := .name 2, sb := .name 1, sc := .imm, ty := .n64, imm := 0x408 })
    && reads 0x000000000070000002020F42 (.popc { a0 with dst := .name 2, sa := .name 1, ty := .n64 })
    && reads 0x000000000050000205040F43 (.clz { a0 with dst := .uni 4, sa := .uni 2, ty := .n32 })
    && reads 0x000000000050000000030F44 (.brev { a0 with dst := .name 3, sa := .name 0, ty := .n32 })
    && reads 0x000000000580000C04040F45 (.sel { a0 with dst := .name 4, sa := .name 2, sb := .name 3, ty := .f32, fn := 0x5 })
    && reads 0x000000100250000A00060F46 (.lea { a0 with dst := .name 6, sa := .uni 0, sb := .name 2, ty := .n32, fn := 0x2, imm := 0x10 })
    && reads 0x000000010040000000010F47 (.movi { a0 with dst := .name 1, ty := .i32, imm := 0x1 })
    && reads 0x00000005007007FC05060F48 (.vread { a0 with dst := .uni 6, sa := .name 2, sb := .imm, ty := .n64, imm := 0x5 })
    && reads 0x000000000040000003050F49 (.redux { a0 with dst := .uni 5, sa := .name 1, ty := .i32 }) := by decide

theorem test_words_integer_3 :
    reads 0x00000010035007FC02020F4A (.shfl { a0 with dst := .name 2, sa := .name 1, sb := .imm, ty := .n32, fn := 0x3, imm := 0x10 })
    && reads 0x000000000000000000000F4B (.srd { a0 with dst := .name 0 })
    && reads 0x000000090000000008000F4C (.swr { a0 with sa := .name 4, imm := 0x9 })
    && reads 0x123456780170000002010F47 (.movi { a0 with dst := .name 1, sa := .name 1, ty := .n64, fn := 0x1, imm := 0x12345678 }) := by decide

theorem test_words_float_0 :
    reads 0x3F800000008007FC00010F50 (.fadd { a0 with dst := .name 1, sa := .name 0, sb := .imm, ty := .f32, imm := 0x3f800000 })
    && reads 0x000000002090000C04040F51 (.fsub { a0 with dst := .name 4, sa := .name 2, sb := .name 3, ty := .f64, rm := .rd })
    && reads 0x0000000000D0000C04050F52 (.fmul { a0 with dst := .name 5, sa := .name 2, sb := .name 3, ty := .iv32 })
    && reads 0x000000000080180802040F53 (.ffma { a0 with dst := .name 4, sa := .name 1, sb := .name 2, sc := .name 3, ty := .f32 })
    && reads 0x0000000008D0001408060F54 (.fdiv { a0 with dst := .name 6, sa := .name 4, sb := .name 5, ty := .iv32, fn := 0x8 })
    && reads 0x000000003080000002020F55 (.fsqrt { a0 with dst := .name 2, sa := .name 1, ty := .f32, rm := .ru })
    && reads 0x0000000000A0000004030F56 (.frcp { a0 with dst := .name 3, sa := .name 2, ty := .f16x4 })
    && reads 0x000000000080000004030F57 (.frsq { a0 with dst := .name 3, sa := .name 2, ty := .f32 })
    && reads 0x0000000000D0000006040F58 (.fexp2 { a0 with dst := .name 4, sa := .name 3, ty := .iv32 }) := by decide

theorem test_words_float_1 :
    reads 0x000000000080000006040F59 (.flog2 { a0 with dst := .name 4, sa := .name 3, ty := .f32 })
    && reads 0x000000000080000002050F5A (.fsin { a0 with dst := .name 5, sa := .name 1, ty := .f32 })
    && reads 0x0000000000D0000004060F5B (.fcos { a0 with dst := .name 6, sa := .name 2, ty := .iv32 })
    && reads 0x000000000080000802030F5C (.fmin { a0 with dst := .name 3, sa := .name 1, sb := .name 2, ty := .f32 })
    && reads 0x000000000190000802040F5D (.fmax { a0 with dst := .name 4, sa := .name 1, sb := .name 2, ty := .f64, fn := 0x1 })
    && reads 0x0000000000C0000002020F5E (.fabs { a0 with dst := .name 2, sa := .name 1, ty := .f32x2 })
    && reads 0x0000000000E0000004040F5F (.fneg { a0 with dst := .name 4, sa := .name 2, ty := .iv64 })
    && reads 0x0000000002D0000C04020F60 (.fcmp { a0 with dst := .name 2, sa := .name 2, sb := .name 3, ty := .iv32, fn := 0x2 })
    && reads 0x000000000080000002050F61 (.fclass { a0 with dst := .name 5, sa := .name 1, ty := .f32 }) := by decide

theorem test_words_float_2 :
    reads 0x000000140900000002020F62 (.fcvt { a0 with dst := .name 2, sa := .name 1, fn := 0x9, imm := 0x14 })
    && reads 0x000000001040000004030F63 (.f2i { a0 with dst := .name 3, sa := .name 2, ty := .i32, rm := .rz })
    && reads 0x000000000080000000000F64 (.i2f { a0 with dst := .name 0, sa := .name 0, ty := .f32 })
    && reads 0x000000002080000002020F65 (.frnd { a0 with dst := .name 2, sa := .name 1, ty := .f32, rm := .rd })
    && reads 0x000000000090041004030F66 (.fscale { a0 with dst := .name 3, sa := .name 2, sb := .uni 4, ty := .f64 })
    && reads 0x000000000280180802040F67 (.fdot { a0 with dst := .name 4, sa := .name 1, sb := .name 2, sc := .name 3, ty := .f32, fn := 0x2 })
    && reads 0x0000000000D0000400020F68 (.ivmk { a0 with dst := .name 2, sa := .name 0, sb := .name 1, ty := .iv32 })
    && reads 0x4080000000D007FFFE030F68 (.ivmk { a0 with dst := .name 3, sa := .imm, sb := .imm, ty := .iv32, imm := 0x40800000 })
    && reads 0x0000000000D0000004040F69 (.ivlo { a0 with dst := .name 4, sa := .name 2, ty := .iv32 }) := by decide

theorem test_words_float_3 :
    reads 0x0000000000E0000004050F6A (.ivhi { a0 with dst := .name 5, sa := .name 2, ty := .iv64 })
    && reads 0x0000000000D0000C04040F6B (.ivhull { a0 with dst := .name 4, sa := .name 2, sb := .name 3, ty := .iv32 })
    && reads 0x0000000008D0000C04040F6C (.ivmeet { a0 with dst := .name 4, sa := .name 2, sb := .name 3, ty := .iv32, fn := 0x8 })
    && reads 0x0000000000D0000004050F6D (.ivmid { a0 with dst := .name 5, sa := .name 2, ty := .iv32 })
    && reads 0x0000000000D0000004060F6E (.ivwid { a0 with dst := .name 6, sa := .name 2, ty := .iv32 })
    && reads 0x0000000000D0000C0C040F6F (.ivin { a0 with dst := .name 4, sa := .name 6, sb := .name 3, ty := .iv32 })
    && reads 0x0000000000D0001404040F70 (.bisect { a0 with dst := .name 4, sa := .name 2, sb := .name 5, ty := .iv32 }) := by decide

theorem test_words_memory_0 :
    reads 0x00000008294FF80002050F80 (.ld { m0 with dst := .name 5, base := .name 1, index := .imm, ty := .i32, ord := .acq, scope := .die, offset := 0x8 })
    && reads 0x00000000327FF80C04000F81 (.st { m0 with base := .name 2, data := .name 3, index := .imm, ty := .n64, ord := .rel, scope := .module })
    && reads 0x00000000005FF80002022F82 (.ldl { m0 with cf := .flagA, dst := .name 2, base := .name 1, index := .imm, ty := .n32 })
    && reads 0x00000100007FF81C08000F83 (.stl { m0 with base := .name 4, data := .name 7, index := .imm, ty := .n64, offset := 0x100 })
    && reads 0x000000000050281A06040F84 (.ldt { m0 with dst := .name 4, base := .uni 3, data := .name 6, index := .name 5, ty := .n32 })
    && reads 0x000000000050281A06040F85 (.stt { m0 with dst := .name 4, base := .uni 3, data := .name 6, index := .name 5, ty := .n32 })
    && reads 0x00000010007FF80209090F86 (.ldu { m0 with dst := .uni 9, base := .uni 4, index := .imm, ty := .n64, offset := 0x10 })
    && reads 0x000000000040000802030F87 (.atom { m0 with dst := .name 3, base := .name 1, data := .name 2, ty := .i32 })
    && reads 0x000000003370180802040F88 (.atomc { m0 with dst := .name 4, base := .name 1, data := .name 2, index := .name 3, ty := .n64, ord := .acqRel, scope := .module }) := by decide

theorem test_words_memory_1 :
    reads 0x000000000050100A08000F89 (.red { m0 with base := .uni 4, data := .name 2, index := .name 2, ty := .n32 })
    && reads 0x00000000005FF80002010F8A (.pref { m0 with dst := .name 1, base := .name 1, index := .imm, ty := .n32 })
    && reads 0x0000000000002C1608000F8B (.cctl { m0 with base := .uni 4, data := .uni 5, index := .name 5 })
    && reads 0x000000002C00000000000F8C (.fence { m0 with ord := .sc, scope := .die })
    && reads 0x0000001F0000000001060F8D (.chkerr { a0 with dst := .uni 6, imm := 0x1f })
    && reads 0x000000040100000000000F8D (.chkerr { a0 with fn := 0x1, imm := 0x4 }) := by decide

theorem test_words_engine_0 :
    reads 0x0000000000050004104300A0 (.cpya { e0 with guard := .pred 0 false, tag := some 3, queue := .cq 0, sa := .uni 4, sb := .uni 0, sc := .uni 5 })
    && reads 0x000000000108070630450FA0 (.cpya { e0 with tag := some 5, queue := .cq 2, sa := .uni 6, sb := .uni 7, sc := .uni 8, sub := 0x1 })
    && reads 0x000008000D0C0B0A10460FA1 (.cpyt { e0 with tag := some 6, queue := .cq 0, sa := .uni 10, sb := .uni 11, sc := .uni 12, sub := 0xd, imm := 0x800 })
    && reads 0x00000400000C0B0A20440FA1 (.cpyt { e0 with tag := some 4, queue := .cq 1, sa := .uni 10, sb := .uni 11, sc := .uni 12, imm := 0x400 })
    && reads 0x0006400400100F0E40470FA2 (.cpyg { e0 with tag := some 7, queue := .cq 3, sa := .uni 14, sb := .uni 15, sc := .uni 16, imm := 0x64004 })
    && reads 0x0000000800000003FE000FA3 (.tagwa { a0 with sa := .imm, imm := 0x8 })
    && reads 0x0000000700000003FF060FA4 (.tagwy { a0 with dst := .uni 6, sa := .imm, imm := 0x7 })
    && reads 0x000000000000000219070FA5 (.tagff { a0 with dst := .uni 7, sa := .uni 12 })
    && reads 0x000000030000000001080FA6 (.tagst { a0 with dst := .uni 8, imm := 0x3 }) := by decide

theorem test_words_engine_1 :
    reads 0x0000000101000003FE000FA7 (.tagclr { a0 with sa := .imm, fn := 0x1, imm := 0x1 })
    && reads 0x000000020100000008000FA8 (.gset { a0 with sa := .name 4, fn := 0x1, imm := 0x2 })
    && reads 0x0000000C0000000000000FA9 (.gclr { a0 with imm := 0xc })
    && reads 0x000000020000000000000FAA (.qfence { e0 with imm := 0x2 })
    && reads 0x000000000316151400480FB0 (.mma { e0 with tag := some 8, sa := .uni 20, sb := .uni 21, sc := .uni 22, sub := 0x3 })
    && reads 0x000000006408151400008FB1 (.mmar { e0 with ru := true, sa := .uni 20, sb := .uni 21, sc := .uni 8, sub := 0x64 })
    && reads 0x000000000000001600000FB2 (.mzero { e0 with sa := .uni 22 })
    && reads 0x000000000000171600490FB3 (.mldacc { e0 with tag := some 9, sa := .uni 22, sb := .uni 23 })
    && reads 0x0000000801191816004A0FB4 (.mdrain { e0 with tag := some 10, sa := .uni 22, sb := .uni 24, sc := .uni 25, sub := 0x1, imm := 0x8 }) := by decide

theorem test_words_engine_2 :
    reads 0x000000000100000229090FB5 (.mchk { a0 with dst := .uni 9, sa := .uni 20, fn := 0x1 })
    && reads 0x00000000021C1B1A004B0FB6 (.mtrn { e0 with tag := some 11, sa := .uni 26, sb := .uni 27, sc := .uni 28, sub := 0x2 }) := by decide

theorem test_words_sync_0 :
    reads 0x0000000801000003FE000FC0 (.bar { a0 with sa := .imm, fn := 0x1, imm := 0x8 })
    && reads 0x000000000000000000000FC0 (.bar a0)
    && reads 0x000000000000000000000FC1 (.cbar a0)
    && reads 0x000000001A7FF80209080FC2 (.arrive { m0 with dst := .uni 8, base := .uni 4, index := .imm, ty := .n64, ord := .rel, scope := .wg })
    && reads 0x00000000197FFC2208000FC3 (.await { m0 with base := .uni 4, data := .uni 8, index := .imm, ty := .n64, ord := .acq, scope := .wg })
    && reads 0x000000030208C01228010FC4 (.spawn { a0 with dst := .name 1, sa := .uni 20, sb := .name 4, sc := .uni 24, fn := 0x2, imm := 0x3 })
    && reads 0x0000020300000000011E0FC5 (.join { a0 with dst := .uni 30, imm := 0x203 })
    && reads 0x000000000100042E14000FC6 (.signal { a0 with sa := .uni 10, sb := .uni 11, fn := 0x1 })
    && reads 0x00000000000FFC3618000FC7 (.qpush { m0 with base := .uni 12, data := .uni 13, index := .imm }) := by decide

theorem test_words_sync_1 :
    reads 0x00000000001FF80218000FC7 (.qpush { m0 with base := .uni 12, index := .imm, ty := .i8 })
    && reads 0x00000000000FFC36190E0FC8 (.qpop { m0 with dst := .uni 14, base := .uni 12, data := .uni 13, index := .imm }) := by decide

theorem test_words_refine_coll_0 :
    reads 0x0000000001000002290A0FD0 (.vbuf { a0 with dst := .uni 10, sa := .uni 20, fn := 0x1 })
    && reads 0x000000000000042A28020FD1 (.pubv { a0 with dst := .name 2, sa := .uni 20, sb := .uni 10 })
    && reads 0x000000000100042A28020FD1 (.pubv { a0 with dst := .name 2, sa := .uni 20, sb := .uni 10, fn := 0x1 })
    && reads 0x00000000030000022B0B0FD2 (.vpin { a0 with dst := .uni 11, sa := .uni 21, fn := 0x3 })
    && reads 0x00000000000000022A000FD3 (.vunpin { a0 with sa := .uni 21 })
    && reads 0x000000000000000228040FD4 (.rfstop { a0 with dst := .name 4, sa := .uni 20 })
    && reads 0x0000000100000003FF0A0FD5 (.vqry { a0 with dst := .uni 10, sa := .imm, imm := 0x1 })
    && reads 0x00000101000C0B0A50450FD8 (.coll { e0 with tag := some 5, queue := .xq, sa := .uni 10, sb := .uni 11, sc := .uni 12, imm := 0x101 })
    && reads 0x00000007090CFFFF50460FD8 (.coll { e0 with tag := some 6, queue := .xq, sa := .imm, sb := .imm, sc := .uni 12, sub := 0x9, imm := 0x7 }) := by decide

theorem test_words_refine_coll_1 :
    reads 0x00000303000C000050470FD9 (.collx { e0 with tag := some 7, queue := .xq, sc := .uni 12, imm := 0x303 })
    && reads 0x00000101000007FE190E0FDA (.slateq { a0 with dst := .uni 14, sa := .uni 12, sb := .imm, imm := 0x101 }) := by decide

theorem test_words_handler_0 :
    reads 0x00010002000300040005B3F5 (.ext { op := 5, guard := .pred 3 true, cf := .flagA, ru := true, rest := 0x00010002000300040005 })
    && reads 0x000000000000000000000FE0 (.tret a0)
    && reads 0x00200300020007FC010A0FE1 (.trd { a0 with dst := .uni 10, sb := .imm, fn := 0x2, imm := 0x200300 })
    && reads 0x000000000000042000020FE1 (.trd { a0 with dst := .name 2, sb := .uni 8 })
    && reads 0x000000000400042218010FE2 (.twr { a0 with dst := .name 1, sa := .uni 12, sb := .uni 8, fn := 0x4 })
    && reads 0x000000000108442A12000FE3 (.tresume { a0 with sa := .uni 9, sb := .uni 10, sc := .uni 8, fn := 0x1 })
    && reads 0x000000000008400212000FE3 (.tresume { a0 with sa := .uni 9, sc := .uni 8 })
    && reads 0x000000000008400212000FE4 (.tkill { a0 with sa := .uni 9, sc := .uni 8 })
    && reads 0x000000000200000000000FE4 (.tkill { a0 with fn := 0x2 }) := by decide

theorem test_words_handler_1 :
    reads 0x000000000000000006000FE5 (.temu { a0 with sa := .name 3 })
    && reads 0x000000000100000000000FE5 (.temu { a0 with fn := 0x1 })
    && reads 0x000000000000041608000FE6 (.icinv { a0 with sa := .uni 4, sb := .uni 5 })
    && reads 0x000000000100000000000FE6 (.icinv { a0 with fn := 0x1 })
    && reads 0x000000010000000000040FE7 (.fflags { a0 with dst := .name 4, imm := 0x1 }) := by decide


/-! ### Ill-formed terms, one for each check of WellFormed: none is a legal instruction -/

/-- No instruction of a list is well-formed. -/
def noneLegal (l : List Instr) : Bool := l.all (fun i => !i.wf)

/-- An integer instruction of two sources and one of three, a point and an interval instruction. -/
def i2 : FmtA := { a0 with dst := .name 1, sa := .name 2, sb := .name 3, ty := .i32 }
def i3 : FmtA := { i2 with sc := .name 4 }
def p2 : FmtA := { i2 with ty := .f32 }
def v2 : FmtA := { a0 with dst := .name 2, sa := .name 4, sb := .name 6, ty := .iv64 }

theorem test_wf_bases : ([.iadd i2, .imad i3, .fadd p2, .fadd v2, .ivhull v2, .nop a0] : List Instr).all Instr.wf = true := by decide

/-- R78: a field that an entry does not use is zero; R76: no guard where the entry takes none. -/
theorem test_wf_unused : noneLegal [.nop { a0 with dst := .name 1 }, .nop { a0 with sa := .name 1 }, .nop { a0 with sb := .uni 0 },
    .nop { a0 with sc := .imm }, .nop { a0 with ty := .n8x8 }, .nop { a0 with fn := 1 }, .nop { a0 with rm := .rz },
    .nop { a0 with imm := 1 }, .nop { a0 with cf := .flagA }, .iadd { i2 with imm := 1 }, .move { a0 with sa := .name 1, nf := true },
    .wsync { a0 with guard := .pred 0 false }, .move { a0 with sa := .name 1, guard := .pred 0 false }] = true := by decide

/-- The checks of the control instructions and the predicates (06). -/
theorem test_wf_control : noneLegal [.hdr { wait := 0, fa := some 3, fb := some 3, yh := false, live := 0 },
    .brm { p0 := { test := .always, offset := 1 }, more := List.replicate 4 { test := .always, offset := 1 } },
    .call { a0 with dst := .uni 1 }, .call { a0 with dst := .name 1, fn := 1, sa := .name 2, imm := 1 }, .call { a0 with fn := 2 },
    .elect { a0 with dst := .name 12 }, .vote { a0 with dst := .name 1, fn := 3 }, .vote { a0 with dst := .uni 1, fn := 5 },
    .vote { a0 with dst := .name 1, sa := .name 15 }, .icmp { i2 with dst := .name 15 }, .icmp { i2 with fn := 6 },
    .icmp { i2 with ty := .i8x8 }, .icmp { i2 with dst := .uni 1 }, .plop { a0 with imm := 256 }, .plop { a0 with sa := .name 12 },
    .plop { a0 with dst := .name 15 }, .p2s { a0 with imm := 4096 }, .p2s { a0 with dst := .uni 1 },
    .s2p { a0 with imm := 4096 }] = true := by decide

/-- The checks of the map instructions (07). -/
theorem test_wf_names : noneLegal [.move { a0 with dst := .uni 1 }, .move { a0 with sa := .uni 1 }, .cpy { a0 with sa := .imm },
    .give { a0 with imm := 16 }, .give { a0 with fn := 1, imm := 0x1C03 }, .give { a0 with fn := 1, imm := 0x113 }, .take { a0 with fn := 2 },
    .unmap { a0 with dst := .uni 3 }, .perm { a0 with fn := 3 }, .perm { a0 with fn := 0 },
    .perm { a0 with fn := 1, sa := .name 1, sb := .name 1 }, .perm { a0 with fn := 1, sa := .name 1, sb := .name 2, sc := .name 3 },
    .swapn a0, .mapq { a0 with dst := .uni 1, fn := 3 }, .mapq { a0 with dst := .name 1 },
    .mbxq { a0 with dst := .uni 1, imm := 16 }] = true := by decide

/-- The checks of the integer instructions (09). -/
theorem test_wf_integer : noneLegal [.iadd { i2 with ty := .f32 }, .iadd { i2 with fn := 2 }, .iadd { i2 with dst := .uni 1 },
    .iaddc { i2 with fn := 1 }, .iaddc { i2 with ty := .n32, fn := 12 }, .iaddc { i2 with ty := .n32, dst := .uni 1, sa := .uni 1, sb := .uni 1 },
    .imul { i2 with fn := 2, ty := .i64 }, .imulh { i2 with ty := .i8x8 }, .imad { i3 with dst := .uni 1, sa := .uni 2, sb := .uni 3 },
    .iabs { i2 with sb := .name 0, ty := .n32 }, .bfn { i3 with imm := 256 }, .bfn { i3 with sc := .imm }, .shr i2,
    .sar { i2 with ty := .n32 }, .bfe { i2 with ty := .i16x4 }, .popc { i2 with sb := .name 0, ty := .n16x4 }, .sel { i2 with fn := 12 },
    .sel { v2 with dst := .name 3 }, .lea { i2 with sa := .imm }, .lea { i2 with ty := .f64 }, .movi { a0 with fn := 2 },
    .movi { a0 with fn := 1, ty := .i64 }, .movi { a0 with ty := .iv64, dst := .name 1 }, .vread { i2 with dst := .name 1, sb := .uni 1 },
    .vread { i2 with dst := .uni 1 }, .redux { i2 with dst := .uni 1, sb := .name 0, fn := 6 }, .redux { p2 with dst := .uni 1, sb := .name 0 },
    .shfl { i2 with fn := 4 }, .shfl { i2 with sa := .uni 2 }, .srd { a0 with imm := 15 }, .srd { a0 with dst := .uni 1, imm := 0 },
    .swr { a0 with imm := 15 }, .swr { a0 with imm := 9, nf := true }] = true := by decide

/-- The checks of the floating-point and interval instructions (10). -/
theorem test_wf_float : noneLegal [.fadd i2, .fadd { p2 with fn := 8 }, .fadd { v2 with fn := 1 }, .fadd { v2 with rm := .rd },
    .fadd { v2 with sb := .name 5 }, .fadd { p2 with dst := .uni 1 }, .frcp { p2 with sb := .name 0, ty := .f64 }, .fmin { p2 with fn := 8 },
    .fmin { v2 with fn := 1 }, .fmin { p2 with rm := .rz }, .fabs { p2 with sb := .name 0, rm := .rz }, .fcmp { p2 with dst := .name 2, fn := 6 },
    .fcmp p2, .fcmp { p2 with dst := .name 12 }, .fclass { p2 with sb := .name 0, fn := 1 }, .fcvt { a0 with fn := 1, imm := 1 },
    .fcvt { a0 with fn := 1, imm := 0x28 }, .fcvt { a0 with fn := 1, imm := 0x80 }, .fcvt { a0 with fn := 6, imm := 1 },
    .fcvt { a0 with fn := 2, imm := 1, rm := .rz }, .fcvt { a0 with fn := 1, imm := 0x24, sa := .imm }, .fcvt { a0 with fn := 1, imm := 0x44 },
    .f2i { p2 with sb := .name 0 }, .f2i { i2 with sb := .name 0, fn := 4 }, .i2f { p2 with sb := .name 0, ty := .f32x2 },
    .fdot { p2 with sc := .name 1, fn := 4 }, .fdot { p2 with ty := .f64 }, .ivmk p2, .ivmk { v2 with dst := .name 3 },
    .ivlo { v2 with sb := .name 0, fn := 8 }, .ivin { v2 with dst := .name 3 }, .bisect { v2 with sb := .name 2 },
    .bisect { v2 with sb := .uni 2 }, .bisect { v2 with sb := .imm, imm := 1 }] = true := by decide

/-- A load, a store, an atomic and a cache-control instruction. -/
def ld0 : FmtM := { m0 with dst := .name 2, base := .name 1, index := .imm, ty := .n32 }
def st0 : FmtM := { m0 with base := .name 1, data := .name 2, index := .imm, ty := .n32 }
def at0 : FmtM := { m0 with dst := .name 3, base := .name 1, data := .name 2, ty := .n32 }

/-- The checks of the memory instructions (12). -/
theorem test_wf_memory : ([.ld ld0, .st st0, .atom at0] : List Instr).all Instr.wf = true
    ∧ noneLegal [.ld { ld0 with dst := .uni 1 }, .ld { ld0 with data := .name 1 }, .ld { ld0 with ord := .rel, scope := .die },
    .ld { ld0 with ord := .acq }, .ld { ld0 with scope := .die }, .ld { ld0 with ty := .iv64, dst := .name 3 }, .st { st0 with dst := .name 1 },
    .st { st0 with data := .imm }, .st { st0 with ord := .acq, scope := .wg }, .ldl { ld0 with ord := .acq, scope := .die },
    .stl { st0 with ord := .rel, scope := .cluster }, .ldu ld0, .ldu { ld0 with dst := .uni 1 },
    .atom { at0 with ty := .n8 }, .atom { at0 with index := .name 9 }, .atom { at0 with ty := .i32, index := .name 7 },
    .atomc { at0 with index := .imm }, .red at0, .red { at0 with dst := .name 0, index := .name 6 },
    .red { at0 with dst := .name 0, ord := .acqRel, scope := .die }, .pref { ld0 with dst := .name 2 },
    .cctl { m0 with base := .uni 4, data := .uni 5, index := .name 2 }, .cctl { m0 with base := .uni 4, data := .uni 5, index := .name 16 },
    .cctl { m0 with base := .uni 4, data := .uni 5, index := .name 8, dst := .uni 1, offset := 1 }, .fence { m0 with scope := .die },
    .fence { m0 with ord := .sc, scope := .die, cf := .flagA }, .chkerr { a0 with dst := .uni 1, fn := 3 },
    .chkerr { a0 with dst := .uni 1, imm := 32 }, .chkerr { a0 with dst := .uni 1, fn := 1 },
    .chkerr { a0 with dst := .uni 1, fn := 2, imm := 1 }] = true := by decide

/-- A copy, a matrix command and a collective. -/
def cp0 : FmtE := { e0 with queue := .cq 0, tag := some 1 }
def co0 : FmtE := { e0 with queue := .xq, tag := some 1 }

/-- The checks of the engine commands and of the tag and guard instructions (13, 20). -/
theorem test_wf_engine : ([.cpya cp0, .mma e0, .coll co0, .cpyg { cp0 with imm := 0x1001 }] : List Instr).all Instr.wf = true
    ∧ noneLegal [.cpya { cp0 with queue := .mq }, .cpya { cp0 with tag := none }, .cpya { cp0 with ru := true }, .cpya { cp0 with sub := 4 },
    .cpya { cp0 with imm := 1 }, .cpyt { cp0 with sub := 3 }, .cpyt { cp0 with sub := 8 }, .cpyt { cp0 with sub := 16 },
    .cpyg cp0, .cpyg { cp0 with imm := 0x1101 }, .cpyg { cp0 with imm := 0x1001, sub := 1 }, .cpyg { cp0 with imm := 1 },
    .tagwa { a0 with sa := .name 1 }, .tagwy { a0 with dst := .name 1, sa := .imm }, .tagst { a0 with dst := .uni 1, imm := 64 },
    .gset { a0 with sa := .name 12 }, .gset { a0 with fn := 2 }, .gset { a0 with imm := 16 }, .gclr { a0 with imm := 65536 },
    .qfence { e0 with slot := some 1 }, .qfence { e0 with imm := 64 }, .mma { e0 with queue := .xq }, .mma { e0 with sub := 0x20 },
    .mma { e0 with sub := 8 }, .mma { e0 with imm := 1 }, .mmar e0, .mmar { e0 with sub := 0x20, sc := .uni 125 },
    .mzero { e0 with sub := 1 }, .mzero { e0 with imm := 3 }, .mzero { e0 with sb := .uni 1 }, .mldacc { e0 with sc := .uni 1 },
    .mdrain { e0 with sub := 5 }, .mdrain { e0 with sub := 8 }, .mdrain { e0 with imm := 16 }, .mdrain { e0 with sc := .uni 1 },
    .mchk { a0 with dst := .uni 1, sa := .uni 1, fn := 2 }, .mtrn { e0 with sub := 4 }, .mtrn { e0 with imm := 1 },
    .coll { co0 with sub := 10 }, .coll { co0 with cf := .flagA }, .coll { co0 with sub := 9 }, .coll { co0 with sb := .imm },
    .collx { co0 with sa := .uni 1 }, .collx { co0 with sub := 1 }, .slateq { a0 with dst := .uni 1, sa := .name 1, sb := .imm }] = true := by
  decide

/-- The checks of the synchronising, refinement and handler instructions (15, 18, 22). -/
theorem test_wf_sync : noneLegal [.bar { a0 with guard := .pred 0 false }, .bar { a0 with fn := 1 }, .bar { a0 with fn := 2, sa := .uni 1 },
    .cbar { a0 with fn := 1 }, .arrive { m0 with dst := .uni 1, base := .uni 4, index := .imm, ty := .n64 },
    .arrive { m0 with dst := .uni 1, base := .uni 4, index := .imm, ty := .n64, ord := .rel, scope := .die },
    .await { m0 with base := .uni 4, data := .uni 8, index := .imm, ty := .n64, ord := .rel, scope := .wg },
    .await { m0 with base := .uni 4, data := .uni 8, ty := .n64, ord := .acq, scope := .wg }, .spawn a0,
    .join { a0 with dst := .uni 1, imm := 0xC00 }, .join { a0 with dst := .uni 1, imm := 0x10 }, .signal { a0 with sa := .name 1, sb := .imm },
    .signal { a0 with sa := .uni 1, sb := .imm, fn := 4 }, .qpush { m0 with base := .uni 1, index := .imm },
    .qpush { m0 with base := .uni 1, index := .imm, ty := .i8, data := .uni 1 }, .qpop { m0 with base := .uni 1, data := .uni 1, index := .imm },
    .vbuf { a0 with dst := .uni 1, sa := .uni 2, fn := 12 }, .vbuf { a0 with dst := .uni 1, sa := .name 2 },
    .vbuf { a0 with dst := .uni 1, sa := .imm, imm := 65536 }, .pubv { a0 with dst := .name 12, sa := .uni 1, sb := .uni 2 },
    .pubv { a0 with dst := .name 1, sa := .uni 1, sb := .uni 2, fn := 2 }, .vunpin { a0 with dst := .uni 1, sa := .uni 1 },
    .rfstop { a0 with dst := .uni 1, sa := .uni 1 }, .vqry { a0 with dst := .name 1, sa := .uni 1 }] = true := by decide

/-- The decoder refuses a slot for a reason. -/
def refuses (w : Slot) (r : Reject) : Bool :=
  match decodeSlot w with
  | .error e => e == r
  | .ok _ => false

/-- The decoder refuses by name: a short slot, an unassigned opcode, a guard, a flag, an operand, a type, a rounding code, an order, a
queue, a reserved bit, a field. -/
theorem test_decode_rejects : (match decodeBytes [] with | .error e => e == .short | .ok _ => false) = true ∧ refuses 0xF13 (.opcode 0x13) = true ∧ refuses 0xC02 .guard = true
    ∧ refuses 0x1F02 .guard = true ∧ refuses 0x6F02 .attach = true ∧ refuses 0x00000000_00000000_00800F21 .operand = true
    ∧ refuses 0x00000000_00F00000_00010F30 .type = true ∧ refuses 0x00000000_50800000_00010F50 .rounding = true
    ∧ refuses 0x00000000_055FF800_02050F80 .order = true ∧ refuses 0x00000000_00050004_604300A0 .queue = true
    ∧ refuses 0x00000000_00050004_904300A0 .reserved = true ∧ refuses 0x00000000_00000000_00010F02 .fields = true := by decide


/-! ### A small machine: one warp of 32 threads at slot 0 of line 0, whose names v0 to v7 map rows 0 to 7 -/

def l0 : Loc := ⟨0, 0, 0, 0⟩

/-- Element t of row n is 100 n + t. -/
def rowData (n : Nat) : List Word := (List.range 32).map (fun t => BitVec.ofNat 64 (100 * n + t))

def hdr0 : FmtH := { wait := 0, fa := some 1, fb := some 2, yh := false, live := 0 }

def warp0 : Warp :=
  { loc := l0, uid := 2, wg := 1, ctx := 0, threads := List.replicate 32 { hdr := some hdr0, pos := 1 }, rowsRes := 16, balance := 8
    map := (List.range 8).map some ++ List.replicate 120 none
    unif := (List.range 192).map (fun k => BitVec.ofNat 64 (16 * k)) }

def slice0 : Slice :=
  { id := sliceOfLoc l0, rows := (List.range 8).map (fun n => { no := n, holders := 1, charge := 0, data := rowData n }) }

def wg0 : Wg :=
  { uid := 1, ctx := 0, core := ⟨0, 0⟩, slices := [0], tags := List.replicate 4 {}, guards := List.replicate 4 [none]
    foot := { loc := 65536, acckib := 64, tags := 4, guards := 4, rows := 16 } }

/-- The machine with the turn of the warp, at a slot whose bits are given. -/
def liveAt (bits : Slot) : State :=
  { State.reset.withFetchWord 96 bits.toNat with
    warps := [warp0], slices := [slice0], wgs := [wg0], cur := { loc := l0, handler := false, pc := 0, bits := bits } }

def live : State := liveAt 0

/-- The machine with a change of its warp. -/
def liveW (g : Warp → Warp) : State := { live with warps := [g warp0] }

/-- The machine with a handler run of the warp's thread 0, parked at slot 0. -/
def rec0 : TrapRec := { mask := 1, code := 0x08, fpc := 0, ppc := 0, bits := 0, vals := [(0, 9, 0)] }

def hrun0 : HRun :=
  { slot := 0, trec := rec0, thread := 0, pc := 64, hdr := some hdr0, pos := 1, unif := rec0.words 0 ++ List.replicate 8 0, start := 0 }

def liveH : State :=
  { live with
    slices := [{ slice0 with handler := some hrun0 }]
    warps := [warp0.updThreads 1 (fun _ x => { x with st := .parked })]
    cur := { loc := l0, handler := true, pc := 64, bits := 0 } }

/-- An instruction of format A can compute: what the statements about results ask of the state. -/
def can (s : State) (f : FmtA) (rd : List Touch) (wide : Bool := false) : Bool :=
  s.ready f.guard f.cf (rd ++ f.dst.touch wide) && s.mapped rd && s.roomFor (f.dst.names wide)

/-- The next state of an instruction. -/
def after (i : Instr) (s : State) : State :=
  match exec i s with
  | .next t => t
  | _ => s


/-! ### What the hypotheses of the statements ask can be met: one theorem or more for each statement -/

/-- Every executing thread meets a condition. -/
def exAll (s : State) (g : Guard) (p : Nat → Bool) : Bool := (List.range 32).all (fun t => !bitAt (s.ex g) t || p t)

/-- The machine with predicates: p0 holds for thread 0 alone, p1 for none, p2 for all. -/
def liveP : State := liveW (fun w => { w with preds := [1, 0, -1, 0, 0, 0, 0, 0, 0, 0, 0, 0x80000000] })

def only0 : Guard := .pred 0 false

theorem wit_IntegerArithmetic :
    [i2, { i2 with fn := 1 }, { i2 with dst := .name 127 }, { i2 with dst := .uni 191, sa := .imm, sb := .uni 0 },
     { i2 with sa := .name 7, sb := .name 7, dst := .name 7, cf := .flagB }].all (fun f => can live f (f.sa.touch ++ f.sb.touch)) = true
    ∧ can liveH { i2 with dst := .name 7, sb := .uni 15 } (i2.sa.touch) = true
    ∧ can live i3 (i3.sa.touch ++ i3.sb.touch ++ i3.sc.touch) = true ∧ i2.fn ≠ 2 ∧ i2.ty.isI = true
    ∧ can liveP { i2 with guard := .pred 11 false, sa := .imm, imm := 0x80000000 } i2.sa.touch = true := by decide

theorem wit_CarryAndDivision :
    (let f := { i2 with fn := 2, ty := .n32 }; f.fn = 2 ∧ can live f (f.sa.touch ++ f.sb.touch) = true)
    ∧ (let f := { i2 with fn := 11, ty := .n64 }; f.dst = .name 1 ∧ f.fn.toNat < 12 ∧ can live f (f.sa.touch ++ f.sb.touch) = true)
    ∧ can live { i2 with sb := .imm, ty := .n64 } i2.sa.touch = true := by decide

theorem wit_BitInstructions : (let f := { i3 with imm := 0xCA }; f.ty.isInt = true ∧ f.ty.isWhole = true
      ∧ can live f (f.sa.touch ++ f.sb.touch ++ f.sc.touch) = true)
    ∧ can live { i2 with ty := .n8x8, sb := .name 0 } i2.sa.touch = true := by decide

theorem wit_DataMovement :
    (let f := { v2 with dst := .name 6, sa := .name 2, sb := .name 4 }; can live f (f.sa.touch true ++ f.sb.touch true) true = true)
    ∧ can live { v2 with dst := .uni 190 } [] true = true
    ∧ (let f := { i2 with dst := .uni 3, sb := .imm, ty := .iv64, sa := .name 6, imm := 31 }; f.sa = .name 6 ∧ can live f (f.sa.touch true ++ f.sb.touch) true = true)
    ∧ (let f := { i2 with dst := .uni 3, fn := 5 }; f.ty.isInt = true ∧ can live f f.sa.touch = true)
    ∧ (let f := { i2 with sb := .imm, fn := 1, imm := 31 }; can live f (f.sa.touch ++ f.sb.touch) = true)
    ∧ ({ i2 with fn := 1 } : FmtA).fn = 1 := by decide

theorem wit_SpecialRegisters :
    (List.range 15).all (fun k => can live { a0 with dst := .name 1, imm := BitVec.ofNat 32 k } []) = true
    ∧ (live.me.thread 5).hdr = some hdr0 ∧ liveH.myH.hdr = some hdr0
    ∧ (let f := { a0 with sa := .name 2, imm := 9 }; live.ready f.guard f.cf f.sa.touch = true ∧ live.mapped f.sa.touch = true)
    ∧ can live { a0 with dst := .name 8, imm := 0x7F } [] = true ∧ live.cur.handler = false := by decide

theorem wit_FloatingPointElements :
    [p2, { p2 with ty := .f16x4, dst := .name 9, nf := true }, { p2 with dst := .uni 0, sa := .uni 1, sb := .imm }].all
      (fun f => can live f (f.sa.touch ++ f.sb.touch) && !f.ty.isIv) = true
    ∧ can live { p2 with sc := .name 1 } (p2.sa.touch ++ p2.sb.touch ++ (Src.name 1).touch) = true := by decide

/-- An interval instruction of iv32 on the one point of an immediate, for thread 0. -/
def v1 (imm : BitVec 32) (fn : BitVec 4) : FmtA :=
  { a0 with guard := only0, dst := .name 2, sa := .imm, sb := .imm, sc := .imm, ty := .iv32, fn := fn, imm := imm }

theorem wit_IntervalInstructions :
    (let f := v1 0x3F800000 0; f.ty.isIv = true ∧ can liveP f [] = true
      ∧ exAll liveP f.guard (fun th => fp32.ivWf (liveP.ivSrc f f.sa th) && (fp32.ivAdd (liveP.ivSrc f f.sa th) (liveP.ivSrc f f.sa th)).isSome
          && (fp32.ivNeg (liveP.ivSrc f f.sa th)).isSome && !fp32.isEmpty (liveP.ivSrc f f.sa th)
          && !fp32.isNan ((liveP.src f.sa th (f.imm.setWidth 64)).toNat % 2 ^ 32)) = true)
    ∧ (let f := v1 0xBF800000 8; can liveP f [] = true
        ∧ exAll liveP f.guard (fun th => bitAt f.fn 3 && fp32.ivWf (liveP.ivSrc f f.sa th) && (fp32.ivSqrt (liveP.ivSrc f f.sa th)).isNone) = true)
    ∧ can live { v2 with dst := .name 8, sa := .name 6, sb := .name 0 } ((Src.name 6).touch true ++ (Src.name 0).touch true) true = true := by
  decide

theorem wit_Conversions :
    [(1, 0), (0, 1), (2, 3), (7, 6)].all (fun p => can live { a0 with dst := .name 1, sa := .name 2, fn := .ofNat 4 p.1, imm := .ofNat 32 p.2 } ((Src.name 2).touch (p.1 == 7))) = true
    ∧ can live { a0 with dst := .name 2, sa := .name 2, fn := 6, imm := 7 } (Src.name 2).touch true = true
    ∧ can live { i2 with sb := .name 0, fn := 3 } (Src.name 2).touch = true
    ∧ fp64.ivWf ((live.src (.name 2) 0 0).toNat, (live.srcHi (.name 2) 0 0).toNat) = true
    ∧ (let g := 7; let n := 64 / max (cvtWidth 0) (cvtWidth 4); g * n + n ≤ 64 / cvtWidth 4) := by decide

theorem wit_VerdictsAndPredicates :
    (let f := { p2 with dst := .name 10 }; let rd := f.sa.touch ++ f.sb.touch;
      f.dst = .name 10 ∧ live.ready f.guard f.cf (rd ++ f.dst.touchUni) = true ∧ live.mapped rd = true ∧ f.ty.isIv = false)
    ∧ (let f := { p2 with dst := .uni 1, sa := .uni 2, sb := .imm }; live.ready f.guard f.cf f.dst.touchUni = true)
    ∧ (let f := { v1 0x3F800000 0 with dst := .name 0 }; liveP.ready f.guard f.cf f.dst.touchUni = true
        ∧ exAll liveP f.guard (fun th => fp32.ivWf (liveP.ivSrc f f.sa th) && !fp32.isEmpty (liveP.ivSrc f f.sa th)) = true)
    ∧ (let f := { i2 with dst := .name 11 }; live.ready f.guard f.cf (f.sa.touch ++ f.sb.touch ++ f.dst.touchUni) = true)
    ∧ live.ready .always .none [] = true ∧ live.ready .always .none (Src.name 2).touch = true
    ∧ live.ready .always .none (Dst.uni 7).touchUni = true := by decide

theorem wit_ClausesAndSlots :
    live.ready .always .none [] = true ∧ liveH.ready .always .none [] = true ∧ live.cur.handler = false ∧ live.run = live.me.alive
    ∧ (let s := liveW (fun w => w.updThreads 1 (fun _ x => { x with pc := 12 })); s.ready .always .none [] = true ∧ s.run ≠ s.me.alive)
    ∧ (let w := { warp0 with waits := [{ pc := 0, mask := -1, kind := .wsync, since := 0 }] }; let s := liveW (fun _ => w);
        s.warp? l0 = some w ∧ s.waitAt l0 false 0 = some { pc := 0, mask := -1, kind := .wsync, since := 0 }
        ∧ w.runAt 0 = w.alive ∧ w.alive ≠ 0)
    ∧ live.run ≠ 0 ∧ liveH.run ≠ 0 ∧ liveH.cur.handler = true
    ∧ (let w := { warp0 with waits := [{ pc := 0, mask := -1, kind := .header 0xFFF, since := 0 }] }; let s := liveW (fun _ => w);
        s.clauseReady { loc := l0, handler := false, pc := 0 } = true ∧ (w.thread (lowest (w.runAt 0))).hdr = some hdr0) := by decide

/-- The line of the machine holds a marked header in slot 0, and none in slot 1. -/
def liveJ : State := liveAt 0x01

theorem wit_Transfers :
    liveJ.legalTarget 0 = true ∧ wordInt (addrOfIndex ((slotIndex liveJ.cur.pc.toNat : Int) + ({ a0 with imm := 0 } : FmtA).imm.toInt)) = 0
    ∧ liveJ.ready .always .none [] = true
    ∧ (let f := { a0 with sa := .imm }; exAll liveJ f.guard (fun th => liveJ.legalTarget (liveJ.src f.sa th (f.imm.setWidth 64))) = true
        ∧ can liveJ { f with dst := .name 8, fn := 1 } f.sa.touch = true
        ∧ exAll liveJ f.guard (fun th => liveJ.legalTarget (liveJ.src f.sa th 0)) = true)
    ∧ isSlotAddr (12 : Word).toNat = true ∧ isSlotAddr (60 : Word).toNat = false ∧ isSlotAddr (1 : Word).toNat = false
    ∧ ((liveJ.icLine liveJ.myCore liveJ.myCtx 0).map (fun l => parFails l.bytes == 0 && decide (lineWord l.bytes < 4096)
        && !lineTgt l.bytes 1 && fieldNat (lineSlot l.bytes 1) 0 8 != 1)) = some true := by decide

theorem wit_TrapsAndExits :
    live.ready .always .none [] = true ∧ (∀ x, x ∈ live.me.inflight → x.emu = none) ∧ live.flagOf .flagA = some (some 1)
    ∧ live.ready .always .flagA [] = true ∧ liveH.ready .always .none [] = true ∧ (liveH.warp? liveH.cur.loc).isSome = true
    ∧ ¬ (live.me.inState .running = live.ex .always ∧ live.me.inState .parked ≠ 0)
    ∧ (let s := liveW (fun w => w.updThreads 1 (fun _ x => { x with st := .parked }));
        s.ready .always .none [] = true ∧ s.me.inState .running = s.ex .always ∧ s.me.inState .parked ≠ 0)
    ∧ (let x : Wait := { pc := 0, mask := -1, kind := .exit, since := 0 }; let s := liveW (fun w => { w with waits := [x] });
        s.waitAt l0 false 0 = some x ∧ s.me.inState .parked = 0) := by decide


/-- A wait of the warp's run at slot 0. -/
def waitFor (k : WaitKind) : Wait := { pc := 0, mask := -1, kind := k, since := 0 }

def liveWait (k : WaitKind) : State := liveW (fun w => { w with waits := [waitFor k] })

/-- The machine with a change of its slice. -/
def liveS (g : Slice → Slice) : State := { live with slices := [g slice0] }

/-- Thread 0 is parked. -/
def liveK : State := liveW (fun w => w.updThreads 1 (fun _ x => { x with st := .parked }))

theorem wit_MapEdits : (live.cur.handler = false ∧ live.run ≠ 0 ∧ live.me.inState .running = live.run ∧ live.me.inState .parked = 0)
    ∧ ([0, 1, 2, 3] : List (Fin 128)).Nodup ∧ ([127, 1, 2] : List (Fin 128)).Nodup
    ∧ ((live.slice (sliceOfLoc l0)).rows.map (·.no)).Nodup ∧ (∀ y, y ∈ (live.slice (sliceOfLoc l0)).rows → 0 < y.holders)
    ∧ (let s := liveW (fun w => w.updThreads 1 (fun _ x => { x with pc := 12 })); s.run ≠ 0 ∧ s.me.inState .running ≠ s.run)
    ∧ (liveK.run ≠ 0 ∧ liveK.me.inState .running = liveK.run ∧ liveK.me.inState .parked ≠ 0)
    ∧ (liveWait .mapEdit).waitAt l0 false 0 = some (waitFor .mapEdit) ∧ (liveWait .mapEdit).me.inState .parked = 0 := by decide

/-- The slice with row 9 in mailbox 15. -/
def liveB : State := liveS (fun x => { x with rows := x.rows ++ [{ no := 9, holders := 1, charge := 0, data := rowData 9 }]
                                              mailboxes := putNth none x.mailboxes 15 (some 9) })

theorem wit_MailboxesAndCopies :
    live.me.mapOf 8 = none ∧ live.me.mapOf 0 = some 0 ∧ live.mailbox (sliceOfLoc l0) 0 = none
    ∧ liveB.mailbox (sliceOfLoc l0) 15 = some 9 ∧ live.waitsOn (sliceOfLoc l0) (isGive 0) = []
    ∧ (let s := liveWait (.give 0 7); s.mailboxReady l0 0 = true ∧ s.waitAt l0 false 0 = some (waitFor (.give 0 7)))
    ∧ (let s := { liveB with warps := [{ warp0 with waits := [waitFor (.take 15 127)] }] };
        s.mailboxReady l0 0 = true ∧ s.waitAt l0 false 0 = some (waitFor (.take 15 127)))
    ∧ (let f := { a0 with dst := .name 127, sa := .name 0 }; live.ready f.guard f.cf (f.sa.touch ++ f.dst.touch) = true
        ∧ live.mapped f.sa.touch = true ∧ (live.allocRow l0).map (·.1) = some 8 ∧ live.me.mapOf 127 ≠ some 8)
    ∧ (let s := liveW (fun w => { w with balance := 128 }); s.allocRow l0 = none) := by decide

/-- No row is left for the warp, whose run waits for one. -/
def liveN : State := liveW (fun w => { w with balance := 128, waits := [waitFor (.alloc 1)] })

theorem wit_MapQueriesAndFaults :
    live.ready .always .none (Dst.uni 191).touch = true ∧ live.me.mapOf 0 = some 0 ∧ ((live.slice (sliceOfLoc l0)).row? 0).isSome = true
    ∧ liveB.mailbox (sliceOfLoc l0) 15 = some 9 ∧ ((liveB.slice (sliceOfLoc l0)).row? 9).isSome = true
    ∧ (let f := { i2 with sb := .name 127 }; live.ready f.guard f.cf (f.sa.touch ++ f.sb.touch ++ f.dst.touch) = true
        ∧ live.firstUnmapped (f.sa.touch ++ f.sb.touch) = some 127)
    ∧ (let s := liveW (fun w => { w with balance := 128 }); s.ready .always .none (Dst.name 8).touch = true ∧ s.roomFor [8] = false)
    ∧ (let s := liveWait (.alloc 2); s.waitAt l0 false 0 = some (waitFor (.alloc 2)) ∧ 2 ≤ s.rowsFor warp0)
    ∧ liveN.starved (sliceOfLoc l0) = true
    ∧ (let s := liveW (fun w => w.updThreads (-1) (fun _ x => { x with hdr := some { hdr0 with fa := none } }));
        s.run ≠ 0 ∧ s.flagOf .flagA = none ∧ (s.flagOf .flagB).isSome = true)
    ∧ (live.flagOf .flagA).isSome = true ∧ liveP.ex (.pred 1 false) = 0 := by decide

theorem wit_MapQueriesAndFaults_intervals :
    (let f := v1 0x7FC00000 0; f.ty.isIv = true ∧ f.dst.isUni = false ∧ liveP.ready f.guard f.cf (f.dst.touch) = true
      ∧ exAll liveP f.guard (fun th => !fp32.ivWf (liveP.ivSrc f f.sa th)) = true)
    ∧ (let f := { v1 0x7FC00000 0 with sa := .name 6 };
      let s := { liveP with slices := [{ slice0 with rows := slice0.rows.map (fun r => { r with data := List.replicate 32 0 }) }] };
      s.ready f.guard f.cf (f.sa.touch ++ f.dst.touch) = true ∧ s.mapped f.sa.touch = true
      ∧ exAll s f.guard (fun th => fp32.ivWf (s.ivSrc f f.sa th) && !fp32.ivWf (s.ivSrc f f.sb th)) = true)
    ∧ (let f := { v1 0 0 with sa := .name 6 };
      let e : Word := (ivWords .iv32 fp32.emptyIv).1;
      let s := { liveP with slices := [{ slice0 with rows := slice0.rows.map (fun r => { r with data := List.replicate 32 e }) }] };
      bitAt f.fn 3 = false ∧ s.ready f.guard f.cf (f.sa.touch ++ f.dst.touch) = true ∧ s.mapped f.sa.touch = true
      ∧ exAll s f.guard (fun th => fp32.ivWf (s.ivSrc f f.sa th) && fp32.isEmpty (s.ivSrc f f.sa th) && fp32.ivWf (s.ivSrc f f.sb th)) = true) := by
  decide

/-- Memory: page 0 is writable FP32 of tensor 1, page 1 F4S of tensor 2 with companion 3, page 2 its pairs, page 3 is read-only; the
tensor table lies at 0x40000. Element t of v6 is 4 t; u1 to u3 name tensors 1 to 3. -/
def tensorBytes (at_ : Nat) (base comp d0 d1 : Nat) : List Host.Cell :=
  ([(at_ + 1, BitVec.ofNat 8 (base / 256)), (at_ + 2, BitVec.ofNat 8 (base / 65536)), (at_ + 8, 2), (at_ + 10, BitVec.ofNat 8 comp),
    (at_ + 16, BitVec.ofNat 8 d0), (at_ + 20, BitVec.ofNat 8 d1), (at_ + 24, 1), (at_ + 28, 1), (at_ + 32, 1), (at_ + 36, BitVec.ofNat 8 d0)]
    : List Host.Cell).filter (fun c => c.2 != 0)

def page (p fmt tensor flags : Nat) : TlbEntry :=
  { core := ⟨0, 0⟩, ctx := 0, page := p, entry := BitVec.ofNat 64 (flags + 64 * fmt + 65536 * tensor), base := 65536 * p }

def ctx0 : Ctx :=
  { no := 0, desc := { ptRoot := 0, ttBase := 0x40000, ttCount := 4, rtCount := 0, rtBase := 0, ctBase := 0, ctCount := 0, gtBase := 0, vtBase := 0,
                       logBase := 0, logSlice := 0, spillBase := 0, ownerPart := 0, ownerVf := 0 } }

def warpM : Warp := { warp0 with unif := (List.range 192).map (fun k => if k < 4 then BitVec.ofNat 64 k else BitVec.ofNat 64 (16 * k)) }

def sliceM : Slice :=
  { slice0 with
    rows := slice0.rows.map (fun r => if r.no = 6 then { r with data := (List.range 32).map (fun t => BitVec.ofNat 64 (4 * t)) } else r) }

def pagesM : List TlbEntry := [page 0 1 1 3, page 1 7 2 3, page 2 8 3 3, page 3 1 1 1]

def liveM : State :=
  { live with
    warps := [warpM], slices := [sliceM], ctxs := [ctx0]
    tlb := pagesM, tlb2 := pagesM
    mem := tensorBytes 0x40040 0 0 8 8 ++ tensorBytes 0x40080 0x10000 3 2 8 ++ tensorBytes 0x400C0 0x20000 0 2 2 }

theorem wit_memory_canonical : liveM.memWf := by unfold State.memWf; decide

/-- A load and a store of 4 bytes at 4 t, and their operands. -/
def loadM : FmtM := { ld0 with base := .name 6 }
def storeM : FmtM := { st0 with base := .name 6 }

theorem wit_Loads :
    [loadM, { loadM with dst := .uni 9, base := .uni 5 }, { loadM with ord := .acq, scope := .die, dst := .name 127 },
     { loadM with ord := .sc, scope := .module }].all (fun f =>
      let u := liveM.beforeLoad f
      liveM.ready f.guard f.cf (f.reads ++ f.dst.touch f.wide) && liveM.mapped f.reads && liveM.roomFor (f.dst.names f.wide) && liveM.tlbRoom
      && u.cacheRoom && (liveM.accessors f).all (fun th => (u.located (liveM.eaOf f (mtySize f.ty) true th) (mtySize f.ty) false).any (fun a =>
        !badInterval f.ty (wordsOf f.ty (u.seenBytes a (mtySize f.ty))).1 (wordsOf f.ty (u.seenBytes a (mtySize f.ty))).2))) = true
    ∧ (liveM.migrations = [] ∧ liveM.undeliv = [] ∧ liveM.l1 = [] ∧ liveM.l2 = []) := by decide

theorem wit_Stores :
    [storeM, { storeM with ord := .rel, scope := .module }].all (fun f =>
      let rd := f.base.touch ++ f.data.touch f.wide ++ f.index.touch
      let ea := fun (th : Nat) => (liveM.eaOf f (mtySize f.ty) true th).toNat
      liveM.ready f.guard f.cf rd && liveM.mapped rd && liveM.tlbRoom && liveM.cacheRoom
      && exAll liveM f.guard (fun th => (liveM.located (liveM.eaOf f (mtySize f.ty) true th) (mtySize f.ty) true).isSome
          && !liveM.ringInUse liveM.myCtx (BitVec.ofNat 64 (ea th / 256 * 256)) && ea th / 256 == 0)) = true
    ∧ liveM.migrations = [] ∧ liveM.undeliv = [] ∧ liveM.l1 = [] ∧ liveM.l2 = [] ∧ liveM.scopeMoves liveM.myCore .module = true := by decide

theorem wit_LocalMemory :
    [0, 65408].all (fun k =>
      let f := { loadM with offset := BitVec.ofNat 32 k }
      let off := fun (th : Nat) => (liveM.eaOf f (mtySize f.ty) true th).toNat
      liveM.ready f.guard f.cf (f.reads ++ f.dst.touch f.wide) && liveM.mapped f.reads && liveM.roomFor (f.dst.names f.wide)
      && exAll liveM f.guard (fun th => off th % 4 == 0 && decide (off th + 4 ≤ liveM.myWg.foot.loc) && !badInterval f.ty 0 0)) = true
    ∧ (let rd := storeM.base.touch ++ storeM.data.touch storeM.wide ++ storeM.index.touch; liveM.ready .always .none rd = true ∧ liveM.mapped rd = true)
    ∧ ((liveM.eaOf { loadM with offset := 65408 } 4 true 31).toNat + 4 = liveM.myWg.foot.loc) := by decide

/-- An element of tensor 1 at row v0, column 63; of the F4S tensor 2 at row 0. -/
def ldtM (u : Fin 192) : FmtM := { m0 with guard := only0, dst := .name 5, base := .uni u, data := .name 0, index := .name 0, ty := .n32 }

def liveT : State := { liveM with warps := [{ warpM with preds := [1, 0, -1, 0, 0, 0, 0, 0, 0, 0, 0, 0] }] }

theorem wit_TensorElements_plain :
    (let f := { ldtM 1 with offset := 63 };
     let rd := f.base.touch ++ f.data.touch ++ f.index.touch;
     liveT.ready f.guard f.cf (rd ++ f.dst.touch f.wide) = true ∧ liveT.mapped rd = true ∧ liveT.roomFor (f.dst.names f.wide) = true
     ∧ liveT.tlbRoom = true ∧ liveT.cacheRoom = true ∧ f.ord = .plain
     ∧ (match liveT.elementOf f 0 false with
        | .ok e => fmtAccepts (pteFmt e.base) f.ty && pteFmt e.base != 7 && liveT.near e.tag (e.page.loc e.va.toNat) 4
            && (match elementLoad (pteFmt e.base) f.ty (liveT.seenBytes (e.page.loc e.va.toNat) 4) with | .done _ _ _ => true | _ => false)
        | .bad _ => false) = true
     ∧ (match liveT.elementOf f 0 true with
        | .ok e => (match sttValue e.T (pteFmt e.base) f.ty 0 0 e.va with | (.ok (b, _), _) => b.length == 4 | _ => false)
        | .bad _ => false) = true) := by decide

theorem wit_TensorElements_scaled :
    (let f := ldtM 2;
     (match liveT.elementOf f 0 false with
      | .ok e => fmtAccepts 7 f.ty && pteFmt e.base == 7 && liveT.near e.tag (e.page.loc e.va.toNat) 1
          && (match liveT.companionPair liveT.myCore liveT.myCtx e.T (blockOf (pteGeom e.base) (liveT.rowCol f 0).1 (liveT.rowCol f 0).2).1
                (blockOf (pteGeom e.base) (liveT.rowCol f 0).1 (liveT.rowCol f 0).2).2 (tensorWord (liveT.srcM f.base 0)).2.1
                (tensorWord (liveT.srcM f.base 0)).2.2 e.va false with
              | .ok (kp, kva, ktag) => liveT.near ktag (kp.loc kva.toNat) 2
                  && (match f4sWord (decodeF4S ((liveT.seenByte (e.page.loc e.va.toNat)).toNat
                        / 16 ^ (f4sPos ((liveT.rowCol f 0).2 % 32) % 2) % 16) (liveT.seenByte (kp.loc kva.toNat)).toNat
                        (liveT.seenByte (kp.loc kva.toNat + 1)).toNat (pteSpe e.base)) with | .done _ _ _ => true | _ => false)
              | .bad _ => false)
      | .bad _ => false) = true) := by decide

theorem wit_Atomics :
    (let f := { at0 with base := .name 6 };
     let rd := f.base.touch ++ f.data.touch;
     liveM.ready f.guard f.cf (rd ++ f.dst.touch) = true ∧ liveM.mapped rd = true ∧ liveM.roomFor f.dst.names = true
     ∧ exAll liveM f.guard (fun th => liveM.located (liveM.eaOf f 4 false th) 4 true == some (4 * th)
         && (liveM.tlbFor liveM.myCore liveM.myCtx (liveM.eaOf f 4 false th).toNat).isSome) = true
     ∧ (∀ th v, bitAt (liveM.ex f.guard) th = true → bitAt (liveM.ex f.guard) v = true → th ≠ v →
          4 * th + 4 ≤ 4 * v ∨ 4 * v + 4 ≤ 4 * th)
     ∧ liveM.noDirty ∧ liveM.migrations = [] ∧ liveM.undeliv = [] ∧ liveM.l2 = [] ∧ (∀ c, liveM.ctx? liveM.myCtx = some c → c.interval = none))
    ∧ (let f := { at0 with base := .name 6, index := .name 3, dst := .name 8 };
       liveM.ready f.guard f.cf (f.base.touch ++ f.data.touch ++ f.index.touch ++ f.dst.touch) = true) := by
  refine ⟨⟨by decide, by decide, by decide, by decide, ?_, ?_, by decide, by decide, by decide, ?_⟩, by decide⟩
  · intro th v _ _ h; omega
  · intro l hl
    have h : liveM.l1 = [] := rfl
    rw [h] at hl; cases hl
  · intro c hc
    have : liveM.ctx? liveM.myCtx = some ctx0 := by decide
    rw [this] at hc; cases hc; rfl

theorem wit_MemoryControl :
    (let f := { ld0 with dst := .name 1, base := .name 127 }; live.ready f.guard f.cf f.reads = true)
    ∧ (let f := { m0 with base := .uni 4, data := .uni 5, index := .name 5 };
       live.ready f.guard f.cf (f.base.touch ++ f.data.touch) = true ∧ live.migrations = [] ∧ (live.srcM f.data 0).toNat ≤ 2 ^ 40)
    ∧ (let f := { m0 with base := .uni 4, data := .uni 5, dst := .uni 6, index := .name 9 };
       live.ready f.guard f.cf (f.base.touch ++ f.data.touch ++ f.dst.touch) = true ∧ f.index.no / 8 = 1)
    ∧ (let f := { ld0 with base := .name 6, dst := .name 2 };
       liveM.ready f.guard f.cf f.reads = true ∧ liveM.tlbRoom = true ∧ liveM.cacheRoom = true ∧ liveM.mapped f.reads = true
       ∧ exAll liveM f.guard (fun th => (liveM.located (liveM.eaOf f (mtySize f.ty) true th) (mtySize f.ty) false).isSome) = true)
    ∧ (live.migrations = [] ∧ live.undeliv = [] ∧ live.l1 = [] ∧ live.l2 = [])
    ∧ live.ready .always .none [] = true ∧ live.scopeMoves live.myCore .die = true ∧ live.scopeMoves live.myCore .wg = false := by decide

theorem wit_AccessChecks :
    live.ready .always .none (Dst.uni 1).touchUni = true ∧ live.accessesDone l0 false = true ∧ live.chkOf live.myCtx = 0
    ∧ (let s := liveW (fun w => { w with inflight := [{ id := 1, flag := none, load := true, writes := [] }] });
        s.accessesDone l0 false = false ∧ s.ready .always .none (Dst.uni 1).touchUni = true)
    ∧ (let s := { live with ctxs := [{ ctx0 with chk := 31 }] }; s.chkOf s.myCtx &&& 4 ≠ 0 ∧ (s.ctx? s.myCtx).isSome = true)
    ∧ (let f := { loadM with guard := only0 };
       liveT.ex f.guard = listMask [0] ∧ liveT.ready f.guard f.cf (f.reads ++ f.dst.touch f.wide) = true ∧ liveT.mapped f.reads = true
       ∧ (liveT.eaOf { f with offset := 1 } 4 true 0).toNat % 4 ≠ 0
       ∧ (liveT.eaOf { f with offset := 0x40000 } 4 true 0).toNat % 4 = 0
       ∧ liveT.translate liveT.myCore liveT.myCtx (liveT.eaOf { f with offset := 0x40000 } 4 true 0).toNat = none
       ∧ (liveT.translate liveT.myCore liveT.myCtx (liveT.eaOf { f with offset := 0x3FFFC } 4 true 0).toNat).map (fun p => pteW p.entry)
           = some false) := by decide

theorem wit_CompletionsAndFabric :
    (let g : Flight := { id := 7, flag := some 1, load := true, writes := [(.row 0 31, 5), (.uni 191, 6)] };
     let s := liveW (fun w => { w with inflight := [g] });
     s.warp? l0 = some { warp0 with inflight := [g] } ∧ s.hrun? l0 = none ∧ s.undeliv = [] ∧ g.load = true
     ∧ (∃ y, y ∈ (s.slice (sliceOfLoc l0)).rows ∧ y.no = 0) ∧ ∀ y, y ∈ (s.slice (sliceOfLoc l0)).rows → 0 < y.holders)
    ∧ (let x : ExportEntry := { frame := 1, part := 3, v := true, w := true };
       let s := { live with exports := [(5, x)] };
       lookupKey s.exports 5 = some x ∧ isLocal (x.frame.toNat * 65536 + 65535) = true ∧ s.migrations = [] ∧ s.ctx? 65536 = none
       ∧ lookupKey s.exports 6 = none)
    ∧ (let u : Undelivered := { id := 3, ctx := 0, who := .agent 9, since := 0 };
       let s := { live with undeliv := [u], clk := 2 ^ 24 }; s.undeliv.find? (fun v => v.id == u.id && !v.refused) = some u ∧ u.since + 2 ^ 24 ≤ s.clk
       ∧ (s.ctx? u.ctx).isSome = true)
    ∧ (let k : LinkSt := { port := 3, up := true, fails := 7 }; k ∈ ({ live with links := [k] } : State).links) := by decide


/-! ### Engine queues -/

/-- A command of the warp at an engine queue, with its operands. -/
def ent (cmd : Instr) (a b c : Word) : QEntry := { uid := 9, cmd := cmd, a := a, b := b, c := c, warp := 2 }

/-- The machine with entries in a queue of its workgroup. -/
def withQ (q : QueueName) (l : List QEntry) (s : State) : State :=
  { s with wgs := s.wgs.map (fun g => { g with queues := putNth [] g.queues q.no l }) }

/-- A communicator with this module as rank 0 of two. -/
def comm0 : Comm :=
  { no := 64, desc := { ctx := 0, en := true, n := 2, rank := 0, primary := 0, backup := some 1, members := [0, 1] } }

/-- The memory machine with a communicator. -/
def liveE : State := { liveM with comms := [comm0] }

def cq0 : FmtE := { e0 with queue := .cq 0 }
def xq0 : FmtE := { e0 with queue := .xq, sa := .imm, sb := .imm, sc := .uni 4 }

theorem wit_QueuedCommands :
    (let full := withQ (.cq 0) (List.replicate 32 (ent (.qfence cq0) 0 0 0)) liveE;
     liveE.ready .always .none [] = true ∧ (liveE.wg? liveE.me.wg).isSome = true
     ∧ liveE.placeFor (.cpya cq0) cq0 = true ∧ full.placeFor (.cpya cq0) cq0 = false ∧ full.ready .always .none [] = true
     ∧ liveE.placeFor (.coll xq0) xq0 = true ∧ liveE.comm? (fieldNat (liveE.usrc xq0.sc 0) 0 12) = some comm0)
    ∧ (let e : QEntry := { ent (.coll xq0) 0 0 64 with uid := 0, warp := 0 };
       let used := withQ .xq [{ e with uid := 5 }] liveE;
       comm0.desc.en = true ∧ liveE.usrc xq0.sc 0 = 64 ∧ liveE.keyUsed 1 e = false ∧ used.keyUsed 1 e = true
       ∧ used.releaseStalls ⟨0, 0⟩ .pod = false ∧ xq0.sa = .imm ∧ xq0.sb = .imm)
    ∧ (let m := { e0 with sa := .uni 0, sb := .uni 16, sc := .uni 0, sub := 0x30 };
       liveE.placeFor (.mma m) m = true ∧ (liveE.usrc m.sb 0).toNat % 256 = 0
       ∧ liveE.ready m.guard m.cf (m.sa.touch ++ m.sb.touch ++ m.sc.touch) = true)
    ∧ (let m := { e0 with sa := .uni 0, sb := .uni 16, sc := .uni 3, sub := 0x00 };
       latchHit liveE.me m = none ∧ ((List.range 4).map (fun i => Touch.name (3 + i))).all (fun t => liveE.mapped [t]) = true
       ∧ liveE.ready m.guard m.cf (m.sa.touch ++ m.sb.touch ++ (List.range 4).map (fun i => Touch.name (3 + i))) = true
       ∧ liveE.placeFor (.mmar m) m = true ∧ (∀ w, w ∈ liveE.warps → w.uid = liveE.me.uid → w.loc = liveE.cur.loc)) := by decide

/-- A QFENCE of cq0 that awaits entry 5, guarded by slot 3. -/
def fence0 : QEntry := { ent (.qfence { cq0 with tag := some 3, slot := some 3 }) 0 0 0 with after := [5], flag := some (l0, false, 1) }

theorem wit_QueueEvents :
    (let x := waitFor (.queueFull (ent (.cpya cq0) 0 0 16));
     let s := { liveE with warps := [{ warpM with waits := [x] }] };
     s.warp? l0 = some { warpM with waits := [x] } ∧ s.hrun? l0 = none ∧ s.hasRoom 1 (ent (.cpya cq0) 0 0 16) = true
     ∧ s.ctxLive 0 = true ∧ s.keyUsed 1 (ent (.cpya cq0) 0 0 16) = false
     ∧ s.queueWaits 1 (.cq 0) = [({ loc := l0, handler := false, pc := 0 }, x)] ∧ s.queueWaits 1 .mq = [] ∧ s.queueWaits 1 .xq = []
     ∧ [(1 : Fin 4), 2, 3].all (fun n => (s.queueWaits 1 (.cq n)).isEmpty) = true)
    ∧ (let s := withQ (.cq 0) [fence0] liveE; (s.myWg.head (.cq 0)) = some fence0 ∧ fence0.cmd.isFence = true ∧ s.myWg.queues.length ≤ 6
        ∧ (∀ x, x ∈ s.wgs → x.gone = false) ∧ ∀ q, q ∈ s.myWg.queues → ∀ x, x ∈ q → x.uid ∉ fence0.after)
    ∧ (let e := ent (.cpya cq0) 0 0 16; let s := withQ (.cq 0) [e] liveE;
       s.myWg.head (.cq 0) = some e ∧ s.engineBusy s.myCore false = false ∧ s.nextServed s.myCore false = some (1, .cq 0) ∧ s.ctxLive 0 = true)
    ∧ (let e := { fence0 with guardGen := some (3, 0) };
       ({ withQ (.cq 0) [e] liveE with wgs := [{ wg0 with guards := List.replicate 4 [some true, none] }] } : State).myWg.genOf (3, 0) = some true
       ∧ ({ liveE with wgs := [{ wg0 with guards := List.replicate 4 [some false, none] }] } : State).myWg.genOf (3, 0) = some false)
    ∧ (let e := { fence0 with started := true, outcome := some (0, 0, false) };
       (withQ (.cq 0) [e] liveE).myWg.head (.cq 0) = some e ∧ e.flag = some (l0, false, 1) ∧ e.warp = (liveE.me).uid) := by decide

/-- A started copy at the head of cq0. -/
def copying (cmd : Instr) (a b c : Word) : State := withQ (.cq 0) [{ ent cmd a b c with started := true }] liveE

theorem wit_CopySteps :
    (let s := copying (.cpya cq0) 0 0x100 16;
     s.myWg.head (.cq 0) = some { ent (.cpya cq0) 0 0x100 16 with started := true } ∧ s.l1 = [] ∧ s.migrations = []
     ∧ s.myWg.objects = [] ∧ s.ctxLive 0 = true ∧ (s.ctx? 0).map (·.interval) = some none
     ∧ (s.translate s.myCore 0 0x100).map (fun p => (pteW p.entry, p.loc 0x100)) = some (true, 0x100))
    ∧ (let f := { cq0 with imm := 0x2001 };
       let s := copying (.cpyg f) (word (0x40 * 2 ^ 32)) 0 16;
       s.myWg.head (.cq 0) = some { ent (.cpyg f) (word (0x40 * 2 ^ 32)) 0 16 with started := true } ∧ fieldNat f.imm 12 16 = 2
       ∧ 0 < fieldNat f.imm 0 12 * 16)
    ∧ (let s := copying (.cpyt cq0) 1 0 (word (2 ^ 32 + 1));
       rowsCols (word (2 ^ 32 + 1)) = (1, 1)
       ∧ (match s.tensorOf 0 1 with
          | .ok (T, _, _) => T.within [0, 0, 0, 0] && (match s.translate s.myCore 0 (T.tileVa [0, 0, 0, 0]).toNat with
              | some p => pageAgrees T p.entry p.entry && pteW p.entry | none => false)
          | .bad _ => false) = true) := by decide

/-- A command at the head of mq. -/
def headed (e : QEntry) : State := withQ .mq [e] liveE

theorem wit_MatrixEffects :
    [ent (.mzero e0) 0 0 0, ent (.mldacc e0) 0 0 0, ent (.mma { e0 with sub := 7 }) 0 0x1000 0,
     ent (.mdrain { e0 with sub := 5, imm := 2 }) 0 0 0, ent (.mtrn e0) 0 0x1000 (word (32 + 32 * 65536))].all (fun e =>
      (headed e).myWg.head .mq == some e && !(headed e).engineBusy (headed e).myCore true
      && (headed e).nextServed (headed e).myCore true == some (1, .mq)) = true ∧ liveE.migrations = [] ∧ liveE.myWg.objects = [] := by decide

theorem wit_TagInstructions :
    (let f := { a0 with sa := .imm, imm := 0x0F, dst := .uni 9 };
     liveE.ready f.guard f.cf (f.sa.touch ++ f.dst.touch) = true
     ∧ ∀ x, x < liveE.myWg.tags.length → (nth liveE.myWg.tags x {}).pending = 0 ∧ (nth liveE.myWg.tags x {}).trappend = false)
    ∧ (let g := { wg0 with tags := [{ pending := 1 }, {}, { trappend := true, code := 0x12 }, {}] };
       g.tags.length = 4 ∧ (nth g.tags 0 {}).pending ≠ 0 ∧ (nth g.tags 2 {}).pending = 0 ∧ (nth g.tags 2 {}).trappend = true)
    ∧ (let s := liveWait (.tagAll 0x0F (-1)); s.warp? l0 = some { warp0 with waits := [waitFor (.tagAll 0x0F (-1))] }
        ∧ ({ warp0 with waits := [waitFor (.tagAll 0x0F (-1))] } : Warp).runAt 0 = -1 ∧ s.wg? 1 = some wg0 ∧ s.ctxLive 0 = true)
    ∧ (let s := liveWait (.tagAny 8 9 (-1)); s.me.waits.find? (fun y => y.pc == 0) = some (waitFor (.tagAny 8 9 (-1)))
        ∧ bitAt (8 : Word) 3 = true) := by decide

theorem wit_GuardSlotsAndRecords :
    (let f := { a0 with sa := .name 1, imm := 3 }; live.ready f.guard f.cf [] = true ∧ live.ready f.guard f.cf [.pred 1] = true ∧ nth live.myWg.guards f.imm.toNat [] = [] ++ [none]
      ∧ f.imm.toNat < live.myWg.guards.length ∧ (0xF : BitVec 32).toNat < 2 ^ live.myWg.guards.length)
    ∧ (let f := { a0 with sa := .imm, dst := .uni 9 };
       live.ready f.guard f.cf (f.sa.touch ++ f.dst.touch) = true ∧ live.myWg.queue .mq = [] ∧ (headed (ent (.mzero e0) 0 0 0)).myWg.queue .mq ≠ [])
    ∧ (let e := { ent (.mzero e0) 0 0 0 with started := true, outcome := some (0, 0, false) };
       let x := waitFor (.mchk [9] 0 true 9);
       let s := { headed e with warps := [{ warpM with waits := [x] }] };
       s.warps.filter (fun y => y.wg == 1) = [{ warpM with waits := [x] }] ∧ s.hrun? l0 = none
       ∧ ({ warpM with waits := [x] } : Warp).runAt 0 = x.mask ∧ s.myWg.head .mq = some e ∧ s.ctxLive 0 = true
       ∧ ∀ y, y ∈ s.wgs → y.gone = false) := by decide

/-! ### Synchronising -/

theorem wit_Barriers :
    (let f := { a0 with sa := .imm, fn := 1, imm := 2 };
     live.mayWait = true ∧ live.myWg.bar = {} ∧ live.barrierDone false 1 = none ∧ live.ready f.guard f.cf f.sa.touch = true ∧ live.me.whole 0 = true
     ∧ (liveW (fun w => w.updThreads 1 (fun _ x => { x with pc := 12 }))).me.whole 0 = false
     ∧ (liveW (fun w => w.updThreads 1 (fun _ x => { x with pc := 12 }))).ready f.guard f.cf f.sa.touch = true)
    ∧ (let s := { live with groups := [{ id := 0, wgs := [1] }] };
       s.groups.find? (fun x => x.id == wg0.group.getD 0) = some { id := 0, wgs := [1] } ∧ s.ready .always .none [] = true ∧ s.migrations = []
        ∧ s.me.whole 0 = true ∧ s.barrierDone true 0 = none ∧ s.undeliv = [] ∧ s.l1 = [] ∧ s.l2 = [])
    ∧ (let b : BarGen := { gen := 3, arrived := [2], opened := true };
       let x := waitFor (.barrier false 3);
       let s := { liveW (fun w => { w with waits := [x] }) with wgs := [{ wg0 with bar := b }] };
       s.barrier? false 1 = some b ∧ (s.partiesOf false 1).map (·.uid) = [2] ∧ b.arrived.Nodup ∧ s.ctxLive 0 = true
       ∧ (s.warps.map (·.loc)).Nodup ∧ (s.warps.map (·.uid)).Nodup
       ∧ s.me.waits.find? (fun x => x.kind == .barrier false 3 && x.mask == s.me.runAt x.pc) = some x)
    ∧ (let f := { m0 with dst := .uni 9, base := .uni 0, index := .imm, data := .uni 4 };
       live.ready f.guard f.cf (f.base.touch ++ f.index.touch ++ f.dst.touch) = true ∧ live.ready f.guard f.cf (f.base.touch ++ f.data.touch) = true
       ∧ (live.eaOf f 0 false 0).toNat = 0 ∧ (live.eaOf { f with offset := 65528 } 0 false 0).toNat + 8 = live.myWg.foot.loc
       ∧ fieldNat (wordOfBytes (sparseRead live.myWg.locMem 0 8)) 32 16 ≠ fieldNat (live.src f.data 0 0) 0 16)
    ∧ (let s := liveWait (.await 0 1 .wg); s.me.waits.find? (fun y => y.pc == 0) = some (waitFor (.await 0 1 .wg)) ∧ s.wg? s.me.wg = some wg0 ∧ s.ctxLive 0 = true ∧ s.me.runAt 0 = -1
        ∧ fieldNat (wordOfBytes (sparseRead wg0.locMem 0 8)) 32 16 ≠ (1 : BitVec 16).toNat) := by decide

/-- An entry record at 0x8000 of one crew of one row, and the memory machine with a spill area. -/
def liveR : State :=
  { liveM with
    mem := sparseWrite liveM.mem 0x8000 (bytesOfWord 8 0x100 ++ bytesOfWord 8 1)
    ctxs := [{ ctx0 with desc := { ctx0.desc with spillBase := 0x9000 } }]
    warps := [{ warpM with unif := putNth 0 warpM.unif 20 0x8000 }] }

theorem wit_SpawnAndJoin :
    (let f := { a0 with sa := .uni 20, sb := .name 3, sc := .uni 184, fn := 4, imm := 15 };
     let touched := f.sa.touch ++ (List.range 8).map (fun i => Touch.uni (184 + i)) ++ (List.range 4).map (fun i => Touch.name (3 + i));
     liveR.ready f.guard f.cf touched = true ∧ liveR.mapped ((List.range 4).map (fun i => Touch.name (3 + i))) = true
     ∧ liveR.me.inState .running = liveR.run ∧ liveR.me.inState .parked = 0 ∧ liveR.me.depth < 8 ∧ liveR.spawnFull f = false
     ∧ (match liveR.entryRecord liveR.myCore liveR.myCtx (liveR.uni 20) with
         | (.ok foot, u) => foot.entry == 0x100 && !u.cut && u.nextUid == liveR.nextUid && u.migrations.isEmpty && u.undeliv.isEmpty
             && u.l1.all (fun l => l.dirty.isEmpty) && u.l2.all (fun l => l.dirty.isEmpty)
         | _ => false) = true
     ∧ (liveR.ctx? liveR.myCtx).map (fun c => c.desc.spillBase) = some 0x9000 ∧ liveR.ctx? 65536 = none
     ∧ liveR.spilled liveR.myCtx liveR.cur.loc.die = []
     ∧ ({ liveR with warps := [{ warpM with joins := putNth {} warpM.joins 15 { pending := 65535 } }] } : State).spawnFull f = true)
    ∧ (let f := { a0 with dst := .uni 9, imm := 0xB0F };
       live.ready f.guard f.cf f.dst.touch = true ∧ (nth live.me.joins 15 {}).pending = 0
       ∧ (nth (liveW (fun w => { w with joins := putNth {} w.joins 15 { pending := 1 } })).me.joins 15 {}).pending ≠ 0)
    ∧ (let s := liveWait (.join 15 9 11 (-1)); s.me.waits.find? (fun y => y.pc == 0) = some (waitFor (.join 15 9 11 (-1)))
        ∧ s.ctxLive 0 = true ∧ (nth s.me.joins 15 {}).pending = 0)
    ∧ (let e : Ended := { uid := 4, ctx := 0, core := ⟨0, 0⟩, endClass := .normal, bundle := none, joinOf := some (2, 15), inst := none };
       let s := { liveW (fun w => { w with joins := putNth {} w.joins 15 { pending := 1 } }) with ended := [e] };
       s.ended.find? (fun x => x.uid == 4 && x.inst.isNone) = some e ∧ s.warpByUid 2 = s.warp? l0 ∧ (s.warp? l0).isSome = true) := by decide

/-- A ring of two items of 64 bytes at 0x8000 that holds `n` items. -/
def liveG (n : Nat) : State :=
  { liveR with
    mem := sparseWrite liveM.mem 0x8000 (bytesOfNat 8 0 ++ bytesOfNat 8 n ++ bytesOfNat 4 2 ++ bytesOfNat 4 0 ++ bytesOfNat 4 1 ++ bytesOfNat 2 64) }

theorem wit_SignalsAndRings :
    (let f := { a0 with sa := .uni 20, sb := .uni 5 };
     liveR.ready f.guard f.cf (f.sa.touch ++ f.sb.touch) = true ∧ liveR.located (liveR.uni 20) 8 true = some 0x8000 ∧ liveR.l1 = []
     ∧ liveR.l2 = [] ∧ liveR.undeliv = [] ∧ liveR.ringInUse liveR.myCtx 0x8000 = false ∧ (liveR.ctx? 0).map (·.interval) = some none)
    ∧ (let f := { m0 with base := .uni 20, data := .uni 4, dst := .uni 9, ty := .n8 };
       let r := ringOf ((liveG 1).bytesAt 0x8000 64);
       r.ok = true ∧ r.occ = 1 ∧ r.cap = 2 ∧ (ringOf ((liveG 2).bytesAt 0x8000 64)).occ = 2 ∧ (ringOf ((liveG 0).bytesAt 0x8000 64)).occ = 0
       ∧ r.itemVa 0x8000 r.tail = 0x8140 ∧ r.itemVa 0x8000 r.head = 0x8100
       ∧ ((liveG 1).translate (liveG 1).myCore 0 0x8140).map (fun p => (pteW p.entry, p.loc 0x8140)) = some (true, 0x8140)
       ∧ ((liveG 1).tlbFor (liveG 1).myCore 0 0x8000).isSome = true ∧ (liveG 1).pipes = []
       ∧ (liveG 1).src f.base 0 0 = 0x8000 ∧ (liveG 1).src f.data 0 0 + f.offset.signExtend 64 = 64
       ∧ (liveG 1).ready f.guard f.cf (f.base.touch ++ f.data.touch ++ f.dst.touch) = true
       ∧ (liveG 1).objectsAt 1 64 64 = [] ∧ (liveG 1).myWg.foot.loc = 65536
       ∧ (liveG 1).me.popped = false ∧ (liveG 1).me.leave = false ∧ (liveG 1).me.kind = .launched)
    ∧ (let s := liveWait (.ringPush 0x8000 64 (-1)); s.me.waits.find? (fun y => y.pc == 0) = some (waitFor (.ringPush 0x8000 64 (-1)))
        ∧ s.me.runAt 0 = -1 ∧ s.ctxLive 0 = true) := by decide

theorem wit_Bisection :
    (let f := { v1 0 0 with dst := .name 1, sa := .name 6, sb := .name 2 };
     let s := { liveP with slices := [{ slice0 with rows := slice0.rows.map (fun r => { r with data := List.replicate 32 0 }) }] };
     f.ty.isIv = true ∧ (f.dst.names ++ (secondDst f).names).Nodup ∧ f.sb ≠ .imm ∧ f.dst.isUni = (secondDst f).isUni
     ∧ s.ready f.guard f.cf (f.sa.touch ++ f.dst.touch ++ (secondDst f).touch) = true ∧ s.mapped f.sa.touch = true
     ∧ s.roomFor (f.dst.names ++ (secondDst f).names) = true ∧ s.me.mapOf 1 ≠ s.me.mapOf 2
     ∧ exAll s f.guard (fun th => fp32.ivWf (s.ivSrc f f.sa th) && !fp32.isEmpty (s.ivSrc f f.sa th)) = true) := by decide

/-! ### Version cells -/

/-- Cell 5 at 0x50500 with two buffers and no input, whose first subscriber names record 0x8000; `p` is its policy. -/
def liveV (p : Nat) : State :=
  { liveR with
    mem := sparseWrite (sparseWrite liveR.mem 0x50500 [1, 0, 2, 0, 0, 0, 0, 0, 2]) 0x50580 (bytesOfWord 8 (if p < 3 then 0x8000 else 0) ++ [0, 0, 0, 0, BitVec.ofNat 8 p])
    ctxs := [{ ctx0 with desc := { ctx0.desc with ctBase := 0x50000, ctCount := 8 } }]
    tlb := liveR.tlb ++ [{ page 0 1 1 3 with core := ⟨5, 48⟩ }]
    warps := [{ warpM with unif := putNth 0 (putNth 0 warpM.unif 20 0x8000) 21 (word (2 ^ 18)), claims := [(5, 0)] }]
    cells := [{ ctx := 0, cell := 5, claims := [(2, 0)] }] }

def cellF : FmtA := { a0 with dst := .uni 9, sa := .imm, imm := 5, fn := 11 }

theorem wit_VersionCells :
    ((liveV 3).cellDesc? 0 5).map (·.nbuf) = some 2 ∧ (liveV 3).cellDesc? 0 8 = none ∧ (liveV 3).cur.handler = false
    ∧ (liveV 3).ready cellF.guard cellF.cf (cellF.sa.touch ++ cellF.dst.touch) = true
    ∧ (liveV 3).ready cellF.guard cellF.cf (cellF.sa.touch ++ (cellF.dst.touch ++ [.pred cellF.fn.toNat])) = true
    ∧ (let c := (liveV 3).cell 0 5; c.final = false ∧ c.cur = none ∧ c.isFree 1 = true ∧ c.isFree 0 = false)
    ∧ (let s := { liveV 3 with cells := [{ ctx := 0, cell := 5, cur := some 0, version := 1, pins := [1, 0, 0, 0] }]
                               warps := [{ warpM with pins := [{ cell := 5, buf := 0, version := 1 }] }] };
       (s.cell 0 5).cur = some 0 ∧ s.me.pins.find? (fun p => p.cell == 5) = some { cell := 5, buf := 0, version := 1 } ∧ s.l1 = []
       ∧ s.migrations = [] ∧ s.ready cellF.guard cellF.cf cellF.sa.touch = true)
    ∧ ((liveV 3).cellDesc? 0 5).map (·.group) = some 0 := by decide

theorem wit_Publication :
    (let f := { a0 with dst := .name 11, sa := .imm, sb := .uni 21, imm := 5 };
     (liveV 0).ready f.guard f.cf (f.sa.touch ++ (f.sb.touch ++ [.pred f.dst.no])) = true ∧ (liveV 0).l1 = [] ∧ (liveV 0).migrations = []
     ∧ (liveV 0).ready f.guard f.cf (f.sa.touch ++ [.pred f.dst.no]) = true ∧ bitAt ((liveV 0).src f.sb 0 0) 18 = true
     ∧ fieldNat ((liveV 0).src f.sb 0 0) 16 2 = 0 ∧ ((liveV 0).me.uid, 0) ∈ ((liveV 0).cell 0 5).claims
     ∧ ((liveV 3).cellDesc? 0 5).map (fun d => d.subs.all (fun x => x.rec_ == 0)) = some true
     ∧ ((liveV 0).cellDesc? 0 5).map (fun d => d.subs.map (fun x => (x.rec_, x.policy))) = some ([(0x8000, 0)] ++ List.replicate 7 (0, 0))
     ∧ (nth ((liveV 0).cell 0 5).subs 0 {}).pending = none ∧ (nth ((liveV 0).cell 0 5).subs 0 {}).resident = none
     ∧ (match ((liveV 0).entryRecord ⟨(liveV 0).homeDie 0 5, 48⟩ 0 0x8000).1 with | .ok foot => foot.entry == 0x100 | _ => false) = true)
    ∧ (let s := liveW (fun w => { w with cancel := true, waits := [waitFor (.header 0)] });
       s.me.cancel = true ∧ s.me.alive ≠ 0 ∧ s.migrations = [] ∧ s.me.runAt 0 &&& (waitFor (.header 0)).mask ≠ 0)
    ∧ (let s := liveW (fun w => { (w.updThreads 1 (fun _ x => { x with st := .parked })) with cancel := true, waits := [{ waitFor .exit with mask := -2 }] });
       s.me.inState .parked ≠ 0 ∧ s.me.runAt 0 = -2 ∧ ∀ th, th < 32 → (s.me.thread th).st = .running → (s.me.thread th).pc = 0)
    ∧ (let e : Ended := { uid := 4, ctx := 0, core := ⟨0, 0⟩, endClass := .normal, bundle := none, joinOf := none, inst := some (5, 0, 1) };
       let s := { liveV 0 with ended := [e], cells := [{ ctx := 0, cell := 5, version := 2, cur := some 0, subs := [{ resident := some 4, version := 1, remember := some (2, 0, 7) }] }] };
       s.ended.find? (fun x => x.uid == 4 && x.inst.isSome) = some e ∧ (nth (s.cell 0 5).subs 0 {}).remember = some (2, 0, 7)
       ∧ (s.cellDesc? 0 5).isSome = true
       ∧ (match (s.entryRecord ⟨s.homeDie 0 5, 48⟩ 0 (nth (cellDescOf (s.bytesAt 0x50500 256)).subs 0 { input := 0, policy := 0, arg := 0, rec_ := 0 }).rec_).1 with
          | .ok _ => true | _ => false) = true) := by decide

/-! ### Collectives -/

/-- The entry that a member has accepted from the COLL at xq. -/
def collE : QEntry := { ent (.coll { xq0 with tag := some 3, sub := 9, imm := 7 }) 0 0 64 with uid := 8 }

def entry0 : CollEntry :=
  { uid := 8, wg := 1, warp := 2, die := 0, ctx := 0, tag := some 3, key := 7, op := 9, src := none, dst := none, root := 0, slate := some 4 }

def comm4 : Comm := { comm0 with next := some 4, entries := [entry0], keys := [{ key := 7, st := .assigned, slate := 4 }] }

theorem wit_CollectiveMembers :
    (let f := { a0 with dst := .uni 9, sa := .imm, sb := .imm, imm := 64 };
     liveE.ready f.guard f.cf (f.sa.touch ++ f.sb.touch ++ f.dst.touch) = true ∧ liveE.comm? 64 = some comm0 ∧ comm0.desc.ctx = liveE.myCtx)
    ∧ (let s := withQ .xq [collE] liveE; s.myWg.head .xq = some collE ∧ fieldNat collE.c 0 12 = 64 ∧ collE.fields.imm = 7 ∧ s.ctxLive 0 = true
       ∧ collE.guardGen = none ∧ (∀ x, x ∈ s.wgs → x.gone = false) ∧ s.collHeld 0 0 < 1024 ∧ comm0.taken.contains 7 = false
       ∧ comm0.server = s.ident.moduleNum ∧ (({ comm0 with taken := [7] } : Comm).taken.contains 7) = true)
    ∧ (let s := withQ .xq [{ collE with accepted := true }] { liveE with comms := [comm4] };
       s.comm? 64 = some comm4 ∧ comm4.entries.find? (fun e => e.slate == some 4 && !e.ready) = some entry0
       ∧ (s.myWg.queue .xq).find? (fun x => x.uid == entry0.uid) = some { collE with accepted := true } ∧ comm4.cancels = [] ∧ comm4.skips = []
       ∧ s.away comm4 = false ∧ comm4.overtaken 4 = false ∧ comm4.server = s.ident.moduleNum ∧ s.ctxLive 0 = true
       ∧ comm4.entries.find? (fun e => e.key == 7) = some entry0)
    ∧ (let c := { comm0 with entries := [{ entry0 with slate := none }] };
       let s := { liveE with comms := [c], clk := resendLimit, ident := { moduleNum := 1 }, links := [{ port := 0, up := true }] };
       s.comm? 64 = some c ∧ entry0.since + resendLimit ≤ s.clk ∧ c.gen < 2 ∧ c.desc.backup = some s.ident.moduleNum ∧ s.fabricUp = true
       ∧ s.holdsMessage c.server = false ∧ s.away c = false)
    ∧ (let c := { comm4 with entries := [{ entry0 with ready := true }] };
       c.entries.find? (fun e => e.slate == some 4 && e.ready && c.next == some 4) = some { entry0 with ready := true })
    ∧ comm0.known = [] ∧ comm0.next = none ∧ comm0.keyRec 7 = none := by decide

theorem wit_Sequencers :
    (let c := { comm0 with seq := { comm0.seq with serving := true, next := 5 } };
     let s := { liveE with comms := [c] };
     s.comm? 64 = some c ∧ c.seq.assigns = [] ∧ c.seq.waiting = [] ∧ c.desc.n = 2 ∧ c.seq.gen = 1 ∧ c.seq.held = []
     ∧ (let v := { c with seq := { c.seq with waiting := [⟨1, 9, none⟩] } }; ∃ x, x ∈ v.seq.waiting ∧ x.rank = 1)
     ∧ (let v := { s with clk := 15000, links := [{ port := 47, up := true }] };
        v.fabricUp = true ∧ v.holdsMessage 1 = false ∧ c.desc.en = true ∧ c.seq.sentBeat + 15000 ≤ v.clk ∧ c.desc.backup = some 1)
     ∧ (let v := { c with seq := { c.seq with held := [(3, [(0, .slateNotify 64 5 7 1)])] } }; v.seq.held = [(3, [(0, .slateNotify 64 5 7 1)])]
        ∧ s.ident.moduleNum = 0)
     ∧ (let a : Assign := { slate := 4, key := 7, requests := [0], outcome := some .run };
        [a].find? (fun a => a.key == 7 && a.outcome.isSome) = some a ∧ 0 ∈ a.requests))
    ∧ (let a : Assign := { slate := 4, key := 7, requests := [0] };
       let c := { comm0 with seq := { comm0.seq with serving := true, next := 5, assigns := [a] } };
       c.seq.assigns.find? (fun a => a.key == 7 && a.outcome.isNone) = some a
       ∧ c.seq.assigns.find? (fun a => a.slate == 4 && a.outcome.isNone) = some a ∧ (c.seq.next - a.slate).toNat < 65536
       ∧ a.ready.length + 1 < c.desc.n
       ∧ 65536 ≤ ((65540 : BitVec 32) - a.slate).toNat)
    ∧ (let r : ReadyMsg := { rank := 0, op := 1, fmt := 1, root := 0, tsrc := 0, tdst := 0, code := none };
       let a : Assign := { slate := 4, key := 7, ready := [r] }; a.ready.length + 1 = comm0.desc.n ∧ ∀ x, x ∈ a.ready → x.rank ≠ 1)
    ∧ (let s := { liveE with ident := { moduleNum := 1 }, clk := 45000, links := [{ port := 0, up := true }] };
       let a : Assign := { slate := 4, key := 7, requests := [0] };
       s.fabricUp = true ∧ comm0.desc.members.all (fun m => !s.holdsMessage m) = true ∧ comm0.desc.en = true
       ∧ ({ comm0 with seq := { comm0.seq with assigns := [a] } } : Comm).seq.assigns = [a] ∧ a.outcome = none ∧ a.cancelled = false
       ∧ comm0.desc.backup = some s.ident.moduleNum ∧ comm0.seq.serving = false ∧ comm0.server ≠ s.ident.moduleNum ∧ comm0.seq.lastBeat + 45000 ≤ s.clk)
    ∧ (let e := { entry0 with slate := some 5, key := 8 };
       let c := { comm0 with next := some 4, known := [(4, 7)], entries := [e], watch := some 0 };
       let x := waitFor (.tagAll 8 (-1));
       let s := { liveE with comms := [c], clk := 2 ^ 26, warps := [{ warpM with waits := [x] }] };
       s.comm? 64 = some c ∧ c.nextKey = some 7 ∧ c.gap = [e] ∧ e.tag = some 3 ∧ bitAt (8 : Word) 3 = true
       ∧ s.warps.filter (fun w => w.wg == e.wg) = [{ warpM with waits := [x] }] ∧ s.hrun? l0 = none
       ∧ ({ warpM with waits := [x] } : Warp).runAt 0 = x.mask ∧ x.mask ≠ 0) := by decide

/-! ### Handlers -/

/-- The handler run of `liveH` on an extension's record. -/
def liveX : State :=
  { liveH with slices := [{ slice0 with handler := some { hrun0 with trec := { rec0 with code := 0x02, bits := 0x07000000 + 0x090000 } } }] }

theorem wit_HandlerReadsAndWrites :
    live.run ≠ 0 ∧ live.cur.handler = false ∧ liveH.cur.handler = true ∧ liveH.warp? l0 = some liveH.me ∧ liveH.me.loc = l0
    ∧ liveH.settled l0 = true
    ∧ (let f := { a0 with dst := .uni 5, sa := .name 1, sb := .imm, imm := 0x200000 + 127 };
       bitAt (liveH.src f.sb 0 (f.imm.setWidth 64)) 21 = true ∧ fieldNat (liveH.src f.sb 0 (f.imm.setWidth 64)) 0 8 = 127
       ∧ liveH.ready f.guard f.cf (f.sb.touch ++ f.dst.touch) = true ∧ liveH.ready f.guard f.cf (f.sa.touch ++ f.sb.touch) = true
       ∧ liveH.ready .always .none (Dst.name 7).touch = true)
    ∧ (let v : Word := 0x1F1F00; fieldNat v 16 5 < 32 ∧ bitAt v 21 = false)
    ∧ liveH.me.kind = .launched ∧ liveH.warps.find? (fun v => v.wg == liveH.me.wg && v.kind == .launched && v.wid == 0) = some liveH.me
    ∧ (0 : Nat) < liveH.myWg.foot.warps ∧ liveH.me.preds.length = 12 ∧ (liveH.allocNames l0 [127]).isSome = true
    ∧ (liveH.slice (sliceOfLoc l0)).row? (fieldNat (0x0301 : Word) 8 8) = (liveH.slice (sliceOfLoc l0)).row? 3
    ∧ ((liveH.slice (sliceOfLoc l0)).row? 3).isSome = true ∧ (liveH.slice (sliceOfLoc l0)).row? 255 = none ∧ liveH.me.mapOf 127 = none := by decide

theorem wit_HandlerControl :
    (let f := { a0 with sa := .imm, sb := .uni 15, sc := .uni 7, imm := 1 };
     let s := { liveH with slices := [{ slice0 with handler := some { hrun0 with unif := putNth 0 hrun0.unif 7 0x200000 } }] };
     bitAt (s.src f.sc 0 (f.imm.setWidth 64)) 21 = true ∧ s.ready f.guard f.cf (f.sa.touch ++ f.sc.touch ++ f.sb.touch) = true
     ∧ bitAt (1 : Mask) 0 = true ∧ (s.me.thread 0).st = .parked ∧ (∃ h, s.hrun? l0 = some h ∧ h.thread = 0))
    ∧ liveH.ready .always .none [] = true ∧ (liveH.hrun? l0).isSome = true ∧ (liveH.warp? l0).isSome = true ∧ liveH.ctxLive liveH.myCtx = true
    ∧ (∃ h, liveX.hrun? l0 = some h ∧ h.trec.code = 0x02 ∧ bitAt h.trec.bits 24 = true ∧ fieldNat h.trec.bits 16 8 < 192)
    ∧ liveX.settled l0 = true ∧ (∀ v, v ∈ liveH.warps → v.wg = liveH.me.wg → liveH.settled v.loc = true) ∧ liveX.ready .always .none (Src.name 3).touch = true
    ∧ (let f := { a0 with sa := .uni 4, sb := .imm, imm := 64 };
       live.ready f.guard f.cf (f.sa.touch ++ f.sb.touch) = true ∧ live.migrations = [] ∧ live.undeliv = [] ∧ live.l1 = [] ∧ live.l2 = []
       ∧ (live.src f.sb 0 (f.imm.setWidth 64)).toNat ≤ 2 ^ 40) := by
  decide

/-- The memory machine with a record of thread 0, and a vector table at 0x6000 whose entry of code 8 is `e`. -/
def liveF (e : Word) : State :=
  { liveM with
    mem := sparseWrite liveM.mem 0x6040 (bytesOfWord 8 e)
    ctxs := [{ ctx0 with desc := { ctx0.desc with vtBase := 0x6000 } }]
    warps := [{ warpM.updThreads 1 (fun _ x => { x with st := .parked }) with records := [rec0] }] }

theorem wit_HandlerRuns :
    (liveF 0x100).me.records = [rec0] ∧ ((liveF 0x100).slice (sliceOfLoc l0)).handler = none ∧ (liveF 0x100).me.cancel = false
    ∧ ((liveF 0x100).ctx? 0).map (·.status) = some .live ∧ ((liveF 0x100).vectorEntry (coreOfLoc l0) 0 8).1 = some 0x100
    ∧ ((liveF 0).vectorEntry (coreOfLoc l0) 0 8).1 = some 0 ∧ (liveF 0).wg? 1 = some wg0
    ∧ ({ liveF 0 with tlb := [], tlb2 := [] } : State).vectorEntry (coreOfLoc l0) 0 8 = (none, { liveF 0 with tlb := [], tlb2 := [] })
    ∧ [1, 2, 3].all (fun k => ((liveF 0).warp? ⟨0, 0, 0, k⟩).isNone) = true
    ∧ (let s := { liveH with clk := 2 ^ 26 }; (s.slice (sliceOfLoc l0)).handler = some hrun0 ∧ hrun0.start + 2 ^ 26 ≤ s.clk
        ∧ (s.warp? l0).isSome = true)
    ∧ (let s := liveW (fun w => { w with stall := 2 ^ 24 }); s.me.stall = 2 ^ 24 ∧ s.me.inState .running ≠ 0
        ∧ ∀ th, th < 32 → (s.me.thread th).st = .running → (s.me.thread th).pc = 0)
    ∧ (let g := { wg0 with foot := { wg0.foot with limit := 5 }, runtime := 5 };
       let s := { live with wgs := [g] }; s.wg? 1 = some g ∧ g.limitHit = false ∧ g.foot.limit ≤ g.runtime ∧ s.warps.filter (fun w => w.wg == 1) = [warp0]) := by
  decide

/-- The memory machine with no line in its core's instruction cache; address 0x100000 is the code page 4. -/
def liveC (slot0 : Nat) : State :=
  let b := ({ State.reset.withFetchWord 96 slot0 with last := l0 } : State);
  { liveM with
    icache := [], tlb := liveM.tlb ++ [page 16 0 0 5]
    warps := [warpM.updThreads (-1) (fun _ x => { x with pc := 0x100000 })]
    mem := sparseWrite liveM.mem 0x100000 ((b.icache.map (·.bytes)).headD []) }

theorem wit_FetchingAndRetiring :
    (let s := liveC 0x000000000000000000000F02;
     let b := s.homeRead 0x100000 64;
     s.me.runAt 0x100000 ≠ 0 ∧ s.icLine s.myCore 0 0x100000 = none
     ∧ (s.translate s.myCore 0 0x100000).map (fun p => (pteX p.entry, pteFmt p.entry, p.loc 0x100000)) = some (true, 0, 0x100000)
     ∧ s.poisonedAt 0x100000 = false ∧ (s.icache.filter (fun l => l.core == s.myCore)).length < 2048
     ∧ (match s.translate s.myCore 0 0x100000 with
        | some p => ((s.cacheTlb p).fetchTile s.myCore (linearView 0 p.entry 0x100000) 0x1000).1.map (fun f => (f.drop 0).take 64) == some b
        | none => false) = true ∧ parFails b = 0 ∧ lineWord b / 4096 = 0
     ∧ s.translate s.myCore 0 0x200000 = none ∧ (s.translate s.myCore 0 0).map (fun p => pteX p.entry) = some false
     ∧ parFails ((s.homeRead 0x100000 60) ++ [0, 0, 0, 0]) ≠ 0)
    ∧ (let hdrs := liveAt 0x01;
       let s := { hdrs with warps := [{ warp0 with fair := 1024 }.updThreads 0xF (fun _ x => { x with pc := 12 })] };
       s.me.readyPcs = [0, 12] ∧ s.me.fairPick = none ∧ s.me.fair = s.me.fairQ ∧ s.atHdr s.me 0 = true)
    ∧ (let s := liveW (fun w => w.updThreads (-1) (fun _ x => { x with st := .exited })); s.me.alive = 0 ∧ s.hrun? l0 = none ∧ s.settled l0 = true
        ∧ s.me.pins = [] ∧ s.me.claims = [] ∧ s.me.kind = .launched ∧ s.isDestroying 0 = false ∧ (s.warpsOn (sliceOfLoc l0)).filter (fun x => x.loc != l0) = [])
    ∧ (let w := { warp0 with loc := ⟨0, 0, 0, 1⟩, uid := 3 };
       let s := { live with warps := [warp0.updThreads (-1) (fun _ x => { x with st := .exited }), w] };
       (s.warpsOn (sliceOfLoc l0)).filter (fun x => x.loc != l0) = [w] ∧ ((s.slice (sliceOfLoc l0)).rows.map (·.no)).Nodup
       ∧ s.rowPending (sliceOfLoc l0) 0 = false) := by decide

/-! ### Queues and commands -/

/-- All dies are up. -/
def upDies : List DieSt := (List.range 6).map (fun d => { no := d, boot := .up, active := false, phase := 0, eth := true, pcie := d == 0 || d == 3 })

/-- Queue 7 of context 0, whose ring at 0xA000 holds the bytes of one slot; the memory is that of `liveR`. -/
def queue7 : Queue := { ref := .user 7, ring := 0xA000, len := 4096, logN := 4, ctx := 0, en := true, state := .active, wptr := 1 }

def liveU (slot : List Byte) : State :=
  { liveR with
    dies := upDies, queues := [queue7], mem := sparseWrite liveR.mem 0xA000 slot
    tlb := liveR.tlb ++ [{ page 0 1 1 3 with core := ⟨0, 48⟩ }, { page 0 1 1 3 with core := ⟨1, 48⟩ }], nextUid := 100 }

/-- An accepted command of queue 7 of a code, with the bytes of its slot after the header. -/
def cmdOf (code : BitVec 8) (slot : List Byte) : Cmd :=
  { uid := 50, queue := .user 7, ctx := 0, seq := 0, hdr := { cmd := code, fence := false, evt := true, cookie := 77 }
    slot := List.replicate 8 0 ++ slot ++ List.replicate (248 - slot.length) 0 }

def liveCmd (c : Cmd) : State := { liveU [] with cmds := [c], queues := [{ queue7 with rptr := 1 }] }

theorem wit_QueueRegisters :
    (liveU []).queue? (.user 7) = some queue7 ∧ (liveU []).hostReaches (.user 7) = true ∧ (liveU []).hostReaches (.mgmt 0) = true ∧ partDies (liveU []).mode 0 ≠ [] ∧ ((liveU []).q (.user 4095)).state = .disabled
    ∧ 2 ^ queue7.logN < ((17 : BitVec 32) - queue7.rptr).toNat ∧ ¬ 2 ^ queue7.logN < ((16 : BitVec 32) - queue7.rptr).toNat := by decide

theorem wit_CommandFetches :
    (let s := liveU [8]; s.queue? (.user 7) = some queue7 ∧ s.fetchable queue7 = true ∧ s.scheduler queue7 = some 0
      ∧ (match (s.readRecord 0 0 (queue7.ring + word (256 * (queue7.rptr.toNat % 2 ^ queue7.logN))) 256).1 with
         | .ok b => recNat b 0 1 == 8 && recZero b 8 248 && recNat b 1 3 == 0
         | _ => false) = true
      ∧ (match (({ s with tlb := [], tlb2 := [] } : State).readRecord 0 0 queue7.ring 256).1 with | .bad _ => true | _ => false) = true)
    ∧ (let sig := [6, 0, 0, 0, 0, 0, 0, 0] ++ bytesOfWord 8 0x8000 ++ bytesOfWord 8 3 ++ List.replicate 232 0;
       slotReserved 6 sig = true ∧ slotAddrs 6 sig = true ∧ (liveU []).slotLimits 0 6 sig = true
       ∧ (match ((liveU []).readNamed 0 0 6 sig).1 with | .ok _ => true | _ => false) = true
       ∧ (liveU []).slotLimits 0 6 ([6, 0, 0, 0, 0, 0, 0, 0] ++ bytesOfWord 8 0x8001 ++ List.replicate 240 0) = false
       ∧ slotAddrs 6 ([6, 0, 0, 0, 0, 0, 0, 0] ++ bytesOfWord 8 (word (2 ^ 56)) ++ List.replicate 240 0) = false
       ∧ slotReserved 6 ([6, 4] ++ List.replicate 254 0) = false)
    ∧ (let q : Queue := { ref := .mgmt 0, ring := 0x1000, logN := 4, en := true, state := .active, wptr := 1 };
       let s := { liveU [] with queues := [q], mem := sparseWrite (liveU []).mem (hostBase + 0x1000) [8] };
       s.queue? (.mgmt 0) = some q ∧ s.fetchable q = true ∧ s.scheduler q = some 0 ∧ recNat (s.bytesAt (hostBase + 0x1000) 256) 0 1 = 8
       ∧ slotReserved 8 (s.bytesAt (hostBase + 0x1000) 256) = true ∧ s.mgmtLimits 0 8 (s.bytesAt (hostBase + 0x1000) 256) = true) := by decide

theorem wit_SimpleCommands :
    (let c := cmdOf 8 []; let s := liveCmd c; s.toStart 50 8 = some c ∧ (s.scheduler (s.q c.queue)).isSome = true)
    ∧ (let c := cmdOf 6 (bytesOfWord 8 0x8000 ++ bytesOfWord 8 3); let s := liveCmd c;
       s.toStart 50 6 = some c ∧ (s.translate (schedCore (s.firstDie 0)) 0 0x8000).map (fun p => (pteW p.entry, p.loc 0x8000)) = some (true, 0x8000)
       ∧ (match ({ s with tlb := [], tlb2 := [] } : State).walk (schedCore (s.firstDie 0)) 0 0x8000 true with | .bad _ => true | _ => false) = true)
    ∧ (let c := cmdOf 5 (bytesOfWord 8 0x8000 ++ bytesOfWord 8 3); let s := liveCmd c;
       s.toStart 50 5 = some c ∧ ({ c with started := true } : Cmd).held = false ∧ s.ctxLive 0 = true)
    ∧ (let c := cmdOf 7 [5, 0]; let s := liveCmd c; s.toStart 50 7 = some c ∧ recNat c.slot 14 1 = 0 ∧ recNat c.slot 10 4 ≤ (s.cell 0 5).version)
    ∧ (let r : CopyRec := { kind := 1, next := 0, src := 0, dst := 0x100, len := 16, origin := 0, extent := 0 };
       let c := { cmdOf 4 [] with pro := [r] };
       (liveCmd c).toStart 50 4 = some c
       ∧ (let s := { liveCmd { c with started := true } with chains := [{ id := 60, ctx := 0, die := 0, recs := [], owner := 50, stage := 0 }] };
          s.toStart 50 4 = none ∧ (s.chainOf 50 0).map (·.recs) = some []))
    ∧ (let c := cmdOf 8 []; let x := { cmdOf 5 [] with uid := 49 };
       let s := { liveCmd c with cmds := [x, c] }; x ∈ s.cmds ∧ x.queue = c.queue ∧ x.uid < c.uid ∧ x.hdr.cmd = 5 ∧ s.cmd? 50 = some c) := by decide

/-- A launch slot: one workgroup of one warp of 16 rows at entry 0x100, with a status word at `status`. -/
def launchBytes (status : Word) : List Byte :=
  [1, 0, 0, 0, 0, 0, 0, 0] ++ bytesOfWord 8 0x100 ++ bytesOfWord 8 0 ++ bytesOfNat 4 1 ++ bytesOfNat 4 1 ++ bytesOfNat 4 1
    ++ [1, 1, 1, 0, 16, 0, 0, 0] ++ List.replicate 20 0 ++ bytesOfWord 8 status ++ List.replicate 184 0

def launchCmd : Cmd := { cmdOf 1 [] with slot := launchBytes 0x8000 }

def bundle0 : Bundle := { id := 60, cmd := 50, ctx := 0, queue := .user 7, slot := launchBytes 0x8000 }

theorem wit_LaunchBundles :
    (let s := liveCmd launchCmd; s.toStart 50 1 = some launchCmd ∧ s.bundles = [] ∧ s.diesOf 0 = [0, 1, 2, 3, 4, 5] ∧ gridOf launchCmd.slot = 1
      ∧ cgsOf launchCmd.slot = 1 ∧ rollbackOf launchCmd.slot = false)
    ∧ (let s := { liveCmd { launchCmd with started := true } with bundles := [bundle0] };
       s.bundle? 60 = some bundle0 ∧ bundle0.phase = .prologue ∧ s.chainOf 60 0 = none ∧ s.ctxLive 0 = true)
    ∧ (let b := { bundle0 with phase := .epilogue };
       let s := { liveCmd { launchCmd with started := true } with bundles := [b] };
       s.bundle? 60 = some b ∧ s.chainOf 60 1 = none ∧ (s.ctx? 0).map (·.interval) = some none ∧ s.migrations = [] ∧ s.l1 = []
       ∧ recWord b.slot 64 8 = 0x8000
       ∧ (s.tlbFor (schedCore (s.firstDie 0)) 0 0x8000).map (fun p => (pteW p.entry, p.loc 0x8000)) = some (true, 0x8000))
    ∧ (let x := { ctx0 with chk := chkPoison, interval := some { bundle := 60, log := [] } };
       x.chk &&& chkPoison ≠ 0 ∧ x.chk &&& chkLogfull = 0 ∧ (∃ i, x.interval = some i ∧ i.bundle = 60 ∧ i.fresh = true ∧ i.overflow = false)) := by
  decide

def node0 (kind : Nat) (st : NodeState) : Node := { kind := kind, preds := [], cost := 1, rem := 1, ptr := 0x8100, st := st }

def graphCmd (ns : List Node) : Cmd := { cmdOf 2 [] with nodes := ns }

/-- A running graph of the nodes given. -/
def liveGr (ns : List Node) : State :=
  { liveCmd { graphCmd ns with started := true } with graphs := [{ cmd := 50, ctx := 0, nodes := ns }] }

def stage0 : Stage := { foot := { entry := 0x100 }, ring := 0x8000, wmin := 1, wmax := 2 }

/-- The header of a ring that is closed and empty. -/
def closedRing : List Byte := bytesOfNat 8 0 ++ bytesOfNat 8 0 ++ bytesOfNat 4 2 ++ bytesOfNat 4 0 ++ bytesOfNat 4 1 ++ bytesOfNat 2 64 ++ [1]

theorem wit_GraphsAndPipes :
    (let g : Graph := { cmd := 50, ctx := 0, nodes := [node0 0 .waiting] }; g.next = some 0 ∧ g.nodes[0]? = some (node0 0 .waiting)
       ∧ g.retry = none ∧ (∀ y, y ∈ g.nodes → y.st ≠ .failed) ∧ ({ g with retry := some 0 } : Graph).retry = some 0)
    ∧ (withRem [node0 0 .waiting, { node0 0 .waiting with preds := [0] }])[0]? = some { node0 0 .waiting with rem := 2 }
    ∧ (let c := graphCmd [node0 0 .waiting]; (liveCmd c).toStart 50 2 = some c ∧ (liveCmd c).graph? 50 = none)
    ∧ (let s := liveGr [node0 0 .waiting]; s.toStart 50 2 = none ∧ (s.graph? 50).isSome = true
        ∧ s.dispatchable { graphCmd [node0 0 .waiting] with started := true } = some 0 ∧ s.myTurn (.user 7) = true)
    ∧ (let b : Bundle := { bundle0 with node := some 0, phase := .finish };
       let s := { liveGr [node0 1 .running] with bundles := [b] };
       s.bundles.find? (fun b => b.cmd == 50 && b.node == some 0) = some b ∧ s.ctxLive 0 = true)
    ∧ (let c := { cmdOf 3 [] with stages := [stage0] };
       (liveCmd c).toStart 50 3 = some c ∧ ({ liveCmd c with tlb := [], tlb2 := [] } : State).peekRing 0 0x8000 = none
       ∧ ({ liveCmd c with tlb := [], tlb2 := [] } : State).toStart 50 3 = some c
       ∧ (let s := { liveCmd { c with started := true } with pipes := [{ cmd := 50, ctx := 0, stages := [stage0] }], mem := sparseWrite [] 0x8000 closedRing };
          s.toStart 50 3 = none ∧ (s.pipes.find? (fun p => p.cmd == 50)).isSome = true ∧ s.stageCount 50 0 = 0
          ∧ (s.peekRing 0 0x8000).map (fun r => (r.closed, r.occ)) = some (true, 0))) := by decide

theorem wit_GraphsAndPipes_bundle :
    (let s := { liveGr [node0 1 .waiting] with
                mem := sparseWrite (sparseWrite liveM.mem 0x8100 (launchBytes 0)) 0x8150 (bytesOfWord 8 0x8200)
                       |> fun m => sparseWrite m 0x8200 ([1, 0, 0, 0, 0, 0, 0, 0] ++ List.replicate 8 0 ++ bytesOfWord 8 0x100 ++ bytesOfWord 8 0x200 ++ bytesOfWord 8 16) };
     let s₂ := s.tookTurn (.user 7);
     s.dispatchable { graphCmd [node0 1 .waiting] with started := true } = some 0 ∧ s.myTurn (.user 7) = true
     ∧ (match s₂.readRecord 0 0 0x8100 256 with
        | (.ok b, s₃) => !rollbackOf b && (match firstErr (s₃.launchChecks 0 b) with | .ok _ => true | _ => false)
            && (match (s₃.launchChains 0 0 b).1 with | .ok (p, _) => !p.isEmpty | _ => false)
        | _ => false) = true) := by decide

/-! ### Placement -/

def unit0 : Pending := { uid := 70, ctx := 0, die := 0, prio := 0, arrival := 0, foot := footOfLaunch (launchBytes 0), kind := .launch 60 0 1 false }

/-- The state in which a unit of bundle 60 is pending, and no workgroup is resident. -/
def liveD : State :=
  { liveCmd { launchCmd with started := true } with bundles := [{ bundle0 with phase := .run, alive := 1 }], pending := [unit0], warps := [], wgs := [], slices := [] }

theorem wit_Placing :
    (let b : Batch := { id := 80, bundle := 60, die := 0, units := [unit0] }; ({ liveD with batches := [b] } : State).batches.find? (fun b => b.id == 80) = some b)
    ∧ (liveD.tryOrder 0).head? = some unit0 ∧ (liveD.die 0).stopFor = [] ∧ liveD.bundle? 60 = some { bundle0 with phase := .run, alive := 1 }
    ∧ (liveD.bestSpot 0 0 unit0.foot 0).isSome = true
    ∧ (let p := { unit0 with foot := { unit0.foot with tags := 257 }, kind := .launch 60 0 1 false };
       let s := { liveD with pending := [p] }; s.tryOrder 0 = [p] ∧ p.kind.cls = 2 ∧ (s.tryPlace p).isNone = true ∧ s.stopped 0 p = false
         ∧ p.blocked = none)
    ∧ (let p := { unit0 with blocked := some 0 }; let s := { liveD with pending := [p], clk := 2 ^ 20 };
       s.pending.find? (fun p => p.die == 0 && p.blocked.any (fun t => decide (t + 2 ^ 20 ≤ s.clk)) && !(s.die 0).stopFor.contains p.uid) = some p
       ∧ (s.pending.map (·.uid)).Nodup)
    ∧ (let s := { live with dies := upDies, cores := [] }; (s.core ⟨0, 0⟩).active = false ∧ s.residents ⟨0, 0⟩ ≠ 0 ∧ (s.die 0).recent = []
        ∧ ∃ y, y ∈ s.dies ∧ y.no = 0)
    ∧ (let s := { liveD with clk := 450000 }; (s.die 0).boot = .up ∧ (s.die 0).beat + 150000 ≤ s.clk ∧ s.mode = 1 ∧ (s.die 0).adopter = none
        ∧ (s.die 0).told = false ∧ (s.die 1).boot = .up ∧ (s.die 1).adopter = none ∧ [min ((0 + 5) % 6) ((0 + 1) % 6), max ((0 + 5) % 6) ((0 + 1) % 6), (0 + 3) % 6] = [1, 5, 3])
    ∧ (let s := { liveD with cores := [{ id := ⟨0, 0⟩, active := true }], clk := 15000 };
       (s.core ⟨0, 0⟩).active = true ∧ s.residents ⟨0, 0⟩ = 0 ∧ s.wgsOn ⟨0, 0⟩ = [] ∧ (s.core ⟨0, 0⟩).idleSince + 15000 ≤ s.clk ∧ s.migrations = [])
    ∧ (let g := { wg0 with bundle := some 60 }; let s := { liveD with wgs := [g] };
       s.wg? 1 = some g ∧ (∀ w, w ∈ s.warps → w.wg ≠ 1) ∧ (∀ q, q ≠ .xq → g.queue q = []) ∧ g.queues.length = 6 ∧ (s.bundle? 60).isSome = true
       ∧ s.migrations = [] ∧ g.retired = false ∧ s.isDestroying 0 = false ∧ ∀ x, x ∈ s.wgs → x.gone = false) := by
  refine ⟨by decide, by decide, by decide, by decide, by decide, by decide, by decide, by decide, by decide, by decide, by decide, by decide,
    ?_, by decide, by decide⟩
  intro q _
  match q with
  | .mq => rfl
  | .cq 0 => rfl
  | .cq 1 => rfl
  | .cq 2 => rfl
  | .cq 3 => rfl
  | .xq => rfl

/-! ### Management -/

/-- A management command of a code, with the bytes of its slot from 8 on. -/
def mgmtOf (code : BitVec 8) (slot : List Byte) : Cmd := { cmdOf code slot with queue := .mgmt 0 }

/-- The machine with a management command, whose context's warp waits for nothing. -/
def liveMg (c : Cmd) (st : CtxStatus) : State :=
  { liveM with dies := upDies, cmds := [c], ctxs := [{ ctx0 with status := st }], queues := [queue7, { ref := .mgmt 0, en := true, state := .active, logN := 4 }] }

theorem wit_Preemption :
    (let c := mgmtOf 0x40 [0, 0]; let s := liveMg c .live;
     s.cmd? 50 = some c ∧ (s.ctx? 0).isSome = true ∧ c.isUser = false ∧ s.mgmtStart 50 0x40 = some c ∧ s.hasWork 0 = true)
    ∧ (let c := { mgmtOf 0x40 [0, 0] with started := true };
       let s := { liveMg c .preempting with warps := [{ warpM with waits := [{ waitFor (.tagAll 0 (-1)) with mask := 0 }] }] };
       s.quiet 0 = false)
    ∧ (let c := { mgmtOf 0x40 [0, 0] with started := true };
       let s := { liveMg c .preempting with warps := [], wgs := [] }; s.quiet 0 = true ∧ s.migrations = [] ∧ s.cells = [] ∧ s.l1 = [] ∧ s.ctx? noCtx = none)
    ∧ (let c := mgmtOf 0x41 [0, 0];
       let img : Saved := { ctx := 0, warps := [warpM], wgs := [wg0], slices := [sliceM] };
       let s := { liveMg c .saved with warps := [], wgs := [], slices := [] };
       s.mgmtStart 50 0x41 = some c ∧ (s.imageFor c).isNone = true ∧ wg0.fuse = false ∧ wg0.gone = false ∧ img.dispatch = [] ∧ (s.ctx? img.ctx).isSome = true
       ∧ ((s.diesFor 0 0).findSome? (fun d => s.bestSpot 0 d wg0.foot 0)).map (·.slices.length) = some 1 ∧ wg0.slices.Nodup
       ∧ (({ s with dies := (List.range 6).map (fun d => ({ no := d } : DieSt)) } : State).restored img).isNone = true)
    ∧ comm0.no = 64 ∧ ({ live with comms := [comm0] } : State).comm? 64 = some comm0 := by decide

/-- The image of an idle context, in an area that a RESUME names. -/
theorem wit_Preemption_image :
    (let c := mgmtOf 0x41 (List.replicate 8 0 ++ bytesOfWord 8 0x8000 ++ bytesOfWord 8 648);
     let s := { liveMg c .saved with warps := [], wgs := [], slices := [], queues := [], images := [{ ctx := 0, place := 0x8000, reserve := false, size := 648 }] };
     let m := { s with mem := sparseWrite [] 0x8000 (s.imageBytes ctx0 []) };
     (s.imageBytes ctx0 []).length = 648 ∧ m.mgmtStart 50 0x41 = some c ∧ (m.imageFor c).isSome = true
     ∧ ((m.imageFor c).bind m.restored).isSome = true)
    ∧ (let c := { mgmtOf 0x40 [0, 0] with started := true };
       let s := { liveMg c .preempting with warps := [], wgs := [] };
       s.reserveFull = false ∧ firstReserve * 65536 + (s.imageBytes ctx0 []).length ≤ fabricBase ∧ s.errors = [] ∧ s.l2 = []) := by decide

theorem wit_ContextEnd :
    (let c := mgmtOf 0x42 [0, 0]; let s := liveMg c .live;
     s.cmd? 50 = some c ∧ (s.ctx? 0).isSome = true ∧ s.mgmtStart 50 0x42 = some c ∧ (liveMg c .destroyed).mgmtStart 50 0x42 = some c
     ∧ s.queue? (.user 7) = some queue7)
    ∧ (let c := { mgmtOf 0x42 [0, 0] with started := true }; let s := liveMg c .destroying;
       s.mgmtStart 50 0x42 = none ∧ c.scrub = false ∧ s.destroyQuiet 0 = true ∧ s.scrubbed 0 = true
       ∧ (withQ .mq [ent (.mzero e0) 0 0 0] s).destroyQuiet 0 = false)
    ∧ (let c := { mgmtOf 0x42 [0, 0] with started := true, scrub := true }; (liveMg c .destroying).scrubbed 0 = true
        ∧ ({ liveMg c .destroying with dies := [] } : State).scrubbed 0 = false)
    ∧ (let c := mgmtOf 0x43 [2]; let s := liveMg c .destroyed;
       s.mgmtStart 50 0x43 = some c ∧ (s.queue? c.queue).isSome = true ∧ (∀ k, k ∈ s.ctxs → k.status = .destroyed) ∧ (∀ d, d ∈ s.dies → d.phase = 0)
       ∧ ¬ (∀ k, k ∈ (liveMg c .live).ctxs → k.status = .destroyed))
    ∧ [1, 2, 3, 4].all (fun p =>
        let x : DieSt := { no := 5, boot := .up, phase := p, ctx := 0, held := [⟨5, 0, 0⟩] };
        let s := ({ liveM with dies := [x] } : State).writeScrub 5 0 true [(5, 1)];
        s.die 5 == x && x.phase != 0 && s.scrubRecord 5 == some (0, true) && x.held[x.done / 136]? == some ⟨5, 0, 0⟩
        && x.heldCores[x.done / 768]? == some ⟨5, 0⟩ && runAt 5 (s.scrubFrames 5) x.done == some (5, 1)
        && ({ x with done := 768 } : DieSt).held[768 / 136]? == none && ({ x with done := 768 } : DieSt).heldCores[768 / 768]? == none
        && runAt 5 (s.scrubFrames 5) 1 == none && s.ctxs.all (fun k => k.no == 0)) = true
    ∧ queue7.described = true ∧ (let s := { live with mode := 6 }; s.diesOf 0 = [0]) := by decide

/-- A migration of a page of frame 1 to frame 2, whose entry lies at 0x8000. -/
def mig0 (p : MigPhase) : Migration := { id := 90, ctx := 0, va := 0, entryAt := 0x8000, old := 1, new := 2, dirty := -1, phase := p, stalled := [] }

/-- Page tables of four levels for address 0, at 0x100000, 0x110000, 0x120000 and 0x130000, of which the last names frame 0x14. -/
def tables : List Host.Cell :=
  [(0x100000, 0x88), (0x110000, 0x90), (0x120000, 0x98)].foldl (fun m p => sparseWrite m p.1 (bytesOfWord 8 (word (p.2 * 2 ^ 32 + 0xC001))))
    (sparseWrite [] 0x130000 (bytesOfWord 8 (word (0x14 * 2 ^ 32 + 1))))

theorem wit_MemoryManagement :
    (let x : Shootdown := { id := 91, ctx := 0, first := 0, pages := 1 };
     ({ liveM with shootdowns := [x] } : State).shootdowns.find? (fun x => x.id == 91) = some x)
    ∧ (let x : Shootdown := { id := 91, ctx := 0, first := 0, pages := 1, mig := some 90 };
       let s := { liveM with shootdowns := [x], migrations := [mig0 .switching] };
       s.shootdowns.find? (fun x => x.id == 91) = some x ∧ s.migration? 90 = some (mig0 .switching))
    ∧ (let s := { liveM with migrations := [mig0 .copying] }; (mig0 .copying).old ≠ (mig0 .copying).new ∧ s.shootdowns = [] ∧ s.ctx? noCtx = none
        ∧ (mig0 .copying).entryAt % 8 = 0 ∧ (mig0 .copying).entryAt / 65536 ≠ 1 ∧ (mig0 .copying).entryAt / 65536 ≠ 2)
    ∧ (let m := { mig0 .switching with stalled := [(0, 0x1FFFF, [7])] }; m.phase = .switching ∧ 0x1FFFF % 65536 + [(7 : Byte)].length ≤ 65536
        ∧ m.new * 65536 + 65536 ≤ fabricBase ∧ (∀ k, liveM.ctx? 0 = some k → k.interval = none))
    ∧ (let d : Dailies := { ctl := 71, buf := 1, en := true, frames := [4, 5] };
       let s := { liveM with dailies := [d], clk := 2 ^ 20 };
       s.dailiesOf 71 = d ∧ d.start + 2 ^ (20 + d.ivl.toNat) ≤ s.clk ∧ s.migrations = [] ∧ d.buf.toNat * 512 + 320 ≤ fabricBase) := by
  refine ⟨by decide, by decide, by decide, ⟨by decide, by decide, by decide, ?_⟩, by decide⟩
  intro k hk
  have : liveM.ctx? 0 = some ctx0 := by decide
  rw [this] at hk; cases hk; rfl

theorem wit_MigrationStart :
    (let s := { liveM with mem := tables, ctxs := [{ ctx0 with desc := { ctx0.desc with ptRoot := 0x100000 } }] };
     ∃ e at_, s.pageEntry 0 0 = some (e, at_) ∧ pteMig e = false ∧ framesNamed 7 1 = true ∧ 7 ≠ pteFrame e ∧ s.migrations = [] ∧ s.ctx? noCtx = none) := by
  refine ⟨word (0x14 * 2 ^ 32 + 1), 0x130000, by decide, by decide, by decide, by decide, by decide, by decide⟩

theorem wit_HostAndFirmware :
    live.migrations = [] ∧ live.ctx? noCtx = none ∧ fnOf ctx0.desc = 0 ∧ fnOf ctx0.desc ≠ 1
    ∧ (let s := { liveM with comms := [{ comm0 with began := true }] }; s.comm? 64 = some { comm0 with began := true } ∧ comm0.began = false)
    ∧ frameExists 0 = true ∧ frameExists 17578124 = true ∧ frameExists 17578125 = false
    ∧ liveM.ctx? 0 = some ctx0 ∧ comm0.desc.en = true
    ∧ ({ live with queues := [{ queue7 with state := .destroyed }] } : State).queue? (.user 7) = some { queue7 with state := .destroyed } := by decide

theorem wit_Platform :
    (let x : AtsInv := { id := 1, first := 0, pages := 1, waits := [7] };
     let s := { live with ats := [x] }; s.ats.find? (fun x => x.id == 1) = some x ∧ s.readFlies 7 = false)
    ∧ (let f : Flight := { id := 7, flag := none, load := true, writes := [(.uni 1, 0)] };
       let s := { liveW (fun w => { w with inflight := [f] }) with ctxs := [ctx0], atc := [(0, 0)] };
       s.readFlies 7 = true ∧ s.ats = [] ∧ f.writes ≠ [] ∧ (s.ctx? 0).isSome = true ∧ (fnOf ctx0.desc, 0) ∈ s.atc)
    ∧ (live.interface 3).st = .unlocked
    ∧ (({ live with tdisp := [{ fn := 3, st := .locked, by_ := some 1 }] } : State).interface 3).st = .locked
    ∧ (State.reset.die 5).boot = .held ∧ (State.reset.die 5).fw.signed = true
    ∧ (State.reset.die 5).fw.keyHash = (State.reset.die 5).fw.fuseHash ∧ (State.reset.die 5).fw.rollback ≤ (State.reset.die 5).fw.version
    ∧ ¬ (({ version := 1, rollback := 2 } : Firmware).rollback ≤ ({ version := 1, rollback := 2 } : Firmware).version)
    ∧ (let x : DieSt := { no := 5, boot := .scrub, phase := 3 };
       let s := { live with dies := [x] };
       s.die 5 = x ∧ s.scrubRecord 5 = none ∧ (s.writeScrub 5 9 true []).scrubRecord 5 = some (9, true) ∧ (∃ y, y ∈ s.dies ∧ y.no = 5))
    ∧ (coresOf 5)[0 / 4352]? = some ⟨5, 0⟩ ∧ (coresOf 5)[208896 / 4352]? = none ∧ (coresOf 5)[36864 / 768]? = none
    ∧ (let x : DieSt := { no := 5, boot := .up, rising := some 75000, ports := 8 };
       let s := { live with dies := [x], clk := 75000 }; (s.die 5).rising = some 75000 ∧ 75000 ≤ s.clk ∧ 8 ≤ x.ports)
    ∧ live.spdm.next < 2 ^ 20 ∧ 2 ^ 20 ≤ (({ live with spdm := { next := 2 ^ 20 } } : State)).spdm.next := by
  decide

/-! ### The step -/

/-- A NOP after reset, at the slot from which the first step fetches. -/
def first : State := State.reset.withFetchWord 96 0x000000000000000000000F02

theorem wit_StepRunsTheDecodedInstruction :
    (let s := { first with agenda := [.warp l0] };
     ∃ w r k, s.warp? l0 = some w ∧ s.offered w = some r ∧ s.icLine (coreOfLoc l0) w.ctx (r.pc.toNat / 64 * 64) = some k
       ∧ isSlotAddr r.pc.toNat = true ∧ parFails k.bytes = 0 ∧ lineWord k.bytes / 4096 = 0 ∧ s.arriving r (s.runOf r) false = 0
       ∧ s.breaks r w (s.runOf r) = [] ∧ s.overrun r w (s.runOf r) = 0) := by
  refine ⟨_, _, _, rfl, rfl, rfl, by decide, by decide, by decide, by decide, by decide, by decide⟩

theorem wit_EncodingRoundTrip : (Instr.nop a0).body.isSome = true ∧ (Instr.nop a0).wf = true
    ∧ decodeTableWord 96 0x000000000000000000000F02 = some (.nop a0) := by decide

theorem wit_Rounding : fp32 ∈ [fp64, fp32, fp16, bf16] ∧ (∃ n g e, fp32.decode 0x3F800001 = .fin n g e)
    ∧ (∃ n g e, fp32.decode (fp32.add .ru 0x3F800001 0x33800000).bits = .fin n g e) ∧ (fp32.add .ru 0x3F800001 0x33800000).flags.getLsbD 0 = true
    ∧ List.replicate 4 (List.replicate 256 (1 : Byte)) ≠ [] := by
  refine ⟨by decide, ⟨_, _, _, rfl⟩, ⟨_, _, _, rfl⟩, by decide, by decide⟩

theorem wit_steps : (∃ t, step first = .next t) ∧ first.memWf ∧ first.warps.length = 1 := by
  refine ⟨⟨_, rfl⟩, ?_, by decide⟩
  unfold State.memWf; decide

/-! ### What the manual works out -/

/-- The element of thread 0 in a name after an instruction on immediates and uniform registers. -/
def gives (i : Instr) (s : State) (n : Nat) : Word := (after i s).elem n 0

/-- The machine with chosen values in u20 and u21. -/
def liveUU (a b : Word) : State := liveW (fun w => { w with unif := putNth 0 (putNth 0 w.unif 20 a) 21 b })

def uu : FmtA := { a0 with dst := .name 1, sa := .uni 20, sb := .uni 21, ty := .i32 }

/-- R177: a sum wraps. -/
theorem test_iadd_wraps : gives (.iadd uu) (liveUU 0x7FFFFFFF 1) 1 = 0x80000000 := by decide

/-- R177: so does a difference, in the order of the operands. -/
theorem test_isub_wraps : gives (.isub { uu with ty := .n32 }) (liveUU 1 2) 1 = 0xFFFFFFFF := by decide

/-- R179 states this value. -/
theorem test_imulh_example : gives (.imulh uu) (liveUU 0x80000000 0x80000000) 1 = 0x40000000 := by decide

/-- R180: the one signed overflow, and a division by zero. -/
theorem test_idiv_overflow : gives (.idiv uu) (liveUU 0x80000000 0xFFFFFFFF) 1 = 0x80000000
    ∧ gives (.irem uu) (liveUU 0x80000000 0xFFFFFFFF) 1 = 0 := by decide

theorem test_idiv_by_zero : gives (.idiv uu) (liveUU 7 0) 1 = 0xFFFFFFFF ∧ gives (.irem uu) (liveUU 7 0) 1 = 7 := by decide

/-- R180: the quotient is truncated toward zero, and the remainder has the dividend's sign. -/
theorem test_idiv_signs : gives (.idiv uu) (liveUU 0xFFFFFFF9 2) 1 = 0xFFFFFFFD ∧ gives (.irem uu) (liveUU 0xFFFFFFF9 2) 1 = 0xFFFFFFFF := by decide

/-- R181: the absolute value of the least number is itself. -/
theorem test_iabs_least : gives (.iabs uu) (liveUU 0x80000000 0) 1 = 0x80000000 := by decide

/-- R185. -/
theorem test_bits : gives (.clz uu) (liveUU 0 0) 1 = 32 ∧ gives (.popc uu) (liveUU 0xF0F 0) 1 = 8 ∧ gives (.brev uu) (liveUU 1 0) 1 = 0x80000000 := by decide

/-- A NOP moves the run to the next slot, and one step of the whole machine does so from reset. -/
theorem test_nop_moves : ((after (.nop a0) live).me.thread 31).pc = 12 := by decide

theorem test_first_step_moves :
    (match step first with
     | .next t => t.warps.map (fun w => (w.thread 0).pc) == first.warps.map (fun w => (w.thread 0).pc + 12) && t.clk == 1
     | _ => false) = true := by decide

/-- R98: from slot 4 of a line the successor is slot 0 of the next one. -/
theorem test_succ : succPc 48 = 64 ∧ succPc 0 = 12 := by decide

/-- Table 5.16: the line of the manual, and its parity with one bit flipped. -/
def manualLine (flip : Nat) : List Byte :=
  bytesOfNat 12 (0x000000000000000301100101 + flip) ++ bytesOfNat 12 0x00000005004007FC00010230 ++ bytesOfNat 12 0x00000000005FF80002022F80
    ++ List.replicate 24 0 ++ [0x12, 0x04, 0, 0]

theorem test_manual_line : parFails (manualLine 0) = 0 ∧ parFails (manualLine (2 ^ 19)) ≠ 0 ∧ lineTgt (manualLine 0) 0 = true
    ∧ lineTgt (manualLine 0) 1 = false := by decide

/-- Table 10.2, in FP32 codes. -/
theorem test_intervals :
    (fp32.ivDiv (0x3F800000, 0x3F800000) (0x40400000, 0x40400000)).map (·.1) = some (0x3EAAAAAA, 0x3EAAAAAB)
    ∧ (fp32.ivMul (0xBF800000, 0x3F800000) (0xBF800000, 0x3F800000)).map (·.1) = some (0xBF800000, 0x3F800000)
    ∧ (fp32.ivMul (0xC0000000, 0xBF800000) (0xC0000000, 0xBF800000)).map (·.1) = some (0x3F800000, 0x40800000)
    ∧ fp32.ivDiv (0x3F800000, 0x40000000) (0xBF800000, 0x40400000) = some ((0xFF800000, 0x7F800000), 0)
    ∧ (fp32.ivSqrt (0xBF800000, 0x40800000)).map (·.1) = some (0, 0x40000000)
    ∧ fp32.ivSqrt (0xC0800000, 0xBF800000) = none
    ∧ (fp32.ivAdd (0xFF800000, 0x3F800000) (0x40000000, 0x7F800000)).map (·.1) = some (0xFF800000, 0x7F800000) := by decide

theorem test_interval_division_by_zero :
    (fp32.ivDiv (0x3F800000, 0x40000000) (0, 0)).map (fun r => (r.1, decide (r.2 ≠ 0))) = some ((0xFF800000, 0x7F800000), true) := by decide

/-- Table 8.8. -/
theorem test_midpoints :
    [((0, 0x40000000), 0x3F800000), ((0xC0400000, 0x40A00000), 0x3F800000), ((0xFF800000, 0x40000000), 0xBF800000),
     ((0xFF800000, 0xC0800000), 0xC1100000), ((1, 2), 2), ((0xFF7FFFFF, 0x7F800000), 0x3F800000)].all (fun p => fp32.mid p.1 == p.2) = true := by decide

/-- The block worked after R167: σ, π and the codes of Table 8.6. -/
theorem test_f4s_block :
    (let r := encodeBlock ([0x3F800000, 0xC0400000, 0x40A66666, 0x40200000, 0, 0x3E851EB8] ++ List.replicate 26 0) true false;
     r.1 = 0x7F ∧ r.2.1 = 0x4A ∧ r.2.2.take 6 = [2, 13, 8, 4, 0, 1]) ∧ [0, 1, 2, 3, 5].map f4sPos = [0, 8, 16, 24, 9] := by decide

/-- R174: with five ranks the sum is ((v0 + v1) + (v2 + v3)) + v4; here of 2^24, 1, 1, 1 and 1 in FP32: 2^24, 2^24 + 2, and the tie 2^24 + 3 to even. -/
theorem test_reduction_order :
    recNat (reduceBytes 1 0 ([0x4B800000, 0x3F800000, 0x3F800000, 0x3F800000, 0x3F800000].map (fun v => bytesOfNat 4 v ++ List.replicate 252 0))) 0 4
      = 0x4B800002 := by decide

/-- R109: PLOP's example, p0 AND NOT p1, in each thread. -/
theorem test_plop_example :
    (let s := liveW (fun w => { w with preds := [0b1100, 0b1010, 0, 0, 0, 0, 0, 0, 0, 0, 0, 0] });
     let i := (decodeTableWord 96 0x000000220000780400040F0E).getD (.nop a0);
     nth (after i s).me.preds 4 0 = 0b0100) := by decide

/-- R106: EXIT ends the threads of its run; WSYNC waits while another run is alive. -/
theorem test_exit : ((after (.exit a0) live).me.thread 0).st = .exited := by decide

theorem test_wsync_waits :
    (let s := liveW (fun w => w.updThreads 1 (fun _ x => { x with pc := 12 })); (after (.wsync a0) s).me.waits.map (·.kind) = [.wsync]) := by decide

/-- R93: TRAP parks its threads at the slot after it, with a record. -/
theorem test_trap :
    (let t := after (.trap { a0 with imm := 0x2A }) live;
     (t.me.thread 0).st = .parked ∧ (t.me.thread 0).pc = 12 ∧ t.me.records.map (fun r => (r.fpc, r.ppc, r.mask)) = [(0, 12, -1)]) := by decide

/-- R135: MOVE gives the row of its source, and the source becomes unmapped; SWAPN exchanges two names. -/
theorem test_move : (let t := after (.move { a0 with dst := .name 9, sa := .name 0 }) live; t.me.mapOf 9 = some 0 ∧ t.me.mapOf 0 = none) := by decide

theorem test_swapn : (let t := after (.swapn { a0 with dst := .name 4, sa := .name 5 }) live; t.me.mapOf 4 = some 5 ∧ t.me.mapOf 5 = some 4) := by decide

/-- R255: a load of 4 bytes reads its bytes little-endian, each thread at its own address. -/
theorem test_load :
    (let s := { liveM with mem := sparseWrite liveM.mem 8 [0x78, 0x56, 0x34, 0x12] };
     let t := after (.ld { loadM with ty := .n32 }) s;
     t.me.inflight.flatMap (·.writes) |>.any (fun p => p.2 == 0x12345678)) = true := by decide

end Sys2Proof.Tests
end

section
/-!
The scope family (00): the debugger's registers and the monitors, and the state after reset. First how the tables of the state that are
keyed by a number or a name read after a change of one entry; then the two statements.
-/
namespace Sys2Proof.Scope
open Sys2Proof Sys2Proof.Machine Sys2Proof.Laws

/-! ### Tables read by key -/

/-- The entry of a key after one key's entry is changed in place, or put last, from a default, when the table has none. -/
theorem find?_upsert (l : List α) (key : α → κ) [DecidableEq κ] (k k' : κ) (g : α → α) (d : α)
    (hg : ∀ a, key a = k → key (g a) = k) (hd : key d = k) :
    (if l.any (fun a => key a == k) then l.map (fun a => if key a == k then g a else a) else l ++ [g d]).find? (fun a => key a == k')
      = if k' = k then some (g ((l.find? (fun a => key a == k)).getD d)) else l.find? (fun a => key a == k') := by
  by_cases hany : l.any (fun a => key a == k) = true
  · rw [if_pos hany, find?_map_upd l key k k' g hg]
    obtain ⟨a, ha⟩ := Option.isSome_iff_exists.1 (List.find?_isSome.2 (List.any_eq_true.1 hany))
    by_cases hk : k' = k
    · subst hk; simp [ha]
    · simp [hk]
  · rw [if_neg hany, List.find?_append]
    have hnone : l.find? (fun a => key a == k) = none := by simpa using hany
    by_cases hk : k' = k
    · subst hk; simp [hnone, hg d hd]
    · simp [hk, hg d hd, Ne.symm hk]

/-- What a test finds after the entries that pass it are replaced by one that does. -/
theorem find?_replace_self (p : α → Bool) (l : List α) (m : α) (hm : p m = true) :
    (l.filter (fun a => !p a) ++ [m]).find? p = some m := by
  have hnone : (l.filter (fun a => !p a)).find? p = none := by simp
  rw [List.find?_append, hnone, Option.none_or, List.find?_cons_of_pos hm]

/-- What a test finds after the entries that pass another test are replaced by one, where no entry passes both. -/
theorem find?_replace_of_disjoint (p q : α → Bool) (l : List α) (m : α) (hpq : ∀ a, p a = true → q a = false) (hm : p m = true) :
    (l.filter (fun a => !p a) ++ [m]).find? q = l.find? q := by
  have hq : ∀ a, (!p a && q a) = q a := fun a => by
    cases hp : p a
    · rfl
    · simp [hpq a hp]
  have hm' : q m = false := hpq m hm
  simp [List.find?_append, List.find?_filter, hq, hm']

/-- The record of a number below n in a table that lists one for each. -/
theorem find?_map_range (f : Nat → α) (key : α → Nat) (hf : ∀ i, key (f i) = i) {n e : Nat} (he : e < n) :
    ((List.range n).map f).find? (fun a => key a == e) = some (f e) := by
  have hfind : (List.range n).find? (fun i => i == e) = some e :=
    List.find?_range_eq_some.2 ⟨by simp, by simpa using he, fun j hj => by simpa using Nat.ne_of_lt hj⟩
  have htest : (fun a => key a == e) ∘ f = fun i => i == e := funext fun i => congrArg (· == e) (hf i)
  rw [List.find?_map, htest, hfind, Option.map_some]

/-! ### Cores and their comparators (R382) -/

@[simp] theorem core_id (s : State) (c : CoreId) : (s.core c).id = c := by
  unfold State.core
  cases h : s.cores.find? (fun x => x.id == c) with
  | none => rfl
  | some x => simpa using List.find?_some h

theorem updCore_frame (s : State) (c : CoreId) (g : CoreSt → CoreSt) :
    s.updCore c g = { s with cores := (s.updCore c g).cores } := by
  unfold State.updCore; split <;> rfl

/-- A core after a change of a core. -/
theorem core_updCore (s : State) (c d : CoreId) (g : CoreSt → CoreSt) (hg : ∀ x, x.id = c → (g x).id = c) :
    (s.updCore c g).core d = if d = c then g (s.core c) else s.core d := by
  have hcores : (s.updCore c g).cores
      = if s.cores.any (fun y => y.id == c) then s.cores.map (fun y => if y.id == c then g y else y) else s.cores ++ [g { id := c }] := by
    unfold State.updCore; split <;> rfl
  unfold State.core
  rw [hcores, find?_upsert s.cores (·.id) c d g { id := c } hg rfl]
  by_cases hd : d = c <;> simp [hd]

section comparator
variable {s : State} {c : CoreId} {k : Nat} (g : Comparator → Comparator) (hdie : c.die < 6) (hcore : c.core < 48) (hk : k < 8)
include hdie hcore hk

theorem updCmp_of_exists :
    s.updCmp c k g = s.updCore c (fun x => { x with cmps := tweakNth {} x.cmps k g }) := by
  simp [State.updCmp, hdie, hcore, hk]

theorem updCmp_frame : s.updCmp c k g = { s with cores := (s.updCmp c k g).cores } := by
  rw [updCmp_of_exists g hdie hcore hk, ← updCore_frame]

/-- A core after a change of a comparator. -/
theorem core_updCmp (d : CoreId) :
    (s.updCmp c k g).core d = if d = c then { s.core c with cmps := tweakNth {} (s.core c).cmps k g } else s.core d := by
  rw [updCmp_of_exists g hdie hcore hk]
  exact core_updCore s c d _ (fun _ h => h)

/-- The comparators of a core after a change of one. -/
theorem cmp_updCmp (j : Nat) :
    nth ((s.updCmp c k g).core c).cmps j {} = if j = k then g (nth (s.core c).cmps k {}) else nth (s.core c).cmps j {} := by
  rw [core_updCmp g hdie hcore hk, if_pos rfl]
  exact nth_tweakNth _ _ _ _ _

/-- A debugger's write changes one comparator of one core and nothing else. -/
theorem updCmp_changes_one_comparator :
    s.updCmp c k g = { s with cores := (s.updCmp c k g).cores } ∧ (∀ d, d ≠ c → (s.updCmp c k g).core d = s.core d)
    ∧ nth ((s.updCmp c k g).core c).cmps k {} = g (nth (s.core c).cmps k {})
    ∧ ∀ j, j ≠ k → nth ((s.updCmp c k g).core c).cmps j {} = nth (s.core c).cmps j {} :=
  ⟨updCmp_frame g hdie hcore hk, fun d hd => by rw [core_updCmp g hdie hcore hk, if_neg hd],
    by rw [cmp_updCmp g hdie hcore hk, if_pos rfl], fun j hj => by rw [cmp_updCmp g hdie hcore hk, if_neg hj]⟩

end comparator

/-! ### Dies -/

/-- A die of the module after its change. -/
theorem die_updDie_self (s : State) {d : Nat} (g : DieSt → DieSt) (hg : ∀ x, x.no = d → (g x).no = d) (hd : ∃ y, y ∈ s.dies ∧ y.no = d) :
    (s.updDie d g).die d = g (s.die d) := by
  obtain ⟨y, hy, hno⟩ := hd
  obtain ⟨x, hx⟩ : ∃ x, s.dies.find? (fun x => x.no == d) = some x :=
    Option.isSome_iff_exists.1 (List.find?_isSome.2 ⟨y, hy, by simpa using hno⟩)
  have hfind := find?_map_upd s.dies (·.no) d d g hg
  rw [if_pos rfl, hx] at hfind
  rw [State.die, State.updDie, State.die, hx, hfind]
  rfl

/-- The dies of a module that lists one of each number. -/
theorem die_of_dies_range {s : State} {f : Nat → DieSt} (hs : s.dies = (List.range 6).map f) (hf : ∀ i, (f i).no = i) {e : Nat} (he : e < 6) :
    s.die e = f e := by
  rw [State.die, hs, find?_map_range f (·.no) hf he, Option.getD_some]

/-! ### Monitors (R423) -/

/-- The test by which a monitor is found. -/
def isMonitor (d k : Nat) (m : Monitor) : Bool := m.die == d && m.k == k

theorem isMonitor_iff {d k : Nat} {m : Monitor} : isMonitor d k m = true ↔ m.die = d ∧ m.k = k := by simp [isMonitor]

theorem monitor_eq_find (s : State) (d k : Nat) :
    s.monitor d k = (s.monitors.find? (isMonitor d k)).getD { die := d, k := k } := rfl

theorem setMonitor_monitors (s : State) (m : Monitor) :
    (s.setMonitor m).monitors = s.monitors.filter (fun a => !isMonitor m.die m.k a) ++ [m] := rfl

theorem monitor_isMonitor (s : State) (d k : Nat) : isMonitor d k (s.monitor d k) = true := by
  rw [monitor_eq_find]
  cases h : s.monitors.find? (isMonitor d k) with
  | none => simp [isMonitor]
  | some m => exact List.find?_some h

@[simp] theorem monitor_die (s : State) (d k : Nat) : (s.monitor d k).die = d := (isMonitor_iff.1 (monitor_isMonitor s d k)).1

@[simp] theorem monitor_k (s : State) (d k : Nat) : (s.monitor d k).k = k := (isMonitor_iff.1 (monitor_isMonitor s d k)).2

section store
variable (s : State) {m : Monitor} {d k : Nat} (hd : m.die = d) (hk : m.k = k)
include hd hk

/-- The monitor that was stored. -/
theorem monitor_setMonitor_self : (s.setMonitor m).monitor d k = m := by
  subst hd hk
  rw [monitor_eq_find, setMonitor_monitors, find?_replace_self _ _ _ (isMonitor_iff.2 ⟨rfl, rfl⟩), Option.getD_some]

/-- Any other monitor. -/
theorem monitor_setMonitor_ne {e j : Nat} (h : e ≠ d ∨ j ≠ k) : (s.setMonitor m).monitor e j = s.monitor e j := by
  subst hd hk
  have hdisjoint : ∀ a, isMonitor m.die m.k a = true → isMonitor e j a = false := fun a ha => by
    obtain ⟨hdie, hk⟩ := isMonitor_iff.1 ha
    rw [← Bool.not_eq_true, isMonitor_iff, hdie, hk]
    omega
  rw [monitor_eq_find, setMonitor_monitors, find?_replace_of_disjoint _ _ _ _ hdisjoint (isMonitor_iff.2 ⟨rfl, rfl⟩), ← monitor_eq_find]

end store

theorem monitorExists_of_lt {d k : Nat} (hd : d < 6) (hk : k < 56) : monitorExists d k = true := decide_eq_true ⟨hd, hk⟩

/-- A monitor with PEAK and EVENTS cleared. -/
def clearedMonitor (s : State) (d k : Nat) : Monitor := { s.monitor d k with events := 0, peak := 0 }

theorem clearedMonitor_die (s : State) (d k : Nat) : (clearedMonitor s d k).die = d := monitor_die s d k

theorem clearedMonitor_k (s : State) (d k : Nat) : (clearedMonitor s d k).k = k := monitor_k s d k

theorem monitorClear_of_exists (s : State) {d k : Nat} (hd : d < 6) (hk : k < 56) :
    exec (.monitorClear d k) s = .next (s.setMonitor (clearedMonitor s d k)) := if_pos (monitorExists_of_lt hd hk)

/-- MONITOR_CLEAR clears PEAK and EVENTS of one monitor and changes nothing else. -/
theorem monitorClear_clears (s : State) {d k : Nat} (hd : d < 6) (hk : k < 56) :
    ∃ t, exec (.monitorClear d k) s = .next t ∧ t = { s with monitors := t.monitors }
      ∧ (∀ e j, (e ≠ d ∨ j ≠ k) → t.monitor e j = s.monitor e j)
      ∧ t.monitor d k = { s.monitor d k with die := d, k := k, events := 0, peak := 0 } := by
  have hdie := clearedMonitor_die s d k
  have hnum := clearedMonitor_k s d k
  refine ⟨_, monitorClear_of_exists s hd hk, rfl, fun e j h => monitor_setMonitor_ne s hdie hnum h, ?_⟩
  rw [monitor_setMonitor_self s hdie hnum]
  simp [clearedMonitor]

/-! ### What a monitor reads (R423) -/

/-- A temperature sensor reads above 100 °C, in 1/16 °C. -/
def runsHot (k : Nat) (v : BitVec 16) : Prop := k < 32 ∧ 1600 < v.toInt

/-- A droop monitor reads below 92 % of the voltage that its die is set to. -/
def runsLow (s : State) (d k : Nat) (v : BitVec 16) : Prop := 32 ≤ k ∧ k < 48 ∧ v.toNat * 100 < 92 * (s.die d).volts

theorem not_runsLow_of_runsHot {s : State} {d k : Nat} {v : BitVec 16} (h : runsHot k v) : ¬ runsLow s d k v :=
  fun hlow => absurd h.1 (Nat.not_lt.2 hlow.1)

/-- A monitor once it has read a value and counted n events. -/
def readingOf (s : State) (d k : Nat) (v n : BitVec 16) : Monitor := { (s.monitor d k).reads v with events := n }

theorem readingOf_peak (s : State) (d k : Nat) (v n : BitVec 16) :
    (readingOf s d k v n).peak = if (if k < 32 then (s.monitor d k).peak.toInt < v.toInt else (s.monitor d k).peak.toNat < v.toNat)
      then v else (s.monitor d k).peak := by
  by_cases h : k < 32 <;> simp [readingOf, Monitor.reads, h]

@[simp] theorem readingOf_die (s : State) (d k : Nat) (v n : BitVec 16) : (readingOf s d k v n).die = d := monitor_die s d k

@[simp] theorem readingOf_k (s : State) (d k : Nat) (v n : BitVec 16) : (readingOf s d k v n).k = k := monitor_k s d k

theorem exec_thermalStep (d k : Nat) (v : BitVec 16) (s : State) : exec (.thermalStep d k v) s = execThermalStep d k v s := rfl

section thermalStep
variable {s : State} {d k : Nat} {v : BitVec 16} (hd : d < 6) (hk : k < 56)
include hd hk

theorem thermalStep_of_runsHot (h : runsHot k v) :
    exec (.thermalStep d k v) s = .next ((s.setMonitor (readingOf s d k v ((s.monitor d k).events + 1))).updDie d
      (fun x => { x with clkSteps := x.clkSteps + 1 })) := by
  obtain ⟨hk32, hv⟩ := h
  simp [exec_thermalStep, execThermalStep, monitorExists_of_lt hd hk, hotter, hk32, hv, readingOf, Monitor.reads]

theorem thermalStep_of_runsLow (h : runsLow s d k v) :
    exec (.thermalStep d k v) s = .next (s.setMonitor (readingOf s d k v ((s.monitor d k).events + 1))) := by
  obtain ⟨hk32, hk48, hv⟩ := h
  simp [exec_thermalStep, execThermalStep, monitorExists_of_lt hd hk, Nat.not_lt.2 hk32, hk32, hk48, droops, hv, readingOf, Monitor.reads]

theorem thermalStep_of_within (hhot : ¬ runsHot k v) (hlow : ¬ runsLow s d k v) :
    exec (.thermalStep d k v) s = .next (s.setMonitor (readingOf s d k v (s.monitor d k).events)) := by
  have hh : (decide (k < 32) && hotter v 100) = false := by simpa [runsHot, hotter] using hhot
  have hl : (decide (32 ≤ k ∧ k < 48) && droops v (s.die d).volts) = false := by simpa [runsLow, droops] using hlow
  simp only [exec_thermalStep, execThermalStep, monitorExists_of_lt hd hk, hh, hl, Bool.not_true, Bool.false_eq_true, if_false]
  rfl

/-- A step stores one reading: it is counted when the sensor runs hot, which steps the die's clock down, or the voltage low. -/
theorem thermalStep_stores_reading :
    ∃ t n, exec (.thermalStep d k v) s = .next t ∧ t = { s with monitors := t.monitors, dies := t.dies }
      ∧ t.monitors = (s.setMonitor (readingOf s d k v n)).monitors
      ∧ (runsHot k v → n = (s.monitor d k).events + 1
          ∧ ((∃ y, y ∈ s.dies ∧ y.no = d) → t.die d = { s.die d with clkSteps := (s.die d).clkSteps + 1 }))
      ∧ (runsLow s d k v → n = (s.monitor d k).events + 1 ∧ t.dies = s.dies)
      ∧ (¬ runsHot k v → ¬ runsLow s d k v → n = (s.monitor d k).events ∧ t.dies = s.dies) := by
  by_cases hhot : runsHot k v
  · exact ⟨_, _, thermalStep_of_runsHot hd hk hhot, rfl, rfl, fun _ => ⟨rfl, die_updDie_self (s.setMonitor _) _ fun _ h => h⟩,
      fun hlow => absurd hlow (not_runsLow_of_runsHot hhot), fun h => absurd hhot h⟩
  by_cases hlow : runsLow s d k v
  · exact ⟨_, _, thermalStep_of_runsLow hd hk hlow, rfl, rfl, fun h => absurd h hhot, fun _ => ⟨rfl, rfl⟩, fun _ h => absurd hlow h⟩
  · exact ⟨_, _, thermalStep_of_within hd hk hhot hlow, rfl, rfl, fun h => absurd h hhot, fun h => absurd h hlow, fun _ _ => ⟨rfl, rfl⟩⟩

end thermalStep

/-- The monitors after a reading is stored: the one that has read, and the others. -/
theorem monitor_of_reading_stored {s t : State} {d k : Nat} {v n : BitVec 16}
    (ht : t.monitors = (s.setMonitor (readingOf s d k v n)).monitors) :
    t.monitor d k = readingOf s d k v n ∧ ∀ e j, (e ≠ d ∨ j ≠ k) → t.monitor e j = s.monitor e j := by
  have hmon : ∀ e j, t.monitor e j = (s.setMonitor (readingOf s d k v n)).monitor e j := fun e j => by
    rw [monitor_eq_find, ht, ← monitor_eq_find]
  exact ⟨by rw [hmon, monitor_setMonitor_self s (readingOf_die ..) (readingOf_k ..)],
    fun e j h => by rw [hmon, monitor_setMonitor_ne s (readingOf_die ..) (readingOf_k ..) h]⟩

/-! ### Power-down (R423) -/

/-- The dies after a power-down: held for their boot, with the firmware that flash holds. -/
theorem die_powerCycle (s : State) {e : Nat} (he : e < 6) :
    (s.powerCycle).die e = { no := e, fw := (s.die e).fw, resetAt := s.clk } := by
  have hdies : s.powerCycle.dies = (List.range 6).map (fun d => { no := d, fw := (s.die d).fw, resetAt := s.clk }) := by
    simp [State.powerCycle, State.reset]
  exact die_of_dies_range hdies (fun _ => rfl) he

theorem exec_thermalShutdown (d k : Nat) (v : BitVec 16) (s : State) :
    exec (.thermalShutdown d k v) s = execThermalShutdown d k v s := rfl

theorem thermalShutdown_of_above {s : State} {d k : Nat} {v : BitVec 16} (hd : d < 6) (hk : k < 32) (hv : 1840 < v.toInt) :
    exec (.thermalShutdown d k v) s = .next (s.post (.thermal d)).powerCycle := by
  simp [exec_thermalShutdown, execThermalShutdown, hotter, hd, hk, hv]

theorem thermalShutdown_of_not_above {s : State} {d k : Nat} {v : BitVec 16} (h : ¬ (k < 32 ∧ 1840 < v.toInt)) :
    exec (.thermalShutdown d k v) s = .next s := by
  have htest : (decide (d < 6 ∧ k < 32) && hotter v 115) = false := by
    rw [← Bool.not_eq_true, Bool.and_eq_true]
    rintro ⟨hdk, hv⟩
    exact h ⟨(of_decide_eq_true hdk).2, of_decide_eq_true hv⟩
  simp only [exec_thermalShutdown, execThermalShutdown, htest, Bool.false_eq_true, if_false]

/-! ### Registers (R4, R28) -/

theorem bitAt_clear_low_byte (v : Word) (i : Nat) : bitAt (v &&& ~~~(0xFF : Word)) i = (bitAt v i && decide (8 ≤ i)) := by
  have hff : (0xFF : Word) = BitVec.ofNat 64 (2 ^ 8 - 1) := rfl
  by_cases hi : i < 64
  · simp only [bitAt, BitVec.getLsbD_and, BitVec.getLsbD_not, hff, BitVec.getLsbD_ofNat, Nat.testBit_two_pow_sub_one, hi, decide_true,
      Bool.true_and]
    congr 1
    rw [← decide_not]
    exact decide_eq_decide.2 Nat.not_lt
  · simp [bitAt, BitVec.getLsbD_of_ge _ i (Nat.not_lt.1 hi)]

theorem queueExists_mgmt_iff {s : State} {p : Nat} : s.queueExists (.mgmt p) = true ↔ partDies s.mode p ≠ [] := by
  simp [State.queueExists]

@[simp] theorem q_ref (s : State) (r : QueueRef) : (s.q r).ref = r := by
  unfold State.q State.queue?
  cases h : s.queues.find? (fun q => q.ref == r) with
  | none => rfl
  | some x => simpa using List.find?_some h

theorem setQ_frame (s : State) (q : Queue) : s.setQ q = { s with queues := (s.setQ q).queues } := by
  unfold State.setQ; split <;> rfl

/-- A queue after a queue is stored. -/
theorem queue?_setQ (s : State) (q : Queue) (r : QueueRef) : (s.setQ q).queue? r = if r = q.ref then some q else s.queue? r := by
  have hqueues : (s.setQ q).queues
      = if s.queues.any (fun x => x.ref == q.ref) then s.queues.map (fun x => if x.ref == q.ref then q else x) else s.queues ++ [q] := by
    unfold State.setQ; split <;> rfl
  rw [State.queue?, hqueues]
  exact find?_upsert s.queues (·.ref) q.ref r (fun _ => q) q (fun _ _ => rfl) rfl

theorem exec_registerWrite (a : Nat) (v : Word) (s : State) : exec (.registerWrite a v) s = execRegisterWrite a v s := rfl

theorem registerWrite_of_ring {s : State} {a p : Nat} {v : Word} (hp : p < 6) (ha : a = 0x1000 + 0x40 * p) (hpart : partDies s.mode p ≠ []) :
    exec (.registerWrite a v) s = .next (s.setQ { s.q (.mgmt p) with ring := v &&& ~~~(0xFF : Word) }) := by
  have hfind : (List.range 6).find? (fun p => a == 0x1000 + 0x40 * p && s.queueExists (.mgmt p)) = some p :=
    List.find?_range_eq_some.2 ⟨by simp [ha, queueExists_mgmt_iff.2 hpart], List.mem_range.2 hp, fun j hj => by
      have hne : a ≠ 0x1000 + 0x40 * j := by omega
      simp [hne]⟩
  simp only [exec_registerWrite, execRegisterWrite, hfind]

theorem registerWrite_of_no_ring {s : State} {a : Nat} {v : Word} (h : ∀ p, p < 6 → a = 0x1000 + 0x40 * p → partDies s.mode p = []) :
    exec (.registerWrite a v) s = .next s := by
  have hfind : (List.range 6).find? (fun p => a == 0x1000 + 0x40 * p && s.queueExists (.mgmt p)) = none := by
    refine List.find?_eq_none.2 fun p hp htest => ?_
    rw [Bool.and_eq_true, beq_iff_eq, queueExists_mgmt_iff] at htest
    exact htest.2 (h p (List.mem_range.1 hp) htest.1)
  simp only [exec_registerWrite, execRegisterWrite, hfind]

/-! ### The statements -/

/-- Settles O51: each write or reading changes the one entry of its table that the rule names. -/
theorem debugAndMonitors : Obligations.DebugAndMonitors := by
  unfold Obligations.DebugAndMonitors
  refine ⟨fun s c k v hdie hcore hk => ?comparators, fun s d k v hd hk => ⟨?clear, ?step, ?shutdown, ?cool⟩,
    fun s a v => ⟨fun p hp ha hpart => ?ring, registerWrite_of_no_ring⟩⟩
  case comparators =>
    exact ⟨⟨_, rfl, updCmp_changes_one_comparator _ hdie hcore hk⟩, ⟨_, rfl, updCmp_changes_one_comparator _ hdie hcore hk⟩⟩
  case clear => exact monitorClear_clears s hd hk
  case step =>
    obtain ⟨t, n, hexec, hframe, hmonitors, hhot, hlow, hwithin⟩ := thermalStep_stores_reading (s := s) (v := v) hd hk
    obtain ⟨hread, hothers⟩ := monitor_of_reading_stored hmonitors
    exact ⟨t, hexec, hframe, hothers, by rw [hread]; rfl, by rw [hread, readingOf_peak], by rwa [hread], by rwa [hread], by rwa [hread]⟩
  case shutdown =>
    intro hk32 hv
    exact ⟨_, thermalShutdown_of_above hd hk32 hv, rfl, rfl, rfl, rfl, rfl, rfl, rfl, rfl, rfl, rfl, rfl, rfl,
      fun e he => by rw [die_powerCycle _ he]; exact ⟨rfl, rfl⟩⟩
  case cool => exact thermalShutdown_of_not_above
  case ring =>
    exact ⟨_, _, registerWrite_of_ring hp ha hpart, setQ_frame _ _, by rw [queue?_setQ, if_pos (q_ref s (.mgmt p)).symm], rfl,
      bitAt_clear_low_byte v⟩

/-- No byte of the memory after reset is listed. -/
theorem reset_byteAt (a : Nat) : State.reset.byteAt a = 0 := rfl

theorem reset_q (r : QueueRef) : State.reset.q r = { ref := r } := rfl

theorem reset_core (c : CoreId) : State.reset.core c = { id := c } := rfl

theorem reset_dailiesOf (c : Nat) : State.reset.dailiesOf c = { ctl := c } := rfl

theorem reset_monitor (d k : Nat) : State.reset.monitor d k = { die := d, k := k } := rfl

theorem reset_die {d : Nat} (hd : d < 6) : State.reset.die d = { no := d } := 
  die_of_dies_range (f := fun d => { no := d }) rfl (fun _ => rfl) hd

theorem reset_scrubRecord (d : Nat) : State.reset.scrubRecord d = none := by
  have hbytes : State.reset.bytesAt (scrubAt d) 8 = List.replicate 8 0 := rfl
  simp only [State.scrubRecord, hbytes]
  rfl

/-- A bank that lists the value it holds beyond its list holds it everywhere. -/
theorem nth_replicate_self (n i : Nat) (x : α) : nth (List.replicate n x) i x = x := by
  by_cases h : i < n <;> simp [nth, h]

/-- Settles O60: what each table of the state after reset gives is the entry of a table that lists nothing. -/
theorem resetState : Obligations.ResetState := by
  unfold Obligations.ResetState
  refine ⟨reset_canon, reset_byteAt, rfl, rfl, rfl, rfl, rfl, rfl, rfl, rfl, fun r => ?queues, fun c => ?cores, fun c => ?sketches,
    fun d k => ?monitors, fun d hd => ?dies, rfl, rfl⟩
  case queues => rw [reset_q]; exact ⟨rfl, rfl, rfl, rfl, rfl⟩
  case cores => rw [reset_core]; exact ⟨rfl, fun k => congrArg Comparator.en (nth_replicate_self 8 k _)⟩
  case sketches => rw [reset_dailiesOf]; exact ⟨rfl, rfl, rfl⟩
  case monitors => rw [reset_monitor]; exact ⟨rfl, rfl⟩
  case dies => rw [reset_die hd]; exact ⟨rfl, rfl, rfl, rfl, rfl, rfl, reset_scrubRecord d⟩

end Sys2Proof.Scope
end
